-- ==== Sys2Proof/Word.lean ====
section
/-! DEFINITION. The plain value types of the T640 and their plainest arithmetic: bytes, texts, ticks. -/

namespace Sys2Proof

/-- A byte of a frame or of an image (12.1). -/
abbrev Byte := BitVec 8

/-- A text: character codes, one entry a character (R188: the character set is 32..126). -/
abbrev Text := List Nat

/-- A value of the running tick, counted in tenths of a second (R2). -/
abbrev Tick := Nat

/-- The codes of a fixed text. -/
def txt (s : String) : Text := s.toList.map Char.toNat

/-- "A value clamped to a..b" (Conventions, Numbers and arithmetic). -/
def clampNat (a b x : Nat) : Nat := if x < a then a else if b < x then b else x

/-- ceil(a / b) on whole numbers. -/
def ceilDiv (a b : Nat) : Nat := (a + b - 1) / b

/-- The distance |a − b| of two whole numbers. -/
def natDist (a b : Nat) : Nat := (a - b) + (b - a)

/-- round_half_up(q × p / 100), which is floor((q × p + 50) / 100) (R127). -/
def percentOf (q p : Nat) : Nat := (q * p + 50) / 100

end Sys2Proof
end

