-- ==== Sys2Proof/Syntax.lean ====
section
/-! DEFINITION. The commands of the T640: one constructor of Instr per row of spec/opcode_table.json, and the operand
types they carry (host command parameters, halt line frame fields, pins). -/

namespace Sys2Proof

/-- Directions of travel (Identities and enumerations). -/
inductive Direction where
  | up | down
  deriving DecidableEq, Repr

/-- The opposite direction: UP and DOWN exchanged. -/
def Direction.opposite : Direction → Direction
  | .up => .down
  | .down => .up

/-- Treadle pairs A and B (4.1). -/
inductive PairId where
  | a | b
  deriving DecidableEq, Repr

/-- Head 1 lies farther from the halt, head 2 nearer (4.1). -/
inductive HeadId where
  | one | two
  deriving DecidableEq, Repr

/-- The two table kinds of the Edition Store (R102). -/
inductive TableKind where
  | timetable | fare
  deriving DecidableEq, Repr

/-- The space classes. -/
inductive SpaceClass where
  | bike | chair
  deriving DecidableEq, Repr

/-- Whether a train stops at the halt (R15). -/
inductive CallKind where
  | stop | pass
  deriving DecidableEq, Repr

/-- The bulletin kinds (R168). -/
inductive BulletinKind where
  | info | suspension
  deriving DecidableEq, Repr

/-- The result SALE_PRINTED carries (R140). -/
inductive PrintResult where
  | ok | failed
  deriving DecidableEq, Repr

/-- Clock grades 0..3 (R5). -/
inductive ClockGrade where
  | unset | adopted | hostAged | host
  deriving DecidableEq, Repr

/-- The number of a grade (R5). -/
def ClockGrade.code : ClockGrade → Nat
  | .unset => 0
  | .adopted => 1
  | .hostAged => 2
  | .host => 3

/-- A measured speed in cm/s, or SLOW (R75). -/
inductive Speed where
  | cms (v : Nat)
  | slow
  deriving DecidableEq, Repr

/-- A calendar date. The zero date of R188 is year 2000, month 0, day 0. -/
structure Date where
  year : Nat
  month : Nat
  day : Nat
  deriving DecidableEq, Repr

/-- A clock time (R6). -/
structure ClockTime where
  hours : Nat
  minutes : Nat
  seconds : Nat
  deriving DecidableEq, Repr

/-- A service date and service second (R168). -/
structure Instant where
  date : Date
  second : Nat
  deriving DecidableEq, Repr

/-- The six strap pins: four give the station number 0..15, two the roles (R184). -/
structure Straps where
  station : Nat
  sells : Bool
  shows : Bool
  deriving DecidableEq, Repr

/-- A treadle pair's configuration (R62): G in cm, X in m, Bk in s. -/
structure PairConfig where
  enabled : Bool
  direction : Direction
  spacing : Nat
  distance : Nat
  braking : Nat
  deriving DecidableEq, Repr

/-- The parameters of CONFIGURE, as sent (R185). -/
structure ConfigParams where
  haltCode : Nat
  rolloverMinute : Nat
  minDwell : Nat
  minSpeed : Nat
  pairA : PairConfig
  pairB : PairConfig
  rows : Nat
  columns : Nat
  platformFilter : Nat
  nightStart : Nat
  nightEnd : Nat
  nightLevel : Nat
  dayLevel : Nat
  coinStep : Nat
  resume : Nat
  deriving DecidableEq, Repr

/-- The four watched directions (R20); also the coverage bits of an ANNOUNCE. -/
structure Coverage where
  arrUp : Bool
  arrDown : Bool
  depUp : Bool
  depDown : Bool
  deriving DecidableEq, Repr

/-- Origin station and frame sequence of a halt line frame (R79). -/
structure FrameHead where
  origin : Nat
  seq : Nat
  deriving DecidableEq, Repr

/-- The payload of an ANNOUNCE (R98, R189). -/
structure AnnounceFields where
  sells : Bool
  shows : Bool
  haltCode : Nat
  timetable : Nat
  fare : Nat
  date : Date
  second : Nat
  tenths : Nat
  grade : ClockGrade
  coverage : Coverage
  fresh : Bool
  deriving DecidableEq, Repr

/-- The fields of a running report, in a RUNNING frame or in REPORT_RUNNING (R38). -/
structure RunningFields where
  service : Nat
  date : Date
  point : Nat
  lateness : Int
  observed : Nat
  cancelled : Bool
  deriving DecidableEq, Repr

/-- The payload of an APPROACH frame (R75). -/
structure ApproachFields where
  direction : Direction
  detect : Nat
  speed : Speed
  etaStop : Nat
  etaPass : Nat
  pair : PairId
  deriving DecidableEq, Repr

/-- The payload of a DEPART frame (R75). -/
structure DepartFields where
  direction : Direction
  detect : Nat
  speed : Speed
  pair : PairId
  deriving DecidableEq, Repr

/-- The payload of CLAIM, TAKEN and RELEASE frames; `seq` is the claim's origin sequence (R79, R189). -/
structure ClaimFields where
  service : Nat
  date : Date
  cls : SpaceClass
  seq : Nat
  deriving DecidableEq, Repr

/-- The payload of a SEG_REQ (R111). -/
structure SegReqFields where
  addressee : Nat
  kind : TableKind
  edition : Nat
  index : Nat
  deriving DecidableEq, Repr

/-- The payload of a SEGMENT (R114). -/
structure SegmentFields where
  addressee : Nat
  kind : TableKind
  edition : Nat
  index : Nat
  gone : Bool
  data : List Byte
  deriving DecidableEq, Repr

/-- The payload of a BULLETIN (R168, R189). -/
structure BulletinFields where
  origin : Nat
  number : Nat
  kind : BulletinKind
  withdrawn : Bool
  validFrom : Instant
  validUntil : Instant
  text : Text
  deriving DecidableEq, Repr

/-- A quote request (R126); `call` is the service number a space request names (R134). -/
structure QuoteRequest where
  product : Nat
  destination : Nat
  concession : Nat
  passengers : Nat
  call : Option Nat
  deriving DecidableEq, Repr

/-- The commands: one constructor per row of spec/opcode_table.json. A host command carries its tag (R172) and its
parameters; numbers that the owning block range-checks stay plain numbers. A received frame carries its head and its
payload. A timer expiry names the timer. -/
inductive Instr where
  | powerOnReset (straps : Straps)
  | pinReset (straps : Straps)
  | initialisationComplete
  | unknownCommandFrame (bytes : List Byte)
  | configure (tag : Nat) (params : ConfigParams)
  | start (tag : Nat)
  | reset (tag : Nat) (straps : Straps)
  | getStatus (tag : Nat)
  | setTime (tag : Nat) (date : Date) (time : ClockTime)
  | overlaySet (tag : Nat) (ids : List Nat)
  | overlayRestore (tag : Nat)
  | overlayFreeze (tag : Nat)
  | overlayRead (tag : Nat)
  | loadBegin (tag : Nat) (kind : Nat) (length : Nat)
  | loadSegment (tag : Nat) (kind : Nat) (offset : Nat) (data : List Byte)
  | loadAbandon (tag : Nat) (kind : Nat)
  | reportRunning (tag : Nat) (report : RunningFields)
  | postBulletin (tag : Nat) (kind : Nat) (validFrom validUntil : Instant) (text : Text)
  | withdrawBulletin (tag : Nat) (origin : Nat) (number : Nat)
  | readCalls (tag : Nat) (first : Nat)
  | readCall (tag : Nat) (index : Nat)
  | readPeers (tag : Nat)
  | readClaims (tag : Nat) (first : Nat)
  | saleQuote (tag : Nat) (request : QuoteRequest)
  | saleAccept (tag : Nat)
  | saleCredit (tag : Nat) (amount : Nat)
  | saleHold (tag : Nat) (seconds : Nat)
  | saleCancel (tag : Nat)
  | salePrinted (tag : Nat) (result : PrintResult)
  | journalRead (tag : Nat) (skip : Nat)
  | journalRelease (tag : Nat) (count : Nat)
  | treadleRead (tag : Nat) (pair : Nat)
  | treadleEnable (tag : Nat) (pair : Nat)
  | lampTest (tag : Nat) (seconds : Nat)
  | brightness (tag : Nat) (level : Nat)
  | noticeRead (tag : Nat)
  | noticeMask (tag : Nat) (flags : List Bool)
  | noticeAck (tag : Nat) (kind : Nat) (count : Nat)
  | referenceClockTenth
  | clockGradeAgeing
  | reSendTimerExpiry
  | headInputChange (pair : PairId) (head : HeadId) (active : Bool)
  | pulse (pair : PairId) (head : HeadId) (count : Nat)
  | overflow (pair : PairId)
  | quietTimerExpiry (pair : PairId)
  | attemptStart
  | busyFailure
  | collision
  | backoffEnd
  | completion
  | malformedFrame (bytes : List Byte)
  | announceReceived (head : FrameHead) (fields : AnnounceFields)
  | runningReceived (head : FrameHead) (fields : RunningFields)
  | approachReceived (head : FrameHead) (fields : ApproachFields)
  | departReceived (head : FrameHead) (fields : DepartFields)
  | claimReceived (head : FrameHead) (fields : ClaimFields)
  | takenReceived (head : FrameHead) (fields : ClaimFields)
  | releaseReceived (head : FrameHead) (fields : ClaimFields)
  | segReqReceived (head : FrameHead) (fields : SegReqFields)
  | segmentReceived (head : FrameHead) (fields : SegmentFields)
  | bulletinReceived (head : FrameHead) (fields : BulletinFields)
  | peerSilenceTimerExpiry (station : Nat)
  | announceTimerExpiry
  | pullWaitTimerExpiry (kind : TableKind)
  | replyTimerExpiry (kind : TableKind)
  | quoteLifetimeExpiry
  | paymentTimerExpiry
  | claimLifetimeExpiry (origin : Nat) (seq : Nat)
  | rotationTimerExpiry
  | warningTimerExpiry (direction : Direction)
  | lampTestTimerExpiry
  | panelSendEnd
  | returnToInactive (pair : PairId) (head : HeadId)
  deriving DecidableEq, Repr

end Sys2Proof
end

