-- ==== Sys2Proof/Decode.lean ====
section
/-! DEFINITION. Reading a command from a table word. No row of spec/opcode_table.json gives bits: the T640 takes its
commands as frames, pins and events, whose bytes Machine/LineFrames.lean and Machine/CommandFrames.lean read. -/

namespace Sys2Proof

/-- The command a word spells by the table's bits; the table gives no row any bits, so no word spells one. -/
def decodeTableWord (_nbits _w : Nat) : Option Instr := none

end Sys2Proof
end

