-- ==== Sys2Proof/Config.lean ====
section
/-! DEFINITION. What an implementation fixes or leaves free: the capacities the manual states, and the free values
(constants without a body) that stand where the manual states no value. -/

namespace Sys2Proof.Config

/-- FREE VALUE (R84): the next value of the pseudo-random generator, by the seed (station number and running tick at
START) and the number of draws already made. The manual gives no generator; a draw from a range takes this value
modulo the size of the range. Log entry 3. -/
opaque rngValue (station seedTick drawn : Nat) : Nat

/-- FREE VALUE (R173): the tag that a result echoes when the command frame was cut short before its tag byte.
Log entry 4. -/
opaque missingTag : Nat

/-- FREE VALUE (R140, R188): whether a SALE_PRINTED result byte beyond the two listed values (ok, failed) is read as
ok. Log entry 5. -/
opaque printResultBeyond (code : Nat) : Bool

/-- The Call Table holds at most this many calls (R15). -/
def maxCalls : Nat := 192
/-- The transmit queue holds at most this many frames (R86). -/
def queueCapacity : Nat := 12
/-- A frame is abandoned at the failure of this attempt (R83). -/
def maxAttempts : Nat := 10
/-- The notice queue holds at most this many notices (R178). -/
def noticeCapacity : Nat := 16
/-- The journal holds at most this many records (R145). -/
def journalCapacity : Nat := 64
/-- The claim list holds at most this many claims (R147). -/
def claimCapacity : Nat := 24
/-- The bulletin list holds at most this many bulletins (R168). -/
def bulletinCapacity : Nat := 4
/-- The serial counter goes no higher (R144). -/
def maxSerial : Nat := 999999
/-- The running tick holds at 4,294,967,295.9 s (R2), in tenths. -/
def maxTick : Nat := 42949672959
/-- A segment index gets its first request and up to 3 retries (R112). -/
def maxTries : Nat := 4
/-- Bytes of a segment between stations (R103). -/
def segmentSize : Nat := 64

end Sys2Proof.Config
end

