-- ==== Sys2Proof/Machine/State.lean ====
section
/-! DEFINITION. The state of the T640, block by block as the chapters list it, as plain data; the outcomes a step may
have beside a next state; the state after reset. -/

namespace Sys2Proof.Machine

/-! ### Timers, host link results -/

/-- A running elapsed timer: the running tick at its start and its duration, both in tenths (R2). -/
structure Timer where
  start : Tick
  span : Tick
  deriving DecidableEq, Repr

/-- The host commands, in the order of R174 (which numbers their codes, R188). -/
inductive Command where
  | configure | start | reset | getStatus | setTime
  | overlaySet | overlayRestore | overlayFreeze | overlayRead
  | loadBegin | loadSegment | loadAbandon | reportRunning | postBulletin | withdrawBulletin
  | readCalls | readCall | readPeers | readClaims
  | saleQuote | saleAccept | saleCredit | saleHold | saleCancel | salePrinted
  | journalRead | journalRelease | treadleRead | treadleEnable
  | lampTest | brightness | noticeRead | noticeMask | noticeAck
  deriving DecidableEq, Repr

/-- The result statuses, in the order of the table of R173. -/
inductive Status where
  | ok | busy | refused | badCommand | badLength | badCrc | notStarted | alreadyStarted
  deriving DecidableEq, Repr

/-- Every reason name of the manual, in alphabetical order (R188): refusal reasons, the reasons of LOAD_REJECTED and
the close reasons of SALE_STATE. -/
inductive Reason where
  | alreadyConfigured | badAmount | badBulletin | badCount | badDestination | badDuration
  | badHalt | badHold | badIntegrity | badKind | badLevel | badPassengers
  | badRecord | badReport | badSignature | badSize | badStrap | badTime
  | callEnded | callGone | cannotAdd | empty | expired | frozen
  | hostCancel | inIssue | issued | journalFull | lineBusy | lineFault
  | notConfigured | notInTable | notIssuing | notNewer | notOffered | notOwn
  | notPaying | notSelling | notShowing | noCall | noFares | noLoad
  | noPair | noQuote | noRoom | noSale | noService | noSpace
  | noSpaceSale | noTime | outOfSequence | payTimeout | quoteExpired | saleBusy
  | serialsExhausted | staleAck | staleReport | tooMany | tooManyCalls | void
  | wrongDate | wrongHalt | wrongKind
  deriving DecidableEq, Repr

/-! ### Halt Clock (R1) -/

/-- The Halt Clock's fields (R1); the rollover minute is in Settings. Ticks are in tenths. -/
structure Clock where
  date : Date
  weekday : Nat
  second : Nat
  tenths : Nat
  grade : ClockGrade
  hostSetTick : Tick
  tick : Tick
  deriving DecidableEq, Repr

/-! ### Call Table (R15) -/

/-- One upstream point of a call (R15). -/
structure UpstreamPoint where
  code : Nat
  runTime : Nat
  allowance : Nat
  deriving DecidableEq, Repr

/-- A call entry of a timetable image (R108, R191). -/
structure CallEntry where
  service : Nat
  kind : CallKind
  platform : Nat
  direction : Direction
  destination : Nat
  arrival : Nat
  departure : Nat
  dayMask : Nat
  bike : Nat
  chair : Nat
  points : List UpstreamPoint
  deriving DecidableEq, Repr

/-- The states of a call (R15). -/
inductive CallState where
  | pending | reported | approaching | arrived | departed | cancelled | lapsed
  deriving DecidableEq, Repr

/-- What the present E_a was computed from (R15). -/
inductive EstimateSource where
  | schedule | report | approach
  deriving DecidableEq, Repr

/-- E_base, E_a, E_d in service seconds, and the creep (R15). -/
structure Estimates where
  base : Nat
  arr : Nat
  dep : Nat
  creep : Nat
  deriving DecidableEq, Repr

/-- The running report a call rests on (R15, R38). -/
structure BestReport where
  point : Nat
  lateness : Int
  observed : Nat
  origin : Nat
  cancelled : Bool
  deriving DecidableEq, Repr

/-- The approach observation matched to a call (R15). -/
structure ApproachRecord where
  detect : Nat
  speed : Speed
  eta : Nat
  pair : PairId
  origin : Nat
  deriving DecidableEq, Repr

/-- A call record (R15). Its call index is its place in the table. -/
structure Call where
  service : Nat
  kind : CallKind
  platform : Nat
  direction : Direction
  destination : Nat
  schedArr : Nat
  schedDep : Nat
  points : List UpstreamPoint
  bike : Nat
  chair : Nat
  state : CallState
  estimates : Option Estimates
  delayed : Bool
  source : EstimateSource
  report : Option BestReport
  approach : Option ApproachRecord
  sensed : Bool
  deriving DecidableEq, Repr

/-- The Call Table: its calls in index order, the build count, the service date it was built for, the watch view
(R20) and the re-send timer (R56). -/
structure CallTable where
  calls : List Call
  buildCount : Nat
  date : Date
  watch : Coverage
  resend : Option Timer
  deriving DecidableEq, Repr

/-! ### Treadle Unit (chapter 4) -/

/-- A head input: the level of the pin and the debounced (settled) level; true is ACTIVE (R63). -/
structure HeadInput where
  input : Bool
  settled : Bool
  deriving DecidableEq, Repr

/-- The states of a passage machine (4.3). -/
inductive PassageState where
  | quiet | timing | passage | faulty
  deriving DecidableEq, Repr

/-- The measurement record of a pair (R71). -/
structure Measurement where
  inbound : Bool
  count : Nat
  speed : Nat
  slow : Bool
  axles : Nat
  detect : Nat
  fresh : Bool
  deriving DecidableEq, Repr

/-- A treadle pair: configuration, heads, passage machine, void count, record (R62 to R71). `matched` is the service
number the Call Table returned for the passage's observation (R75). -/
structure Pair where
  config : PairConfig
  head1 : HeadInput
  head2 : HeadInput
  state : PassageState
  firstHead : HeadId
  counter : Nat
  axles : Nat
  secondSeen : Bool
  quietTimer : Option Timer
  voids : Nat
  record : Option Measurement
  matched : Option Nat
  deriving DecidableEq, Repr

/-- The two pairs (4.1). -/
structure Treadles where
  pairA : Pair
  pairB : Pair
  deriving DecidableEq, Repr

/-! ### Line Controller (chapter 5) -/

/-- The kinds of halt line frames, in the order of R79. -/
inductive FrameKind where
  | announce | running | approach | depart | claim | taken | release | segReq | segment | bulletin
  deriving DecidableEq, Repr

/-- The payload of a frame, by kind. -/
inductive Payload where
  | announce (f : AnnounceFields)
  | running (f : RunningFields)
  | approach (f : ApproachFields)
  | depart (f : DepartFields)
  | claim (f : ClaimFields)
  | taken (f : ClaimFields)
  | release (f : ClaimFields)
  | segReq (f : SegReqFields)
  | segment (f : SegmentFields)
  | bulletin (f : BulletinFields)
  deriving DecidableEq, Repr

/-- A frame of the transmit queue: its sequence (R80), attempt count (5.2) and payload. -/
structure TxFrame where
  seq : Nat
  attempts : Nat
  payload : Payload
  deriving DecidableEq, Repr

/-- The condition of the current frame (5.2); `noFrame` when the queue is empty. WAITING holds the running tick at
which the frame entered it (R81), BACKOFF the slots drawn (R82). -/
inductive LineCondition where
  | noFrame
  | waiting (since : Tick)
  | sending
  | backoff (slots : Nat)
  deriving DecidableEq, Repr

/-- The states of a peer entry (R95). -/
inductive PeerState where
  | unknown | present | silent | foreign
  deriving DecidableEq, Repr

/-- An entry of the peer table (R95), with its silence timer (R96). -/
structure Peer where
  station : Nat
  state : PeerState
  sells : Bool
  shows : Bool
  timetable : Nat
  fare : Nat
  grade : ClockGrade
  coverage : Coverage
  lastHeard : Tick
  silence : Option Timer
  deriving DecidableEq, Repr

/-- The pseudo-random generator: what it was seeded from and how many draws it has made (R84). -/
structure Rng where
  station : Nat
  seedTick : Tick
  drawn : Nat
  deriving DecidableEq, Repr

/-- The Line Controller: transmit queue (oldest first, its head the current frame), condition of the current frame,
sequence counter, receive count, peer table, mute flag, ANNOUNCE timer, fresh count and random generator. -/
structure Line where
  queue : List TxFrame
  condition : LineCondition
  seqCounter : Nat
  rxCount : Nat
  peers : List Peer
  muted : Bool
  announceTimer : Option Timer
  freshCount : Nat
  rng : Option Rng
  deriving DecidableEq, Repr

/-! ### Edition Store (R102) -/

/-- The loader states (R102). -/
inductive LoaderState where
  | empty | hostFill | peerFill | staged
  deriving DecidableEq, Repr

/-- Where a fill or staged image came from (R102). -/
inductive FillOrigin where
  | host
  | peer (station : Nat)
  deriving DecidableEq, Repr

/-- The record of a peer pull (R102, R111). `request` is the sequence of the outstanding SEG_REQ, by which the Line
Controller's report of it is recognised (R90); it is the model's own field (log entry 16). -/
structure Pull where
  source : Nat
  edition : Nat
  index : Nat
  tries : Nat
  replyTimer : Option Timer
  request : Option Nat
  deriving DecidableEq, Repr

/-- The Edition Store's state for one table kind (R102). -/
structure Slot where
  active : Option (List Byte)
  activeEdition : Nat
  loader : LoaderState
  staging : List Byte
  declared : Option Nat
  offset : Nat
  origin : Option FillOrigin
  pull : Option Pull
  pullWait : Option Timer
  refused : Nat
  deriving DecidableEq, Repr

/-- The Edition Store. -/
structure Store where
  timetable : Slot
  fare : Slot
  deriving DecidableEq, Repr

/-! ### Sale Unit (8.1, 8.2) -/

/-- The classes of products (R122). -/
inductive ProductClass where
  | single | ret | day | spaceBike | spaceChair
  deriving DecidableEq, Repr

/-- The items of a quote (R130). -/
structure QuoteItems where
  product : Nat
  cls : ProductClass
  destination : Nat
  band : Nat
  nameIndex : Nat
  concession : Nat
  passengers : Nat
  baseFare : Nat
  unitFare : Nat
  offPeak : Bool
  quote : Nat
  edition : Nat
  deriving DecidableEq, Repr

/-- The call a space product is sold on (R133). -/
structure SpaceCall where
  service : Nat
  date : Date
  cls : SpaceClass
  deriving DecidableEq, Repr

/-- The sale states other than IDLE (8.1). -/
inductive SaleStage where
  | quoted | claiming | paying | issuing
  deriving DecidableEq, Repr

/-- The hold setting (R137). -/
inductive Hold where
  | none
  | extended (seconds : Nat)
  | suspended
  deriving DecidableEq, Repr

/-- The sale record of a sale that is not IDLE (R133), with its quote lifetime and payment timers. -/
structure SaleRecord where
  stage : SaleStage
  quote : QuoteItems
  space : Option SpaceCall
  claim : Option Nat
  credit : Nat
  change : Nat
  refund : Nat
  serial : Option Nat
  hold : Hold
  lifetime : Option Timer
  payment : Option Timer
  deriving DecidableEq, Repr

/-- A journal record (R145). `void` is the status: ISSUED when false. -/
structure JournalRecord where
  serial : Nat
  product : Nat
  destination : Nat
  concession : Nat
  passengers : Nat
  fare : Nat
  change : Nat
  refund : Nat
  edition : Nat
  date : Date
  second : Nat
  space : Option (Nat × SpaceClass)
  void : Bool
  deriving DecidableEq, Repr

/-- The Sale Unit: the sale (none while IDLE), the serial counter and the journal. -/
structure SaleUnit where
  sale : Option SaleRecord
  serialCounter : Nat
  journal : List JournalRecord
  deriving DecidableEq, Repr

/-! ### Claim List (R147) -/

/-- The states of a claim (R147). -/
inductive ClaimState where
  | queued | granted | pending | taken
  deriving DecidableEq, Repr

/-- A claim (R147); `heard` is present for a PENDING claim. -/
structure Claim where
  service : Nat
  date : Date
  cls : SpaceClass
  origin : Nat
  seq : Nat
  position : Option Nat
  state : ClaimState
  heard : Option Tick
  deriving DecidableEq, Repr

/-! ### Bulletin List (R168) -/

/-- A bulletin (R168). -/
structure Bulletin where
  origin : Nat
  number : Nat
  kind : BulletinKind
  validFrom : Instant
  validUntil : Instant
  text : Text
  inForce : Bool
  deriving DecidableEq, Repr

/-- The Bulletin List with its bulletin counter. -/
structure Bulletins where
  list : List Bulletin
  counter : Nat
  deriving DecidableEq, Repr

/-! ### Board Composer (R157) -/

/-- A cell of the panel: a character, or lit whole by the lamp test (R166). -/
inductive Cell where
  | glyph (code : Nat)
  | lit
  deriving DecidableEq, Repr

/-- A frame image: the cells row by row, and the brightness level (R157). -/
structure FrameImage where
  cells : List (List Cell)
  level : Nat
  deriving DecidableEq, Repr

/-- The modes of the board (R158). -/
inductive BoardMode where
  | noTimetable | noTime | suspended | normal
  deriving DecidableEq, Repr

/-- The board's configuration (R157). -/
structure BoardConfig where
  rows : Nat
  columns : Nat
  filter : Nat
  nightStart : Nat
  nightEnd : Nat
  nightLevel : Nat
  dayLevel : Nat
  deriving DecidableEq, Repr

/-- The Board Composer and the panel port (R157). A part of the warning latch is set while its timer runs. The port is
SENDING while `sending` holds the image being sent. -/
structure Board where
  config : BoardConfig
  image : FrameImage
  mode : BoardMode
  phase : Nat
  page : Nat
  warnUp : Option Timer
  warnDown : Option Timer
  rotation : Option Timer
  lamp : Option Timer
  override : Option Nat
  sending : Option FrameImage
  waitingImage : Option FrameImage
  deriving DecidableEq, Repr

/-! ### Notice Unit (chapter 10) -/

/-- The failure a LINE_TROUBLE names (R83). -/
inductive LineFailure where
  | collision | busy
  deriving DecidableEq, Repr

/-- What a BULLETIN notice says happened (R168). -/
inductive BulletinEvent where
  | added | replaced | removed | dropped
  deriving DecidableEq, Repr

/-- The contents of the fourteen queued notice kinds, in the order of the table of 10.4. -/
inductive NoticeContent where
  | saleState (reason : Reason) (product quote credit change refund : Nat) (serial : Option Nat)
  | ticketReady (serial product quote credit change : Nat)
  | callChanged (buildCount : Nat)
  | approachSeen (pair : PairId) (direction : Direction) (detect speed : Nat) (slow : Bool) (etaStop etaPass axles : Nat)
      (void : Bool) (service : Option Nat)
  | departureSeen (pair : PairId) (direction : Direction) (detect speed : Nat) (slow : Bool) (axles : Nat) (void : Bool)
      (service : Option Nat)
  | editionStaged (kind : TableKind) (edition : Nat) (origin : FillOrigin)
  | editionActive (kind : TableKind) (edition replaced : Nat) (origin : FillOrigin)
  | loadRejected (kind : TableKind) (reason : Reason) (offset : Nat) (origin : FillOrigin)
  | peerChange (station : Nat) (old new : PeerState)
  | clockAdopted (station : Nat) (grade : ClockGrade)
  | treadleFault (pair : PairId)
  | lineTrouble (kind : FrameKind) (seq : Nat) (failure : LineFailure)
  | journalFull
  | bulletin (origin number : Nat) (kind : BulletinKind) (event : BulletinEvent)
  deriving DecidableEq, Repr

/-- A queued notice: its content and the whole seconds of running tick at which it joined (R178). -/
structure Notice where
  content : NoticeContent
  tick : Nat
  deriving DecidableEq, Repr

/-- A critical latch (R180). -/
structure Latch where
  isSet : Bool
  count : Nat
  deriving DecidableEq, Repr

/-- The Notice Unit: queue oldest first, overrun flag and drop count (R178), mask (true is masked, R179), the two
latches (R180) and the notice line (true is asserted, R179). -/
structure Notices where
  queue : List Notice
  overrun : Bool
  drops : Nat
  mask : List Bool
  suspension : Latch
  clash : Latch
  line : Bool
  deriving DecidableEq, Repr

/-! ### Start-up state, settings and overlay (chapter 11) -/

/-- The configuration fields that no other block of State holds (R185). -/
structure Settings where
  haltCode : Nat
  rolloverMinute : Nat
  minDwell : Nat
  minSpeed : Nat
  coinStep : Nat
  resume : Nat
  deriving DecidableEq, Repr

/-- The start-up state (R184): whether the part is in RUN, the configured flag, the straps as read at the last reset
and the settings. -/
structure Setup where
  running : Bool
  configured : Bool
  straps : Straps
  settings : Settings
  deriving DecidableEq, Repr

/-- The product overlay: its ids in rising order, and the frozen flag (R187). -/
structure Overlay where
  ids : List Nat
  frozen : Bool
  deriving DecidableEq, Repr

/-! ### Result data -/

/-- A call summary of READ_CALLS (R35). -/
structure CallSummary where
  index : Nat
  service : Nat
  kind : CallKind
  direction : Direction
  platform : Nat
  state : CallState
  dep : Option Nat
  delayed : Bool
  deriving DecidableEq, Repr

/-- A peer entry of READ_PEERS: the fields of R95 and the whole seconds since it was last heard (R97). -/
structure PeerReport where
  peer : Peer
  since : Option Nat
  deriving DecidableEq, Repr

/-- A claim of READ_CLAIMS with the whole seconds of lifetime remaining of a PENDING one (R155). -/
structure ClaimReport where
  claim : Claim
  left : Option Nat
  deriving DecidableEq, Repr

/-- A snapshot of a pair (R72): with its record, the two ETAs. -/
structure TreadleReport where
  enabled : Bool
  direction : Direction
  state : PassageState
  voids : Nat
  record : Option (Measurement × Nat × Nat)
  deriving DecidableEq, Repr

/-- The Edition Store fields of GET_STATUS for one kind (R118). -/
structure SlotReport where
  activeEdition : Nat
  loader : LoaderState
  stagedEdition : Nat
  declared : Nat
  offset : Nat
  origin : Option FillOrigin
  waiting : Bool
  pull : Option (Nat × Nat × Nat)
  refused : Nat
  deriving DecidableEq, Repr

/-- The Sale Unit's remaining payment time as GET_STATUS gives it (R155). -/
inductive PaymentLeft where
  | none
  | seconds (n : Nat)
  | suspended
  deriving DecidableEq, Repr

/-- The snapshot of GET_STATUS (R175): start-up and configuration (R184), clock (R14), editions (R118), sale (R155),
board (R171), notices (R175). -/
structure StatusReport where
  running : Bool
  configured : Bool
  straps : Straps
  settings : Settings
  pairA : PairConfig
  pairB : PairConfig
  board : BoardConfig
  overlay : Overlay
  date : Date
  weekday : Nat
  second : Nat
  tenths : Nat
  clockTime : Nat
  grade : ClockGrade
  tick : Tick
  ageingLeft : Tick
  timetable : SlotReport
  fare : SlotReport
  sale : Option SaleRecord
  paymentLeft : PaymentLeft
  serialCounter : Nat
  journalCount : Nat
  mode : BoardMode
  phase : Nat
  page : Nat
  listed : Nat
  warnUp : Option Nat
  warnDown : Option Nat
  lampLeft : Nat
  imageLevel : Nat
  override : Option Nat
  portSending : Bool
  portPending : Bool
  bulletins : Nat
  shown : Option (Nat × Nat)
  noticeCount : Nat
  overrun : Bool
  drops : Nat
  mask : List Bool
  suspension : Latch
  clash : Latch
  noticeLine : Bool
  deriving DecidableEq, Repr

/-- The data of a result frame, by command (R173: each block's chapter gives it). -/
inductive Reply where
  | none
  | configured (settings : Settings) (pairA pairB : PairConfig) (board : BoardConfig)
  | status (report : StatusReport)
  | overlay (ids : List Nat)
  | overlayRead (ids : List Nat) (frozen : Bool)
  | lowestId (id : Nat)
  | loadProgress (offset : Nat) (loader : Option LoaderState)
  | reportTaken (index : Nat) (state : CallState)
  | bulletinPosted (origin number : Nat) (dropped : Option (Nat × Nat))
  | bulletinHeld (held : Bool)
  | calls (buildCount : Nat) (date : Date) (count : Nat) (summaries : List CallSummary)
  | call (buildCount : Nat) (index : Nat) (record : Call)
  | peers (station : Nat) (muted : Bool) (queued rxCount seqCounter : Nat) (entries : List PeerReport)
  | claims (count : Nat) (entries : List ClaimReport)
  | quote (items : QuoteItems)
  | saleStage (stage : SaleStage)
  | credit (credit owed : Nat)
  | creditIssued (credit change serial : Nat)
  | refund (amount : Nat)
  | journal (count : Nat) (records : List JournalRecord)
  | journalCount (count : Nat)
  | treadle (report : TreadleReport)
  | notices (suspension clash : Latch) (overrun : Bool) (drops returned left : Nat) (list : List Notice)
  | mask (flags : List Bool)
  | latchCount (count : Nat)
  deriving DecidableEq, Repr

/-- What a block answers to a command (R173). -/
structure Answer where
  status : Status
  reason : Option Reason
  data : Reply
  deriving DecidableEq, Repr

/-- The result buffer (R172): the code and tag of the frame answered, status, reason and data. -/
structure HostResult where
  code : Nat
  tag : Nat
  answer : Answer
  deriving DecidableEq, Repr

/-- The Host Link: whether initialisation has completed (R173), and the result buffer (R172). -/
structure HostLink where
  ready : Bool
  result : HostResult
  deriving DecidableEq, Repr

/-! ### The whole state -/

/-- The state of one T640. `pending` is the model's queue of commands waiting, first in, first out. -/
structure State where
  setup : Setup
  overlay : Overlay
  clock : Clock
  calls : CallTable
  treadles : Treadles
  line : Line
  store : Store
  sales : SaleUnit
  claims : List Claim
  bulletins : Bulletins
  board : Board
  host : HostLink
  notices : Notices
  pending : List Instr
  deriving DecidableEq, Repr

/-- The reasons a step stops with a fault. The T640 has none: every command, frame, sensor event and timer expiry leaves
it in a next state, so no constructor exists and no step raises one. -/
inductive Fault where
  deriving DecidableEq, Repr

/-- The reasons a step is refused. -/
inductive Refusal where
  /-- Raised by exec's arm of a command that has no meaning yet; safe, since nothing is claimed of it. No arm of this
  model raises it. -/
  | notModelled (mnemonic : String)
  deriving DecidableEq, Repr

/-! ### Reset values -/

/-- The date of every reset (R1). -/
def resetDate : Date := ⟨2000, 1, 1⟩

/-- No direction covered. -/
def noCoverage : Coverage := ⟨false, false, false, false⟩

/-- The Halt Clock after any reset (R1). -/
def resetClock : Clock :=
  { date := resetDate, weekday := 5, second := 0, tenths := 0, grade := .unset, hostSetTick := 0, tick := 0 }

/-- The Call Table after any reset (R37, R56). -/
def resetCalls : CallTable :=
  { calls := [], buildCount := 0, date := resetDate, watch := noCoverage, resend := none }

/-- A pair after any reset (R62, R78), given its reset direction and the levels of its head pins. -/
def resetPair (direction : Direction) (in1 in2 : Bool) : Pair :=
  { config := { enabled := false, direction := direction, spacing := 150, distance := 1000, braking := 30 },
    head1 := ⟨in1, false⟩, head2 := ⟨in2, false⟩, state := .quiet, firstHead := .one, counter := 0, axles := 0,
    secondSeen := false, quietTimer := none, voids := 0, record := none, matched := none }

/-- A peer entry after any reset (R95). -/
def resetPeer (station : Nat) : Peer :=
  { station := station, state := .unknown, sells := false, shows := false, timetable := 0, fare := 0, grade := .unset,
    coverage := noCoverage, lastHeard := 0, silence := none }

/-- The Line Controller after any reset (R101): one entry for each station 1..15 other than the station's own. -/
def resetLine (station : Nat) : Line :=
  { queue := [], condition := .noFrame, seqCounter := 0, rxCount := 0,
    peers := ((List.range' 1 15).filter (· != station)).map resetPeer,
    muted := false, announceTimer := none, freshCount := 0, rng := none }

/-- One kind's Edition Store state after any reset (R102). -/
def resetSlot : Slot :=
  { active := none, activeEdition := 0, loader := .empty, staging := [], declared := none, offset := 0, origin := none,
    pull := none, pullWait := none, refused := 0 }

/-- A blank image of the given size and level (R157). -/
def blankImage (rows columns level : Nat) : FrameImage :=
  { cells := List.replicate rows (List.replicate columns (.glyph 32)), level := level }

/-- The board after any reset (R157). -/
def resetBoard : Board :=
  { config := { rows := 4, columns := 24, filter := 0, nightStart := 0, nightEnd := 0, nightLevel := 3, dayLevel := 7 },
    image := blankImage 4 24 7, mode := .noTimetable, phase := 0, page := 0, warnUp := none, warnDown := none,
    rotation := none, lamp := none, override := none, sending := none, waitingImage := none }

/-- The Notice Unit after any reset (R183). -/
def resetNotices : Notices :=
  { queue := [], overrun := false, drops := 0, mask := List.replicate 14 false, suspension := ⟨false, 0⟩,
    clash := ⟨false, 0⟩, line := false }

/-- The settings after any reset: halt code 0 (R102), RM 180 (R1), D_min 30 (R37), v_min 300 (R62), coin step 1 (R128);
resume value 0 (DESIGN CHOICE, log entry 2). -/
def resetSettings : Settings :=
  { haltCode := 0, rolloverMinute := 180, minDwell := 30, minSpeed := 300, coinStep := 1, resume := 0 }

/-- The overlay after power-on reset: all fifteen ids, unfrozen (R184). -/
def fullOverlay : Overlay := { ids := List.range' 1 15, frozen := false }

/-- The result NONE, tag 0, OK, no data (R172). -/
def noneResult : HostResult := { code := 0, tag := 0, answer := { status := .ok, reason := none, data := .none } }

/-- Every block at its reset values (R184), the straps read, initialisation still running; what a reset may keep
(overlay, serial counter), the result buffer, the head pins' levels and the waiting commands are given. -/
def afterReset (straps : Straps) (overlay : Overlay) (serialCounter : Nat) (result : HostResult)
    (pins : (Bool × Bool) × (Bool × Bool)) (pending : List Instr) : State :=
  { setup := { running := false, configured := false, straps := straps, settings := resetSettings },
    overlay := overlay, clock := resetClock, calls := resetCalls,
    treadles := { pairA := resetPair .up pins.1.1 pins.1.2, pairB := resetPair .down pins.2.1 pins.2.2 },
    line := resetLine straps.station, store := { timetable := resetSlot, fare := resetSlot },
    sales := { sale := none, serialCounter := serialCounter, journal := [] }, claims := [],
    bulletins := { list := [], counter := 0 }, board := resetBoard, host := { ready := false, result := result },
    notices := resetNotices, pending := pending }

/-- The machine right after power-on reset (R184). The straps are DESIGN CHOICE station 1 with both roles, the head pins
inactive (log entry 1): the manual states no strap values; any others come with POWER_ON_RESET or PIN_RESET. -/
def State.reset : State :=
  afterReset ⟨1, true, true⟩ fullOverlay 0 noneResult ((false, false), (false, false)) []

/-! ### Block updates -/

/-- The state with another `setup`. -/
def State.withSetup (s : State) (x : Setup) : State := { s with setup := x }

/-- The state with another `overlay`. -/
def State.withOverlay (s : State) (x : Overlay) : State := { s with overlay := x }

/-- The state with another `clock`. -/
def State.withClock (s : State) (x : Clock) : State := { s with clock := x }

/-- The state with another `calls`. -/
def State.withCalls (s : State) (x : CallTable) : State := { s with calls := x }

/-- The state with another `treadles`. -/
def State.withTreadles (s : State) (x : Treadles) : State := { s with treadles := x }

/-- The state with another `line`. -/
def State.withLine (s : State) (x : Line) : State := { s with line := x }

/-- The state with another `store`. -/
def State.withStore (s : State) (x : Store) : State := { s with store := x }

/-- The state with another `sales`. -/
def State.withSales (s : State) (x : SaleUnit) : State := { s with sales := x }

/-- The state with another `claims`. -/
def State.withClaims (s : State) (x : List Claim) : State := { s with claims := x }

/-- The state with another `bulletins`. -/
def State.withBulletins (s : State) (x : Bulletins) : State := { s with bulletins := x }

/-- The state with another `board`. -/
def State.withBoard (s : State) (x : Board) : State := { s with board := x }

/-- The state with another `host`. -/
def State.withHost (s : State) (x : HostLink) : State := { s with host := x }

/-- The state with another `notices`. -/
def State.withNotices (s : State) (x : Notices) : State := { s with notices := x }

/-- The state with another `pending`. -/
def State.withPending (s : State) (x : List Instr) : State := { s with pending := x }


end Sys2Proof.Machine
end

