-- ==== Sys2Proof/Machine/Calendar.lean ====
section
/-! DEFINITION. Dates, weekdays, instants and the conversions between clock time and service time (R1, R3). -/

namespace Sys2Proof

/-- Within 2000..2099 a year is a leap year when it is divisible by 4 (R1). -/
def isLeap (year : Nat) : Bool := year % 4 == 0

/-- The length of a month; 0 for a month outside 1..12. -/
def monthLength (year month : Nat) : Nat :=
  match month with
  | 1 => 31
  | 2 => if isLeap year then 29 else 28
  | 3 => 31
  | 4 => 30
  | 5 => 31
  | 6 => 30
  | 7 => 31
  | 8 => 31
  | 9 => 30
  | 10 => 31
  | 11 => 30
  | 12 => 31
  | _ => 0

/-- A valid date in 2000-01-01..2099-12-31 (R1, R79). -/
def Date.valid (d : Date) : Bool :=
  2000 ≤ d.year && d.year ≤ 2099 && 1 ≤ d.month && d.month ≤ 12 && 1 ≤ d.day && d.day ≤ monthLength d.year d.month

/-- The zero date of R188: "all zero where a rule gives zero". -/
def zeroDate : Date := ⟨2000, 0, 0⟩

/-- Zero validity (R177). -/
def zeroInstant : Instant := ⟨zeroDate, 0⟩

/-- The days of the months of a year before the given month. -/
def daysBeforeMonth (year month : Nat) : Nat :=
  ((List.range' 1 (month - 1)).map (monthLength year)).foldl (· + ·) 0

/-- Days since 2000-01-01. -/
def Date.dayNumber (d : Date) : Nat :=
  (d.year - 2000) * 365 + (d.year - 2000 + 3) / 4 + daysBeforeMonth d.year d.month + (d.day - 1)

/-- The weekday of a date, Monday 0; 2000-01-01 is a Saturday, 5 (R1). -/
def Date.weekday (d : Date) : Nat := (d.dayNumber + 5) % 7

/-- The next calendar day (R4). -/
def Date.next (d : Date) : Date :=
  if d.day < monthLength d.year d.month then ⟨d.year, d.month, d.day + 1⟩
  else if d.month < 12 then ⟨d.year, d.month + 1, 1⟩
  else ⟨d.year + 1, 1, 1⟩

/-- The calendar day before. -/
def Date.previous (d : Date) : Date :=
  if 1 < d.day then ⟨d.year, d.month, d.day - 1⟩
  else if 1 < d.month then ⟨d.year, d.month - 1, monthLength d.year (d.month - 1)⟩
  else ⟨d.year - 1, 12, 31⟩

/-- A number that orders dates as the calendar does. -/
def Date.key (d : Date) : Nat := d.year * 10000 + d.month * 100 + d.day

/-- A date is on or before another. -/
def Date.onOrBefore (a b : Date) : Bool := a.key ≤ b.key

/-- Instants are compared by service date first and service second second (R168): `a` lies before `b`. -/
def Instant.before (a b : Instant) : Bool :=
  a.date.key < b.date.key || (a.date.key == b.date.key && a.second < b.second)

/-- The clock time, in seconds after midnight, of service second `second` (R3). -/
def clockSeconds (rolloverMinute second : Nat) : Nat := (second + 60 * rolloverMinute) % 86400

/-- The service second of a clock time given in seconds after midnight (R3): (c − 60 × RM) mod 86400. -/
def serviceSecondOf (rolloverMinute clock : Nat) : Nat := (clock + 86400 - 60 * rolloverMinute % 86400) % 86400

/-- The service date of a clock time on a calendar date (R3). -/
def serviceDateOf (rolloverMinute : Nat) (date : Date) (clock : Nat) : Date :=
  if 60 * rolloverMinute ≤ clock then date else date.previous

/-- Seconds after midnight of a clock time. -/
def ClockTime.toSeconds (t : ClockTime) : Nat := t.hours * 3600 + t.minutes * 60 + t.seconds

/-- The checks of SET_TIME (R6): valid date and time, and a service date not before 2000-01-01. -/
def setTimeValid (rolloverMinute : Nat) (date : Date) (time : ClockTime) : Bool :=
  date.valid && time.hours ≤ 23 && time.minutes ≤ 59 && time.seconds ≤ 59 &&
    (60 * rolloverMinute ≤ time.toSeconds || Machine.resetDate.key < date.key)

/-- The service minute floor(s / 60). -/
def serviceMinute (second : Nat) : Nat := second / 60

end Sys2Proof

namespace Sys2Proof.Machine

/-- The present instant of the service clock. -/
def Clock.instant (c : Clock) : Instant := ⟨c.date, c.second⟩

/-- The service clock's reading in tenths, within its day (R7). -/
def Clock.tenthsOfDay (c : Clock) : Nat := c.second * 10 + c.tenths

end Sys2Proof.Machine
end

