-- ==== Sys2Proof/Machine/Flags.lean ====
section
/-! DEFINITION. The derived flags of the part: notice line (R179), coverage and watch view (R20, R62), bulletins in force
(R169), occupancy of a space class (R147). -/

namespace Sys2Proof

/-- The union of two coverages. -/
def Coverage.or (a b : Coverage) : Coverage :=
  ⟨a.arrUp || b.arrUp, a.arrDown || b.arrDown, a.depUp || b.depUp, a.depDown || b.depDown⟩

/-- The arrival flag of a direction (R20). -/
def Coverage.arrival (c : Coverage) : Direction → Bool
  | .up => c.arrUp
  | .down => c.arrDown

/-- The departure flag of a direction (R20). -/
def Coverage.departure (c : Coverage) : Direction → Bool
  | .up => c.depUp
  | .down => c.depDown

end Sys2Proof

namespace Sys2Proof.Machine

/-! ### The notice line (R179) -/

/-- The place of a queued notice kind among the fourteen mask flags, in the order of the table of 10.4. -/
def NoticeContent.maskIndex : NoticeContent → Nat
  | .saleState .. => 0
  | .ticketReady .. => 1
  | .callChanged .. => 2
  | .approachSeen .. => 3
  | .departureSeen .. => 4
  | .editionStaged .. => 5
  | .editionActive .. => 6
  | .loadRejected .. => 7
  | .peerChange .. => 8
  | .clockAdopted .. => 9
  | .treadleFault .. => 10
  | .lineTrouble .. => 11
  | .journalFull => 12
  | .bulletin .. => 13

/-- A notice is a CALL_CHANGED. -/
def NoticeContent.isCallChanged : NoticeContent → Bool
  | .callChanged _ => true
  | _ => false

/-- Whether a notice kind is masked (R179). -/
def Notices.masked (n : Notices) (c : NoticeContent) : Bool := n.mask.getD c.maskIndex false

/-- When the notice line is asserted (R179): an unmasked notice queued, or a latch set. -/
def Notices.lineWanted (n : Notices) : Bool :=
  n.queue.any (fun x => !n.masked x.content) || n.suspension.isSet || n.clash.isSet

/-- The Notice Unit re-evaluates the line and drives it at once (R179). -/
def Notices.refresh (n : Notices) : Notices := { n with line := n.lineWanted }

/-! ### Coverage and the watch view -/

/-- A pair covers while it is enabled and not FAULTY (R62). -/
def Pair.covers (p : Pair) : Bool := p.config.enabled && p.state != .faulty

/-- What a pair covers: arrivals of its direction, departures of the opposite one (R62). -/
def Pair.coverage (p : Pair) : Coverage :=
  if p.covers then
    match p.config.direction with
    | .up => ⟨true, false, false, true⟩
    | .down => ⟨false, true, true, false⟩
  else noCoverage

/-- The station's own four contributions (R20). -/
def ownCoverage (t : Treadles) : Coverage := t.pairA.coverage.or t.pairB.coverage

/-- What a peer contributes to the watch view: its coverage bits while it is PRESENT (R20). -/
def Peer.contribution (p : Peer) : Coverage := if p.state = .present then p.coverage else noCoverage

/-- The watch view formed from the own pairs and the peers (R20). -/
def watchView (t : Treadles) (peers : List Peer) : Coverage :=
  peers.foldl (fun acc p => acc.or p.contribution) (ownCoverage t)

/-! ### Bulletins in force -/

/-- A bulletin is in force while the grade is 1..3 and the current instant is at or after its valid-from and before its
valid-until (R169). -/
def Bulletin.inForceAt (b : Bulletin) (c : Clock) : Bool :=
  c.grade != .unset && !c.instant.before b.validFrom && c.instant.before b.validUntil

/-- The bulletin's valid-until is not after the current instant, at grades 1..3 (R169). -/
def Bulletin.expiredAt (b : Bulletin) (c : Clock) : Bool :=
  c.grade != .unset && !c.instant.before b.validUntil

/-- The suspension shown: the SUSPENSION bulletin in force that stands last in the list (R169). -/
def Bulletins.suspensionShown (b : Bulletins) : Option Bulletin :=
  (b.list.filter (fun x => x.inForce && x.kind = .suspension)).getLast?

/-- The newest INFO bulletin in force (R162). -/
def Bulletins.newestInfo (b : Bulletins) : Option Bulletin :=
  (b.list.filter (fun x => x.inForce && x.kind = .info)).getLast?

/-! ### Claims -/

/-- A claim counts toward the occupancy in GRANTED, TAKEN or PENDING (R147). -/
def Claim.counts (c : Claim) : Bool := c.state != .queued

/-- A claim is for this call and class. -/
def Claim.isFor (c : Claim) (service : Nat) (date : Date) (cls : SpaceClass) : Bool :=
  c.service = service && c.date = date && c.cls = cls

/-- The occupancy of a call and class (R147). -/
def occupancy (claims : List Claim) (service : Nat) (date : Date) (cls : SpaceClass) : Nat :=
  (claims.filter (fun c => c.counts && c.isFor service date cls)).length

/-- Position p1 is before position p2 (R85). -/
def positionBefore (p1 p2 : Nat) : Bool :=
  let d := (p2 + 4294967296 - p1 % 4294967296) % 4294967296
  1 ≤ d && d ≤ 2147483647

/-- The claims of a call and class that count and stand before a position (R150). -/
def claimsBefore (claims : List Claim) (service : Nat) (date : Date) (cls : SpaceClass) (position : Nat) : Nat :=
  (claims.filter (fun c => c.counts && c.isFor service date cls &&
    (match c.position with | some p => positionBefore p position | none => false))).length

/-! ### Call states -/

/-- A call is live while it is neither DEPARTED nor LAPSED (R15). -/
def CallState.live : CallState → Bool
  | .departed => false
  | .lapsed => false
  | _ => true

/-- DEPARTED, CANCELLED or LAPSED: the states whose claims leave the list (R147). -/
def CallState.over : CallState → Bool
  | .departed => true
  | .lapsed => true
  | .cancelled => true
  | _ => false

/-- PENDING or REPORTED. -/
def CallState.awaited : CallState → Bool
  | .pending => true
  | .reported => true
  | _ => false

/-- APPROACHING or ARRIVED. -/
def CallState.atHand : CallState → Bool
  | .approaching => true
  | .arrived => true
  | _ => false

end Sys2Proof.Machine
end

