-- ==== Sys2Proof/Machine/Operands.lean ====
section
/-! DEFINITION. Operand forms: the numbered operands of host commands that name a thing, the ranges of the fields of a
halt line frame (R79), the clamping of CONFIGURE (R185, R128). -/

namespace Sys2Proof
open Machine

/-- The number of a table kind (R188). -/
def TableKind.code : TableKind → Nat
  | .timetable => 0
  | .fare => 1

/-- The table kind a number names (R188), if any. -/
def tableKindOf : Nat → Option TableKind
  | 0 => some .timetable
  | 1 => some .fare
  | _ => none

/-- The pair a number names (R188), if any. -/
def pairOf : Nat → Option PairId
  | 0 => some .a
  | 1 => some .b
  | _ => none

/-- The bulletin kind a number names (R188), if any. -/
def bulletinKindOf : Nat → Option BulletinKind
  | 0 => some .info
  | 1 => some .suspension
  | _ => none

/-- A text's characters lie in the character set 32..126 (R188). -/
def Text.inCharset (t : Text) : Bool := t.all (fun c => 32 ≤ c && c ≤ 126)

/-- A service second lies in 0..86399. -/
def validSecond (s : Nat) : Bool := s ≤ 86399

/-- Station numbers are 1..15. -/
def validStation (n : Nat) : Bool := 1 ≤ n && n ≤ 15

/-! ### Ranges of frame fields (R79) -/

/-- Origin station in 1..15 and frame sequence in 0..4095 (R79). -/
def FrameHead.wellFormed (h : FrameHead) : Bool := validStation h.origin && h.seq ≤ 4095

/-- ANNOUNCE fields in range, the halt code within the 1..65535 of R185; at grade 0 the date and time may be zero (R79,
R9; log entry 30). -/
def AnnounceFields.wellFormed (f : AnnounceFields) : Bool :=
  1 ≤ f.haltCode && f.haltCode ≤ 65535 && f.timetable ≤ 65535 && f.fare ≤ 65535 && validSecond f.second &&
    f.tenths ≤ 9 && (f.date.valid || (f.grade = .unset && f.date = zeroDate && f.second = 0 && f.tenths = 0))

/-- RUNNING fields in range (R38). -/
def RunningFields.wellFormed (f : RunningFields) : Bool :=
  1 ≤ f.service && f.service ≤ 9999 && f.date.valid && f.point ≤ 255 && (-32768 : Int) ≤ f.lateness &&
    f.lateness ≤ (32767 : Int) && validSecond f.observed

/-- A carried speed: SLOW, or 100..5,000,000 cm/s (R73: v_min..5,000,000 with v_min at least 100). -/
def Speed.inRange : Speed → Bool
  | .slow => true
  | .cms v => 100 ≤ v && v ≤ 5000000

/-- APPROACH fields in range (R74, R75). -/
def ApproachFields.wellFormed (f : ApproachFields) : Bool :=
  validSecond f.detect && f.speed.inRange && 1 ≤ f.etaStop && f.etaStop ≤ 1800 && 1 ≤ f.etaPass && f.etaPass ≤ 1800

/-- DEPART fields in range (R75). -/
def DepartFields.wellFormed (f : DepartFields) : Bool := validSecond f.detect && f.speed.inRange

/-- CLAIM, TAKEN and RELEASE fields in range (R147). -/
def ClaimFields.wellFormed (f : ClaimFields) : Bool :=
  1 ≤ f.service && f.service ≤ 9999 && f.date.valid && f.seq ≤ 4095

/-- SEG_REQ fields in range (R111). -/
def SegReqFields.wellFormed (f : SegReqFields) : Bool :=
  validStation f.addressee && 1 ≤ f.edition && f.edition ≤ 65535 && f.index ≤ 255

/-- SEGMENT fields in range (R114); the payload holds 6..70 bytes (R189), so the data 0..64, and a gone one none. -/
def SegmentFields.wellFormed (f : SegmentFields) : Bool :=
  validStation f.addressee && 1 ≤ f.edition && f.edition ≤ 65535 && f.index ≤ 255 && f.data.length ≤ 64 &&
    (!f.gone || f.data.length = 0)

/-- An instant in range. -/
def Instant.valid (i : Instant) : Bool := i.date.valid && validSecond i.second

/-- BULLETIN fields in range; a withdrawn one may carry no text and zero validity (R79, R177). -/
def BulletinFields.wellFormed (f : BulletinFields) : Bool :=
  validStation f.origin && 1 ≤ f.number && f.number ≤ 255 && f.text.length ≤ 64 && Text.inCharset f.text &&
    (if f.withdrawn then (f.validFrom.valid || f.validFrom = zeroInstant) && (f.validUntil.valid || f.validUntil = zeroInstant)
     else 1 ≤ f.text.length && f.validFrom.valid && f.validUntil.valid)

/-! ### CONFIGURE (R185) -/

/-- The coin step stored: the largest of 1, 5, 10, 20, 50 not above the value, and 1 for 0 (R128). -/
def coinStepOf (x : Nat) : Nat :=
  if 50 ≤ x then 50 else if 20 ≤ x then 20 else if 10 ≤ x then 10 else if 5 ≤ x then 5 else 1

/-- A pair's configuration with G, X and Bk clamped (R62, R185). -/
def PairConfig.clamped (p : PairConfig) : PairConfig :=
  { p with spacing := clampNat 50 500 p.spacing, distance := clampNat 100 5000 p.distance, braking := clampNat 0 180 p.braking }

/-- The settings CONFIGURE stores (R185). -/
def ConfigParams.settings (p : ConfigParams) : Settings :=
  { haltCode := clampNat 1 65535 p.haltCode, rolloverMinute := clampNat 0 359 p.rolloverMinute,
    minDwell := clampNat 20 120 p.minDwell, minSpeed := clampNat 100 1000 p.minSpeed, coinStep := coinStepOf p.coinStep,
    resume := clampNat 0 999999 p.resume }

/-- The board configuration CONFIGURE stores (R185, R157). -/
def ConfigParams.board (p : ConfigParams) : BoardConfig :=
  { rows := clampNat 2 8 p.rows, columns := clampNat 16 40 p.columns, filter := clampNat 0 2 p.platformFilter,
    nightStart := clampNat 0 1439 p.nightStart, nightEnd := clampNat 0 1439 p.nightEnd,
    nightLevel := clampNat 0 7 p.nightLevel, dayLevel := clampNat 0 7 p.dayLevel }

/-- The lateness a report keeps: clamped to −900..+21,600 (R38). -/
def clampLateness (l : Int) : Int := if l < -900 then -900 else if 21600 < l then 21600 else l

end Sys2Proof
end

