-- ==== Sys2Proof/Machine/Ops.lean ====
section
/-! DEFINITION. Shared operations: elapsed timers (R2), the random generator (R84), the Notice Unit (R178 to R180), the
Host Link's tests and answers (R172 to R174). -/

namespace Sys2Proof.Machine

/-! ### Elapsed timers (R2) -/

/-- A timer of a whole number of seconds, started now. -/
def timerFrom (tick : Tick) (seconds : Nat) : Timer := ⟨tick, seconds * 10⟩

/-- A timer started now for a span in tenths. -/
def timerFromTenths (tick : Tick) (tenths : Nat) : Timer := ⟨tick, tenths⟩

/-- The running tick has advanced by the timer's duration from its start (R2). -/
def Timer.due (t : Timer) (tick : Tick) : Bool := t.start + t.span ≤ tick

/-- A timer that runs and is due. -/
def timerDue (t : Option Timer) (tick : Tick) : Bool :=
  match t with
  | some t => t.due tick
  | none => false

/-- The whole seconds left of a running timer. -/
def Timer.secondsLeft (t : Timer) (tick : Tick) : Nat := (t.start + t.span - tick) / 10

/-! ### Random generator (R84) -/

/-- A draw from 0..n−1: the next value, every value of the range possible (log entry 3). Unseeded, it makes no draw. -/
def draw (n : Nat) (s : State) : Nat × State :=
  match s.line.rng with
  | some r =>
    (Config.rngValue r.station r.seedTick r.drawn % n, s.withLine { s.line with rng := some { r with drawn := r.drawn + 1 } })
  | none => (0, s)

/-! ### Notice Unit -/

/-- A notice joins at the tail; at a full queue the oldest is dropped first, with the overrun flag set and the drop count
raised, holding at 255 (R178). -/
def Notices.join (n : Notices) (x : Notice) : Notices :=
  if n.queue.length < Config.noticeCapacity then { n with queue := n.queue ++ [x] }
  else { n with queue := n.queue.tail ++ [x], overrun := true, drops := min 255 (n.drops + 1) }

/-- A queued CALL_CHANGED takes the new build count and keeps its place and tick (R178). -/
def coalesced (buildCount : Nat) (x : Notice) : Notice :=
  if x.content.isCallChanged then { x with content := .callChanged buildCount } else x

/-- The content joins the queue, a CALL_CHANGED coalescing into a queued one (R178). -/
def Notices.add (n : Notices) (c : NoticeContent) (seconds : Nat) : Notices :=
  match c with
  | .callChanged b =>
    if n.queue.any (fun x => x.content.isCallChanged) then { n with queue := n.queue.map (coalesced b) }
    else n.join ⟨c, seconds⟩
  | _ => n.join ⟨c, seconds⟩

/-- A block raises a notice: it joins (R178) and the line is re-evaluated (R179). -/
def raise (c : NoticeContent) (s : State) : State := s.withNotices (s.notices.add c (s.clock.tick / 10)).refresh

/-- A latch is set and its occurrence count rises, wrapping from 255 to 0 (R180). -/
def Latch.occur (l : Latch) : Latch := ⟨true, (l.count + 1) % 256⟩

/-- A SUSPENSION event (R169, R180). -/
def raiseSuspension (s : State) : State :=
  s.withNotices { s.notices with suspension := s.notices.suspension.occur }.refresh

/-- A station clash (R92, R180). -/
def raiseClash (s : State) : State := s.withNotices { s.notices with clash := s.notices.clash.occur }.refresh

/-! ### Host Link -/

/-- Command codes run from 1 in the order of R174 (R188). -/
def Command.code : Command → Nat
  | .configure => 1 | .start => 2 | .reset => 3 | .getStatus => 4 | .setTime => 5
  | .overlaySet => 6 | .overlayRestore => 7 | .overlayFreeze => 8 | .overlayRead => 9
  | .loadBegin => 10 | .loadSegment => 11 | .loadAbandon => 12 | .reportRunning => 13 | .postBulletin => 14
  | .withdrawBulletin => 15 | .readCalls => 16 | .readCall => 17 | .readPeers => 18 | .readClaims => 19
  | .saleQuote => 20 | .saleAccept => 21 | .saleCredit => 22 | .saleHold => 23 | .saleCancel => 24 | .salePrinted => 25
  | .journalRead => 26 | .journalRelease => 27 | .treadleRead => 28 | .treadleEnable => 29
  | .lampTest => 30 | .brightness => 31 | .noticeRead => 32 | .noticeMask => 33 | .noticeAck => 34

/-- The start-up states in which a command is accepted (R174). -/
inductive Acceptance where
  | setupOnly | runOnly | both
  deriving DecidableEq, Repr

/-- Where each command is accepted (R174). -/
def Command.acceptance : Command → Acceptance
  | .configure => .setupOnly | .start => .setupOnly
  | .reset => .both | .getStatus => .both
  | .overlaySet => .both | .overlayRestore => .both | .overlayFreeze => .both | .overlayRead => .both
  | .noticeRead => .both | .noticeMask => .both | .noticeAck => .both
  | .setTime => .runOnly | .loadBegin => .runOnly | .loadSegment => .runOnly | .loadAbandon => .runOnly
  | .reportRunning => .runOnly | .postBulletin => .runOnly | .withdrawBulletin => .runOnly
  | .readCalls => .runOnly | .readCall => .runOnly | .readPeers => .runOnly | .readClaims => .runOnly
  | .saleQuote => .runOnly | .saleAccept => .runOnly | .saleCredit => .runOnly | .saleHold => .runOnly
  | .saleCancel => .runOnly | .salePrinted => .runOnly | .journalRead => .runOnly | .journalRelease => .runOnly
  | .treadleRead => .runOnly | .treadleEnable => .runOnly | .lampTest => .runOnly | .brightness => .runOnly

/-- The role a command needs (R174). -/
inductive NeededRole where
  | none | sells | shows
  deriving DecidableEq, Repr

/-- The role each command needs (R174). -/
def Command.role : Command → NeededRole
  | .saleQuote => .sells | .saleAccept => .sells | .saleCredit => .sells | .saleHold => .sells
  | .saleCancel => .sells | .salePrinted => .sells | .journalRead => .sells | .journalRelease => .sells
  | .lampTest => .shows | .brightness => .shows
  | _ => .none

/-- The answer OK with data. -/
def Answer.ok (data : Reply) : Answer := ⟨.ok, none, data⟩

/-- The answer REFUSED with a reason and no data. -/
def Answer.refused (r : Reason) : Answer := ⟨.refused, some r, .none⟩

/-- A status without reason or data. -/
def Answer.bare (st : Status) : Answer := ⟨st, none, .none⟩

/-- Tests 1, 5, 6 and 7 of R173, in order: the answer of the first that fails, or none when the frame is handed to its
block. Tests 2 to 4 concern the frame's bytes (Machine/CommandFrames.lean). -/
def gate (c : Command) (lengthOk : Bool) (s : State) : Option Answer :=
  if !s.host.ready then some (.bare .busy)
  else if !lengthOk then some (.bare .badLength)
  else
    match c.acceptance, s.setup.running with
    | .setupOnly, true => some (.bare .alreadyStarted)
    | .runOnly, false => some (.bare .notStarted)
    | _, _ =>
      match c.role with
      | .sells => if s.setup.straps.sells then none else some (.refused .notSelling)
      | .shows => if s.setup.straps.shows then none else some (.refused .notShowing)
      | .none => none

/-- The result replaces the result buffer (R172). -/
def answerWith (c : Command) (tag : Nat) (a : Answer) (s : State) : State :=
  s.withHost { s.host with result := ⟨c.code, tag, a⟩ }

/-- A host command frame whose bytes are sound: tested (R173), handed to its block, and answered (R172). -/
def hostCommand (c : Command) (tag : Nat) (lengthOk : Bool) (body : State → Answer × State) (s : State) : State :=
  match gate c lengthOk s with
  | some a => answerWith c tag a s
  | none => answerWith c tag (body s).1 (body s).2

end Sys2Proof.Machine
end

