-- ==== Sys2Proof/Machine/LineOps.lean ====
section
/-! DEFINITION. The transmit queue (R80, R86 to R89), and a pull's requests, which the queue may turn away (R90, R112,
R113). -/

namespace Sys2Proof.Machine

/-- The kind of a payload. -/
def Payload.kind : Payload → FrameKind
  | .announce _ => .announce
  | .running _ => .running
  | .approach _ => .approach
  | .depart _ => .depart
  | .claim _ => .claim
  | .taken _ => .taken
  | .release _ => .release
  | .segReq _ => .segReq
  | .segment _ => .segment
  | .bulletin _ => .bulletin

/-- The urgent kinds; the others are routine (R86). -/
def FrameKind.urgent : FrameKind → Bool
  | .claim => true
  | .taken => true
  | .release => true
  | .approach => true
  | .depart => true
  | _ => false

/-- A new payload supersedes a queued one: RUNNING of the same service, or ANNOUNCE (R87). -/
def Payload.supersedes (new old : Payload) : Bool :=
  match new, old with
  | .running f, .running g => f.service = g.service
  | .announce _, .announce _ => true
  | _, _ => false

/-- What became of a frame handed to the Line Controller (R86 to R88, R92). -/
inductive Handed where
  | queued (seq : Nat)
  | refused
  | dropped
  | muted
  deriving DecidableEq, Repr

/-- The sequence counter's next value (R80). -/
def nextSeq (n : Nat) : Nat := (n + 1) % 4096

/-- A frame enters at the tail with the next sequence; the first of an empty queue becomes current in WAITING (R86). -/
def Line.push (l : Line) (tick : Tick) (p : Payload) : Line :=
  { l with
    queue := l.queue ++ [⟨l.seqCounter, 0, p⟩]
    seqCounter := nextSeq l.seqCounter
    condition := if l.queue.isEmpty then .waiting tick else l.condition }

/-- A frame replaces a queued one in its place; a replaced current frame's successor is in WAITING (R87). -/
def Line.supersede (l : Line) (tick : Tick) (i : Nat) (p : Payload) : Line :=
  { l with
    queue := l.queue.set i ⟨l.seqCounter, 0, p⟩
    seqCounter := nextSeq l.seqCounter
    condition := if i = 0 then .waiting tick else l.condition }

/-- The condition of a queue's new current frame: WAITING, or no frame. -/
def freshCondition (q : List TxFrame) (tick : Tick) : LineCondition := if q.isEmpty then .noFrame else .waiting tick

/-- A frame leaves the queue; when it was the current one, the next becomes current in WAITING (R89). -/
def Line.remove (l : Line) (tick : Tick) (i : Nat) : Line :=
  { l with
    queue := l.queue.eraseIdx i
    condition := if i = 0 then freshCondition (l.queue.eraseIdx i) tick else l.condition }

/-- The place of the newest routine frame queued (R88). -/
def Line.newestRoutine (l : Line) : Option Nat :=
  ((l.queue.zipIdx.filter (fun p => !p.1.payload.kind.urgent)).getLast?).map (·.2)

/-- A frame handed to the Line Controller (R86): the first that applies of muted (R92), supersession (R87), room, full
queue (R88). The third part is the frame displaced, if any. -/
def Line.hand (l : Line) (tick : Tick) (p : Payload) : Handed × Line × Option TxFrame :=
  if l.muted then (.muted, l, none)
  else
    match l.queue.findIdx? (fun f => p.supersedes f.payload) with
    | some i => (.queued l.seqCounter, l.supersede tick i p, none)
    | none =>
      if l.queue.length < Config.queueCapacity then (.queued l.seqCounter, l.push tick p, none)
      else if p.kind.urgent then
        match l.newestRoutine with
        | some i => (.queued l.seqCounter, (l.remove tick i).push tick p, l.queue[i]?)
        | none => (.refused, l, none)
      else (.dropped, l, none)

/-- A frame handed over without regard to what it displaces. -/
def handToLine (p : Payload) (s : State) : Handed × State × Option TxFrame :=
  let r := s.line.hand s.clock.tick p
  (r.1, s.withLine r.2.1, r.2.2)

/-! ### Slots and pulls -/

/-- The Edition Store's state of a kind. -/
def Store.slot (st : Store) : TableKind → Slot
  | .timetable => st.timetable
  | .fare => st.fare

/-- The Edition Store with one kind's state replaced. -/
def Store.setSlot (st : Store) (k : TableKind) (x : Slot) : Store :=
  match k with
  | .timetable => { st with timetable := x }
  | .fare => { st with fare := x }

/-- The state of a kind. -/
def slotOf (s : State) (k : TableKind) : Slot := s.store.slot k

/-- The state with one kind's slot replaced. -/
def setSlot (k : TableKind) (x : Slot) (s : State) : State := s.withStore (s.store.setSlot k x)

/-- The staging slot emptied, the loader EMPTY, no fill and no pull; active image, pull wait and refused edition stay. -/
def Slot.cleared (x : Slot) : Slot :=
  { x with loader := .empty, staging := [], declared := none, offset := 0, origin := none, pull := none }

/-- A pull is abandoned (R113). -/
def abandonPull (k : TableKind) (s : State) : State := setSlot k (slotOf s k).cleared s

/-- The state with the pull record of a kind replaced. -/
def setPull (k : TableKind) (p : Pull) (s : State) : State := setSlot k { slotOf s k with pull := some p } s

/-- The SEG_REQ of a pull's expected index (R111, R112). -/
def segReqOf (k : TableKind) (p : Pull) : Payload := .segReq ⟨p.source, k, p.edition, p.index⟩

/-- The pull's request is handed over; a request refused or dropped counts at once as expired: the try count is examined,
and it is retried or the pull abandoned (R112). The fuel is the number of tries there can be. -/
def requestSegment : Nat → TableKind → Pull → State → State
  | 0, k, _, s => abandonPull k s
  | fuel + 1, k, p, s =>
    let r := handToLine (segReqOf k p) s
    match r.1 with
    | .queued seq => setPull k { p with request := some seq } r.2.1
    | _ =>
      if p.tries < Config.maxTries then requestSegment fuel k { p with tries := p.tries + 1 } r.2.1
      else abandonPull k r.2.1

/-- A request that received no reply: below the fourth try it is retried, else the pull is abandoned (R112). -/
def requestExpired (k : TableKind) (s : State) : State :=
  match (slotOf s k).pull with
  | none => s
  | some p =>
    if p.tries < Config.maxTries then
      requestSegment Config.maxTries k { p with tries := p.tries + 1, replyTimer := none, request := none } s
    else abandonPull k s

/-- The Line Controller reports that a SEG_REQ got no reply; it concerns the pull whose outstanding request it was (R90). -/
def segReqLost (k : TableKind) (seq : Nat) (s : State) : State :=
  match (slotOf s k).pull with
  | some p => if p.request = some seq then requestExpired k s else s
  | none => s

/-- A frame that left the queue unsent is reported when it is a SEG_REQ (R90). -/
def reportUnsent (f : TxFrame) (s : State) : State :=
  match f.payload with
  | .segReq g => segReqLost g.kind f.seq s
  | _ => s

/-- A block hands over a frame (R86); a SEG_REQ displaced by it is told to the Edition Store (R88, R90). -/
def handOver (p : Payload) (s : State) : Handed × State :=
  let r := handToLine p s
  match r.2.2 with
  | some f => (r.1, reportUnsent f r.2.1)
  | none => (r.1, r.2.1)

/-- A frame handed over whose fate its block is not told. -/
def hand (p : Payload) (s : State) : State := (handOver p s).2

/-- Withdrawal of an own CLAIM by its sequence (R89): whether it was done, and the queue after it. -/
def withdrawClaim (seq : Nat) (s : State) : Bool × State :=
  match s.line.queue.findIdx? (fun f => f.seq = seq && f.payload.kind = .claim) with
  | some i => (true, s.withLine (s.line.remove s.clock.tick i))
  | none => (false, s)

end Sys2Proof.Machine
end

