-- ==== Sys2Proof/Machine/Formats.lean ====
section
/-! DEFINITION. Bytes of the halt line and the host link (R188 to R190): field encodings, the two check words, the frames
a station sends and the result frames the host reads. Byte values are numbers 0..255. -/

namespace Sys2Proof.Machine

/-- The idle fill value (R190). -/
def idleFill : Nat := 0xFF

/-! ### Fields (R188) -/

/-- A number in one byte. -/
def num1 (n : Nat) : List Nat := [n % 256]

/-- A number in two bytes, most significant first. -/
def num2 (n : Nat) : List Nat := [n / 256 % 256, n % 256]

/-- A number in three bytes, most significant first. -/
def num3 (n : Nat) : List Nat := [n / 65536 % 256, n / 256 % 256, n % 256]

/-- A number in four bytes, most significant first. -/
def num4 (n : Nat) : List Nat := [n / 16777216 % 256, n / 65536 % 256, n / 256 % 256, n % 256]

/-- A lateness in two bytes of two's complement (R188). -/
def signed2 (l : Int) : List Nat := num2 ((l % 65536).toNat)

/-- A flag (R188). -/
def flag (b : Bool) : List Nat := [if b then 1 else 0]

/-- A date (R188). -/
def date3 (d : Date) : List Nat := [(d.year - 2000) % 256, d.month % 256, d.day % 256]

/-- An instant: a date and a service second. -/
def instant6 (i : Instant) : List Nat := date3 i.date ++ num3 i.second

/-- A running tick: whole seconds, then tenths (R188). -/
def tick5 (t : Tick) : List Nat := num4 (t / 10) ++ num1 (t % 10)

/-- A text: a count byte, then its characters (R188). -/
def text (t : Text) : List Nat := num1 t.length ++ t.map (· % 256)

/-- An optional part of a given length: a presence flag, then its bytes, all zero when absent (R188). -/
def optional {α : Type} (length : Nat) (bytes : α → List Nat) (x : Option α) : List Nat :=
  match x with
  | some a => 1 :: bytes a
  | none => 0 :: List.replicate length 0

/-- A list: a count byte, then the items (R188). -/
def counted {α : Type} (bytes : α → List Nat) (xs : List α) : List Nat := num1 xs.length ++ xs.flatMap bytes

/-- The number of a direction. -/
def directionByte : Direction → Nat
  | .up => 0
  | .down => 1

/-- The number of a pair. -/
def pairByte : PairId → Nat
  | .a => 0
  | .b => 1

/-- The number of a space class. -/
def classByte : SpaceClass → Nat
  | .bike => 0
  | .chair => 1

/-- The number of a bulletin kind. -/
def bulletinKindByte : BulletinKind → Nat
  | .info => 0
  | .suspension => 1

/-- Numbered bits, the first of a list as bit 0. -/
def bits : List Bool → Nat
  | [] => 0
  | b :: bs => (if b then 1 else 0) + 2 * bits bs

/-! ### Check words (R189, R190) -/

/-- One bit of the CRC-16 register: x^16 + x^12 + x^5 + 1 (R189). -/
def crc16Bit (c : BitVec 16) : BitVec 16 := if c.msb then (c <<< 1) ^^^ 0x1021#16 else c <<< 1

/-- One byte into the CRC-16, most significant bit first (R189). -/
def crc16Byte (c : BitVec 16) (b : Nat) : BitVec 16 := Nat.repeat crc16Bit 8 (c ^^^ (BitVec.ofNat 16 b <<< 8))

/-- The CRC-16 of some bytes, from 0xFFFF (R189). -/
def crc16 (bs : List Nat) : Nat := (bs.foldl crc16Byte 0xFFFF#16).toNat

/-- One bit of the CRC-8 register: x^8 + x^2 + x + 1 (R190). -/
def crc8Bit (c : BitVec 8) : BitVec 8 := if c.msb then (c <<< 1) ^^^ 0x07#8 else c <<< 1

/-- One byte into the CRC-8 (R190). -/
def crc8Byte (c : BitVec 8) (b : Nat) : BitVec 8 := Nat.repeat crc8Bit 8 (c ^^^ BitVec.ofNat 8 b)

/-- The CRC-8 of some bytes, from 0 (R190). -/
def crc8 (bs : List Nat) : Nat := (bs.foldl crc8Byte 0#8).toNat

/-! ### Bulletin text at 7 bits a character (R189) -/

/-- The bits of a number, most significant first. -/
def bitsOf (width n : Nat) : List Bool := ((List.range width).reverse).map n.testBit

/-- The number whose bits, most significant first, are these. -/
def ofBits (bs : List Bool) : Nat := bs.foldl (fun n b => 2 * n + (if b then 1 else 0)) 0

/-- Bits cut into groups of a width, a last one padded with zero bits; the number of groups is given. -/
def groups (width : Nat) : Nat → List Bool → List Nat
  | 0, _ => []
  | n + 1, bs => ofBits ((bs.take width) ++ List.replicate (width - (bs.take width).length) false) :: groups width n (bs.drop width)

/-- The bytes of a text of c characters: ceil(7c / 8) (R189). -/
def packedLength (c : Nat) : Nat := (7 * c + 7) / 8

/-- A text packed at 7 bits a character (R189). -/
def packText (t : Text) : List Nat := groups 8 (packedLength t.length) (t.flatMap (bitsOf 7))

/-! ### Halt line frames (R189) -/

/-- Frame kinds run from 1 in the order of R79 (R188). -/
def FrameKind.code : FrameKind → Nat
  | .announce => 1
  | .running => 2
  | .approach => 3
  | .depart => 4
  | .claim => 5
  | .taken => 6
  | .release => 7
  | .segReq => 8
  | .segment => 9
  | .bulletin => 10

/-- A carried speed: the SLOW flag, then the speed, 0 when SLOW (R189). -/
def speed4 : Speed → List Nat
  | .slow => flag true ++ num3 0
  | .cms v => flag false ++ num3 v

/-- The bits of a coverage (R189). -/
def coverageByte (c : Coverage) : Nat := bits [c.arrUp, c.arrDown, c.depUp, c.depDown]

/-- The payload of an ANNOUNCE, 17 bytes (R189). -/
def announceBytes (f : AnnounceFields) : List Nat :=
  num1 (bits [f.sells, f.shows]) ++ num2 f.haltCode ++ num2 f.timetable ++ num2 f.fare ++ date3 f.date ++ num3 f.second ++
    num1 f.tenths ++ num1 f.grade.code ++ num1 (coverageByte f.coverage) ++ flag f.fresh

/-- The payload of a RUNNING, 12 bytes as sent (R189). -/
def runningBytes (f : RunningFields) : List Nat :=
  num2 f.service ++ date3 f.date ++ num1 f.point ++ signed2 f.lateness ++ num3 f.observed ++ flag f.cancelled

/-- The payload of an APPROACH, 13 bytes (R189). -/
def approachBytes (f : ApproachFields) : List Nat :=
  num1 (directionByte f.direction) ++ num3 f.detect ++ speed4 f.speed ++ num2 f.etaStop ++ num2 f.etaPass ++ num1 (pairByte f.pair)

/-- The payload of a DEPART, 9 bytes (R189). -/
def departBytes (f : DepartFields) : List Nat :=
  num1 (directionByte f.direction) ++ num3 f.detect ++ speed4 f.speed ++ num1 (pairByte f.pair)

/-- The payload of a CLAIM, TAKEN or RELEASE, 8 bytes (R189). -/
def claimBytes (f : ClaimFields) : List Nat := num2 f.service ++ date3 f.date ++ num1 (classByte f.cls) ++ num2 f.seq

/-- The payload of a SEG_REQ, 5 bytes (R189). -/
def segReqBytes (f : SegReqFields) : List Nat := num1 f.addressee ++ num1 f.kind.code ++ num2 f.edition ++ num1 f.index

/-- The payload of a SEGMENT, 6 bytes and the data (R189). -/
def segmentBytes (f : SegmentFields) : List Nat :=
  num1 f.addressee ++ num1 f.kind.code ++ num2 f.edition ++ num1 f.index ++ flag f.gone ++ f.data.map BitVec.toNat

/-- The payload of a BULLETIN, 16 bytes and the packed text (R189). -/
def bulletinBytes (f : BulletinFields) : List Nat :=
  num1 f.origin ++ num1 f.number ++ num1 (bits [f.kind = .suspension, f.withdrawn]) ++ num1 f.text.length ++
    instant6 f.validFrom ++ instant6 f.validUntil ++ packText f.text

/-- The payload bytes of a frame (R189). -/
def Payload.bytes : Payload → List Nat
  | .announce f => announceBytes f
  | .running f => runningBytes f
  | .approach f => approachBytes f
  | .depart f => departBytes f
  | .claim f => claimBytes f
  | .taken f => claimBytes f
  | .release f => claimBytes f
  | .segReq f => segReqBytes f
  | .segment f => segmentBytes f
  | .bulletin f => bulletinBytes f

/-- Header and payload of a frame (R189). -/
def frameBody (h : FrameHead) (p : Payload) : List Nat :=
  num1 p.kind.code ++ num1 h.origin ++ num2 h.seq ++ num1 p.bytes.length ++ p.bytes

/-- The bytes of a frame: header, payload, CRC-16 (R189). -/
def frameBytes (h : FrameHead) (p : Payload) : List Nat := frameBody h p ++ num2 (crc16 (frameBody h p))

/-- The bytes the station drives for the frame it is sending (R81, R189). -/
def sendingBytes (station : Nat) (l : Line) : Option (List Nat) :=
  match l.condition, l.queue with
  | .sending, f :: _ => some (frameBytes ⟨station, f.seq⟩ f.payload)
  | _, _ => none

end Sys2Proof.Machine
end

