-- ==== Sys2Proof/Machine/Images.lean ====
section
/-! DEFINITION. Edition images: header, records, and the check (R103, R107, R108, R191). -/

namespace Sys2Proof.Machine

/-- Two bytes, most significant first (R188). -/
def be2 (a b : Nat) : Nat := a * 256 + b

/-- Three bytes, most significant first (R188). -/
def be3 (a b c : Nat) : Nat := (a * 256 + b) * 256 + c

/-- Byte values of an image. -/
def byteValues (bs : List Byte) : List Nat := bs.map BitVec.toNat

/-- The ten header bytes of an image (R191); the kind stays a number until test 3 reads it. -/
structure ImageHeader where
  kind : Nat
  haltCode : Nat
  edition : Nat
  length : Nat
  date : Date
  deriving DecidableEq, Repr

/-- The header an image's bytes begin with, when there are ten of them (R191). -/
def headerOf (bs : List Byte) : Option ImageHeader :=
  match byteValues bs with
  | k :: h1 :: h2 :: e1 :: e2 :: n1 :: n2 :: y :: m :: d :: _ => some ⟨k, be2 h1 h2, be2 e1 e2, be2 n1 n2, ⟨2000 + y, m, d⟩⟩
  | _ => none

/-- The longest image of a kind (R103). -/
def imageLimit : TableKind → Nat
  | .timetable => 6144
  | .fare => 2048

/-- A header and an integrity word: the shortest image (R103, R191). -/
def imageMinimum : Nat := 12

/-- The signature byte of a kind (R103). -/
def signatureOf : TableKind → Nat
  | .timetable => 0x71
  | .fare => 0x46

/-! ### Timetable records -/

/-- What a timetable image holds (R108). -/
structure Timetable where
  destinations : List Text
  entries : List CallEntry
  deriving DecidableEq, Repr

/-- The upstream points of a call entry's body, five bytes each: code, T, A (R191). -/
def pointsOf : List Nat → List UpstreamPoint
  | c :: t1 :: t2 :: a1 :: a2 :: rest => ⟨c, be2 t1 t2, be2 a1 a2⟩ :: pointsOf rest
  | _ => []

/-- A text body: a count byte, then that many characters (R188, R191). -/
def textOf : List Nat → Option Text
  | c :: cs => if c = cs.length then some cs else none
  | [] => none

/-- A call entry's body (R191): flag bits beyond bit 2 and bit 7 of the day mask make it bad, as does a body length that
its point count does not require. -/
def entryOf : List Nat → Option CallEntry
  | s1 :: s2 :: flags :: dest :: a1 :: a2 :: d1 :: d2 :: mask :: bike :: chair :: np :: rest =>
    if flags < 8 && mask < 128 && np ≤ 3 && rest.length = 5 * np then
      some { service := be2 s1 s2, kind := if flags.testBit 0 then .pass else .stop,
             platform := if flags.testBit 2 then 2 else 1, direction := if flags.testBit 1 then .down else .up,
             destination := dest, arrival := be2 a1 a2, departure := be2 d1 d2, dayMask := mask, bike := bike,
             chair := chair, points := pointsOf rest }
    else none
  | _ => none

/-- An upstream point's ranges (R108). -/
def UpstreamPoint.inRange (u : UpstreamPoint) : Bool :=
  u.code ≤ 255 && 60 ≤ u.runTime && u.runTime ≤ 7200 && u.allowance ≤ 600

/-- A call entry's ranges (R108), given the number of destination records. -/
def CallEntry.inRange (e : CallEntry) (destinations : Nat) : Bool :=
  1 ≤ e.service && e.service ≤ 9999 && e.destination < destinations && e.arrival ≤ 1439 && e.arrival ≤ e.departure &&
    e.departure ≤ e.arrival + 10 && e.departure ≤ 1439 && e.points.all UpstreamPoint.inRange && e.bike ≤ 8 && e.chair ≤ 2

/-- An earlier entry of the same service number shares a weekday (R108). -/
def CallEntry.clashes (e : CallEntry) (earlier : List CallEntry) : Bool :=
  earlier.any (fun x => x.service = e.service && (x.dayMask &&& e.dayMask) ≠ 0)

/-- A timetable with one more record, or none when the record is bad (R108, R191). -/
def Timetable.addRecord (t : Timetable) (kind : Nat) (body : List Nat) : Option Timetable :=
  match kind with
  | 1 =>
    match textOf body with
    | some x =>
      if t.entries.isEmpty && t.destinations.length < 48 && 1 ≤ x.length && x.length ≤ 40 && Text.inCharset x then
        some { t with destinations := t.destinations ++ [x] }
      else none
    | none => none
  | 2 =>
    match entryOf body with
    | some e =>
      if e.inRange t.destinations.length && !e.clashes t.entries then some { t with entries := t.entries ++ [e] } else none
    | none => none
  | _ => none

/-- The walk over the records from an offset (R191): the timetable, or the offset of the first bad or missing record. -/
def walkTimetable : Nat → Nat → List Nat → Timetable → Except Nat Timetable
  | _, off, [], t => if t.destinations.isEmpty then .error off else .ok t
  | fuel + 1, off, k :: l :: rest, t =>
    if rest.length < l then .error off
    else
      match t.addRecord k (rest.take l) with
      | some t' => walkTimetable fuel (off + 2 + l) (rest.drop l) t'
      | none => .error off
  | _, off, _, _ => .error off

/-! ### Fare records -/

/-- A fare station (R121). -/
structure FareStation where
  code : Nat
  nameIndex : Nat
  band : Nat
  deriving DecidableEq, Repr

/-- A product (R122). -/
structure Product where
  id : Nat
  cls : ProductClass
  offPeakEligible : Bool
  deriving DecidableEq, Repr

/-- The off-peak rule (R124). -/
structure OffPeakRule where
  mask : Nat
  start : Nat
  stop : Nat
  percent : Nat
  deriving DecidableEq, Repr

/-- What a fare image holds (R108): the band tables stand in product order. -/
structure FareTable where
  stations : List FareStation
  products : List Product
  bands : List (List Nat)
  concessions : List (Nat × Nat)
  offPeak : Option OffPeakRule
  groupLimit : Option Nat
  deriving DecidableEq, Repr

/-- The product class a number names (R122, R188). -/
def productClassOf : Nat → Option ProductClass
  | 0 => some .single
  | 1 => some .ret
  | 2 => some .day
  | 3 => some .spaceBike
  | 4 => some .spaceChair
  | _ => none

/-- Base fares of a band table body, three bytes each (R191). -/
def faresOf : List Nat → List Nat
  | a :: b :: c :: rest => be3 a b c :: faresOf rest
  | _ => []

/-- A fare station record (R108). -/
def FareTable.addStation (t : FareTable) : List Nat → Option FareTable
  | [c1, c2, name, band] =>
    if t.products.isEmpty && t.stations.length < 63 && !t.stations.any (fun x => x.code = be2 c1 c2) && name ≤ 47 &&
        1 ≤ band && band ≤ 12 then
      some { t with stations := t.stations ++ [⟨be2 c1 c2, name, band⟩] }
    else none
  | _ => none

/-- A product record (R108). -/
def FareTable.addProduct (t : FareTable) : List Nat → Option FareTable
  | [id, cls, flag] =>
    match productClassOf cls with
    | some c =>
      if !t.stations.isEmpty && t.bands.isEmpty && t.products.length < 12 && 1 ≤ id && id ≤ 15 &&
          !t.products.any (fun x => x.id = id) then
        some { t with products := t.products ++ [⟨id, c, flag != 0⟩] }
      else none
    | none => none
  | _ => none

/-- A band table record, exactly one per product (R108). -/
def FareTable.addBands (t : FareTable) (body : List Nat) : Option FareTable :=
  if body.length = 36 && t.bands.length < t.products.length && t.concessions.isEmpty && t.offPeak.isNone &&
      (faresOf body).all (· ≤ 99999) then
    some { t with bands := t.bands ++ [faresOf body] }
  else none

/-- Every product has its band table, and there is a product. -/
def FareTable.bandsComplete (t : FareTable) : Bool := !t.products.isEmpty && t.bands.length = t.products.length

/-- A concession record (R108). -/
def FareTable.addConcession (t : FareTable) : List Nat → Option FareTable
  | [id, pct] =>
    if t.bandsComplete && t.offPeak.isNone && t.concessions.length < 6 && 1 ≤ id && id ≤ 15 &&
        !t.concessions.any (fun x => x.1 = id) && 10 ≤ pct && pct ≤ 100 then
      some { t with concessions := t.concessions ++ [(id, pct)] }
    else none
  | _ => none

/-- The off-peak rule record (R108). -/
def FareTable.addOffPeak (t : FareTable) : List Nat → Option FareTable
  | [mask, s1, s2, e1, e2, pct] =>
    if t.bandsComplete && t.offPeak.isNone && mask < 128 && be2 s1 s2 ≤ 1439 && be2 e1 e2 ≤ 1439 && 10 ≤ pct && pct ≤ 100 then
      some { t with offPeak := some ⟨mask, be2 s1 s2, be2 e1 e2, pct⟩ }
    else none
  | _ => none

/-- The group limit record (R108). -/
def FareTable.addGroupLimit (t : FareTable) : List Nat → Option FareTable
  | [n] => if t.offPeak.isSome && t.groupLimit.isNone && 1 ≤ n && n ≤ 9 then some { t with groupLimit := some n } else none
  | _ => none

/-- A fare table with one more record, or none when the record is bad; nothing follows the group limit (R108, R191). -/
def FareTable.addRecord (t : FareTable) (kind : Nat) (body : List Nat) : Option FareTable :=
  if t.groupLimit.isSome then none
  else
    match kind with
    | 3 => t.addStation body
    | 4 => t.addProduct body
    | 5 => t.addBands body
    | 6 => t.addConcession body
    | 7 => t.addOffPeak body
    | 8 => t.addGroupLimit body
    | _ => none

/-- The walk over a fare image's records (R191). -/
def walkFare : Nat → Nat → List Nat → FareTable → Except Nat FareTable
  | _, off, [], t => if t.groupLimit.isNone then .error off else .ok t
  | fuel + 1, off, k :: l :: rest, t =>
    if rest.length < l then .error off
    else
      match t.addRecord k (rest.take l) with
      | some t' => walkFare fuel (off + 2 + l) (rest.drop l) t'
      | none => .error off
  | _, off, _, _ => .error off

/-! ### Whole images -/

/-- The record bytes of an image: from byte 10 up to the integrity word (R191). -/
def recordBytes (bs : List Byte) : List Nat := ((byteValues bs).take (bs.length - 2)).drop 10

/-- The records of a timetable image. -/
def timetableRecords (bs : List Byte) : Except Nat Timetable :=
  walkTimetable (recordBytes bs).length 10 (recordBytes bs) ⟨[], []⟩

/-- The records of a fare image. -/
def fareRecords (bs : List Byte) : Except Nat FareTable :=
  walkFare (recordBytes bs).length 10 (recordBytes bs) ⟨[], [], [], [], none, none⟩

/-- The timetable an image holds; empty when it holds none that is well-formed. -/
def timetableOf (bs : List Byte) : Timetable :=
  match timetableRecords bs with
  | .ok t => t
  | .error _ => ⟨[], []⟩

/-- The fare table an image holds; empty when it holds none that is well-formed. -/
def fareTableOf (bs : List Byte) : FareTable :=
  match fareRecords bs with
  | .ok t => t
  | .error _ => ⟨[], [], [], [], none, none⟩

/-- The entries a weekday selects, in timetable order (R17). -/
def entriesOn (t : Timetable) (weekday : Nat) : List CallEntry := t.entries.filter (fun e => e.dayMask.testBit weekday)

/-- Test 7 of R107: the offset of the first bad record, if any. -/
def badRecord (kind : TableKind) (bs : List Byte) : Option Nat :=
  match kind with
  | .timetable => match timetableRecords bs with | .ok _ => none | .error o => some o
  | .fare => match fareRecords bs with | .ok _ => none | .error o => some o

/-- Test 8 of R107: some weekday selects more than 192 call entries. -/
def tooManyCalls (kind : TableKind) (bs : List Byte) : Bool :=
  match kind with
  | .timetable => (List.range 7).any (fun w => Config.maxCalls < (entriesOn (timetableOf bs) w).length)
  | .fare => false

/-- Tests 3 to 8 of R107, on the header. -/
def checkHeader (kind : TableKind) (haltCode activeEdition : Nat) (bs : List Byte) (h : ImageHeader) :
    Option (Reason × Nat) :=
  if h.kind ≠ kind.code then some (.wrongKind, 0)
  else if h.haltCode ≠ haltCode then some (.wrongHalt, 0)
  else if h.length ≠ bs.length || h.edition = 0 || (kind = .timetable && !h.date.valid) then some (.badRecord, 0)
  else if h.edition ≤ activeEdition then some (.notNewer, 0)
  else
    match badRecord kind bs with
    | some o => some (.badRecord, o)
    | none => if tooManyCalls kind bs then some (.tooManyCalls, 0) else none

/-- The check of R107: the reason and offset of the first failing test, or none when the image passes. -/
def checkImage (kind : TableKind) (haltCode activeEdition : Nat) (bs : List Byte) : Option (Reason × Nat) :=
  if (byteValues bs).foldl (· + ·) 0 % 256 ≠ 0 then some (.badIntegrity, 0)
  else if (byteValues bs).getLast? ≠ some (signatureOf kind) then some (.badSignature, 0)
  else
    match headerOf bs with
    | none => some (.badRecord, 0)
    | some h => checkHeader kind haltCode activeEdition bs h

/-- The edition in an image's header. -/
def editionOf (bs : List Byte) : Nat :=
  match headerOf bs with
  | some h => h.edition
  | none => 0

/-- The effective date in a timetable image's header. -/
def effectiveDateOf (bs : List Byte) : Date :=
  match headerOf bs with
  | some h => h.date
  | none => zeroDate

/-- The segment of an image with an index, if the index names one (R103). -/
def segmentOf (bs : List Byte) (index : Nat) : Option (List Byte) :=
  if index * Config.segmentSize < bs.length then some ((bs.drop (index * Config.segmentSize)).take Config.segmentSize) else none

end Sys2Proof.Machine
end

