-- ==== Sys2Proof/Machine/Prediction.lean ====
section
/-! DEFINITION. The prediction arithmetic (R43 to R48), the evaluation of one call (R22), call building and carrying
(R17, R18, R33), and the choice of the call an observation belongs to (R49 to R52). -/

namespace Sys2Proof.Machine

/-! ### Stages 1 to 6 -/

/-- Stage 1: the recovery allowance of the point a report names, 0 at the halt (R43). -/
def pointAllowance (points : List UpstreamPoint) (point : Nat) : Nat :=
  match points[point]? with
  | some u => u.allowance
  | none => 0

/-- Stage 2: the lateness propagated to arrival (R43). -/
def propagatedLateness (lateness : Int) (allowance : Nat) : Int :=
  if lateness ≤ 0 then lateness else if lateness ≤ allowance then 0 else lateness - allowance

/-- Stage 3: E_base, clamped to 0..108,000 (R44). -/
def baseArrival (schedArr : Nat) (points : List UpstreamPoint) (report : Option BestReport) : Nat :=
  match report with
  | none => clampNat 0 108000 schedArr
  | some r => clampNat 0 108000 ((schedArr : Int) + propagatedLateness r.lateness (pointAllowance points r.point)).toNat

/-- Stage 5: E_a from an approach observation (R46). -/
def approachArrival (schedArr detect eta : Nat) : Nat := max (detect + eta) (schedArr - 900)

/-- Stage 6: E_d (R47). -/
def expectedDeparture (kind : CallKind) (schedArr schedDep minDwell arr : Nat) : Nat :=
  match kind with
  | .stop => max schedDep (arr + max (schedDep - schedArr) minDwell)
  | .pass => arr

/-- The call with E_a and creep set, and E_d recomputed (R47); E_base stays. -/
def Call.setArrival (minDwell : Nat) (c : Call) (e : Estimates) (arr creep : Nat) : Call :=
  { c with
    estimates := some ⟨e.base, arr, expectedDeparture c.kind c.schedArr c.schedDep minDwell arr, creep⟩ }

/-- Stage 4: creep, with the current service second (R45). -/
def Call.creepTo (minDwell second : Nat) (c : Call) (e : Estimates) : Call :=
  if c.delayed then c.setArrival minDwell e (e.base + 1200) 1200
  else if second + 30 < e.base then c.setArrival minDwell e e.base 0
  else if second + 30 - e.base ≤ 1200 then c.setArrival minDwell e (second + 30) (second + 30 - e.base)
  else { c.setArrival minDwell e (e.base + 1200) 1200 with delayed := true }

/-- The call with fresh estimates from E_base: E_a = E_base, creep 0, delayed clear (R48). -/
def Call.fromBase (minDwell : Nat) (c : Call) (base : Nat) : Call :=
  { c.setArrival minDwell ⟨base, base, base, 0⟩ base 0 with delayed := false }

/-! ### Evaluation (R22) -/

/-- What an evaluation reads beside the call: watch view, service second, minimum dwell. -/
structure EvalContext where
  watch : Coverage
  second : Nat
  minDwell : Nat
  deriving DecidableEq, Repr

/-- Condition 1, first part: creep (R22, R45). -/
def creepPhase (x : EvalContext) (c : Call) : Call :=
  match c.estimates with
  | some e =>
    if c.state.awaited && x.watch.arrival c.direction && c.approach.isNone then c.creepTo x.minDwell x.second e else c
  | none => c

/-- Condition 1, second part: lapse (R22, R30). -/
def lapsePhase (x : EvalContext) (c : Call) : Call :=
  match c.estimates with
  | some e =>
    if c.state.awaited && x.watch.arrival c.direction && c.delayed && e.base + 3000 ≤ x.second then { c with state := .lapsed }
    else c
  | none => c

/-- Conditions 2 and 3: arrival (R22, R28). -/
def arrivePhase (x : EvalContext) (c : Call) : Call :=
  match c.estimates with
  | some e =>
    if ((c.state.awaited && !x.watch.arrival c.direction) || c.state = .approaching) && e.arr ≤ x.second then
      { c with state := .arrived }
    else c
  | none => c

/-- The departure margin beyond E_d (R29). -/
def departureMargin (x : EvalContext) (c : Call) : Nat := if x.watch.departure c.direction then 900 else 30

/-- Condition 4: assumed departure (R22, R29). -/
def departPhase (x : EvalContext) (c : Call) : Call :=
  match c.estimates with
  | some e => if c.state.atHand && e.dep + departureMargin x c ≤ x.second then { c with state := .departed } else c
  | none => c

/-- The evaluation of one call to its end: the conditions in order; no later one brings an earlier one back (R22). -/
def evaluated (x : EvalContext) (c : Call) : Call := departPhase x (arrivePhase x (lapsePhase x (creepPhase x c)))

/-- The calls an evaluation concerns: live and not CANCELLED, at a grade above 0 (R22, R12). -/
def evaluable (grade : ClockGrade) (c : Call) : Bool := grade != .unset && !c.state.over

/-- The unwatched case a PENDING or REPORTED call is brought to when its arrival flag clears (R21). -/
def Call.unwatched (minDwell : Nat) (c : Call) : Call :=
  match c.estimates with
  | some e => c.fromBase minDwell e.base
  | none => { c with delayed := false }

/-! ### Building (R17, R18) -/

/-- The build estimates of a call (R18). -/
def Call.withBuildEstimates (minDwell : Nat) (c : Call) : Call :=
  c.setArrival minDwell ⟨baseArrival c.schedArr c.points none, 0, 0, 0⟩ (baseArrival c.schedArr c.points none) 0

/-- A new call from its entry: PENDING, nothing known, estimates from the schedule at grades 1..3 (R15, R18). -/
def callOf (grade : ClockGrade) (minDwell : Nat) (e : CallEntry) : Call :=
  let c : Call :=
    { service := e.service, kind := e.kind, platform := e.platform, direction := e.direction, destination := e.destination,
      schedArr := 60 * e.arrival, schedDep := if e.kind = .pass then 60 * e.arrival else 60 * e.departure,
      points := e.points, bike := e.bike, chair := e.chair, state := .pending, estimates := none, delayed := false,
      source := .schedule, report := none, approach := none, sensed := false }
  if grade = .unset then c else c.withBuildEstimates minDwell

/-- The new calls of a build: the selected entries in timetable order, at most 192 (R17). -/
def newCalls (grade : ClockGrade) (minDwell weekday : Nat) (t : Timetable) : List Call :=
  ((entriesOn t weekday).take Config.maxCalls).map (callOf grade minDwell)

/-- The old call a new call is kept from: same service number and direction (R33). -/
def keptFrom (old : List Call) (c : Call) : Option Call :=
  old.find? (fun o => o.service = c.service && o.direction = c.direction)

/-- The estimates of a kept call, brought up to the new schedule (R33, R48). -/
def Call.recomputed (minDwell : Nat) (c : Call) : Call :=
  match c.estimates with
  | none => c
  | some e =>
    let base := baseArrival c.schedArr c.points c.report
    match c.approach with
    | some a => c.setArrival minDwell { e with base := base } (approachArrival c.schedArr a.detect a.eta) e.creep
    | none =>
      c.setArrival minDwell { e with base := base } (if c.delayed then base + 1200 else base + e.creep) e.creep

/-- A new call carrying the running state of the old one, its source of estimate with it (R33; log entry 22). -/
def carried (minDwell : Nat) (new old : Call) : Call :=
  { new with state := old.state, report := old.report, approach := old.approach, estimates := old.estimates,
             source := old.source, delayed := old.delayed, sensed := old.sensed }.recomputed minDwell

/-- A new call of a swap build: carried when kept (R33). -/
def swapped (minDwell : Nat) (old : List Call) (c : Call) : Call :=
  match keptFrom old c with
  | some o => carried minDwell c o
  | none => c

/-- The service numbers of the old calls that a swap drops (R34). -/
def droppedBy (old new : List Call) : List Nat :=
  (old.filter (fun o => !new.any (fun c => c.service = o.service && c.direction = o.direction))).map (·.service)

/-! ### Reports (R41 to R43) -/

/-- The merging rule (R41). -/
def mergePasses (c : Call) (observed : Nat) : Bool :=
  match c.report with
  | none => true
  | some r => r.observed < observed

/-- The best report an accepted report becomes (R38). -/
def bestReportOf (f : RunningFields) (origin : Nat) : BestReport :=
  ⟨f.point, clampLateness f.lateness, f.observed, origin, f.cancelled⟩

/-- The effect of an accepted report on its call, before any evaluation (R23 to R26). -/
def Call.withReport (minDwell : Nat) (c : Call) (r : BestReport) : Call :=
  match c.state with
  | .pending | .reported =>
    if r.cancelled then { c with report := some r, source := .report, state := .cancelled, delayed := false }
    else { c with report := some r, source := .report, state := .reported }.fromBase minDwell
      (baseArrival c.schedArr c.points (some r))
  | .cancelled =>
    if r.cancelled then { c with report := some r }
    else { c with report := some r, source := .report, state := .reported }.fromBase minDwell
      (baseArrival c.schedArr c.points (some r))
  | .approaching | .arrived => { c with report := some r }
  | .departed | .lapsed => c

/-! ### Observations (R49 to R52) -/

/-- An approach observation (R49). -/
structure ApproachObs where
  direction : Direction
  detect : Nat
  speed : Speed
  etaStop : Nat
  etaPass : Nat
  pair : PairId
  origin : Nat
  deriving DecidableEq, Repr

/-- The ETA that fits the kind of a call (R74). -/
def ApproachObs.etaFor (o : ApproachObs) : CallKind → Nat
  | .stop => o.etaStop
  | .pass => o.etaPass

/-- The approach record an observation makes for a call (R27, R74). -/
def ApproachObs.recordFor (o : ApproachObs) (c : Call) : ApproachRecord :=
  ⟨o.detect, o.speed, o.etaFor c.kind, o.pair, o.origin⟩

/-- The better of two candidates: smaller distance, then earlier S_a; the first of equals (R49). -/
def nearer (a b : Nat × Nat × Nat) : Nat × Nat × Nat :=
  if b.2.1 < a.2.1 || (b.2.1 = a.2.1 && b.2.2 < a.2.2) then b else a

/-- The nearest of the candidates (index, distance, S_a), which stand in index order. -/
def nearest : List (Nat × Nat × Nat) → Option Nat
  | [] => none
  | x :: xs => some (xs.foldl nearer x).1

/-- The candidates among the calls: those for which a distance is given, with their index and S_a. -/
def candidates (dist : Call → Option Nat) (calls : List Call) : List (Nat × Nat × Nat) :=
  calls.zipIdx.filterMap (fun p => (dist p.1).map (fun d => (p.2, d, p.1.schedArr)))

/-- A call's distance under the duplicate rule (R51): APPROACHING or ARRIVED, of the direction, predicted arrival within
300 s. -/
def duplicateDistance (o : ApproachObs) (c : Call) : Option Nat :=
  match c.approach with
  | some a =>
    let d := natDist (a.detect + a.eta) (o.detect + o.etaFor c.kind)
    if c.direction = o.direction && c.state.atHand && d ≤ 300 then some d else none
  | none => none

/-- A call's distance for a fresh match (R49): PENDING or REPORTED, of the direction, E_a within 1200 s. -/
def freshDistance (o : ApproachObs) (c : Call) : Option Nat :=
  match c.estimates with
  | some e =>
    let d := natDist e.arr (o.detect + o.etaFor c.kind)
    if c.direction = o.direction && c.state.awaited && d ≤ 1200 then some d else none
  | none => none

/-- A call's distance from a departure observation (R52): APPROACHING or ARRIVED, of the direction, E_d within 900 s. -/
def departureDistance (direction : Direction) (second : Nat) (c : Call) : Option Nat :=
  match c.estimates with
  | some e =>
    let d := natDist e.dep second
    if c.direction = direction && c.state.atHand && d ≤ 900 then some d else none
  | none => none

/-- The observation replaces the held record: earlier detect second, or equal and lower origin (R51). -/
def ApproachObs.replaces (o : ApproachObs) (a : ApproachRecord) : Bool :=
  o.detect < a.detect || (o.detect = a.detect && o.origin < a.origin)

/-- The call with an approach record and E_a, E_d from it, creep 0, delayed clear (R27, R46). -/
def Call.withApproach (minDwell : Nat) (c : Call) (a : ApproachRecord) : Call :=
  match c.estimates with
  | some e =>
    { c.setArrival minDwell e (approachArrival c.schedArr a.detect a.eta) 0 with
      approach := some a, source := .approach, delayed := false }
  | none => { c with approach := some a, source := .approach, delayed := false }

/-- A fresh match makes the call APPROACHING (R27). -/
def Call.matched (minDwell : Nat) (c : Call) (a : ApproachRecord) : Call :=
  { c.withApproach minDwell a with state := .approaching }

/-- The shown expected minute floor((E_d + 30) / 60) of a call that holds estimates (R53). -/
def Call.shownMinute (c : Call) : Option Nat := c.estimates.map (fun e => (e.dep + 30) / 60)

/-- The call's E_d, when it holds estimates. -/
def Call.departure (c : Call) : Option Nat := c.estimates.map (·.dep)

/-- The index of the call with a service number (R15: no two share one). -/
def callIndex (calls : List Call) (service : Nat) : Option Nat := calls.findIdx? (fun c => c.service = service)

/-- The capacity of a class on a call. -/
def Call.capacity (c : Call) : SpaceClass → Nat
  | .bike => c.bike
  | .chair => c.chair

end Sys2Proof.Machine
end

