-- ==== Sys2Proof/Machine/BoardImage.lean ====
section
/-! DEFINITION. The Board Composer: texts (R53 to R55), listing, rows, pages, status row, brightness (R158 to R167),
composition and panel port (R165), passing warning (R163, R164). -/

namespace Sys2Proof.Machine

/-! ### Texts -/

/-- A number in two digits. -/
def twoDigits (n : Nat) : Text := [48 + n / 10 % 10, 48 + n % 10]

/-- A number of one or two digits without a leading zero. -/
def shortNumber (n : Nat) : Text := if n < 10 then [48 + n] else twoDigits n

/-- A minute of the day as hh:mm (R53). -/
def hhmm (minute : Nat) : Text := twoDigits (minute / 60) ++ txt ":" ++ twoDigits (minute % 60)

/-- Seconds after midnight as hh:mm:ss (R162). -/
def hhmmss (seconds : Nat) : Text := hhmm (seconds / 60) ++ txt ":" ++ twoDigits (seconds % 60)

/-- The minute of the day of a service minute (R53). -/
def clockMinute (rolloverMinute minute : Nat) : Nat := (minute % 1440 + rolloverMinute) % 1440

/-- A text cut to a width and blank-padded on the right. -/
def fit (width : Nat) (t : Text) : Text := t.take width ++ List.replicate (width - t.length) 32

/-- A text right-aligned in a width. -/
def alignRight (width : Nat) (t : Text) : Text := List.replicate (width - t.length) 32 ++ t.take width

/-- The status text of a listed call, at grades 1..3 (R54). -/
def statusText (rolloverMinute : Nat) (c : Call) (e : Estimates) : Text :=
  match c.state with
  | .cancelled => txt "Cancelled"
  | .approaching => txt "Approaching"
  | .arrived => txt "At platform"
  | _ =>
    if c.delayed then txt "Delayed"
    else if e.dep < c.schedDep + 60 then txt "On time"
    else txt "Exp " ++ hhmm (clockMinute rolloverMinute ((e.dep + 30) / 60))

/-- The countdown of a listed call (R55). -/
def countdown (second : Nat) (c : Call) (e : Estimates) : Text :=
  if c.state = .cancelled || c.delayed then []
  else if e.dep < second + 60 then txt "Due"
  else if e.dep ≤ second + 5999 then shortNumber ((e.dep - second) / 60) ++ txt " min"
  else []

/-! ### Listing (R159) -/

/-- A call is listed (R159). -/
def listedOn (filter second : Nat) (c : Call) : Bool :=
  c.kind = .stop && (filter = 0 || filter = c.platform) && c.state.live &&
    (c.state != .cancelled || second < c.schedDep + 600)

/-- E_d and service number order the listing (R159); a call without estimates stands as E_d 0 (log entry 42). -/
def listedBefore (a b : Call) : Bool :=
  let da := a.departure.getD 0
  let db := b.departure.getD 0
  da < db || (da = db && a.service ≤ b.service)

/-- Insertion into the ordered listing. -/
def insertListed (c : Call) : List Call → List Call
  | [] => [c]
  | x :: xs => if listedBefore c x then c :: x :: xs else x :: insertListed c xs

/-- The number of call rows n = rows − 1 (R159). -/
def callRows (b : BoardConfig) : Nat := b.rows - 1

/-- The page index: the phase when more than n calls are listed, else 0 (R161). -/
def pageOf (b : Board) (listed : List Call) : Nat := if callRows b.config < listed.length then b.phase else 0

/-! ### Rows (R160) -/

/-- Whether the countdown field is present: 36 columns or more (R160). -/
def hasCountdown (b : BoardConfig) : Bool := 36 ≤ b.columns

/-- The destination width D, when D ≥ 1 (R160). -/
def destinationWidth (b : BoardConfig) : Nat :=
  b.columns - 18 - (if b.filter = 0 then 2 else 0) - (if hasCountdown b then 7 else 0)

/-- One call row of NORMAL (R160). A listed call that holds no estimates yet, while a first step gives them call by call, is a
blank row (log entry 42). -/
def callRow (b : BoardConfig) (rolloverMinute second : Nat) (destinations : List Text) (c : Call) : Text :=
  match c.estimates with
  | none => fit b.columns []
  | some e =>
    let time := hhmm (clockMinute rolloverMinute (c.schedDep / 60)) ++ [32]
    let platform := if b.filter = 0 then shortNumber c.platform ++ [32] else []
    let dest := if destinationWidth b = 0 then [] else fit (destinationWidth b) (destinations.getD c.destination []) ++ [32]
    let count := if hasCountdown b then [32] ++ alignRight 6 (countdown second c e) else []
    fit b.columns (time ++ platform ++ dest ++ fit 11 (statusText rolloverMinute c e) ++ count)

/-- A text cut into consecutive pieces of a width, one a row, for a number of rows (R160). -/
def pieces (width : Nat) : Nat → Text → List Text
  | 0, _ => []
  | n + 1, t => fit width t :: pieces width n (t.drop width)

/-- The mode, by the first row of the table of R158 whose condition holds. -/
def modeOf (s : State) : BoardMode :=
  if s.store.timetable.active.isNone then .noTimetable
  else if s.clock.grade = .unset then .noTime
  else if s.bulletins.suspensionShown.isSome then .suspended
  else .normal

/-- The listed calls in order (R159): in NORMAL they are selected from the Call Table; in the other modes none is. -/
def listing (s : State) : List Call :=
  if modeOf s = .normal then
    (s.calls.calls.filter (listedOn s.board.config.filter s.clock.second)).foldr insertListed []
  else []

/-- The destination texts of the active timetable. -/
def destinationsOf (s : State) : List Text :=
  match s.store.timetable.active with
  | some image => (timetableOf image).destinations
  | none => []

/-- The call rows of the present mode (R158 to R160). -/
def callRowTexts (s : State) : List Text :=
  let b := s.board.config
  match modeOf s with
  | .noTimetable => List.replicate (callRows b) (fit b.columns (txt "Timetable loading"))
  | .noTime => List.replicate (callRows b) (fit b.columns (txt "Times not available"))
  | .suspended => pieces b.columns (callRows b) (match s.bulletins.suspensionShown with | some x => x.text | none => [])
  | .normal =>
    let listed := listing s
    let shown := (listed.drop (pageOf s.board listed * callRows b)).take (callRows b)
    shown.map (callRow b s.setup.settings.rolloverMinute s.clock.second (destinationsOf s)) ++
      List.replicate (callRows b - shown.length) (fit b.columns [])

/-- The status row (R158, R162, R164). -/
def statusRow (s : State) : Text :=
  let b := s.board.config
  if s.board.warnUp.isSome || s.board.warnDown.isSome then
    fit b.columns (if 26 ≤ b.columns then txt "Stand back - train passing" else txt "Train passing")
  else
    match modeOf s with
    | .noTimetable => fit b.columns (txt "Timetable loading")
    | .noTime => fit b.columns (txt "Times not available")
    | _ =>
      let clock := hhmmss (clockSeconds s.setup.settings.rolloverMinute s.clock.second)
      match s.bulletins.newestInfo with
      | some x => fit b.columns (if s.board.phase = 1 then x.text else clock)
      | none => fit b.columns clock

/-- The service minute lies in the night window (R167). -/
def inNight (b : BoardConfig) (minute : Nat) : Bool :=
  if b.nightStart < b.nightEnd then b.nightStart ≤ minute && minute < b.nightEnd
  else if b.nightEnd < b.nightStart then b.nightStart ≤ minute || minute < b.nightEnd
  else false

/-- The brightness level of a composed image (R167). -/
def brightnessOf (s : State) : Nat :=
  match s.board.override with
  | some x => x
  | none =>
    if s.clock.grade = .unset then s.board.config.dayLevel
    else if inNight s.board.config (serviceMinute s.clock.second) then s.board.config.nightLevel
    else s.board.config.dayLevel

/-- The frame image of the present state (R165): call rows, then the status row. -/
def composedImage (s : State) : FrameImage :=
  { cells := (callRowTexts s ++ [statusRow s]).map (fun row => row.map Cell.glyph), level := brightnessOf s }

/-- The lamp-test image: every cell lit, brightness 7 (R166). -/
def lampImage (b : BoardConfig) : FrameImage := { cells := List.replicate b.rows (List.replicate b.columns .lit), level := 7 }

/-! ### Composition and port (R165) -/

/-- The Board Composer has started: a SHOWS station from START on (R157, R186). -/
def boardActive (s : State) : Bool := s.setup.straps.shows && s.board.rotation.isSome

/-- An image is handed to the port: sent when IDLE, pending when SENDING (R165). -/
def Board.handToPort (b : Board) (x : FrameImage) : Board :=
  match b.sending with
  | none => { b with sending := some x }
  | some _ => { b with waitingImage := some x }

/-- What the panel port sends: a cell, or the brightness level (R165). -/
inductive PortItem where
  | cell (c : Cell)
  | level (n : Nat)
  deriving DecidableEq, Repr

/-- An image in the order in which it is sent: row 0 first, each row from left to right, then the brightness level (R165). -/
def FrameImage.sendOrder (x : FrameImage) : List PortItem := x.cells.flatten.map PortItem.cell ++ [.level x.level]

/-- What the panel port sends to the modules while it is SENDING; nothing when IDLE (R165). -/
def portOutput (b : Board) : List PortItem :=
  match b.sending with
  | some x => x.sendOrder
  | none => []

/-- A composition (R165): mode, page and frame image, and the image, or the lamp-test image while the test runs, handed to
the port. A board that is not active composes nothing. -/
def compose (s : State) : State :=
  if boardActive s then
    let x := composedImage s
    let b := { s.board with image := x, mode := modeOf s, page := pageOf s.board (listing s) }
    s.withBoard (b.handToPort (if b.lamp.isSome then lampImage b.config else x))
  else s

/-! ### Passing warning -/

/-- The part of the warning latch of a direction. -/
def Board.warning (b : Board) : Direction → Option Timer
  | .up => b.warnUp
  | .down => b.warnDown

/-- The board with one part of the latch replaced. -/
def Board.setWarning (b : Board) (d : Direction) (t : Option Timer) : Board :=
  match d with
  | .up => { b with warnUp := t }
  | .down => { b with warnDown := t }

/-- The Call Table raises the warning: the part is set or its timer restarted with 90 s, and the board composes (R163). -/
def raiseWarning (d : Direction) (s : State) : State :=
  if boardActive s then compose (s.withBoard (s.board.setWarning d (some (timerFrom s.clock.tick 90)))) else s

/-- A departure observation of a direction reaches the board: its part is cleared and the board composes (R164). -/
def clearWarning (d : Direction) (s : State) : State :=
  if boardActive s && (s.board.warning d).isSome then compose (s.withBoard (s.board.setWarning d none)) else s

end Sys2Proof.Machine
end

