-- ==== Sys2Proof/Machine/BulletinOps.lean ====
section
/-! DEFINITION. The Bulletin List: force evaluation (R169), taking frames and posts (R168, R176, R177). -/

namespace Sys2Proof.Machine

/-- A bulletin has this id. -/
def Bulletin.hasId (b : Bulletin) (origin number : Nat) : Bool := b.origin = origin && b.number = number

/-- The bulletin with an id. -/
def findBulletin (list : List Bulletin) (origin number : Nat) : Option Bulletin := list.find? (fun b => b.hasId origin number)

/-- The state with another list of bulletins. -/
def setBulletins (list : List Bulletin) (s : State) : State := s.withBulletins { s.bulletins with list := list }

/-- A BULLETIN notice about a bulletin (R168). -/
def bulletinNotice (b : Bulletin) (e : BulletinEvent) (s : State) : State := raise (.bulletin b.origin b.number b.kind e) s

/-- The evaluation of one bulletin (R169): removed when expired, else its in-force flag set or cleared; each change is
handed to the board, and a SUSPENSION entering force raises its event. -/
def evaluateBulletin (s : State) (id : Nat × Nat) : State :=
  match findBulletin s.bulletins.list id.1 id.2 with
  | none => s
  | some b =>
    if b.expiredAt s.clock then
      compose (bulletinNotice b .removed (setBulletins (s.bulletins.list.filter (fun x => !x.hasId id.1 id.2)) s))
    else if b.inForce = b.inForceAt s.clock then s
    else
      let s1 := setBulletins (s.bulletins.list.map (fun x => if x.hasId id.1 id.2 then { x with inForce := b.inForceAt s.clock } else x)) s
      compose (if b.kind = .suspension && b.inForceAt s.clock then raiseSuspension s1 else s1)

/-- The list evaluates the force of every bulletin (R169), in list order (log entry 53). -/
def evaluateForce (s : State) : State := (s.bulletins.list.map (fun b => (b.origin, b.number))).foldl evaluateBulletin s

/-- After each change: the notice, the force evaluation, the hand-off to the board (R168). -/
def bulletinChanged (b : Bulletin) (e : BulletinEvent) (s : State) : State := compose (evaluateForce (bulletinNotice b e s))

/-- A bulletin is removed (R168, R177). -/
def removeBulletin (b : Bulletin) (e : BulletinEvent) (s : State) : State :=
  bulletinChanged b e (setBulletins (s.bulletins.list.filter (fun x => !x.hasId b.origin b.number)) s)

/-- The bulletin with the earliest valid-until, the first joined between equals. -/
def earliestUntil : List Bulletin → Option Bulletin
  | [] => none
  | x :: xs => some (xs.foldl (fun a b => if b.validUntil.before a.validUntil then b else a) x)

/-- The bulletin a full list drops: an INFO one when it holds any, else a SUSPENSION one (R168). -/
def dropChoice (list : List Bulletin) : Option Bulletin :=
  match earliestUntil (list.filter (fun b => b.kind = .info)) with
  | some b => some b
  | none => earliestUntil list

/-- Room for one more: at four bulletins one is dropped first; the id dropped, if any (R168). -/
def makeRoom (s : State) : Option (Nat × Nat) × State :=
  if s.bulletins.list.length < Config.bulletinCapacity then (none, s)
  else
    match dropChoice s.bulletins.list with
    | some b => (some (b.origin, b.number), removeBulletin b .dropped s)
    | none => (none, s)

/-- A new bulletin joins at the end, not yet in force, room being made first (R168). -/
def addBulletin (b : Bulletin) (s : State) : Option (Nat × Nat) × State :=
  let r := makeRoom s
  (r.1, bulletinChanged b .added (setBulletins (r.2.bulletins.list ++ [{ b with inForce := false }]) r.2))

/-- A held bulletin's kind, validity and text are replaced in its place; an in-force INFO turned SUSPENSION raises the
SUSPENSION event (R168, R169). The notice carries the new kind (log entry 51). -/
def replaceBulletin (old new : Bulletin) (s : State) : State :=
  let x := { new with inForce := old.inForce }
  let s1 := setBulletins (s.bulletins.list.map (fun y => if y.hasId old.origin old.number then x else y)) s
  bulletinChanged x .replaced
    (if old.inForce && old.kind = .info && new.kind = .suspension then raiseSuspension s1 else s1)

/-- The bulletin a BULLETIN frame carries. -/
def bulletinOf (f : BulletinFields) : Bulletin := ⟨f.origin, f.number, f.kind, f.validFrom, f.validUntil, f.text, false⟩

/-- The same content: kind, validity and text (R168). -/
def Bulletin.sameContent (a b : Bulletin) : Bool :=
  a.kind = b.kind && a.validFrom = b.validFrom && a.validUntil = b.validUntil && a.text = b.text

/-- An accepted BULLETIN frame, by the first row of the table of R168 that fits. -/
def takeBulletin (frameOrigin : Nat) (f : BulletinFields) (s : State) : State :=
  if f.origin ≠ frameOrigin then s
  else if !f.withdrawn && !f.validFrom.before f.validUntil then s
  else
    match findBulletin s.bulletins.list f.origin f.number with
    | some b =>
      if f.withdrawn || (bulletinOf f).expiredAt s.clock then removeBulletin b .removed s
      else if b.sameContent (bulletinOf f) then s
      else replaceBulletin b (bulletinOf f) s
    | none => if f.withdrawn || (bulletinOf f).expiredAt s.clock then s else (addBulletin (bulletinOf f) s).2

/-- The payload that carries a bulletin (R176, R99). -/
def bulletinPayload (b : Bulletin) : Payload :=
  .bulletin ⟨b.origin, b.number, b.kind, false, b.validFrom, b.validUntil, b.text⟩

end Sys2Proof.Machine
end

