-- ==== Sys2Proof/Machine/Fares.lean ====
section
/-! DEFINITION. The Fare Unit: checks and pricing of a quote (R120 to R132). It holds no state; it reads the active fare
image, the configuration, the clock and the overlay. -/

namespace Sys2Proof.Machine

/-- SPACE_BIKE and SPACE_CHAIR are space products (R122); the class they claim (R129). -/
def ProductClass.space : ProductClass → Option SpaceClass
  | .spaceBike => some .bike
  | .spaceChair => some .chair
  | _ => none

/-- Inside the off-peak window at this clock (R124). Bit 0 of the mask is Monday's flag, as in a call entry's day mask (log entry
50). -/
def insideOffPeak (c : Clock) (r : OffPeakRule) : Bool :=
  c.grade != .unset && r.mask.testBit c.weekday && r.start < r.stop && r.start ≤ serviceMinute c.second &&
    serviceMinute c.second < r.stop

/-- The product of a fare table with an id, and its band table (R122). -/
def FareTable.productWith (t : FareTable) (id : Nat) : Option (Product × List Nat) :=
  (t.products.zip t.bands).find? (fun p => p.1.id = id)

/-- The percent of a concession id: 100 for id 0, none for an id the table does not hold (R123). -/
def FareTable.concessionPercent (t : FareTable) (id : Nat) : Option Nat :=
  if id = 0 then some 100 else (t.concessions.find? (fun x => x.1 = id)).map (·.2)

/-- The concession id and passengers a request is priced with: for a space product none and 1 (R129). -/
def effectiveParty (q : QuoteRequest) (cls : ProductClass) : Nat × Nat :=
  if cls.space.isSome then (0, 1) else (q.concession, q.passengers)

/-- Step 2 of R127: the base fare reduced inside the window for an eligible product. -/
def offPeakFare (base : Nat) (applied : Bool) (percent : Nat) : Nat := if applied then percentOf base percent else base

/-- Steps 5 and 6 of R128: up to the coin step, then clamped to 0..99,999. -/
def roundedQuote (total coinStep : Nat) : Nat := clampNat 0 99999 (ceilDiv total coinStep * coinStep)

/-- Steps 1 to 6 (R127, R128) and the items of R130. -/
def priced (t : FareTable) (edition coinStep : Nat) (c : Clock) (p : Product) (bands : List Nat) (f : FareStation)
    (concession percent passengers : Nat) : QuoteItems :=
  let base := bands.getD (f.band - 1) 0
  let applied := p.offPeakEligible && (match t.offPeak with | some r => insideOffPeak c r | none => false)
  let offPeak := match t.offPeak with | some r => r.percent | none => 100
  let unit := percentOf (offPeakFare base applied offPeak) percent
  { product := p.id, cls := p.cls, destination := f.code, band := f.band, nameIndex := f.nameIndex,
    concession := concession, passengers := passengers, baseFare := base, unitFare := unit, offPeak := applied,
    quote := roundedQuote (unit * passengers) coinStep, edition := edition }

/-- Checks 4 to 7 of R126 and the pricing, against the active fare table. -/
def quoteFrom (t : FareTable) (edition coinStep : Nat) (c : Clock) (q : QuoteRequest) : Except Reason QuoteItems :=
  match t.productWith q.product with
  | none => .error .notInTable
  | some (p, bands) =>
    match t.concessionPercent (effectiveParty q p.cls).1 with
    | none => .error .notInTable
    | some percent =>
      match t.stations.find? (fun f => f.code = q.destination) with
      | none => .error .badDestination
      | some f =>
        if (effectiveParty q p.cls).2 = 0 then .error .badPassengers
        else if p.cls.space.isNone && t.groupLimit.getD 0 < q.passengers then .error .tooMany
        else .ok (priced t edition coinStep c p bands f (effectiveParty q p.cls).1 percent (effectiveParty q p.cls).2)

/-- The Fare Unit's checks in the order of R126, then the quote (R127 to R130). -/
def quote (s : State) (q : QuoteRequest) : Except Reason QuoteItems :=
  match s.store.fare.active with
  | none => .error .noFares
  | some image =>
    if s.clock.grade = .unset then .error .noTime
    else if !s.overlay.ids.contains q.product then .error .notOffered
    else quoteFrom (fareTableOf image) s.store.fare.activeEdition s.setup.settings.coinStep s.clock q

end Sys2Proof.Machine
end

