-- ==== Sys2Proof/Machine/SaleOps.lean ====
section
/-! DEFINITION. The Sale Unit and the Claim List: own claims, grants, issue, aborts and the close (R133 to R154), and the
activation of a staged image (R115, R117). -/

namespace Sys2Proof.Machine

/-- The station's own number. -/
def own (s : State) : Nat := s.setup.straps.station

/-! ### Activation (R115) -/

/-- Activation: the staged image becomes active, the loader EMPTY, and EDITION_ACTIVE is raised (R115). -/
def activate (k : TableKind) (s : State) : State :=
  let x := slotOf s k
  raise (.editionActive k (editionOf x.staging) x.activeEdition (x.origin.getD .host))
    (setSlot k { x.cleared with active := some x.staging, activeEdition := editionOf x.staging } s)

/-- A staged fare image becomes active when the Sale Unit is IDLE (R117). -/
def activateFare (s : State) : State :=
  if s.store.fare.loader = .staged && s.sales.sale.isNone then activate .fare s else s

/-! ### Claims -/

/-- The frame fields that name a claim (R79). -/
def Claim.fields (c : Claim) : ClaimFields := ⟨c.service, c.date, c.cls, c.seq⟩

/-- A claim has this key (8.3). -/
def Claim.hasKey (c : Claim) (origin seq : Nat) : Bool := c.origin = origin && c.seq = seq

/-- The claim with a key. -/
def findClaim (claims : List Claim) (origin seq : Nat) : Option Claim := claims.find? (fun c => c.hasKey origin seq)

/-- The list without the claim of a key. -/
def removeClaim (origin seq : Nat) (s : State) : State := s.withClaims (s.claims.filter (fun c => !c.hasKey origin seq))

/-- The claims with the one of a key changed. -/
def updateClaim (origin seq : Nat) (f : Claim → Claim) (s : State) : State :=
  s.withClaims (s.claims.map (fun c => if c.hasKey origin seq then f c else c))

/-- The call of the table with a service number, for a service date (R135, R151). -/
def callFor (s : State) (service : Nat) (date : Date) : Option Call :=
  if s.calls.date = date then s.calls.calls.find? (fun c => c.service = service) else none

/-- The capacity of a call's class, from the Call Table (R148). -/
def capacityOf (s : State) (service : Nat) (date : Date) (cls : SpaceClass) : Nat :=
  match callFor s service date with
  | some c => c.capacity cls
  | none => 0

/-- The close of a sale with an own claim (R153). -/
def closeClaim (issued : Bool) (seq : Nat) (s : State) : State :=
  match findClaim s.claims (own s) seq with
  | none => s
  | some c =>
    match c.state, issued with
    | .granted, true => hand (.taken c.fields) (updateClaim (own s) seq (fun x => { x with state := .taken }) s)
    | .granted, false => hand (.release c.fields) (removeClaim (own s) seq s)
    | .queued, false => removeClaim (own s) seq (withdrawClaim seq s).2
    | _, _ => s

/-! ### The close (R142) and aborts (R141) -/

/-- The state with another sale record. -/
def setSale (x : Option SaleRecord) (s : State) : State := s.withSales { s.sales with sale := x }

/-- The close: own claim, notice, record, fare edition, in this order (R142). -/
def closeSale (reason : Reason) (issued : Bool) (r : SaleRecord) (s : State) : State :=
  let s1 := match r.claim with | some seq => closeClaim issued seq s | none => s
  let s2 := raise (.saleState reason r.quote.product r.quote.quote r.credit r.change r.refund
    (if reason = .issued || reason = .void then r.serial else none)) s1
  activateFare (setSale none s2)

/-- An abort of a sale in QUOTED, CLAIMING or PAYING: closed with refund = credit and change = 0 (R141). -/
def abortSale (reason : Reason) (s : State) : State :=
  match s.sales.sale with
  | some r => if r.stage = .issuing then s else closeSale reason false { r with refund := r.credit, change := 0 } s
  | none => s

/-! ### Issue (R139) and payment (R137) -/

/-- The journal record a sale makes (R145). -/
def journalRecordOf (r : SaleRecord) (serial : Nat) (c : Clock) : JournalRecord :=
  { serial := serial, product := r.quote.product, destination := r.quote.destination, concession := r.quote.concession,
    passengers := r.quote.passengers, fare := r.quote.quote, change := r.credit - r.quote.quote, refund := 0,
    edition := r.quote.edition, date := c.date, second := c.second, space := r.space.map (fun x => (x.service, x.cls)),
    void := false }

/-- Entry to ISSUING: change, serial, journal record, TICKET_READY, JOURNAL_FULL (R139). -/
def enterIssuing (r : SaleRecord) (s : State) : State :=
  let serial := own s * 1000000 + s.sales.serialCounter
  let change := r.credit - r.quote.quote
  let s1 := s.withSales
    { sale := some { r with stage := .issuing, change := change, refund := 0, serial := some serial, lifetime := none, payment := none }
      serialCounter := s.sales.serialCounter + 1
      journal := s.sales.journal ++ [journalRecordOf r serial s.clock] }
  let s2 := raise (.ticketReady serial r.quote.product r.quote.quote r.credit change) s1
  if s1.sales.journal.length = Config.journalCapacity then raise .journalFull s2 else s2

/-- Entry to PAYING: a quote met by the credit goes straight on to ISSUING, else the payment timer starts (R137). -/
def enterPaying (r : SaleRecord) (s : State) : State :=
  if r.quote.quote ≤ r.credit then enterIssuing { r with hold := .none } s
  else
    setSale (some { r with stage := .paying, hold := .none, lifetime := none, payment := some (timerFrom s.clock.tick 120) }) s

/-! ### Own claims on the line (R148 to R150) -/

/-- The sale is CLAIMING with this claim. -/
def claimingWith (s : State) (seq : Nat) : Option SaleRecord :=
  match s.sales.sale with
  | some r => if r.stage = .claiming && r.claim = some seq then some r else none
  | none => none

/-- The own QUEUED claim of a sequence removed; any other claim stays (R149, R150). -/
def dropQueued (seq : Nat) (s : State) : State :=
  match findClaim s.claims (own s) seq with
  | some c => if c.state = .queued then removeClaim (own s) seq s else s
  | none => s

/-- A CLAIM that will not complete: its own claim is removed, and the sale CLAIMING with it is aborted, also when the
claim had left the list before (R90, R141, R149, R150; log entry 45). -/
def failClaim (reason : Reason) (seq : Nat) (s : State) : State :=
  match claimingWith s seq with
  | some _ => abortSale reason (dropQueued seq s)
  | none => dropQueued seq s

/-- The grant decision at the completion of an own CLAIM (R150). -/
def decideGrant (seq position : Nat) (s : State) : State :=
  match findClaim s.claims (own s) seq with
  | some c =>
    if c.state = .queued then
      if claimsBefore s.claims c.service c.date c.cls position < capacityOf s c.service c.date c.cls then
        let s1 := updateClaim (own s) seq (fun x => { x with state := .granted, position := some position }) s
        match claimingWith s seq with
        | some r => enterPaying r s1
        | none => s1
      else
        let s1 := hand (.release c.fields) (removeClaim (own s) seq s)
        match claimingWith s seq with
        | some _ => abortSale .noSpace s1
        | none => s1
    else s
  | none => s

/-- The test after a received CLAIM or TAKEN that the list takes in: an own QUEUED claim whose class is full has its frame
withdrawn (R149). -/
def withdrawalTest (s : State) : State :=
  match s.claims.find? (fun c => c.state = .queued && c.origin = own s) with
  | some c =>
    if capacityOf s c.service c.date c.cls ≤ occupancy s.claims c.service c.date c.cls then
      let r := withdrawClaim c.seq s
      if r.1 then failClaim .noSpace c.seq r.2 else s
    else s
  | none => s

/-! ### Hand-offs from the Call Table (R143, R154) -/

/-- The sale's space call is this call of the table's service date. -/
def saleOnCall (s : State) (service : Nat) : Bool :=
  match s.sales.sale with
  | some r => (match r.space with | some x => x.service = service && x.date = s.calls.date | none => false)
  | none => false

/-- The end of a call reaches the Sale Unit (R141, R143). -/
def saleCallEnded (service : Nat) (s : State) : State := if saleOnCall s service then abortSale .callEnded s else s

/-- A RELEASE for each own claim among the removed in GRANTED or TAKEN, in list order (R154; log entry 48). -/
def releaseOwn (removed : List Claim) (s : State) : State :=
  removed.foldl (fun t c => if c.origin = own t && (c.state = .granted || c.state = .taken) then hand (.release c.fields) t else t) s

/-- Every claim for a call of the table's date is removed, with RELEASE frames where the table of R154 has them. -/
def removeCallClaims (service : Nat) (releases : Bool) (s : State) : State :=
  let mine := fun (c : Claim) => c.service = service && c.date = s.calls.date
  let s1 := s.withClaims (s.claims.filter (fun c => !mine c))
  if releases then releaseOwn (s.claims.filter mine) s1 else s1

/-- After a build the Sale Unit learns whether its space call is present and live (R19, R143). -/
def saleAfterBuild (s : State) : State :=
  match s.sales.sale with
  | some r =>
    match r.space with
    | some x =>
      match callFor s x.service x.date with
      | none => abortSale .callGone s
      | some c => if c.state.live then s else abortSale .callEnded s
    | none => s
  | none => s

end Sys2Proof.Machine
end

