-- ==== Sys2Proof/Machine/CallOps.lean ====
section
/-! DEFINITION. The Call Table at work: changes of a call and their hand-offs (R24, R31, R36), evaluation (R22), reports
(R42), observations (R49 to R52), the watch view (R21), builds (R17 to R19, R33, R34). -/

namespace Sys2Proof.Machine

/-- A change handed to the host as CALL_CHANGED with the present build count (R36). -/
def callChanged (s : State) : State := raise (.callChanged s.calls.buildCount) s

/-- The change of a call between two of its states is one the board is handed (R36). -/
def boardChange (old new : Call) : Bool :=
  old.state != new.state || old.report != new.report || old.approach != new.approach || old.delayed != new.delayed ||
    old.departure != new.departure

/-- The change of a call is one CALL_CHANGED is raised for (R36). -/
def noticeChange (old new : Call) : Bool :=
  old.state != new.state || old.report != new.report || old.approach != new.approach || old.delayed != new.delayed ||
    old.shownMinute != new.shownMinute

/-- The call at an index replaced, nothing handed on. -/
def setCall (i : Nat) (c : Call) (s : State) : State := s.withCalls { s.calls with calls := s.calls.calls.set i c }

/-- The end of a call handed to the Sale Unit, then to the Claim List (R24, R31, R154). -/
def callEnded (c : Call) (s : State) : State := removeCallClaims c.service (c.state = .cancelled) (saleCallEnded c.service s)

/-- A change of a call handed to the board and the host (R36). -/
def notifyCall (old new : Call) (s : State) : State :=
  let s1 := if boardChange old new then compose s else s
  if noticeChange old new then callChanged s1 else s1

/-- A call takes a new value: its end is handed on when it enters DEPARTED, LAPSED or CANCELLED, then the change is handed
to the board and the host (R24, R31, R36). -/
def commitCall (i : Nat) (new : Call) (s : State) : State :=
  match s.calls.calls[i]? with
  | none => s
  | some old =>
    let s1 := setCall i new s
    let s2 := if new.state.over && !old.state.over then callEnded new s1 else s1
    notifyCall old new s2

/-! ### Evaluation (R22) -/

/-- What an evaluation reads. -/
def evalContext (s : State) : EvalContext := ⟨s.calls.watch, s.clock.second, s.setup.settings.minDwell⟩

/-- One condition of the evaluation applied to the call at an index. -/
def evalPhase (f : EvalContext → Call → Call) (i : Nat) (s : State) : State :=
  match s.calls.calls[i]? with
  | some c => if evaluable s.clock.grade c then commitCall i (f (evalContext s) c) s else s
  | none => s

/-- The evaluation of the call at an index, each transition on the way with its own effects (R22). -/
def evalCall (i : Nat) (s : State) : State :=
  evalPhase departPhase i (evalPhase arrivePhase i (evalPhase lapsePhase i (evalPhase creepPhase i s)))

/-- Every call evaluated (R22), in index order (log entry 52). -/
def evalAll (s : State) : State := (List.range s.calls.calls.length).foldl (fun t i => evalCall i t) s

/-! ### Reports (R42) -/

/-- The RUNNING frame of a call's best report (R42, R56). -/
def runningPayload (s : State) (c : Call) (r : BestReport) : Payload :=
  .running ⟨c.service, s.calls.date, r.point, r.lateness, r.observed, r.cancelled⟩

/-- An accepted report acts on the call at an index (R42, R23 to R26): stage 4 belongs to the same change (R48), then the
call is evaluated. -/
def acceptReport (i : Nat) (r : BestReport) (s : State) : State :=
  match s.calls.calls[i]? with
  | none => s
  | some c =>
    let x := evalContext s
    let c' := c.withReport x.minDwell r
    if c'.state = .reported then evalCall i (commitCall i (creepPhase x c') s) else commitCall i c' s

/-! ### Observations (R49 to R52) -/

/-- A taken approach for a PASS call raises the passing warning (R50). -/
def warnIfPass (c : Call) (d : Direction) (s : State) : State := if c.kind = .pass then raiseWarning d s else s

/-- The call at an index takes a new value from an approach and is evaluated (R27, R51). -/
def takeApproach (i : Nat) (new : Call) (s : State) : State := evalCall i (commitCall i new s)

/-- An approach observation: the duplicate rule (R51), then a fresh match (R49), else the passing warning (R50); answers
the service number it was taken for. -/
def approachObserved (o : ApproachObs) (s : State) : Option Nat × State :=
  if s.clock.grade = .unset then (none, raiseWarning o.direction s)
  else
    match nearest (candidates (duplicateDistance o) s.calls.calls) with
    | some i =>
      match s.calls.calls[i]? with
      | some c =>
        let s1 :=
          if (match c.approach with | some a => o.replaces a | none => false) then
            takeApproach i (c.withApproach s.setup.settings.minDwell (o.recordFor c)) s
          else s
        (some c.service, warnIfPass c o.direction s1)
      | none => (none, s)
    | none =>
      match nearest (candidates (freshDistance o) s.calls.calls) with
      | some i =>
        match s.calls.calls[i]? with
        | some c => (some c.service, warnIfPass c o.direction (takeApproach i (c.matched s.setup.settings.minDwell (o.recordFor c)) s))
        | none => (none, s)
      | none => (none, raiseWarning o.direction s)

/-- A departure observation: matched to a call, which becomes DEPARTED, sensed, or discarded; the board learns of it
either way (R52, R29); answers the service number matched. -/
def departureObserved (d : Direction) (second : Nat) (s : State) : Option Nat × State :=
  if s.clock.grade = .unset then (none, clearWarning d s)
  else
    match nearest (candidates (departureDistance d second) s.calls.calls) with
    | some i =>
      match s.calls.calls[i]? with
      | some c => (some c.service, clearWarning d (commitCall i { c with state := .departed, sensed := true } s))
      | none => (none, clearWarning d s)
    | none => (none, clearWarning d s)

/-! ### The watch view (R20, R21) -/

/-- A call a change of the watch view concerns (R21). -/
def watchConcerns (old new : Coverage) (c : Call) : Bool :=
  if c.state.awaited then old.arrival c.direction != new.arrival c.direction
  else if c.state.atHand then old.departure c.direction != new.departure c.direction
  else false

/-- The call's arrival flag has cleared while it is PENDING or REPORTED (R21). -/
def arrivalCleared (new : Coverage) (c : Call) : Bool := c.state.awaited && !new.arrival c.direction

/-- A concerned call is re-evaluated, brought first to the unwatched case when its arrival flag cleared (R21). -/
def rewatchCall (old new : Coverage) (s : State) (i : Nat) : State :=
  match s.calls.calls[i]? with
  | some c =>
    if watchConcerns old new c then
      evalCall i (if arrivalCleared new c then commitCall i (c.unwatched s.setup.settings.minDwell) s else s)
    else s
  | none => s

/-- The watch view is formed again; when a flag changed, the calls it concerns are re-evaluated, at grades 1..3 (R21), in
index order (log entry 52). -/
def updateWatch (s : State) : State :=
  let old := s.calls.watch
  let new := watchView s.treadles s.line.peers
  if new = old then s
  else
    let s1 := s.withCalls { s.calls with watch := new }
    if s.clock.grade = .unset then s1
    else (List.range s1.calls.calls.length).foldl (rewatchCall old new) s1

/-! ### Builds (R17 to R19, R33, R34) -/

/-- A fresh build, or one at a timetable swap (2.2). -/
inductive BuildKind where
  | fresh | swap
  deriving DecidableEq, Repr

/-- The active timetable; empty when none is active (R17). -/
def activeTimetable (s : State) : Timetable :=
  match s.store.timetable.active with
  | some image => timetableOf image
  | none => ⟨[], []⟩

/-- The calls of a build before their evaluation (R17, R18, R33). -/
def builtCalls (k : BuildKind) (s : State) : List Call :=
  let fresh := newCalls s.clock.grade s.setup.settings.minDwell s.clock.weekday (activeTimetable s)
  match k with
  | .fresh => fresh
  | .swap => fresh.map (swapped s.setup.settings.minDwell s.calls.calls)

/-- The calls of a build after their evaluation (R18, R33). -/
def evaluatedCalls (s : State) (cs : List Call) : List Call :=
  cs.map (fun c => if evaluable s.clock.grade c then evaluated (evalContext s) c else c)

/-- The calls that the evaluation of a build took into DEPARTED or LAPSED (R19), in index order (log entry 52). -/
def endedByEvaluation (before after : List Call) : List Call :=
  ((before.zip after).filter (fun p => !p.1.state.over && p.2.state.over)).map (·.2)

/-- The end of a call of a build handed on (R19, R31). -/
def endAfterBuild (s : State) (c : Call) : State := callChanged (compose (callEnded c s))

/-- The claims after a build: all removed, or at a swap those of the dropped calls, in the order of the old table (R19,
R154; log entry 48). -/
def claimsAfterBuild (k : BuildKind) (dropped : List Nat) (s : State) : State :=
  match k with
  | .fresh => s.withClaims []
  | .swap => dropped.foldl (fun t n => removeCallClaims n true t) s

/-- A build (R17, R18, R33) and its hand-offs in the order of R19: sale, claims, ended calls, board and host. The notice
carries the advanced build count (log entry 20); ended calls are handed on in index order (log entry 52). -/
def buildTable (k : BuildKind) (s : State) : State :=
  let before := builtCalls k s
  let after := evaluatedCalls s before
  let dropped := droppedBy s.calls.calls before
  let s1 := s.withCalls { s.calls with calls := after, date := s.clock.date }
  let s2 := claimsAfterBuild k dropped (saleAfterBuild s1)
  let s3 := (endedByEvaluation before after).foldl endAfterBuild s2
  callChanged (compose (s3.withCalls { s3.calls with buildCount := (s3.calls.buildCount + 1) % 256 }))

end Sys2Proof.Machine
end

