-- ==== Sys2Proof/Machine/StoreOps.lean ====
section
/-! DEFINITION. The Edition Store: the check and staging (R107, R109), activation (R115 to R117), offers (R110), pulls
(R111 to R113) and serving (R114). -/

namespace Sys2Proof.Machine

/-! ### Activation tests -/

/-- The condition of a staged timetable (R116). -/
def timetableReady (s : State) : Bool :=
  s.store.timetable.loader = .staged &&
    (if s.clock.grade = .unset then s.store.timetable.active.isNone
     else (effectiveDateOf s.store.timetable.staging).onOrBefore s.clock.date)

/-- The activation of a staged timetable, a change of the active timetable for which the board composes (R115, R165), before
the build that follows (log entry 19). -/
def activateTimetable (s : State) : State := compose (activate .timetable s)

/-- The test of a staged timetable at its staging: activation and a swap build (R116). -/
def activateStagedTimetable (s : State) : State :=
  if timetableReady s then buildTable .swap (activateTimetable s) else s

/-- The rollover check: activation without a build of its own (R116, R4). -/
def rolloverCheck (s : State) : State := if timetableReady s then activateTimetable s else s

/-- A kind's activation condition tested at staging (R109). -/
def testActivation (k : TableKind) (s : State) : State :=
  match k with
  | .timetable => activateStagedTimetable s
  | .fare => activateFare s

/-! ### The check (R107, R109) -/

/-- The edition recorded as refused after a failed check: the one pulled, when the image came from a peer (R109). -/
def Slot.refusedAfter (x : Slot) : Nat :=
  match x.pull with
  | some p => p.edition
  | none => x.refused

/-- The reason and offset with which the image in a kind's staging slot fails the check, or none (R107). -/
def stagingFault (k : TableKind) (s : State) : Option (Reason × Nat) :=
  checkImage k s.setup.settings.haltCode (slotOf s k).activeEdition (slotOf s k).staging

/-- The image is staged, EDITION_STAGED is raised and the activation condition is tested (R109). -/
def stage (k : TableKind) (s : State) : State :=
  let x := slotOf s k
  testActivation k (raise (.editionStaged k (editionOf x.staging) (x.origin.getD .host))
    (setSlot k { x with loader := .staged, pull := none } s))

/-- The image is rejected: the slot is emptied, the refused edition taken for a pull, LOAD_REJECTED raised (R109). -/
def reject (k : TableKind) (reason : Reason) (offset : Nat) (s : State) : State :=
  let x := slotOf s k
  raise (.loadRejected k reason offset (x.origin.getD .host)) (setSlot k { x.cleared with refused := x.refusedAfter } s)

/-- A complete image is checked, then staged or rejected (R107, R109). -/
def checkFill (k : TableKind) (s : State) : State :=
  match stagingFault k s with
  | none => stage k s
  | some f => reject k f.1 f.2 s

/-! ### Offers (R110) -/

/-- An edition offers the kind (R110). -/
def Slot.offers (x : Slot) (edition : Nat) : Bool :=
  edition ≠ 0 && edition ≠ x.refused && (x.active.isNone || x.activeEdition < edition)

/-- The pull wait timer starts with a draw of 0..20 tenths (R110, R84). -/
def startPullWait (k : TableKind) (s : State) : State :=
  let r := draw 21 s
  setSlot k { slotOf r.2 k with pullWait := some (timerFromTenths s.clock.tick r.1) } r.2

/-- An accepted ANNOUNCE considered for one kind (R110). -/
def considerOffer (k : TableKind) (edition : Nat) (s : State) : State :=
  let x := slotOf s k
  if x.offers edition then
    match x.loader with
    | .empty => if x.pullWait.isNone then startPullWait k s else s
    | .staged => if editionOf x.staging < edition then startPullWait k (setSlot k x.cleared s) else s
    | .hostFill => s
    | .peerFill => s
  else s

/-! ### Pulls (R111 to R113) -/

/-- A peer's stored edition of a kind. -/
def Peer.edition (p : Peer) : TableKind → Nat
  | .timetable => p.timetable
  | .fare => p.fare

/-- The better of two sources: the higher edition; the earlier of equals, which is the lower station number (R111). -/
def betterSource (k : TableKind) (a b : Peer) : Peer := if a.edition k < b.edition k then b else a

/-- The source of a pull: among the PRESENT peers whose stored edition would offer the kind (R111). -/
def chooseSource (k : TableKind) (s : State) : Option Peer :=
  match s.line.peers.filter (fun p => p.state = .present && (slotOf s k).offers (p.edition k)) with
  | [] => none
  | p :: ps => some (ps.foldl (betterSource k) p)

/-- The expiry of the pull wait: a source is chosen and the pull begins with the SEG_REQ of segment 0, or nothing more is
done (R111). -/
def beginPull (k : TableKind) (s : State) : State :=
  let s1 := setSlot k { slotOf s k with pullWait := none } s
  match chooseSource k s1 with
  | none => s1
  | some p =>
    requestSegment Config.maxTries k ⟨p.station, p.edition k, 0, 1, none, none⟩
      (setSlot k { (slotOf s1 k).cleared with loader := .peerFill, origin := some (.peer p.station) } s1)

/-- A SEG_REQ completed: the reply timer of the pull it belongs to starts (R112). -/
def segReqCompleted (k : TableKind) (seq : Nat) (s : State) : State :=
  match (slotOf s k).pull with
  | some p =>
    if p.request = some seq then setPull k { p with replyTimer := some (timerFrom s.clock.tick 1), request := none } s else s
  | none => s

/-- The declared length an index-0 segment gives: its header's, when the header is usable (R112). -/
def firstSegmentLength (k : TableKind) (edition : Nat) (data : List Byte) : Option Nat :=
  match headerOf data with
  | some h =>
    if h.kind = k.code && h.edition = edition && imageMinimum ≤ h.length && h.length ≤ imageLimit k then some h.length
    else none
  | none => none

/-- The declared length under which a segment of the expected index is read: the known one, or segment 0's (R112). -/
def Slot.lengthFor (x : Slot) (k : TableKind) (p : Pull) (data : List Byte) : Option Nat :=
  match x.declared with
  | some n => some n
  | none => firstSegmentLength k p.edition data

/-- The data length required of a segment: 64 bytes, or the remainder for the last (R112). -/
def requiredLength (declared index : Nat) : Nat := min Config.segmentSize (declared - index * Config.segmentSize)

/-- An accepted segment (R112): appended, then the image is checked or the next segment requested. -/
def acceptSegment (k : TableKind) (p : Pull) (declared : Nat) (data : List Byte) (s : State) : State :=
  let x := slotOf s k
  let x1 := { x with staging := x.staging ++ data, offset := x.offset + data.length, declared := some declared,
                     pull := some { p with replyTimer := none, request := none } }
  if x1.offset = declared then checkFill k (setSlot k x1 s)
  else
    requestSegment Config.maxTries k { p with index := p.index + 1, tries := 1, replyTimer := none, request := none }
      (setSlot k x1 s)

/-- A SEGMENT that reaches the pull, by the first row of the table of R112 that fits. -/
def segmentForPull (k : TableKind) (p : Pull) (f : SegmentFields) (s : State) : State :=
  if f.gone then abandonPull k s
  else if f.index < p.index then s
  else if f.index = p.index then
    match (slotOf s k).lengthFor k p f.data with
    | some n => if f.data.length = requiredLength n f.index then acceptSegment k p n f.data s else abandonPull k s
    | none => abandonPull k s
  else abandonPull k s

/-- A SEGMENT addressed to this station (R112). -/
def segmentArrived (origin : Nat) (f : SegmentFields) (s : State) : State :=
  let x := slotOf s f.kind
  match x.pull with
  | some p =>
    if x.loader = .peerFill && p.source = origin && p.edition = f.edition then segmentForPull f.kind p f s else s
  | none => s

/-- A peer left PRESENT: a pull of a kind from it is abandoned (R113). -/
def abandonPullFrom (station : Nat) (k : TableKind) (s : State) : State :=
  match (slotOf s k).pull with
  | some p => if p.source = station then abandonPull k s else s
  | none => s

/-- The pulls of both kinds from a peer abandoned (R113). -/
def abandonPullsFrom (station : Nat) (s : State) : State :=
  abandonPullFrom station .fare (abandonPullFrom station .timetable s)

/-! ### Serving (R114) -/

/-- The segment an active image gives to a request, if the request names one (R114). -/
def servedSegment (x : Slot) (f : SegReqFields) : Option (List Byte) :=
  match x.active with
  | some image => if f.edition = x.activeEdition then segmentOf image f.index else none
  | none => none

/-- The answer to a SEG_REQ (R114). -/
def segmentAnswer (requester : Nat) (x : Slot) (f : SegReqFields) : Payload :=
  match servedSegment x f with
  | some data => .segment ⟨requester, f.kind, f.edition, f.index, false, data⟩
  | none => .segment ⟨requester, f.kind, f.edition, f.index, true, []⟩

/-! ### Host loads (R104 to R106) -/

/-- The effect of an accepted LOAD_BEGIN on its slot (R104). -/
def Slot.beginHostFill (x : Slot) (length : Nat) : Slot :=
  { x.cleared with loader := .hostFill, declared := some length, origin := some .host, pullWait := none }

/-- The length is at least a header and an integrity word and at most the kind's limit (R104). -/
def loadLengthValid (k : TableKind) (length : Nat) : Bool := imageMinimum ≤ length && length ≤ imageLimit k

/-- LOAD_BEGIN (R104). -/
def beginLoad (kind length : Nat) (s : State) : Answer × State :=
  match tableKindOf kind with
  | none => (.refused .badKind, s)
  | some k =>
    if loadLengthValid k length then (.ok .none, setSlot k ((slotOf s k).beginHostFill length) s)
    else (.refused .badSize, s)

/-- The data stands at the running offset and stays within the declared length (R105). -/
def Slot.inSequence (x : Slot) (offset : Nat) (data : List Byte) : Bool :=
  offset = x.offset && offset + data.length ≤ x.declared.getD 0

/-- The fill with the data appended (R105). -/
def Slot.append (x : Slot) (data : List Byte) : Slot :=
  { x with staging := x.staging ++ data, offset := x.offset + data.length }

/-- An in-sequence LOAD_SEGMENT (R105): the last answer also carries the loader state that the check leaves. -/
def takeLoadSegment (k : TableKind) (data : List Byte) (s : State) : Answer × State :=
  let x := (slotOf s k).append data
  let s1 := setSlot k x s
  if x.declared = some x.offset then
    (.ok (.loadProgress x.offset (some (if (stagingFault k s1).isNone then .staged else .empty))), checkFill k s1)
  else (.ok (.loadProgress x.offset none), s1)

/-- An out-of-sequence LOAD_SEGMENT discards the fill (R105). -/
def loadOutOfSequence (k : TableKind) (s : State) : Answer × State :=
  (.refused .outOfSequence,
    raise (.loadRejected k .outOfSequence (slotOf s k).offset .host) (setSlot k (slotOf s k).cleared s))

/-- LOAD_SEGMENT (R105). -/
def loadData (kind offset : Nat) (data : List Byte) (s : State) : Answer × State :=
  match tableKindOf kind with
  | none => (.refused .badKind, s)
  | some k =>
    if (slotOf s k).loader = .hostFill then
      if (slotOf s k).inSequence offset data then takeLoadSegment k data s else loadOutOfSequence k s
    else (.refused .noLoad, s)

/-- LOAD_ABANDON (R106). -/
def abandonLoad (kind : Nat) (s : State) : Answer × State :=
  match tableKindOf kind with
  | none => (.refused .badKind, s)
  | some k =>
    if (slotOf s k).loader = .hostFill then (.ok .none, setSlot k (slotOf s k).cleared s) else (.refused .noLoad, s)

end Sys2Proof.Machine
end

