-- ==== Sys2Proof/Machine/ClockOps.lean ====
section
/-! DEFINITION. The Halt Clock: the tenth, the seconds event and rollover (R3, R4), ageing (R5), steps (R6, R10, R11),
adoption (R7). -/

namespace Sys2Proof.Machine

/-! ### Seconds events and rollover (R3, R4) -/

/-- A seconds event delivered to the Bulletin List and the Board Composer (R4, R11). -/
def secondsToLists (s : State) : State := compose (evaluateForce s)

/-- A seconds event delivered to the Call Table, the Bulletin List and the Board Composer (R3). -/
def secondsEvent (s : State) : State := secondsToLists (evalAll s)

/-- The last service date (R1). -/
def lastDate : Date := ⟨2099, 12, 31⟩

/-- The clock at the start of the next service day, or after the year-end return at its reset values but for the running
tick (R4). -/
def Clock.rolled (c : Clock) : Clock :=
  if c.date = lastDate then { resetClock with tick := c.tick }
  else { c with date := c.date.next, weekday := c.date.next.weekday, second := 0, tenths := 0 }

/-- Rollover: the rollover check, the fresh build, then the seconds event of second 0 (R4). -/
def rollover (s : State) : State :=
  secondsToLists (buildTable .fresh (rolloverCheck (s.withClock s.clock.rolled)))

/-- The running tick advanced by a tenth, holding at its end (R2). -/
def Clock.tickOn (c : Clock) : Clock := { c with tick := min Config.maxTick (c.tick + 1) }

/-- A tenth of a second of the reference clock (R2, R3). -/
def clockTenth (s : State) : State :=
  let c := s.clock.tickOn
  let s1 := s.withClock c
  if c.grade = .unset then s1
  else if c.tenths < 9 then s.withClock { c with tenths := c.tenths + 1 }
  else if c.second < 86399 then secondsEvent (s.withClock { c with second := c.second + 1, tenths := 0 })
  else rollover s1

/-! ### Ageing (R5) -/

/-- Six hours of running tick, in tenths (R5). -/
def ageingSpan : Tick := 216000

/-- Grade 3 is due to fall to grade 2 (R5). -/
def Clock.ageDue (c : Clock) : Bool := c.grade = .host && c.hostSetTick + ageingSpan ≤ c.tick

/-- Ageing (R5): the grade becomes 2, a change of grade for the Bulletin List and the board (R169, R165). -/
def age (s : State) : State :=
  if s.clock.ageDue then secondsToLists (s.withClock { s.clock with grade := .hostAged }) else s

/-! ### Steps (R10, R11) -/

/-- Every call gets the build estimates, at the first step that raises the grade from 0 (R16), call by call,
each a change of its own (log entry 42). -/
def estimateCalls (s : State) : State :=
  (List.range s.calls.calls.length).foldl
    (fun t i => match t.calls.calls[i]? with
      | some c => commitCall i (c.withBuildEstimates t.setup.settings.minDwell) t
      | none => t) s

/-- The effect of a step on the Call Table, the Bulletin List and the board, given the clock before it (R10, R11). -/
def stepTaken (old : Clock) (s : State) : State :=
  if old.date = s.clock.date then
    secondsToLists (evalAll (if old.grade = .unset then estimateCalls s else s))
  else secondsToLists (buildTable .fresh s)

/-- The service clock set to a date and second at a grade: a step (R6, R7). -/
def stepClock (c : Clock) (s : State) : State := stepTaken s.clock (s.withClock c)

/-- The clock a taken SET_TIME leaves (R6). -/
def hostClock (rolloverMinute : Nat) (date : Date) (time : ClockTime) (c : Clock) : Clock :=
  let d := serviceDateOf rolloverMinute date time.toSeconds
  { c with
    date := d
    weekday := d.weekday
    second := serviceSecondOf rolloverMinute time.toSeconds
    tenths := 0
    grade := .host
    hostSetTick := c.tick }

/-- SET_TIME (R6). -/
def setTime (date : Date) (time : ClockTime) (s : State) : Answer × State :=
  let rm := s.setup.settings.rolloverMinute
  if setTimeValid rm date time then (.ok .none, stepClock (hostClock rm date time s.clock) s)
  else (.refused .badTime, s)

/-! ### Adoption (R7) -/

/-- The instants differ by 2.0 s or more; a difference of date counts as one (R7). -/
def instantsDiffer (c : Clock) (f : AnnounceFields) : Bool :=
  c.date ≠ f.date || 20 ≤ natDist c.tenthsOfDay (f.second * 10 + f.tenths)

/-- The table of R7: whether the station adopts. -/
def adopts (c : Clock) (f : AnnounceFields) : Bool :=
  match c.grade with
  | .unset => f.grade ≠ .unset
  | .adopted => f.grade = .host && instantsDiffer c f
  | .hostAged => f.grade = .host && instantsDiffer c f
  | .host => false

/-- The clock an adoption leaves (R7). -/
def adoptedClock (f : AnnounceFields) (c : Clock) : Clock :=
  { c with date := f.date, weekday := f.date.weekday, second := f.second, tenths := f.tenths, grade := .adopted }

/-- An accepted ANNOUNCE considered by the Halt Clock: the step, then the notice with the grade held before (R7). -/
def considerAdoption (station : Nat) (f : AnnounceFields) (s : State) : State :=
  if adopts s.clock f then raise (.clockAdopted station s.clock.grade) (stepClock (adoptedClock f s.clock) s) else s

end Sys2Proof.Machine
end

