-- ==== Sys2Proof/Machine/SendOps.lean ====
section
/-! DEFINITION. Getting frames onto the line: ANNOUNCE (R98, R9), attempts, backoff and abandonment (R81 to R84),
completion (R85, R90). -/

namespace Sys2Proof.Machine

/-! ### ANNOUNCE (R98, R9) -/

/-- The content of an ANNOUNCE from the state of the moment (R98), its clock fields by R9. -/
def announceFields (s : State) : AnnounceFields :=
  let timed := s.clock.grade != .unset
  { sells := s.setup.straps.sells, shows := s.setup.straps.shows, haltCode := s.setup.settings.haltCode,
    timetable := s.store.timetable.activeEdition, fare := s.store.fare.activeEdition,
    date := if timed then s.clock.date else zeroDate, second := if timed then s.clock.second else 0,
    tenths := if timed then s.clock.tenths else 0, grade := s.clock.grade, coverage := ownCoverage s.treadles,
    fresh := 0 < s.line.freshCount }

/-- The payload as an attempt sends it: an ANNOUNCE is filled in afresh (R98). -/
def filledPayload (s : State) (p : Payload) : Payload :=
  match p with
  | .announce _ => .announce (announceFields s)
  | p => p

/-- The ANNOUNCE timer is started with 10 s plus a draw of 0..10 tenths (R98). -/
def startAnnounceTimer (s : State) : State :=
  let r := draw 11 s
  r.2.withLine { r.2.line with announceTimer := some (timerFromTenths r.2.clock.tick (100 + r.1)) }

/-- An ANNOUNCE is handed to the queue and the timer started (R98). -/
def announce (s : State) : State := startAnnounceTimer (hand (.announce (announceFields s)) s)

/-! ### The current frame (R81 to R83) -/

/-- The state with the current frame and its condition replaced. -/
def setCurrent (f : TxFrame) (c : LineCondition) (s : State) : State :=
  s.withLine { s.line with queue := f :: s.line.queue.tail, condition := c }

/-- The current frame removed, the next current in WAITING (R83, R85). -/
def dropCurrent (s : State) : State := s.withLine (s.line.remove s.clock.tick 0)

/-- The current frame in WAITING begins an attempt (R81). -/
def startAttempt (s : State) : State :=
  match s.line.condition, s.line.queue with
  | .waiting _, f :: _ => setCurrent { f with attempts := f.attempts + 1, payload := filledPayload s f.payload } .sending s
  | _, _ => s

/-- The originating block of an abandoned frame is told (R90). -/
def tellAbandoned (f : TxFrame) (s : State) : State :=
  match f.payload with
  | .claim _ => failClaim .lineFault f.seq s
  | .segReq g => segReqLost g.kind f.seq s
  | _ => s

/-- Abandonment: the frame is removed, LINE_TROUBLE raised, its block told (R83). -/
def abandonCurrent (f : TxFrame) (why : LineFailure) (s : State) : State :=
  tellAbandoned f (raise (.lineTrouble f.payload.kind f.seq why) (dropCurrent s))

/-- The number of slot values drawn from after a failed attempt: 2^k with k = min(a, 6) (R82). -/
def backoffRange (attempt : Nat) : Nat := 2 ^ min attempt 6

/-- The condition after a draw: a draw of 0 sends the frame back to WAITING at once (R82). -/
def backoffCondition (slots : Nat) (tick : Tick) : LineCondition := if slots = 0 then .waiting tick else .backoff slots

/-- Backoff after a failed attempt: the slots are drawn (R82). -/
def backOff (f : TxFrame) (s : State) : State :=
  let r := draw (backoffRange f.attempts) s
  setCurrent f (backoffCondition r.1 s.clock.tick) r.2

/-- A failure of the attempt a frame's count now holds: backoff, or abandonment on the tenth (R82, R83). -/
def attemptFailed (f : TxFrame) (why : LineFailure) (s : State) : State :=
  if f.attempts < Config.maxAttempts then backOff f s else abandonCurrent f why s

/-- A collision of the frame being sent (R82). -/
def collide (s : State) : State :=
  match s.line.condition, s.line.queue with
  | .sending, f :: _ => attemptFailed f .collision s
  | _, _ => s

/-- Two seconds of WAITING without an idle line count as a failed attempt (R81). -/
def busyFail (s : State) : State :=
  match s.line.condition, s.line.queue with
  | .waiting since, f :: _ =>
    if since + 20 ≤ s.clock.tick then attemptFailed { f with attempts := f.attempts + 1 } .busy s else s
  | _, _ => s

/-- The drawn slots have passed: the frame returns to WAITING (R82). -/
def endBackoff (s : State) : State :=
  match s.line.condition with
  | .backoff _ => s.withLine { s.line with condition := .waiting s.clock.tick }
  | _ => s

/-! ### Completion (R85, R90) -/

/-- The receive count advances, wrapping after 4,294,967,295; the count held is the line position (R85). -/
def countFrame (s : State) : State := s.withLine { s.line with rxCount := (s.line.rxCount + 1) % 4294967296 }

/-- The fresh count falls by one while above 0 (R98). -/
def lowerFresh (s : State) : State := s.withLine { s.line with freshCount := s.line.freshCount - 1 }

/-- The originating block of a completed frame is told (R90). -/
def tellCompleted (f : TxFrame) (s : State) : State :=
  match f.payload with
  | .claim _ => decideGrant f.seq s.line.rxCount s
  | .segReq g => segReqCompleted g.kind f.seq s
  | .announce _ => lowerFresh s
  | _ => s

/-- The completion of the frame being sent: counted, removed, its block told (R85). -/
def complete (s : State) : State :=
  match s.line.condition, s.line.queue with
  | .sending, f :: _ => tellCompleted f (dropCurrent (countFrame s))
  | _, _ => s

/-! ### Re-sends (R56, R57) -/

/-- A call whose own-origin report is re-sent: live, best report with the station's own origin (R56). -/
def ownReport (s : State) (c : Call) : Option BestReport :=
  match c.report with
  | some r => if c.state.live && r.origin = own s then some r else none
  | none => none

/-- The RUNNING frames of own reports of live calls, in call index order (R56, R57). -/
def ownReportPayloads (s : State) : List Payload :=
  s.calls.calls.filterMap (fun c => (ownReport s c).map (runningPayload s c))

/-- Frames handed over one after another. -/
def handAll (ps : List Payload) (s : State) : State := ps.foldl (fun t p => hand p t) s

/-- The own reports handed to the line (R56, R57). -/
def resendReports (s : State) : State := handAll (ownReportPayloads s) s

end Sys2Proof.Machine
end

