-- ==== Sys2Proof/Machine/ReceiveOps.lean ====
section
/-! DEFINITION. The receive path (R91 to R94), the peer table (R95, R96), the fresh-announce re-sends (R99) and peers'
claims (R151). -/

namespace Sys2Proof.Machine

/-! ### The peer table (R95, R96) -/

/-- The entry of a station. -/
def findPeer (s : State) (station : Nat) : Option Peer := s.line.peers.find? (fun p => p.station = station)

/-- The table with one entry changed. -/
def updatePeer (station : Nat) (f : Peer → Peer) (s : State) : State :=
  s.withLine { s.line with peers := s.line.peers.map (fun p => if p.station = station then f p else p) }

/-- A peer's entry takes its new value; a change of state raises PEER_CHANGE, the watch view is formed again, and pulls
from a peer that left PRESENT are abandoned (R95). -/
def movePeer (old new : Peer) (s : State) : State :=
  let s1 := updatePeer old.station (fun _ => new) s
  let s2 := if old.state = new.state then s1 else raise (.peerChange old.station old.state new.state) s1
  let s3 := updateWatch s2
  if old.state = .present && new.state ≠ .present then abandonPullsFrom old.station s3 else s3

/-- The entry after an accepted frame: PRESENT, heard now, its silence timer restarted (R95, R96). -/
def Peer.accepted (p : Peer) (tick : Tick) : Peer :=
  { p with state := .present, lastHeard := tick, silence := some (timerFrom tick 35) }

/-- The entry with the fields an accepted ANNOUNCE stores (R95). -/
def Peer.announced (p : Peer) (f : AnnounceFields) : Peer :=
  { p with sells := f.sells, shows := f.shows, timetable := f.timetable, fare := f.fare, grade := f.grade,
           coverage := f.coverage }

/-- The entry after an ANNOUNCE with a wrong halt code (R93). -/
def Peer.foreign (p : Peer) (tick : Tick) : Peer := { p with state := .foreign, lastHeard := tick, silence := none }

/-- The entry after its silence timer expires (R96). -/
def Peer.silenced (p : Peer) : Peer := { p with state := .silent, silence := none }

/-! ### Muting (R92) -/

/-- Frames emptied by muting are told to their blocks (R92), in queue order (log entry 15). -/
def tellEmptied (q : List TxFrame) (s : State) : State := q.foldl (fun t f => tellAbandoned f t) s

/-- The station mutes: the queue is emptied, the flag set, the blocks told (R92). -/
def mute (s : State) : State :=
  tellEmptied s.line.queue (s.withLine { s.line with queue := [], condition := .noFrame, muted := true })

/-- A frame with the station's own number (R92). -/
def clash (s : State) : State :=
  let s1 := raiseClash s
  if s1.line.muted then s1 else mute s1

/-! ### The receive path (R91) -/

/-- A well-formed frame other than an ANNOUNCE, after the count: own number, FOREIGN peer, or accepted and handed on. -/
def takeFrame (h : FrameHead) (handOn : State → State) (s : State) : State :=
  if h.origin = own s then clash s
  else
    match findPeer s h.origin with
    | none => s
    | some p =>
      if p.state = .foreign then updatePeer h.origin (fun x => { x with lastHeard := s.clock.tick }) s
      else handOn (movePeer p (p.accepted s.clock.tick) s)

/-- The receive path of a frame other than an ANNOUNCE (R91): it acts in RUN, on well-formed frames. -/
def receive (h : FrameHead) (wellFormed : Bool) (handOn : State → State) (s : State) : State :=
  if s.setup.running && h.wellFormed && wellFormed then takeFrame h handOn (countFrame s) else s

/-! ### Fresh-announce re-sends (R99) -/

/-- Insertion of a claim by line position (R99, R85). -/
def insertByPosition (c : Claim) : List Claim → List Claim
  | [] => [c]
  | x :: xs =>
    if positionBefore (c.position.getD 0) (x.position.getD 0) then c :: x :: xs else x :: insertByPosition c xs

/-- The own claims in TAKEN, in the order of their line positions (R99). -/
def ownTaken (s : State) : List Claim :=
  (s.claims.filter (fun c => c.origin = own s && c.state = .taken)).foldl (fun acc c => insertByPosition c acc) []

/-- A frame for the same claim, or the same bulletin in force, is queued already (R99; log entry 55). -/
def queuedAlready (p : Payload) (s : State) : Bool :=
  s.line.queue.any (fun f =>
    match p, f.payload with
    | .taken a, .taken b => a.seq = b.seq
    | .bulletin a, .bulletin b => a.origin = b.origin && a.number = b.number && !b.withdrawn
    | _, _ => false)

/-- A frame handed over unless one for the same claim or bulletin is queued (R99). -/
def handUnlessQueued (s : State) (p : Payload) : State := if queuedAlready p s then s else hand p s

/-- The own bulletins in force, oldest first (R99, R169). -/
def ownInForce (s : State) : List Bulletin := s.bulletins.list.filter (fun b => b.origin = own s && b.inForce)

/-- The re-sends a fresh ANNOUNCE draws: reports, own TAKEN claims, own bulletins in force (R99). -/
def freshResends (s : State) : State :=
  let s1 := resendReports s
  let s2 := ((ownTaken s1).map (fun c => Payload.taken c.fields)).foldl handUnlessQueued s1
  ((ownInForce s2).map bulletinPayload).foldl handUnlessQueued s2

/-! ### Hand-on by kind (R94) -/

/-- The further hand-offs of an accepted ANNOUNCE: Halt Clock, Edition Store, fresh re-sends (R94). -/
def announceHandOn (station : Nat) (f : AnnounceFields) (s : State) : State :=
  let s1 := considerAdoption station f s
  let s2 := considerOffer .fare f.fare (considerOffer .timetable f.timetable s1)
  if f.fresh then freshResends s2 else s2

/-- An ANNOUNCE after the count (R91 to R93). -/
def takeAnnounce (h : FrameHead) (f : AnnounceFields) (s : State) : State :=
  if h.origin = own s then clash s
  else
    match findPeer s h.origin with
    | none => s
    | some p =>
      if f.haltCode ≠ s.setup.settings.haltCode then movePeer p (p.foreign s.clock.tick) s
      else announceHandOn h.origin f (movePeer p ((p.announced f).accepted s.clock.tick) s)

/-- The receive path of an ANNOUNCE (R91). -/
def receiveAnnounce (h : FrameHead) (f : AnnounceFields) (s : State) : State :=
  if s.setup.running && h.wellFormed && f.wellFormed then takeAnnounce h f (countFrame s) else s

/-- The checks of a received report (R40, R41), and its call. -/
def acceptedFor (f : RunningFields) (s : State) : Option Nat :=
  if s.clock.grade = .unset || f.date ≠ s.clock.date || s.clock.second + 60 < f.observed then none
  else
    match callIndex s.calls.calls f.service with
    | none => none
    | some i =>
      match s.calls.calls[i]? with
      | none => none
      | some c => if c.state.live && mergePasses c f.observed then some i else none

/-- A RUNNING frame handed to the Call Table (R40). -/
def runningHandOn (origin : Nat) (f : RunningFields) (s : State) : State :=
  match acceptedFor f s with
  | some i => acceptReport i (bestReportOf f origin) s
  | none => s

/-- An APPROACH frame handed to the Call Table (R49). -/
def approachHandOn (origin : Nat) (f : ApproachFields) (s : State) : State :=
  (approachObserved ⟨f.direction, f.detect, f.speed, f.etaStop, f.etaPass, f.pair, origin⟩ s).2

/-- A DEPART frame handed to the Call Table (R52). -/
def departHandOn (f : DepartFields) (s : State) : State := (departureObserved f.direction f.detect s).2

/-! ### Peers' claims (R151) -/

/-- A claim of these fields may join: its call is held for the current service date and not over (R151). -/
def claimCallHeld (f : ClaimFields) (s : State) : Bool :=
  f.date = s.clock.date && (match callFor s f.service f.date with | some c => !c.state.over | none => false)

/-- The claim a received frame makes, at the frame's line position (R151). -/
def claimOf (origin : Nat) (f : ClaimFields) (st : ClaimState) (heard : Option Tick) (s : State) : Claim :=
  ⟨f.service, f.date, f.cls, origin, f.seq, some s.line.rxCount, st, heard⟩

/-- A claim taken into the list, followed by the test of R149; dropped at a full list (R151). -/
def takeIn (c : Claim) (s : State) : State :=
  if s.claims.length < Config.claimCapacity then withdrawalTest (s.withClaims (s.claims ++ [c])) else s

/-- A received CLAIM at the Claim List (R151). -/
def claimHandOn (origin : Nat) (f : ClaimFields) (s : State) : State :=
  match findClaim s.claims origin f.seq with
  | some _ => s
  | none => if claimCallHeld f s then takeIn (claimOf origin f .pending (some s.clock.tick) s) s else s

/-- A received TAKEN at the Claim List (R151). A PENDING claim that becomes TAKEN loses its heard tick (log entry 47). -/
def takenHandOn (origin : Nat) (f : ClaimFields) (s : State) : State :=
  match findClaim s.claims origin f.seq with
  | some c =>
    if c.state = .pending then updateClaim origin f.seq (fun x => { x with state := .taken, heard := none }) s else s
  | none => if claimCallHeld f s then takeIn (claimOf origin f .taken none s) s else s

/-- A received RELEASE at the Claim List (R151). -/
def releaseHandOn (origin : Nat) (f : ClaimFields) (s : State) : State := removeClaim origin f.seq s

/-! ### Segments -/

/-- A SEG_REQ, answered when this station is its addressee (R94, R114). -/
def segReqHandOn (origin : Nat) (f : SegReqFields) (s : State) : State :=
  if f.addressee = own s then hand (segmentAnswer origin (slotOf s f.kind) f) s else s

/-- A SEGMENT, handed to the Edition Store when this station is its addressee (R94, R112). -/
def segmentHandOn (origin : Nat) (f : SegmentFields) (s : State) : State :=
  if f.addressee = own s then segmentArrived origin f s else s

end Sys2Proof.Machine
end

