-- ==== Sys2Proof/Machine/LineEvents.lean ====
section
/-! DEFINITION. The events of the Line Controller: attempts and their ends (R81 to R85), received frames (R91 to R94), and
the timers of the line, the Call Table and the Edition Store (R56, R96, R98, R111, R112). -/

namespace Sys2Proof.Machine

/-! ### Attempts -/

/-- ATTEMPT_START (R81). -/
def execAttemptStart (s : State) : Host.Outcome State Fault Refusal := .next (startAttempt s)

/-- BUSY_FAILURE (R81). -/
def execBusyFailure (s : State) : Host.Outcome State Fault Refusal := .next (busyFail s)

/-- COLLISION (R82). -/
def execCollision (s : State) : Host.Outcome State Fault Refusal := .next (collide s)

/-- BACKOFF_END (R82). -/
def execBackoffEnd (s : State) : Host.Outcome State Fault Refusal := .next (endBackoff s)

/-- COMPLETION (R85). -/
def execCompletion (s : State) : Host.Outcome State Fault Refusal := .next (complete s)

/-! ### Received frames -/

/-- ANNOUNCE_RECEIVED (R94). -/
def execAnnounceReceived (h : FrameHead) (f : AnnounceFields) (s : State) : Host.Outcome State Fault Refusal :=
  .next (receiveAnnounce h f s)

/-- The receive path of a RUNNING frame (R40). -/
def receiveRunning (h : FrameHead) (f : RunningFields) : State → State := receive h f.wellFormed (runningHandOn h.origin f)

/-- RUNNING_RECEIVED (R40). -/
def execRunningReceived (h : FrameHead) (f : RunningFields) (s : State) : Host.Outcome State Fault Refusal :=
  .next (receiveRunning h f s)

/-- The receive path of an APPROACH frame (R49). -/
def receiveApproach (h : FrameHead) (f : ApproachFields) : State → State := receive h f.wellFormed (approachHandOn h.origin f)

/-- APPROACH_RECEIVED (R49). -/
def execApproachReceived (h : FrameHead) (f : ApproachFields) (s : State) : Host.Outcome State Fault Refusal :=
  .next (receiveApproach h f s)

/-- The receive path of a DEPART frame (R52). -/
def receiveDepart (h : FrameHead) (f : DepartFields) : State → State := receive h f.wellFormed (departHandOn f)

/-- DEPART_RECEIVED (R52). -/
def execDepartReceived (h : FrameHead) (f : DepartFields) (s : State) : Host.Outcome State Fault Refusal :=
  .next (receiveDepart h f s)

/-- The receive path of a CLAIM frame (R151). -/
def receiveClaim (h : FrameHead) (f : ClaimFields) : State → State := receive h f.wellFormed (claimHandOn h.origin f)

/-- CLAIM_RECEIVED (R151). -/
def execClaimReceived (h : FrameHead) (f : ClaimFields) (s : State) : Host.Outcome State Fault Refusal :=
  .next (receiveClaim h f s)

/-- The receive path of a TAKEN frame (R151). -/
def receiveTaken (h : FrameHead) (f : ClaimFields) : State → State := receive h f.wellFormed (takenHandOn h.origin f)

/-- TAKEN_RECEIVED (R151). -/
def execTakenReceived (h : FrameHead) (f : ClaimFields) (s : State) : Host.Outcome State Fault Refusal :=
  .next (receiveTaken h f s)

/-- The receive path of a RELEASE frame (R151). -/
def receiveRelease (h : FrameHead) (f : ClaimFields) : State → State := receive h f.wellFormed (releaseHandOn h.origin f)

/-- RELEASE_RECEIVED (R151). -/
def execReleaseReceived (h : FrameHead) (f : ClaimFields) (s : State) : Host.Outcome State Fault Refusal :=
  .next (receiveRelease h f s)

/-- The receive path of a SEG_REQ frame (R114). -/
def receiveSegReq (h : FrameHead) (f : SegReqFields) : State → State := receive h f.wellFormed (segReqHandOn h.origin f)

/-- SEG_REQ_RECEIVED (R114). -/
def execSegReqReceived (h : FrameHead) (f : SegReqFields) (s : State) : Host.Outcome State Fault Refusal :=
  .next (receiveSegReq h f s)

/-- The receive path of a SEGMENT frame (R112). -/
def receiveSegment (h : FrameHead) (f : SegmentFields) : State → State := receive h f.wellFormed (segmentHandOn h.origin f)

/-- SEGMENT_RECEIVED (R112). -/
def execSegmentReceived (h : FrameHead) (f : SegmentFields) (s : State) : Host.Outcome State Fault Refusal :=
  .next (receiveSegment h f s)

/-- The receive path of a BULLETIN frame (R168). -/
def receiveBulletin (h : FrameHead) (f : BulletinFields) : State → State := receive h f.wellFormed (takeBulletin h.origin f)

/-- BULLETIN_RECEIVED (R168). -/
def execBulletinReceived (h : FrameHead) (f : BulletinFields) (s : State) : Host.Outcome State Fault Refusal :=
  .next (receiveBulletin h f s)

/-! ### Timers -/

/-- A PRESENT peer unheard for 35 s becomes SILENT (R96). -/
def peerSilent (station : Nat) (s : State) : State :=
  match findPeer s station with
  | some p => if p.state = .present && timerDue p.silence s.clock.tick then movePeer p p.silenced s else s
  | none => s

/-- PEER_SILENCE_TIMER_EXPIRY (R96). -/
def execPeerSilenceTimerExpiry (station : Nat) (s : State) : Host.Outcome State Fault Refusal := .next (peerSilent station s)

/-- A new ANNOUNCE is handed to the queue and the timer restarted (R98). -/
def announceDue (s : State) : State := if timerDue s.line.announceTimer s.clock.tick then announce s else s

/-- ANNOUNCE_TIMER_EXPIRY (R98). -/
def execAnnounceTimerExpiry (s : State) : Host.Outcome State Fault Refusal := .next (announceDue s)

/-- The re-send timer is restarted and own reports of live calls are handed to the line (R56). -/
def resendDue (s : State) : State :=
  if timerDue s.calls.resend s.clock.tick then
    resendReports (s.withCalls { s.calls with resend := some (timerFrom s.clock.tick 60) })
  else s

/-- RE_SEND_TIMER_EXPIRY (R56). -/
def execReSendTimerExpiry (s : State) : Host.Outcome State Fault Refusal := .next (resendDue s)

/-- The pull wait of a kind ends (R111). -/
def pullWaitDue (k : TableKind) (s : State) : State :=
  if timerDue (slotOf s k).pullWait s.clock.tick then beginPull k s else s

/-- PULL_WAIT_TIMER_EXPIRY (R111). -/
def execPullWaitTimerExpiry (k : TableKind) (s : State) : Host.Outcome State Fault Refusal := .next (pullWaitDue k s)

/-- The reply timer of a kind's pull, when one runs. -/
def replyTimer (k : TableKind) (s : State) : Option Timer :=
  match (slotOf s k).pull with
  | some p => p.replyTimer
  | none => none

/-- The reply timer of a pull expires (R112). -/
def replyDue (k : TableKind) (s : State) : State := if timerDue (replyTimer k s) s.clock.tick then requestExpired k s else s

/-- REPLY_TIMER_EXPIRY (R112). -/
def execReplyTimerExpiry (k : TableKind) (s : State) : Host.Outcome State Fault Refusal := .next (replyDue k s)

end Sys2Proof.Machine
end

