-- ==== Sys2Proof/Machine/LineFrames.lean ====
section
/-! DEFINITION. Reading the bytes of a frame off the halt line (R79, R91, R189), and MALFORMED_FRAME. -/

namespace Sys2Proof.Machine

/-! ### Fields -/

/-- A date from its bytes. -/
def dateOf (y m d : Nat) : Date := ⟨2000 + y, m, d⟩

/-- Two bytes of two's complement (R188). -/
def signedOf (a b : Nat) : Int := if be2 a b < 32768 then (be2 a b : Int) else (be2 a b : Int) - 65536

/-- An instant from its bytes. -/
def instantOf (y m d a b c : Nat) : Instant := ⟨dateOf y m d, be3 a b c⟩

/-- A received flag: other than 0 is read as set (R188). -/
def flagOf (n : Nat) : Bool := n != 0

/-- The direction a number names. -/
def directionOf : Nat → Option Direction
  | 0 => some .up
  | 1 => some .down
  | _ => none

/-- The space class a number names. -/
def classOf : Nat → Option SpaceClass
  | 0 => some .bike
  | 1 => some .chair
  | _ => none

/-- The clock grade a number names. -/
def gradeOf : Nat → Option ClockGrade
  | 0 => some .unset
  | 1 => some .adopted
  | 2 => some .hostAged
  | 3 => some .host
  | _ => none

/-- A carried speed: 0 when SLOW (R189). -/
def speedOf (slow v : Nat) : Option Speed := if flagOf slow then (if v = 0 then some .slow else none) else some (.cms v)

/-- The coverage four bits give; a bit beyond them makes the field out of range. -/
def coverageOf (n : Nat) : Option Coverage :=
  if n < 16 then some ⟨n.testBit 0, n.testBit 1, n.testBit 2, n.testBit 3⟩ else none

/-- The text of c characters packed in some bytes (R189). The fill bits of the last byte are not read (log entry 54). -/
def unpackText (c : Nat) (bs : List Nat) : Text := groups 7 c (bs.flatMap (bitsOf 8))

/-! ### Payloads -/

/-- An ANNOUNCE payload. -/
def readAnnounce : List Nat → Option AnnounceFields
  | [roles, h1, h2, t1, t2, f1, f2, y, m, d, s1, s2, s3, tenths, g, cov, fresh] => do
    let grade ← gradeOf g
    let coverage ← coverageOf cov
    if roles < 4 then
      some { sells := roles.testBit 0, shows := roles.testBit 1, haltCode := be2 h1 h2, timetable := be2 t1 t2,
             fare := be2 f1 f2, date := dateOf y m d, second := be3 s1 s2 s3, tenths := tenths, grade := grade,
             coverage := coverage, fresh := flagOf fresh }
    else none
  | _ => none

/-- The first 12 bytes of a RUNNING payload. -/
def readReport : List Nat → Option RunningFields
  | n1 :: n2 :: y :: m :: d :: p :: l1 :: l2 :: t1 :: t2 :: t3 :: c :: _ =>
    some ⟨be2 n1 n2, dateOf y m d, p, signedOf l1 l2, be3 t1 t2 t3, flagOf c⟩
  | _ => none

/-- A RUNNING payload of 12 to 16 bytes. -/
def readRunning (bs : List Nat) : Option RunningFields := if bs.length ≤ 16 then readReport bs else none

/-- An APPROACH payload. -/
def readApproach : List Nat → Option ApproachFields
  | [d, t1, t2, t3, slow, v1, v2, v3, s1, s2, p1, p2, pr] => do
    let direction ← directionOf d
    let speed ← speedOf slow (be3 v1 v2 v3)
    let pair ← pairOf pr
    some ⟨direction, be3 t1 t2 t3, speed, be2 s1 s2, be2 p1 p2, pair⟩
  | _ => none

/-- A DEPART payload. -/
def readDepart : List Nat → Option DepartFields
  | [d, t1, t2, t3, slow, v1, v2, v3, pr] => do
    let direction ← directionOf d
    let speed ← speedOf slow (be3 v1 v2 v3)
    let pair ← pairOf pr
    some ⟨direction, be3 t1 t2 t3, speed, pair⟩
  | _ => none

/-- A CLAIM, TAKEN or RELEASE payload. -/
def readClaim : List Nat → Option ClaimFields
  | [n1, n2, y, m, d, c, q1, q2] => do
    let cls ← classOf c
    some ⟨be2 n1 n2, dateOf y m d, cls, be2 q1 q2⟩
  | _ => none

/-- A SEG_REQ payload. -/
def readSegReq : List Nat → Option SegReqFields
  | [a, k, e1, e2, i] => do
    let kind ← tableKindOf k
    some ⟨a, kind, be2 e1 e2, i⟩
  | _ => none

/-- A SEGMENT payload. -/
def readSegment : List Nat → Option SegmentFields
  | a :: k :: e1 :: e2 :: i :: g :: data => do
    let kind ← tableKindOf k
    some ⟨a, kind, be2 e1 e2, i, flagOf g, data.map (BitVec.ofNat 8)⟩
  | _ => none

/-- A BULLETIN payload: its length fits its count of characters (R189). -/
def readBulletin : List Nat → Option BulletinFields
  | o :: n :: f :: c :: y1 :: m1 :: d1 :: a1 :: a2 :: a3 :: y2 :: m2 :: d2 :: b1 :: b2 :: b3 :: packed =>
    if f < 4 && c ≤ 64 && packed.length = packedLength c then
      some ⟨o, n, if f.testBit 0 then .suspension else .info, f.testBit 1, instantOf y1 m1 d1 a1 a2 a3,
        instantOf y2 m2 d2 b1 b2 b3, unpackText c packed⟩
    else none
  | _ => none

/-- A payload read by the frame's kind (R189). -/
def readPayload (kind : Nat) (bs : List Nat) : Option Payload :=
  match kind with
  | 1 => (readAnnounce bs).map .announce
  | 2 => (readRunning bs).map .running
  | 3 => (readApproach bs).map .approach
  | 4 => (readDepart bs).map .depart
  | 5 => (readClaim bs).map .claim
  | 6 => (readClaim bs).map .taken
  | 7 => (readClaim bs).map .release
  | 8 => (readSegReq bs).map .segReq
  | 9 => (readSegment bs).map .segment
  | 10 => (readBulletin bs).map .bulletin
  | _ => none

/-- Every field of a payload lies within its range (R79). -/
def Payload.wellFormed : Payload → Bool
  | .announce f => f.wellFormed
  | .running f => f.wellFormed
  | .approach f => f.wellFormed
  | .depart f => f.wellFormed
  | .claim f => f.wellFormed
  | .taken f => f.wellFormed
  | .release f => f.wellFormed
  | .segReq f => f.wellFormed
  | .segment f => f.wellFormed
  | .bulletin f => f.wellFormed

/-! ### Frames -/

/-- Header and payload of a frame that is as long as its length byte calls for (R189). -/
def splitFrame : List Nat → Option (FrameHead × Nat × List Nat)
  | k :: o :: q1 :: q2 :: len :: rest => if rest.length = len + 2 then some (⟨o, be2 q1 q2⟩, k, rest.take len) else none
  | _ => none

/-- The frame that bytes spell, when they are well-formed (R79, R189). -/
def readFrame (bs : List Nat) : Option (FrameHead × Payload) :=
  match splitFrame bs with
  | none => none
  | some (h, k, payload) =>
    if bs.drop (bs.length - 2) = num2 (crc16 (bs.take (bs.length - 2))) && h.wellFormed then
      match readPayload k payload with
      | some p => if p.wellFormed then some (h, p) else none
      | none => none
    else none

/-- A frame taken through the receive path of its kind (R91, R94). -/
def takeRead (h : FrameHead) (p : Payload) (s : State) : State :=
  match p with
  | .announce f => receiveAnnounce h f s
  | .running f => receiveRunning h f s
  | .approach f => receiveApproach h f s
  | .depart f => receiveDepart h f s
  | .claim f => receiveClaim h f s
  | .taken f => receiveTaken h f s
  | .release f => receiveRelease h f s
  | .segReq f => receiveSegReq h f s
  | .segment f => receiveSegment h f s
  | .bulletin f => receiveBulletin h f s

/-- Bytes that end on the line: a frame that is not well-formed is discarded without effect (R91); bytes that are a
well-formed frame after all are taken as that frame. -/
def takeBytes (bs : List Byte) (s : State) : State :=
  match readFrame (byteValues bs) with
  | some f => takeRead f.1 f.2 s
  | none => s

/-- MALFORMED_FRAME (R91). -/
def execMalformedFrame (bs : List Byte) (s : State) : Host.Outcome State Fault Refusal := .next (takeBytes bs s)

end Sys2Proof.Machine
end

