-- ==== Sys2Proof/Machine/LoadsAndReports.lean ====
section
/-! DEFINITION. The load commands (R104 to R106), REPORT_RUNNING (R39), the bulletin commands (R176, R177) and the read
commands (R35, R97, R155). -/

namespace Sys2Proof.Machine

/-! ### Loads -/

/-- LOAD_BEGIN as a host command. -/
def runLoadBegin (tag kind length : Nat) : State → State := hostCommand .loadBegin tag true (beginLoad kind length)

/-- LOAD_BEGIN (R104). -/
def execLoadBegin (tag kind length : Nat) (s : State) : Host.Outcome State Fault Refusal := .next (runLoadBegin tag kind length s)

/-- LOAD_SEGMENT carries 1..64 bytes (R105, R190). -/
def segmentLengthOk (data : List Byte) : Bool := 1 ≤ data.length && data.length ≤ 64

/-- LOAD_SEGMENT as a host command. -/
def runLoadSegment (tag kind offset : Nat) (data : List Byte) : State → State :=
  hostCommand .loadSegment tag (segmentLengthOk data) (loadData kind offset data)

/-- LOAD_SEGMENT (R105). -/
def execLoadSegment (tag kind offset : Nat) (data : List Byte) (s : State) : Host.Outcome State Fault Refusal :=
  .next (runLoadSegment tag kind offset data s)

/-- LOAD_ABANDON as a host command. -/
def runLoadAbandon (tag kind : Nat) : State → State := hostCommand .loadAbandon tag true (abandonLoad kind)

/-- LOAD_ABANDON (R106). -/
def execLoadAbandon (tag kind : Nat) (s : State) : Host.Outcome State Fault Refusal := .next (runLoadAbandon tag kind s)

/-! ### REPORT_RUNNING (R39) -/

/-- The check BAD_REPORT of R39. -/
def reportFieldsOk (second : Nat) (f : RunningFields) : Bool :=
  1 ≤ f.service && f.service ≤ 9999 && f.observed ≤ 86399 && f.observed ≤ second + 60

/-- The checks of R39 in order: the reason of the first that fails, or the call's index. -/
def reportCheck (f : RunningFields) (s : State) : Except Reason Nat :=
  if s.clock.grade = .unset then .error .noTime
  else if !reportFieldsOk s.clock.second f then .error .badReport
  else if f.date ≠ s.clock.date then .error .wrongDate
  else
    match callIndex s.calls.calls f.service with
    | none => .error .noService
    | some i =>
      match s.calls.calls[i]? with
      | none => .error .noService
      | some c =>
        if !c.state.live then .error .callEnded else if !mergePasses c f.observed then .error .staleReport else .ok i

/-- The RUNNING frame of the report the call at an index now rests on is handed to the line (R42). -/
def sendReport (i : Nat) (r : BestReport) (s : State) : State :=
  match s.calls.calls[i]? with
  | some c => hand (runningPayload s c r) s
  | none => s

/-- The state the call at an index holds (R39). -/
def stateOfCall (i : Nat) (s : State) : CallState :=
  match s.calls.calls[i]? with
  | some c => c.state
  | none => .pending

/-- REPORT_RUNNING handed to its block (R39, R42). -/
def reportRunning (f : RunningFields) (s : State) : Answer × State :=
  match reportCheck f s with
  | .error r => (.refused r, s)
  | .ok i =>
    let best := bestReportOf f (own s)
    let s1 := acceptReport i best s
    (.ok (.reportTaken i (stateOfCall i s1)), sendReport i best s1)

/-- REPORT_RUNNING as a host command. -/
def runReportRunning (tag : Nat) (f : RunningFields) : State → State := hostCommand .reportRunning tag true (reportRunning f)

/-- REPORT_RUNNING (R39). -/
def execReportRunning (tag : Nat) (f : RunningFields) (s : State) : Host.Outcome State Fault Refusal :=
  .next (runReportRunning tag f s)

/-! ### Bulletins (R176, R177) -/

/-- The check BAD_BULLETIN of R176, beyond the kind. -/
def bulletinFieldsOk (validFrom validUntil : Instant) (text : Text) : Bool :=
  validFrom.valid && validUntil.valid && 1 ≤ text.length && text.length ≤ 64 && Text.inCharset text &&
    validFrom.before validUntil

/-- The bulletin counter's next value, wrapping from 255 to 1 (R168). -/
def nextNumber (counter : Nat) : Nat := if counter = 255 then 1 else counter + 1

/-- A new own bulletin replaces one of its id in place, or joins the list; the id dropped, if any (R176). -/
def postToList (b : Bulletin) (s : State) : Option (Nat × Nat) × State :=
  match findBulletin s.bulletins.list b.origin b.number with
  | some old => (none, replaceBulletin old b s)
  | none => addBulletin b s

/-- An accepted POST_BULLETIN: id, list, force, line (R176). -/
def postAccepted (k : BulletinKind) (validFrom validUntil : Instant) (text : Text) (s : State) : Answer × State :=
  let n := nextNumber s.bulletins.counter
  let b : Bulletin := ⟨own s, n, k, validFrom, validUntil, text, false⟩
  let r := postToList b (s.withBulletins { s.bulletins with counter := n })
  (.ok (.bulletinPosted (own s) n r.1), hand (bulletinPayload b) r.2)

/-- POST_BULLETIN handed to its block (R176). -/
def postBulletin (kind : Nat) (validFrom validUntil : Instant) (text : Text) (s : State) : Answer × State :=
  match bulletinKindOf kind with
  | none => (.refused .badBulletin, s)
  | some k =>
    if !bulletinFieldsOk validFrom validUntil text then (.refused .badBulletin, s)
    else if s.clock.grade = .unset || s.clock.instant.before validUntil then postAccepted k validFrom validUntil text s
    else (.refused .expired, s)

/-- POST_BULLETIN carries a text of 1..64 characters (R190). -/
def textLengthOk (text : Text) : Bool := 1 ≤ text.length && text.length ≤ 64

/-- POST_BULLETIN as a host command. -/
def runPostBulletin (tag kind : Nat) (validFrom validUntil : Instant) (text : Text) : State → State :=
  hostCommand .postBulletin tag (textLengthOk text) (postBulletin kind validFrom validUntil text)

/-- POST_BULLETIN (R176). -/
def execPostBulletin (tag kind : Nat) (validFrom validUntil : Instant) (text : Text) (s : State) :
    Host.Outcome State Fault Refusal :=
  .next (runPostBulletin tag kind validFrom validUntil text s)

/-- The BULLETIN frame of a withdrawal (R177). -/
def withdrawalPayload (origin number : Nat) (held : Option Bulletin) : Payload :=
  match held with
  | some b => .bulletin ⟨origin, number, b.kind, true, b.validFrom, b.validUntil, []⟩
  | none => .bulletin ⟨origin, number, .info, true, zeroInstant, zeroInstant, []⟩

/-- A held bulletin removed by its withdrawal (R177). -/
def withdrawHeld (held : Option Bulletin) (s : State) : State :=
  match held with
  | some b => removeBulletin b .removed s
  | none => s

/-- WITHDRAW_BULLETIN handed to its block (R177). -/
def withdrawBulletin (origin number : Nat) (s : State) : Answer × State :=
  if origin ≠ own s then (.refused .notOwn, s)
  else if number = 0 || 255 < number then (.refused .badBulletin, s)
  else
    let held := findBulletin s.bulletins.list origin number
    (.ok (.bulletinHeld held.isSome), hand (withdrawalPayload origin number held) (withdrawHeld held s))

/-- WITHDRAW_BULLETIN as a host command. -/
def runWithdrawBulletin (tag origin number : Nat) : State → State :=
  hostCommand .withdrawBulletin tag true (withdrawBulletin origin number)

/-- WITHDRAW_BULLETIN (R177). -/
def execWithdrawBulletin (tag origin number : Nat) (s : State) : Host.Outcome State Fault Refusal :=
  .next (runWithdrawBulletin tag origin number s)

/-! ### Reads (R35, R97, R155) -/

/-- The summary of a call at an index; E_d is absent at grade 0 (R35). -/
def summaryOf (grade : ClockGrade) (p : Call × Nat) : CallSummary :=
  { index := p.2, service := p.1.service, kind := p.1.kind, direction := p.1.direction, platform := p.1.platform,
    state := p.1.state, dep := if grade = .unset then none else p.1.departure, delayed := p.1.delayed }

/-- READ_CALLS handed to its block (R35). -/
def readCalls (first : Nat) (s : State) : Answer × State :=
  (.ok (.calls s.calls.buildCount s.calls.date s.calls.calls.length
    (((s.calls.calls.zipIdx.drop first).take 8).map (summaryOf s.clock.grade))), s)

/-- READ_CALLS as a host command. -/
def runReadCalls (tag first : Nat) : State → State := hostCommand .readCalls tag true (readCalls first)

/-- READ_CALLS (R35). -/
def execReadCalls (tag first : Nat) (s : State) : Host.Outcome State Fault Refusal := .next (runReadCalls tag first s)

/-- READ_CALL handed to its block (R35). -/
def readCall (index : Nat) (s : State) : Answer × State :=
  match s.calls.calls[index]? with
  | some c => (.ok (.call s.calls.buildCount index c), s)
  | none => (.refused .noCall, s)

/-- READ_CALL as a host command. -/
def runReadCall (tag index : Nat) : State → State := hostCommand .readCall tag true (readCall index)

/-- READ_CALL (R35). -/
def execReadCall (tag index : Nat) (s : State) : Host.Outcome State Fault Refusal := .next (runReadCall tag index s)

/-- A peer entry with the whole seconds since it was heard, absent for one never heard (R97). -/
def peerReport (tick : Tick) (p : Peer) : PeerReport :=
  ⟨p, if p.state = .unknown then none else some ((tick - p.lastHeard) / 10)⟩

/-- READ_PEERS handed to its block (R97). -/
def readPeers (s : State) : Answer × State :=
  (.ok (.peers (own s) s.line.muted s.line.queue.length s.line.rxCount s.line.seqCounter
    (s.line.peers.map (peerReport s.clock.tick))), s)

/-- READ_PEERS as a host command. -/
def runReadPeers (tag : Nat) : State → State := hostCommand .readPeers tag true readPeers

/-- READ_PEERS (R97). -/
def execReadPeers (tag : Nat) (s : State) : Host.Outcome State Fault Refusal := .next (runReadPeers tag s)

/-- The end of a PENDING claim's lifetime of 180 s, as a timer (R151). -/
def claimTimer (c : Claim) : Option Timer :=
  match c.state, c.heard with
  | .pending, some t => some (timerFrom t 180)
  | _, _ => none

/-- A claim as READ_CLAIMS gives it (R155). -/
def claimReport (tick : Tick) (c : Claim) : ClaimReport := ⟨c, (claimTimer c).map (fun t => t.secondsLeft tick)⟩

/-- READ_CLAIMS handed to its block (R155). -/
def readClaims (first : Nat) (s : State) : Answer × State :=
  (.ok (.claims s.claims.length (((s.claims.drop first).take 8).map (claimReport s.clock.tick))), s)

/-- READ_CLAIMS as a host command. -/
def runReadClaims (tag first : Nat) : State → State := hostCommand .readClaims tag true (readClaims first)

/-- READ_CLAIMS (R155). -/
def execReadClaims (tag first : Nat) (s : State) : Host.Outcome State Fault Refusal := .next (runReadClaims tag first s)

end Sys2Proof.Machine
end

