-- ==== Sys2Proof/Machine/PanelAndNotices.lean ====
section
/-! DEFINITION. The board commands and timers (R161, R164 to R167) and the notice commands (R179 to R181). -/

namespace Sys2Proof.Machine

/-! ### LAMP_TEST and BRIGHTNESS -/

/-- LAMP_TEST handed to its block (R166). -/
def lampTest (seconds : Nat) (s : State) : Answer × State :=
  if seconds = 0 || 30 < seconds then (.refused .badDuration, s)
  else (.ok .none, s.withBoard { s.board with lamp := some (timerFrom s.clock.tick seconds) })

/-- LAMP_TEST as a host command. -/
def runLampTest (tag seconds : Nat) : State → State := hostCommand .lampTest tag true (lampTest seconds)

/-- LAMP_TEST (R166). -/
def execLampTest (tag seconds : Nat) (s : State) : Host.Outcome State Fault Refusal := .next (runLampTest tag seconds s)

/-- The override a level asks for: 8 is automatic (R167). -/
def overrideOf (level : Nat) : Option Nat := if level = 8 then none else some level

/-- BRIGHTNESS handed to its block (R167). -/
def brightness (level : Nat) (s : State) : Answer × State :=
  if 8 < level then (.refused .badLevel, s)
  else (.ok .none, compose (s.withBoard { s.board with override := overrideOf level }))

/-- BRIGHTNESS as a host command. -/
def runBrightness (tag level : Nat) : State → State := hostCommand .brightness tag true (brightness level)

/-- BRIGHTNESS (R167). -/
def execBrightness (tag level : Nat) (s : State) : Host.Outcome State Fault Refusal := .next (runBrightness tag level s)

/-! ### Timers of the board, and the panel port -/

/-- The rotation timer expires: restarted, the phase changes, the board composes (R161). -/
def rotate (s : State) : State :=
  if timerDue s.board.rotation s.clock.tick then
    compose (s.withBoard { s.board with rotation := some (timerFrom s.clock.tick 10), phase := 1 - s.board.phase })
  else s

/-- ROTATION_TIMER_EXPIRY (R161). -/
def execRotationTimerExpiry (s : State) : Host.Outcome State Fault Refusal := .next (rotate s)

/-- The warning timer of a direction expires: its part is cleared and the board composes (R164). -/
def warningExpired (d : Direction) (s : State) : State :=
  if timerDue (s.board.warning d) s.clock.tick then compose (s.withBoard (s.board.setWarning d none)) else s

/-- WARNING_TIMER_EXPIRY (R164). -/
def execWarningTimerExpiry (d : Direction) (s : State) : Host.Outcome State Fault Refusal := .next (warningExpired d s)

/-- The lamp test ends and the board composes the normal image (R166). -/
def lampExpired (s : State) : State :=
  if timerDue s.board.lamp s.clock.tick then compose (s.withBoard { s.board with lamp := none }) else s

/-- LAMP_TEST_TIMER_EXPIRY (R166). -/
def execLampTestTimerExpiry (s : State) : Host.Outcome State Fault Refusal := .next (lampExpired s)

/-- A send ends: the pending image, if any, is sent, else the port is IDLE (R165). -/
def endSend (s : State) : State :=
  if s.board.sending.isSome then s.withBoard { s.board with sending := s.board.waitingImage, waitingImage := none } else s

/-- PANEL_SEND_END (R165). -/
def execPanelSendEnd (s : State) : Host.Outcome State Fault Refusal := .next (endSend s)

/-! ### Notice commands -/

/-- How many notices a NOTICE_READ returns at most (R181). -/
def noticesPerRead : Nat := 4

/-- The notice queue after a NOTICE_READ: the oldest four gone, overrun flag and drop count cleared (R181). -/
def Notices.readOut (n : Notices) : Notices :=
  { n with queue := n.queue.drop noticesPerRead, overrun := false, drops := 0 }.refresh

/-- The answer of a NOTICE_READ (R181). -/
def Notices.report (n : Notices) : Reply :=
  .notices n.suspension n.clash n.overrun n.drops (n.queue.take noticesPerRead).length (n.queue.drop noticesPerRead).length
    (n.queue.take noticesPerRead)

/-- NOTICE_READ handed to its block (R181). -/
def noticeRead (s : State) : Answer × State := (.ok s.notices.report, s.withNotices s.notices.readOut)

/-- NOTICE_READ as a host command. -/
def runNoticeRead (tag : Nat) : State → State := hostCommand .noticeRead tag true noticeRead

/-- NOTICE_READ (R181). -/
def execNoticeRead (tag : Nat) (s : State) : Host.Outcome State Fault Refusal := .next (runNoticeRead tag s)

/-- NOTICE_MASK handed to its block: the mask is replaced whole and the line re-evaluated (R179). -/
def noticeMask (flags : List Bool) (s : State) : Answer × State :=
  (.ok (.mask flags), s.withNotices { s.notices with mask := flags }.refresh)

/-- NOTICE_MASK carries fourteen flags (R179). -/
def maskLengthOk (flags : List Bool) : Bool := flags.length = 14

/-- NOTICE_MASK as a host command. -/
def runNoticeMask (tag : Nat) (flags : List Bool) : State → State :=
  hostCommand .noticeMask tag (maskLengthOk flags) (noticeMask flags)

/-- NOTICE_MASK (R179). -/
def execNoticeMask (tag : Nat) (flags : List Bool) (s : State) : Host.Outcome State Fault Refusal :=
  .next (runNoticeMask tag flags s)

/-- The two critical latches. -/
inductive Critical where
  | suspension | clash
  deriving DecidableEq, Repr

/-- The latch a notice kind's number names: SUSPENSION 15, STATION_CLASH 16 (R188). -/
def criticalOf : Nat → Option Critical
  | 15 => some .suspension
  | 16 => some .clash
  | _ => none

/-- A latch of the unit. -/
def Notices.latch (n : Notices) : Critical → Latch
  | .suspension => n.suspension
  | .clash => n.clash

/-- The unit with a latch cleared, keeping its count (R180). -/
def Notices.clearLatch (n : Notices) : Critical → Notices
  | .suspension => { n with suspension := { n.suspension with isSet := false } }
  | .clash => { n with clash := { n.clash with isSet := false } }

/-- NOTICE_ACK on a latch (R180). -/
def ackLatch (c : Critical) (count : Nat) (s : State) : Answer × State :=
  let l := s.notices.latch c
  if !l.isSet then (.ok .none, s)
  else if l.count = count then (.ok .none, s.withNotices (s.notices.clearLatch c).refresh)
  else (⟨.refused, some .staleAck, .latchCount l.count⟩, s)

/-- NOTICE_ACK handed to its block (R180). -/
def noticeAck (kind count : Nat) (s : State) : Answer × State :=
  match criticalOf kind with
  | some c => ackLatch c count s
  | none => (.refused .badKind, s)

/-- NOTICE_ACK as a host command. -/
def runNoticeAck (tag kind count : Nat) : State → State := hostCommand .noticeAck tag true (noticeAck kind count)

/-- NOTICE_ACK (R180). -/
def execNoticeAck (tag kind count : Nat) (s : State) : Host.Outcome State Fault Refusal := .next (runNoticeAck tag kind count s)

end Sys2Proof.Machine
end

