-- ==== Sys2Proof/Machine/Sales.lean ====
section
/-! DEFINITION. The sale and journal commands (R134 to R146), the sale's timers (R141) and the claim lifetime (R151). -/

namespace Sys2Proof.Machine

/-! ### SALE_QUOTE (R134, R135) -/

/-- A SUSPENSION bulletin is in force (R135). -/
def suspended (s : State) : Bool := s.bulletins.list.any (fun b => b.inForce && b.kind = .suspension)

/-- The space call check on a call of the table (R135). -/
def spaceCallOk (second : Nat) (c : Call) : Bool :=
  c.kind = .stop && c.state.awaited && (match c.departure with | some d => second + 120 < d | none => false)

/-- The space call check for the call a request names (R135). -/
def spaceCheck (call : Option Nat) (s : State) : Bool :=
  match call with
  | none => false
  | some n =>
    match callFor s n s.clock.date with
    | some c => spaceCallOk s.clock.second c && !suspended s
    | none => false

/-- The space call a taken quote records (R134). -/
def spaceCallOf (items : QuoteItems) (q : QuoteRequest) (s : State) : Option SpaceCall :=
  match items.cls.space with
  | some cls => some ⟨q.call.getD 0, s.clock.date, cls⟩
  | none => none

/-- The sale record of a taken quote (R134). -/
def quotedRecord (items : QuoteItems) (space : Option SpaceCall) (tick : Tick) : SaleRecord :=
  { stage := .quoted, quote := items, space := space, claim := none, credit := 0, change := 0, refund := 0, serial := none,
    hold := .none, lifetime := some (timerFrom tick 60), payment := none }

/-- The sale is past QUOTED (R134, R136). -/
def saleBusy (s : State) : Bool :=
  match s.sales.sale with
  | some r => r.stage ≠ .quoted
  | none => false

/-- SALE_QUOTE handed to its block (R134). -/
def saleQuote (q : QuoteRequest) (s : State) : Answer × State :=
  if saleBusy s then (.refused .saleBusy, s)
  else
    match quote s q with
    | .error r => (.refused r, s)
    | .ok items =>
      if items.cls.space.isSome && !spaceCheck q.call s then (.refused .noSpaceSale, s)
      else (.ok (.quote items), setSale (some (quotedRecord items (spaceCallOf items q s) s.clock.tick)) s)

/-- SALE_QUOTE as a host command. -/
def runSaleQuote (tag : Nat) (q : QuoteRequest) : State → State := hostCommand .saleQuote tag true (saleQuote q)

/-- SALE_QUOTE (R134). -/
def execSaleQuote (tag : Nat) (q : QuoteRequest) (s : State) : Host.Outcome State Fault Refusal := .next (runSaleQuote tag q s)

/-! ### SALE_ACCEPT (R136, R148) -/

/-- The stage the sale stands in, for an answer. -/
def stageNow (s : State) : SaleStage :=
  match s.sales.sale with
  | some r => r.stage
  | none => .quoted

/-- The own claim of a queued CLAIM joins the list and the sale is CLAIMING (R148, R136). -/
def claimQueued (r : SaleRecord) (x : SpaceCall) (seq : Nat) (s : State) : State :=
  setSale (some { r with stage := .claiming, claim := some seq, lifetime := none })
    (s.withClaims (s.claims ++ [⟨x.service, x.date, x.cls, own s, seq, none, .queued, none⟩]))

/-- The CLAIM frame handed over, and its outcome (R148, R90). -/
def sendClaim (r : SaleRecord) (x : SpaceCall) (s : State) : Answer × State :=
  let h := handOver (.claim ⟨x.service, x.date, x.cls, s.line.seqCounter⟩) s
  match h.1 with
  | .queued seq => (.ok (.saleStage .claiming), claimQueued r x seq h.2)
  | .muted => (.refused .lineFault, abortSale .lineFault h.2)
  | .refused => (.refused .lineBusy, abortSale .lineBusy h.2)
  | .dropped => (.refused .lineBusy, abortSale .lineBusy h.2)

/-- The acceptance of a space product (R148). -/
def acceptSpace (r : SaleRecord) (x : SpaceCall) (s : State) : Answer × State :=
  if capacityOf s x.service x.date x.cls ≤ occupancy s.claims x.service x.date x.cls then
    (.refused .noSpace, abortSale .noSpace s)
  else if Config.claimCapacity ≤ s.claims.length then (.refused .noRoom, abortSale .noRoom s)
  else sendClaim r x s

/-- The acceptance of a standing quote, the checks having passed (R136). -/
def acceptQuoted (r : SaleRecord) (s : State) : Answer × State :=
  match r.space with
  | some x => acceptSpace r x s
  | none => (.ok (.saleStage (stageNow (enterPaying r s))), enterPaying r s)

/-- SALE_ACCEPT handed to its block (R136). -/
def saleAccept (s : State) : Answer × State :=
  match s.sales.sale with
  | none => (.refused .noQuote, s)
  | some r =>
    if r.stage ≠ .quoted then (.refused .saleBusy, s)
    else if Config.journalCapacity ≤ s.sales.journal.length then (.refused .journalFull, s)
    else if Config.maxSerial ≤ s.sales.serialCounter then (.refused .serialsExhausted, s)
    else acceptQuoted r s

/-- SALE_ACCEPT as a host command. -/
def runSaleAccept (tag : Nat) : State → State := hostCommand .saleAccept tag true saleAccept

/-- SALE_ACCEPT (R136). -/
def execSaleAccept (tag : Nat) (s : State) : Host.Outcome State Fault Refusal := .next (runSaleAccept tag s)

/-! ### SALE_CREDIT and SALE_HOLD (R137, R138) -/

/-- The sale record while it is PAYING. -/
def payingSale (s : State) : Option SaleRecord :=
  match s.sales.sale with
  | some r => if r.stage = .paying then some r else none
  | none => none

/-- A taken credit (R138). -/
def takeCredit (r : SaleRecord) (amount : Nat) (s : State) : Answer × State :=
  let credit := r.credit + amount
  if credit < r.quote.quote then
    (.ok (.credit credit (r.quote.quote - credit)),
      setSale (some { r with credit := credit, hold := .none, payment := some (timerFrom s.clock.tick 120) }) s)
  else
    (.ok (.creditIssued credit (credit - r.quote.quote) (own s * 1000000 + s.sales.serialCounter)),
      enterIssuing { r with credit := credit, hold := .none } s)

/-- SALE_CREDIT handed to its block (R138). -/
def saleCredit (amount : Nat) (s : State) : Answer × State :=
  match payingSale s with
  | none => (.refused .notPaying, s)
  | some r => if amount = 0 || 99999 < amount then (.refused .badAmount, s) else takeCredit r amount s

/-- SALE_CREDIT as a host command. -/
def runSaleCredit (tag amount : Nat) : State → State := hostCommand .saleCredit tag true (saleCredit amount)

/-- SALE_CREDIT (R138). -/
def execSaleCredit (tag amount : Nat) (s : State) : Host.Outcome State Fault Refusal := .next (runSaleCredit tag amount s)

/-- The record a SALE_HOLD leaves (R137). -/
def SaleRecord.held (r : SaleRecord) (seconds : Nat) (tick : Tick) : SaleRecord :=
  if seconds = 0 then { r with hold := .suspended, payment := none }
  else { r with hold := .extended seconds, payment := some (timerFrom tick seconds) }

/-- SALE_HOLD handed to its block (R137). -/
def saleHold (seconds : Nat) (s : State) : Answer × State :=
  match payingSale s with
  | none => (.refused .notPaying, s)
  | some r =>
    if 600 < seconds then (.refused .badHold, s) else (.ok .none, setSale (some (r.held seconds s.clock.tick)) s)

/-- SALE_HOLD as a host command. -/
def runSaleHold (tag seconds : Nat) : State → State := hostCommand .saleHold tag true (saleHold seconds)

/-- SALE_HOLD (R137). -/
def execSaleHold (tag seconds : Nat) (s : State) : Host.Outcome State Fault Refusal := .next (runSaleHold tag seconds s)

/-! ### SALE_CANCEL and SALE_PRINTED (R140, R141) -/

/-- SALE_CANCEL handed to its block (R141). -/
def saleCancel (s : State) : Answer × State :=
  match s.sales.sale with
  | none => (.refused .noSale, s)
  | some r => if r.stage = .issuing then (.refused .inIssue, s) else (.ok (.refund r.credit), abortSale .hostCancel s)

/-- SALE_CANCEL as a host command. -/
def runSaleCancel (tag : Nat) : State → State := hostCommand .saleCancel tag true saleCancel

/-- SALE_CANCEL (R141). -/
def execSaleCancel (tag : Nat) (s : State) : Host.Outcome State Fault Refusal := .next (runSaleCancel tag s)

/-- The journal record of a sale made VOID: refund = credit, change 0 (R140, R145). -/
def voidRecord (serial : Option Nat) (credit : Nat) (j : JournalRecord) : JournalRecord :=
  if serial = some j.serial then { j with void := true, refund := credit, change := 0 } else j

/-- The journal with the record of a sale made VOID (R140). -/
def voidJournal (r : SaleRecord) (s : State) : State :=
  s.withSales { s.sales with journal := s.sales.journal.map (voidRecord r.serial r.credit) }

/-- A failed print: the record becomes VOID and the credit is refunded (R140). -/
def printFailed (r : SaleRecord) (s : State) : State :=
  closeSale .void false { r with refund := r.credit, change := 0 } (voidJournal r s)

/-- SALE_PRINTED handed to its block, with the result read as ok or not (R140). -/
def salePrinted (ok : Bool) (s : State) : Answer × State :=
  match s.sales.sale with
  | none => (.refused .notIssuing, s)
  | some r =>
    if r.stage ≠ .issuing then (.refused .notIssuing, s)
    else (.ok .none, if ok then closeSale .issued true r s else printFailed r s)

/-- SALE_PRINTED as a host command. -/
def runSalePrinted (tag : Nat) (ok : Bool) : State → State := hostCommand .salePrinted tag true (salePrinted ok)

/-- SALE_PRINTED (R140). -/
def execSalePrinted (tag : Nat) (result : PrintResult) (s : State) : Host.Outcome State Fault Refusal :=
  .next (runSalePrinted tag (result = .ok) s)

/-! ### The journal (R146) -/

/-- JOURNAL_READ handed to its block (R146). -/
def journalRead (skip : Nat) (s : State) : Answer × State :=
  (.ok (.journal s.sales.journal.length ((s.sales.journal.drop skip).take 4)), s)

/-- JOURNAL_READ as a host command. -/
def runJournalRead (tag skip : Nat) : State → State := hostCommand .journalRead tag true (journalRead skip)

/-- JOURNAL_READ (R146). -/
def execJournalRead (tag skip : Nat) (s : State) : Host.Outcome State Fault Refusal := .next (runJournalRead tag skip s)

/-- The sale is in ISSUING. -/
def issuing (s : State) : Bool :=
  match s.sales.sale with
  | some r => r.stage = .issuing
  | none => false

/-- JOURNAL_RELEASE handed to its block (R146). -/
def journalRelease (count : Nat) (s : State) : Answer × State :=
  if s.sales.journal.length < count then (.refused .badCount, s)
  else if issuing s && count = s.sales.journal.length then (.refused .inIssue, s)
  else
    (.ok (.journalCount (s.sales.journal.length - count)),
      s.withSales { s.sales with journal := s.sales.journal.drop count })

/-- JOURNAL_RELEASE as a host command. -/
def runJournalRelease (tag count : Nat) : State → State := hostCommand .journalRelease tag true (journalRelease count)

/-- JOURNAL_RELEASE (R146). -/
def execJournalRelease (tag count : Nat) (s : State) : Host.Outcome State Fault Refusal := .next (runJournalRelease tag count s)

/-! ### Timers of the sale and of claims -/

/-- QUOTE_LIFETIME_EXPIRY: a quote unaccepted for 60 s (R141). -/
def quoteExpired (s : State) : State :=
  match s.sales.sale with
  | some r => if r.stage = .quoted && timerDue r.lifetime s.clock.tick then abortSale .quoteExpired s else s
  | none => s

/-- QUOTE_LIFETIME_EXPIRY (R141). -/
def execQuoteLifetimeExpiry (s : State) : Host.Outcome State Fault Refusal := .next (quoteExpired s)

/-- PAYMENT_TIMER_EXPIRY: the payment timer of a paying sale (R137, R141). -/
def paymentExpired (s : State) : State :=
  match payingSale s with
  | some r => if timerDue r.payment s.clock.tick then abortSale .payTimeout s else s
  | none => s

/-- PAYMENT_TIMER_EXPIRY (R141). -/
def execPaymentTimerExpiry (s : State) : Host.Outcome State Fault Refusal := .next (paymentExpired s)

/-- A claim is PENDING and 180 s have passed since it was heard (R151). -/
def claimLapsed (tick : Tick) (c : Claim) : Bool :=
  c.state = .pending && (match c.heard with | some t => (timerFrom t 180).due tick | none => false)

/-- CLAIM_LIFETIME_EXPIRY: the claim of a key is removed when its lifetime has run out (R151). -/
def claimExpired (origin seq : Nat) (s : State) : State :=
  match findClaim s.claims origin seq with
  | some c => if claimLapsed s.clock.tick c then removeClaim origin seq s else s
  | none => s

/-- CLAIM_LIFETIME_EXPIRY (R151). -/
def execClaimLifetimeExpiry (origin seq : Nat) (s : State) : Host.Outcome State Fault Refusal :=
  .next (claimExpired origin seq s)

end Sys2Proof.Machine
end

