-- ==== Sys2Proof/Machine/TreadleOps.lean ====
section
/-! DEFINITION. The Treadle Unit: heads and pulses (R63), the passage machine (R64 to R70), measurement, speed and ETA
(R71 to R74), observations and passage notices (R75, R76). -/

namespace Sys2Proof.Machine

/-! ### Pairs and heads -/

/-- A pair of the unit. -/
def Treadles.pair (t : Treadles) : PairId → Pair
  | .a => t.pairA
  | .b => t.pairB

/-- The unit with one pair replaced. -/
def Treadles.setPair (t : Treadles) (p : PairId) (x : Pair) : Treadles :=
  match p with
  | .a => { t with pairA := x }
  | .b => { t with pairB := x }

/-- A pair of the station. -/
def pairAt (s : State) (p : PairId) : Pair := s.treadles.pair p

/-- The state with one pair replaced. -/
def setPair (p : PairId) (x : Pair) (s : State) : State := s.withTreadles (s.treadles.setPair p x)

/-- A head of a pair. -/
def Pair.head (x : Pair) : HeadId → HeadInput
  | .one => x.head1
  | .two => x.head2

/-- The pair with one head replaced. -/
def Pair.setHead (x : Pair) (h : HeadId) (v : HeadInput) : Pair :=
  match h with
  | .one => { x with head1 := v }
  | .two => { x with head2 := v }

/-- The input level of a head changes (R63). -/
def setInput (p : PairId) (h : HeadId) (active : Bool) (s : State) : State :=
  setPair p ((pairAt s p).setHead h { (pairAt s p).head h with input := active }) s

/-- A level is taken into the settled level of a head (R63). -/
def settle (p : PairId) (h : HeadId) (active : Bool) (s : State) : State :=
  setPair p ((pairAt s p).setHead h { (pairAt s p).head h with settled := active }) s

/-! ### Speed and time of arrival (R73, R74) -/

/-- N as counted: 0 is taken as 1, and the counter ends at 65535 (R65, R66). -/
def countOf (count : Nat) : Nat := if count = 0 then 1 else min count 65535

/-- The measured speed floor(G × 10,000 / N) in cm/s (R73). -/
def measuredSpeed (spacing n : Nat) : Nat := spacing * 10000 / n

/-- Tc = ceil(X × 100 / v) (R74). -/
def runTime (distance v : Nat) : Nat := ceilDiv (distance * 100) v

/-- ETA_stop for a speed (R74). -/
def etaStop (c : PairConfig) (v : Nat) : Nat := clampNat 1 1800 (runTime c.distance v + c.braking)

/-- ETA_pass for a speed (R74). -/
def etaPass (c : PairConfig) (v : Nat) : Nat := clampNat 1 1800 (runTime c.distance v)

/-- The speed and SLOW flag of a capture (R73). -/
def captureSpeed (spacing n minSpeed : Nat) : Nat × Bool :=
  if measuredSpeed spacing n < minSpeed then (minSpeed, true) else (measuredSpeed spacing n, false)

/-- The speed as an observation or frame carries it: v, or SLOW (R75). -/
def Measurement.carried (m : Measurement) : Speed := if m.slow then .slow else .cms m.speed

/-- The direction of the observation: the pair's arrival direction inbound, the opposite outbound (R65). -/
def observedDirection (c : PairConfig) (inbound : Bool) : Direction := if inbound then c.direction else c.direction.opposite

/-- The detect second of a record: the service second, 0 at grade 0 (R71). -/
def detectSecond (c : Clock) : Nat := if c.grade = .unset then 0 else c.second

/-! ### Observations (R75) -/

/-- The observation handed to the Call Table: the service number returned, and the state after (R75). -/
def observe (p : PairId) (c : PairConfig) (m : Measurement) (s : State) : Option Nat × State :=
  if m.inbound then
    approachObserved ⟨c.direction, m.detect, m.carried, etaStop c m.speed, etaPass c m.speed, p, own s⟩ s
  else departureObserved c.direction.opposite m.detect s

/-- The frame of an observation (R75). -/
def observationPayload (p : PairId) (c : PairConfig) (m : Measurement) : Payload :=
  if m.inbound then .approach ⟨c.direction, m.detect, m.carried, etaStop c m.speed, etaPass c m.speed, p⟩
  else .depart ⟨c.direction.opposite, m.detect, m.carried, p⟩

/-- The service number the Call Table returned is kept for the passage's notice (R75). -/
def keepMatch (p : PairId) (service : Option Nat) (s : State) : State := setPair p { pairAt s p with matched := service } s

/-- The observation raised: to the Call Table, then, at grades 1..3, to the Line Controller (R75). -/
def raiseObservation (p : PairId) (c : PairConfig) (m : Measurement) (s : State) : State :=
  let r := observe p c m s
  let s1 := keepMatch p r.1 r.2
  if s.clock.grade = .unset then s1 else hand (observationPayload p c m) s1

/-- The record is written, the pair enters PASSAGE with its quiet timer, and the observation is raised (R65, R66). -/
def enterPassage (p : PairId) (x : Pair) (m : Measurement) (s : State) : State :=
  raiseObservation p x.config m
    (setPair p { x with state := .passage, record := some m, counter := m.count, quietTimer := some (timerFrom s.clock.tick 8) } s)

/-! ### The passage machine (R64 to R69) -/

/-- One more head-1 pulse, saturating at 255 (R65, R67). -/
def addAxle (h : HeadId) (axles : Nat) : Nat :=
  match h with
  | .one => min 255 (axles + 1)
  | .two => axles

/-- The start of a passage (R64). -/
def Pair.startPassage (x : Pair) (h : HeadId) : Pair :=
  { x with state := .timing, firstHead := h, counter := 0, axles := addAxle h 0, secondSeen := false }

/-- The measurement of a capture (R65, R71, R73). -/
def captureRecord (x : Pair) (h : HeadId) (count : Nat) (s : State) : Measurement :=
  let n := countOf count
  let v := captureSpeed x.config.spacing n s.setup.settings.minSpeed
  { inbound := x.firstHead = .one, count := n, speed := v.1, slow := v.2, axles := addAxle h x.axles,
    detect := detectSecond s.clock, fresh := true }

/-- A pulse of the second head in TIMING: the capture (R65). -/
def capture (p : PairId) (x : Pair) (h : HeadId) (count : Nat) (s : State) : State :=
  enterPassage p { x with secondSeen := true, axles := addAxle h x.axles } (captureRecord x h count s) s

/-- A pulse in PASSAGE (R67). -/
def Pair.passagePulse (x : Pair) (h : HeadId) (tick : Tick) : Pair :=
  { x with
    quietTimer := some (timerFrom tick 8)
    axles := addAxle h x.axles
    secondSeen := x.secondSeen || h != x.firstHead
    record := x.record.map (fun m => { m with axles := addAxle h x.axles }) }

/-- A pulse reaches the passage machine of a pair (R64 to R67, R69). -/
def passagePulse (p : PairId) (h : HeadId) (count : Nat) (s : State) : State :=
  let x := pairAt s p
  match x.state with
  | .quiet => setPair p (x.startPassage h) s
  | .timing => if h = x.firstHead then setPair p { x with axles := addAxle h x.axles } s else capture p x h count s
  | .passage => setPair p (x.passagePulse h s.clock.tick) s
  | .faulty => s

/-- Pulses reach the machine of an enabled pair in RUN (R62, R63). -/
def takesPulses (s : State) (p : PairId) : Bool := s.setup.running && (pairAt s p).config.enabled

/-- A head's input has been active for 2 ms: the settled level changes and a pulse results (R63). -/
def headPulse (p : PairId) (h : HeadId) (count : Nat) (s : State) : State :=
  if ((pairAt s p).head h).input && !((pairAt s p).head h).settled then
    let s1 := settle p h true s
    if takesPulses s p then passagePulse p h count s1 else s1
  else s

/-- A head's input has been inactive for 2 ms: the settled level returns, without a pulse (R63). -/
def headReturn (p : PairId) (h : HeadId) (s : State) : State :=
  if !((pairAt s p).head h).input && ((pairAt s p).head h).settled then settle p h false s else s

/-- The measurement of an overflow (R66, R71). -/
def overflowRecord (x : Pair) (s : State) : Measurement :=
  { inbound := x.firstHead = .one, count := 65535, speed := s.setup.settings.minSpeed, slow := true, axles := x.axles,
    detect := detectSecond s.clock, fresh := true }

/-- The counter reaches 65535 in TIMING (R66). -/
def counterOverflow (p : PairId) (s : State) : State :=
  if (pairAt s p).state = .timing then enterPassage p (pairAt s p) (overflowRecord (pairAt s p) s) s else s

/-! ### The end of a passage (R67, R68, R76) -/

/-- The passage notice (R76). -/
def passageNotice (p : PairId) (x : Pair) (m : Measurement) : NoticeContent :=
  let d := observedDirection x.config m.inbound
  if m.inbound then
    .approachSeen p d m.detect m.speed m.slow (etaStop x.config m.speed) (etaPass x.config m.speed) m.axles (!x.secondSeen)
      x.matched
  else .departureSeen p d m.detect m.speed m.slow m.axles (!x.secondSeen) x.matched

/-- The void count after a passage (R68). -/
def voidsAfter (x : Pair) : Nat := if x.secondSeen then 0 else x.voids + 1

/-- The pair after the end of its passage (R68). -/
def Pair.ended (x : Pair) : Pair :=
  { x with quietTimer := none, voids := voidsAfter x, state := if voidsAfter x < 3 then .quiet else .faulty }

/-- The passage notice is raised (R76). -/
def raisePassage (p : PairId) (x : Pair) (s : State) : State :=
  match x.record with
  | some m => raise (passageNotice p x m) s
  | none => s

/-- The end of a passage: judged, its notice raised, then TREADLE_FAULT and the change of coverage (R67, R68). -/
def endPassage (p : PairId) (s : State) : State :=
  let x := pairAt s p
  let s1 := raisePassage p x (setPair p x.ended s)
  if x.ended.state = .faulty then updateWatch (raise (.treadleFault p) s1) else s1

/-- The quiet timer of a pair in PASSAGE expires (R67). -/
def quietExpired (p : PairId) (s : State) : State :=
  if (pairAt s p).state = .passage && timerDue (pairAt s p).quietTimer s.clock.tick then endPassage p s else s

/-! ### TREADLE_ENABLE and TREADLE_READ (R70, R72) -/

/-- The pair with its void count cleared, QUIET if it was FAULTY (R70). -/
def Pair.restored (x : Pair) : Pair := { x with voids := 0, state := if x.state = .faulty then .quiet else x.state }

/-- TREADLE_ENABLE (R70). -/
def enablePair (pair : Nat) (s : State) : Answer × State :=
  match pairOf pair with
  | none => (.refused .noPair, s)
  | some p =>
    if (pairAt s p).config.enabled then (.ok .none, updateWatch (setPair p (pairAt s p).restored s))
    else (.refused .noPair, s)

/-- The snapshot of a pair (R72). -/
def treadleReport (x : Pair) : TreadleReport :=
  { enabled := x.config.enabled, direction := x.config.direction, state := x.state, voids := x.voids,
    record := x.record.map (fun m => (m, etaStop x.config m.speed, etaPass x.config m.speed)) }

/-- The pair with its record's fresh flag cleared (R72). -/
def Pair.readOut (x : Pair) : Pair := { x with record := x.record.map (fun m => { m with fresh := false }) }

/-- TREADLE_READ (R72). -/
def readPair (pair : Nat) (s : State) : Answer × State :=
  match pairOf pair with
  | none => (.refused .noPair, s)
  | some p => (.ok (.treadle (treadleReport (pairAt s p))), setPair p (pairAt s p).readOut s)

end Sys2Proof.Machine
end

