-- ==== Sys2Proof/Machine/Sensing.lean ====
section
/-! DEFINITION. The treadle commands (R70, R72) and the events of the heads and passage machines (R63 to R68). -/

namespace Sys2Proof.Machine

/-- TREADLE_READ as a host command. -/
def runTreadleRead (tag pair : Nat) : State → State := hostCommand .treadleRead tag true (readPair pair)

/-- TREADLE_READ (R72). -/
def execTreadleRead (tag pair : Nat) (s : State) : Host.Outcome State Fault Refusal := .next (runTreadleRead tag pair s)

/-- TREADLE_ENABLE as a host command. -/
def runTreadleEnable (tag pair : Nat) : State → State := hostCommand .treadleEnable tag true (enablePair pair)

/-- TREADLE_ENABLE (R70). -/
def execTreadleEnable (tag pair : Nat) (s : State) : Host.Outcome State Fault Refusal := .next (runTreadleEnable tag pair s)

/-- HEAD_INPUT_CHANGE (R63): the level changes; the debounce that starts is observed as PULSE or RETURN_TO_INACTIVE. -/
def execHeadInputChange (p : PairId) (h : HeadId) (active : Bool) (s : State) : Host.Outcome State Fault Refusal :=
  .next (setInput p h active s)

/-- PULSE (R63 to R67): the operand is the count the timing counter holds. -/
def execPulse (p : PairId) (h : HeadId) (count : Nat) (s : State) : Host.Outcome State Fault Refusal :=
  .next (headPulse p h count s)

/-- RETURN_TO_INACTIVE (R63). -/
def execReturnToInactive (p : PairId) (h : HeadId) (s : State) : Host.Outcome State Fault Refusal := .next (headReturn p h s)

/-- OVERFLOW (R66). -/
def execOverflow (p : PairId) (s : State) : Host.Outcome State Fault Refusal := .next (counterOverflow p s)

/-- QUIET_TIMER_EXPIRY (R67). -/
def execQuietTimerExpiry (p : PairId) (s : State) : Host.Outcome State Fault Refusal := .next (quietExpired p s)

end Sys2Proof.Machine
end

