-- ==== Sys2Proof/Machine/StartUp.lean ====
section
/-! DEFINITION. Resets, initialisation, CONFIGURE, START, RESET and GET_STATUS (R173, R175, R184 to R186). -/

namespace Sys2Proof.Machine

/-! ### Resets (R184) -/

/-- The levels of the four head pins, which no reset changes. -/
def headPins (s : State) : (Bool × Bool) × (Bool × Bool) :=
  ((s.treadles.pairA.head1.input, s.treadles.pairA.head2.input), (s.treadles.pairB.head1.input, s.treadles.pairB.head2.input))

/-- A reset that keeps the serial counter and the overlay (R184). -/
def warmReset (straps : Straps) (result : HostResult) (s : State) : State :=
  afterReset straps s.overlay s.sales.serialCounter result (headPins s) s.pending

/-- A power-on reset (R184). -/
def coldReset (straps : Straps) (s : State) : State := afterReset straps fullOverlay 0 noneResult (headPins s) s.pending

/-- POWER_ON_RESET (R184). -/
def execPowerOnReset (straps : Straps) (s : State) : Host.Outcome State Fault Refusal := .next (coldReset straps s)

/-- PIN_RESET (R184). -/
def execPinReset (straps : Straps) (s : State) : Host.Outcome State Fault Refusal := .next (warmReset straps noneResult s)

/-- Initialisation completes: the Host Link stops answering BUSY (R173). -/
def execInitialisationComplete (s : State) : Host.Outcome State Fault Refusal :=
  .next (s.withHost { s.host with ready := true })

/-- The OK result of a RESET (R172). -/
def resetResult (tag : Nat) : HostResult := ⟨Command.code .reset, tag, .ok .none⟩

/-- RESET: answered OK, then the soft reset (R184, R172). -/
def runReset (tag : Nat) (straps : Straps) (s : State) : State :=
  match gate .reset true s with
  | some a => answerWith .reset tag a s
  | none => warmReset straps (resetResult tag) s

/-- RESET (R184). -/
def execReset (tag : Nat) (straps : Straps) (s : State) : Host.Outcome State Fault Refusal := .next (runReset tag straps s)

/-! ### CONFIGURE (R185) -/

/-- The station with a configuration stored (R185): settings, pairs, board, serial counter, configured flag. -/
def storeConfiguration (p : ConfigParams) (s : State) : State :=
  { s with
    setup := { s.setup with configured := true, settings := p.settings }
    treadles :=
      { pairA := { s.treadles.pairA with config := p.pairA.clamped }
        pairB := { s.treadles.pairB with config := p.pairB.clamped } }
    board := { s.board with config := p.board }
    sales := { s.sales with serialCounter := max s.sales.serialCounter p.settings.resume } }

/-- CONFIGURE handed to its block (R185): the values as stored are answered. -/
def configure (p : ConfigParams) (s : State) : Answer × State :=
  if s.setup.configured then (.refused .alreadyConfigured, s)
  else if p.haltCode = 0 then (.refused .badHalt, s)
  else (.ok (.configured p.settings p.pairA.clamped p.pairB.clamped p.board), storeConfiguration p s)

/-- CONFIGURE as a host command. -/
def runConfigure (tag : Nat) (p : ConfigParams) : State → State := hostCommand .configure tag true (configure p)

/-- CONFIGURE (R185). -/
def execConfigure (tag : Nat) (p : ConfigParams) (s : State) : Host.Outcome State Fault Refusal := .next (runConfigure tag p s)

/-! ### START (R186) -/

/-- Step 1: the Line Controller starts (R186, R84, R98). -/
def startLine (s : State) : State :=
  announce (s.withLine { s.line with rng := some ⟨own s, s.clock.tick, 0⟩, freshCount := 3 })

/-- Step 3: the Call Table starts: watch view, build, re-send timer (R186, R20, R56). -/
def startCalls (s : State) : State :=
  let s1 := buildTable .fresh (s.withCalls { s.calls with watch := watchView s.treadles s.line.peers })
  s1.withCalls { s1.calls with resend := some (timerFrom s1.clock.tick 60) }

/-- Step 4: the board of a SHOWS station starts and composes (R186, R157). -/
def startBoard (s : State) : State :=
  if s.setup.straps.shows then compose (s.withBoard { s.board with rotation := some (timerFrom s.clock.tick 10) }) else s

/-- An accepted START (R186); the pairs stand in QUIET already, so step 2 leaves nothing to change. -/
def startRun (s : State) : State := startBoard (startCalls (startLine (s.withSetup { s.setup with running := true })))

/-- START handed to its block (R186). -/
def start (s : State) : Answer × State :=
  if !s.setup.configured then (.refused .notConfigured, s)
  else if own s = 0 then (.refused .badStrap, s)
  else (.ok .none, startRun s)

/-- START as a host command. -/
def runStart (tag : Nat) : State → State := hostCommand .start tag true start

/-- START (R186). -/
def execStart (tag : Nat) (s : State) : Host.Outcome State Fault Refusal := .next (runStart tag s)

/-! ### GET_STATUS (R175) -/

/-- The Edition Store fields of a kind (R118). -/
def slotReport (x : Slot) : SlotReport :=
  { activeEdition := x.activeEdition, loader := x.loader,
    stagedEdition := if x.loader = .staged then editionOf x.staging else 0, declared := x.declared.getD 0, offset := x.offset,
    origin := x.origin, waiting := x.pullWait.isSome, pull := x.pull.map (fun p => (p.source, p.index, p.tries)),
    refused := x.refused }

/-- The payment time remaining (R155). -/
def paymentLeft (s : State) : PaymentLeft :=
  match s.sales.sale with
  | none => .none
  | some r =>
    if r.hold = .suspended then .suspended
    else match r.payment with
      | some t => .seconds (t.secondsLeft s.clock.tick)
      | none => .none

/-- Whole seconds left of an optional timer. -/
def leftOf (t : Option Timer) (tick : Tick) : Option Nat := t.map (fun x => x.secondsLeft tick)

/-- The tenths of running tick before ageing: 0 but at grade 3 (R14). -/
def ageingLeft (c : Clock) : Tick := if c.grade = .host then c.hostSetTick + ageingSpan - c.tick else 0

/-- The snapshot of GET_STATUS (R175, R184, R14, R118, R155, R171). The brightness is that of the composed image, also while
the lamp test runs (log entry 49). -/
def statusReport (s : State) : StatusReport :=
  { running := s.setup.running, configured := s.setup.configured, straps := s.setup.straps, settings := s.setup.settings,
    pairA := s.treadles.pairA.config, pairB := s.treadles.pairB.config, board := s.board.config, overlay := s.overlay,
    date := s.clock.date, weekday := s.clock.weekday, second := s.clock.second, tenths := s.clock.tenths,
    clockTime := clockSeconds s.setup.settings.rolloverMinute s.clock.second, grade := s.clock.grade, tick := s.clock.tick,
    ageingLeft := ageingLeft s.clock, timetable := slotReport s.store.timetable, fare := slotReport s.store.fare,
    sale := s.sales.sale, paymentLeft := paymentLeft s, serialCounter := s.sales.serialCounter,
    journalCount := s.sales.journal.length, mode := s.board.mode, phase := s.board.phase, page := s.board.page,
    listed := if boardActive s then (listing s).length else 0, warnUp := leftOf s.board.warnUp s.clock.tick, warnDown := leftOf s.board.warnDown s.clock.tick,
    lampLeft := (leftOf s.board.lamp s.clock.tick).getD 0, imageLevel := s.board.image.level, override := s.board.override,
    portSending := s.board.sending.isSome, portPending := s.board.waitingImage.isSome, bulletins := s.bulletins.list.length,
    shown := s.bulletins.suspensionShown.map (fun b => (b.origin, b.number)), noticeCount := s.notices.queue.length,
    overrun := s.notices.overrun, drops := s.notices.drops, mask := s.notices.mask, suspension := s.notices.suspension,
    clash := s.notices.clash, noticeLine := s.notices.line }

/-- GET_STATUS handed to its block (R175). -/
def getStatus (s : State) : Answer × State := (.ok (.status (statusReport s)), s)

/-- GET_STATUS as a host command. -/
def runGetStatus (tag : Nat) : State → State := hostCommand .getStatus tag true getStatus

/-- GET_STATUS (R175). -/
def execGetStatus (tag : Nat) (s : State) : Host.Outcome State Fault Refusal := .next (runGetStatus tag s)

end Sys2Proof.Machine
end

