-- ==== Sys2Proof/Machine/TimeAndOverlay.lean ====
section
/-! DEFINITION. SET_TIME (R6) and the overlay commands (R187); the reference clock's tenth (R3) and ageing (R5). -/

namespace Sys2Proof.Machine

/-! ### SET_TIME -/

/-- SET_TIME as a host command. -/
def runSetTime (tag : Nat) (date : Date) (time : ClockTime) : State → State := hostCommand .setTime tag true (setTime date time)

/-- SET_TIME (R6). -/
def execSetTime (tag : Nat) (date : Date) (time : ClockTime) (s : State) : Host.Outcome State Fault Refusal :=
  .next (runSetTime tag date time s)

/-! ### The overlay (R187) -/

/-- The state with other overlay ids. -/
def setOverlay (ids : List Nat) (s : State) : State := s.withOverlay { s.overlay with ids := ids }

/-- The ids 1..15 that a list names, repeats counting once (R187). -/
def idSet (ids : List Nat) : List Nat := (List.range' 1 15).filter (fun i => ids.contains i)

/-- The lowest of some numbers. -/
def lowest : List Nat → Option Nat
  | [] => none
  | x :: xs => some (xs.foldl min x)

/-- The lowest listed id that the overlay does not hold (R187). -/
def missingId (overlay ids : List Nat) : Option Nat := lowest (ids.filter (fun i => !overlay.contains i))

/-- OVERLAY_SET handed to its block (R187). -/
def overlaySet (ids : List Nat) (s : State) : Answer × State :=
  if s.overlay.frozen then (.refused .frozen, s)
  else
    match missingId s.overlay.ids ids with
    | some i => (⟨.refused, some .cannotAdd, .lowestId i⟩, s)
    | none =>
      if ids.isEmpty then (.refused .empty, s) else (.ok (.overlay (idSet ids)), setOverlay (idSet ids) s)

/-- The count of ids OVERLAY_SET may list (R187, R190). -/
def overlayLengthOk (ids : List Nat) : Bool := ids.length ≤ 15

/-- OVERLAY_SET as a host command. -/
def runOverlaySet (tag : Nat) (ids : List Nat) : State → State := hostCommand .overlaySet tag (overlayLengthOk ids) (overlaySet ids)

/-- OVERLAY_SET (R187). -/
def execOverlaySet (tag : Nat) (ids : List Nat) (s : State) : Host.Outcome State Fault Refusal := .next (runOverlaySet tag ids s)

/-- All fifteen ids. -/
def allIds : List Nat := List.range' 1 15

/-- OVERLAY_RESTORE handed to its block (R187). -/
def overlayRestore (s : State) : Answer × State :=
  if s.overlay.frozen then (.refused .frozen, s) else (.ok (.overlay allIds), setOverlay allIds s)

/-- OVERLAY_RESTORE as a host command. -/
def runOverlayRestore (tag : Nat) : State → State := hostCommand .overlayRestore tag true overlayRestore

/-- OVERLAY_RESTORE (R187). -/
def execOverlayRestore (tag : Nat) (s : State) : Host.Outcome State Fault Refusal := .next (runOverlayRestore tag s)

/-- OVERLAY_FREEZE handed to its block (R187). -/
def overlayFreeze (s : State) : Answer × State :=
  if s.overlay.frozen then (.refused .frozen, s) else (.ok .none, s.withOverlay { s.overlay with frozen := true })

/-- OVERLAY_FREEZE as a host command. -/
def runOverlayFreeze (tag : Nat) : State → State := hostCommand .overlayFreeze tag true overlayFreeze

/-- OVERLAY_FREEZE (R187). -/
def execOverlayFreeze (tag : Nat) (s : State) : Host.Outcome State Fault Refusal := .next (runOverlayFreeze tag s)

/-- OVERLAY_READ handed to its block (R187). -/
def overlayRead (s : State) : Answer × State := (.ok (.overlayRead s.overlay.ids s.overlay.frozen), s)

/-- OVERLAY_READ as a host command. -/
def runOverlayRead (tag : Nat) : State → State := hostCommand .overlayRead tag true overlayRead

/-- OVERLAY_READ (R187). -/
def execOverlayRead (tag : Nat) (s : State) : Host.Outcome State Fault Refusal := .next (runOverlayRead tag s)

/-! ### The clock's own events -/

/-- REFERENCE_CLOCK_TENTH (R2, R3, R4). -/
def execReferenceClockTenth (s : State) : Host.Outcome State Fault Refusal := .next (clockTenth s)

/-- CLOCK_GRADE_AGEING (R5). -/
def execClockGradeAgeing (s : State) : Host.Outcome State Fault Refusal := .next (age s)

end Sys2Proof.Machine
end

