-- ==== Sys2Proof/Machine/CommandFrames.lean ====
section
/-! DEFINITION. Reading the bytes of a host command transaction (R172, R173, R190), and UNKNOWN_COMMAND_FRAME. -/

namespace Sys2Proof.Machine

/-- A transaction in which only idle fill, or nothing, was shifted in (R172). -/
def isRead (bs : List Nat) : Bool := bs.all (· = idleFill)

/-! ### Parameters by command (R190) -/

/-- A pair's configuration as CONFIGURE carries it (R185). -/
def pairConfigOf (enabled direction g1 g2 x1 x2 bk : Nat) : PairConfig :=
  ⟨flagOf enabled, if flagOf direction then .down else .up, be2 g1 g2, be2 x1 x2, bk⟩

/-- The parameters of CONFIGURE from the board fields on (R185). -/
def configRest (h1 h2 r1 r2 dm v1 v2 : Nat) (a b : PairConfig) : List Nat → Option ConfigParams
  | [rows, cols, filter, s1, s2, e1, e2, nl, dl, coin, c1, c2, c3] =>
    some
      { haltCode := be2 h1 h2, rolloverMinute := be2 r1 r2, minDwell := dm, minSpeed := be2 v1 v2, pairA := a, pairB := b,
        rows := rows, columns := cols, platformFilter := filter, nightStart := be2 s1 s2, nightEnd := be2 e1 e2,
        nightLevel := nl, dayLevel := dl, coinStep := coin, resume := be3 c1 c2 c3 }
  | _ => none

/-- The parameters of CONFIGURE, in the order of the table of R185. -/
def configOf : List Nat → Option ConfigParams
  | h1 :: h2 :: r1 :: r2 :: dm :: v1 :: v2 :: ae :: ad :: be :: bd :: ag1 :: ag2 :: ax1 :: ax2 :: ab :: bg1 :: bg2 :: bx1 ::
      bx2 :: bb :: rest => configRest h1 h2 r1 r2 dm v1 v2 (pairConfigOf ae ad ag1 ag2 ax1 ax2 ab)
        (pairConfigOf be bd bg1 bg2 bx1 bx2 bb) rest
  | _ => none

/-- The optional call of a SALE_QUOTE (R134). The bytes of an absent one are not read (log entry 54). -/
def callOf3 (present a b : Nat) : Option Nat := if flagOf present then some (be2 a b) else none

/-- A SALE_PRINTED result: ok 0, failed 1; any other value is read as Config leaves it (log entry 5). -/
def printOk : Nat → Bool
  | 0 => true
  | 1 => false
  | n => Config.printResultBeyond n

/-- A start-up, time or overlay command run from its code and parameters; none when the parameter length is wrong. -/
def runFirst (code tag : Nat) (ps : List Nat) (s : State) : Option State :=
  match code, ps with
  | 1, ps => (configOf ps).map (fun p => runConfigure tag p s)
  | 2, [] => some (runStart tag s)
  | 3, [] => some (runReset tag s.setup.straps s)
  | 4, [] => some (runGetStatus tag s)
  | 5, [y, m, d, hh, mm, ss] => some (runSetTime tag (dateOf y m d) ⟨hh, mm, ss⟩ s)
  | 6, n :: ids => if n = ids.length && n ≤ 15 then some (runOverlaySet tag ids s) else none
  | 7, [] => some (runOverlayRestore tag s)
  | 8, [] => some (runOverlayFreeze tag s)
  | 9, [] => some (runOverlayRead tag s)
  | _, _ => none

/-- A load, report, bulletin or read command. -/
def runSecond (code tag : Nat) (ps : List Nat) (s : State) : Option State :=
  match code, ps with
  | 10, [k, a, b] => some (runLoadBegin tag k (be2 a b) s)
  | 11, k :: a :: b :: data =>
    if 1 ≤ data.length && data.length ≤ 64 then some (runLoadSegment tag k (be2 a b) (data.map (BitVec.ofNat 8)) s) else none
  | 12, [k] => some (runLoadAbandon tag k s)
  | 13, ps => if ps.length = 12 then (readReport ps).map (fun f => runReportRunning tag f s) else none
  | 14, k :: y1 :: m1 :: d1 :: a1 :: a2 :: a3 :: y2 :: m2 :: d2 :: b1 :: b2 :: b3 :: n :: t =>
    if n = t.length && 1 ≤ n && n ≤ 64 then
      some (runPostBulletin tag k (instantOf y1 m1 d1 a1 a2 a3) (instantOf y2 m2 d2 b1 b2 b3) t s)
    else none
  | 15, [o, n] => some (runWithdrawBulletin tag o n s)
  | 16, [i] => some (runReadCalls tag i s)
  | 17, [i] => some (runReadCall tag i s)
  | 18, [] => some (runReadPeers tag s)
  | 19, [i] => some (runReadClaims tag i s)
  | _, _ => none

/-- A sale or journal command. -/
def runThird (code tag : Nat) (ps : List Nat) (s : State) : Option State :=
  match code, ps with
  | 20, [p, d1, d2, c, n, f, a, b] => some (runSaleQuote tag ⟨p, be2 d1 d2, c, n, callOf3 f a b⟩ s)
  | 21, [] => some (runSaleAccept tag s)
  | 22, [a, b, c] => some (runSaleCredit tag (be3 a b c) s)
  | 23, [a, b] => some (runSaleHold tag (be2 a b) s)
  | 24, [] => some (runSaleCancel tag s)
  | 25, [r] => some (runSalePrinted tag (printOk r) s)
  | 26, [k] => some (runJournalRead tag k s)
  | 27, [n] => some (runJournalRelease tag n s)
  | _, _ => none

/-- A treadle, board or notice command. -/
def runFourth (code tag : Nat) (ps : List Nat) (s : State) : Option State :=
  match code, ps with
  | 28, [p] => some (runTreadleRead tag p s)
  | 29, [p] => some (runTreadleEnable tag p s)
  | 30, [n] => some (runLampTest tag n s)
  | 31, [n] => some (runBrightness tag n s)
  | 32, [] => some (runNoticeRead tag s)
  | 33, ps => if ps.length = 14 then some (runNoticeMask tag (ps.map flagOf) s) else none
  | 34, [k, n] => some (runNoticeAck tag k n s)
  | _, _ => none

/-- The command of a code run on its parameters; none when the parameter length is wrong (R173, test 5). -/
def runCommand (code tag : Nat) (ps : List Nat) (s : State) : Option State :=
  if code ≤ 9 then runFirst code tag ps s
  else if code ≤ 19 then runSecond code tag ps s
  else if code ≤ 27 then runThird code tag ps s
  else runFourth code tag ps s

/-! ### The tests on a frame's bytes (R173) -/

/-- A result that echoes a code and tag as received (R173). -/
def echo (code tag : Nat) (st : Status) (s : State) : State := s.withHost { s.host with result := ⟨code, tag, .bare st⟩ }

/-- The bytes received, not counting idle fill after the frame's CRC, are as many as its length field calls for (R173,
test 2). -/
def lengthFits (len : Nat) (rest : List Nat) : Bool := len + 1 ≤ rest.length && (rest.drop (len + 1)).all (· = idleFill)

/-- The CRC-8 of a frame of fitting length is correct (R173, test 3). -/
def crcFits (code tag len : Nat) (rest : List Nat) : Bool :=
  rest[len]? = some (crc8 (code :: tag :: len :: rest.take len))

/-- Tests 2 to 5 of R173 on a frame that holds its three first bytes, then the command. -/
def examine (code tag len : Nat) (rest : List Nat) (s : State) : State :=
  if !lengthFits len rest then echo code tag .badLength s
  else if !crcFits code tag len rest then echo code tag .badCrc s
  else if code = 0 || 34 < code then echo code tag .badCommand s
  else (runCommand code tag (rest.take len) s).getD (echo code tag .badLength s)

/-- The code and tag a result echoes, the tag free where the frame was cut before it (log entry 4). -/
def echoed : List Nat → Nat × Nat
  | [] => (0, Config.missingTag)
  | [code] => (code, Config.missingTag)
  | code :: tag :: _ => (code, tag)

/-- A command transaction examined test by test (R173). -/
def takeTransaction (bs : List Nat) (s : State) : State :=
  if isRead bs then s
  else if !s.host.ready then echo (echoed bs).1 (echoed bs).2 .busy s
  else
    match bs with
    | code :: tag :: len :: rest => examine code tag len rest s
    | _ => echo (echoed bs).1 (echoed bs).2 .badLength s

/-- UNKNOWN_COMMAND_FRAME (R172, R173). -/
def execUnknownCommandFrame (bytes : List Byte) (s : State) : Host.Outcome State Fault Refusal :=
  .next (takeTransaction (byteValues bytes) s)

end Sys2Proof.Machine
end

