-- ==== Sys2Proof/Machine/Dispatch.lean ====
section
/-! DEFINITION. The dispatch of every command to its meaning, one arm per constructor of Instr. -/

namespace Sys2Proof.Machine

def exec (i : Instr) (s : State) : Host.Outcome State Fault Refusal :=
  match i with
  | .powerOnReset straps => Sys2Proof.Machine.execPowerOnReset straps s
  | .pinReset straps => Sys2Proof.Machine.execPinReset straps s
  | .initialisationComplete => Sys2Proof.Machine.execInitialisationComplete s
  | .unknownCommandFrame bytes => Sys2Proof.Machine.execUnknownCommandFrame bytes s
  | .configure tag params => Sys2Proof.Machine.execConfigure tag params s
  | .start tag => Sys2Proof.Machine.execStart tag s
  | .reset tag straps => Sys2Proof.Machine.execReset tag straps s
  | .getStatus tag => Sys2Proof.Machine.execGetStatus tag s
  | .setTime tag date time => Sys2Proof.Machine.execSetTime tag date time s
  | .overlaySet tag ids => Sys2Proof.Machine.execOverlaySet tag ids s
  | .overlayRestore tag => Sys2Proof.Machine.execOverlayRestore tag s
  | .overlayFreeze tag => Sys2Proof.Machine.execOverlayFreeze tag s
  | .overlayRead tag => Sys2Proof.Machine.execOverlayRead tag s
  | .loadBegin tag kind length => Sys2Proof.Machine.execLoadBegin tag kind length s
  | .loadSegment tag kind offset data => Sys2Proof.Machine.execLoadSegment tag kind offset data s
  | .loadAbandon tag kind => Sys2Proof.Machine.execLoadAbandon tag kind s
  | .reportRunning tag report => Sys2Proof.Machine.execReportRunning tag report s
  | .postBulletin tag kind validFrom validUntil text => Sys2Proof.Machine.execPostBulletin tag kind validFrom validUntil text s
  | .withdrawBulletin tag origin number => Sys2Proof.Machine.execWithdrawBulletin tag origin number s
  | .readCalls tag first => Sys2Proof.Machine.execReadCalls tag first s
  | .readCall tag index => Sys2Proof.Machine.execReadCall tag index s
  | .readPeers tag => Sys2Proof.Machine.execReadPeers tag s
  | .readClaims tag first => Sys2Proof.Machine.execReadClaims tag first s
  | .saleQuote tag request => Sys2Proof.Machine.execSaleQuote tag request s
  | .saleAccept tag => Sys2Proof.Machine.execSaleAccept tag s
  | .saleCredit tag amount => Sys2Proof.Machine.execSaleCredit tag amount s
  | .saleHold tag seconds => Sys2Proof.Machine.execSaleHold tag seconds s
  | .saleCancel tag => Sys2Proof.Machine.execSaleCancel tag s
  | .salePrinted tag result => Sys2Proof.Machine.execSalePrinted tag result s
  | .journalRead tag skip => Sys2Proof.Machine.execJournalRead tag skip s
  | .journalRelease tag count => Sys2Proof.Machine.execJournalRelease tag count s
  | .treadleRead tag pair => Sys2Proof.Machine.execTreadleRead tag pair s
  | .treadleEnable tag pair => Sys2Proof.Machine.execTreadleEnable tag pair s
  | .lampTest tag seconds => Sys2Proof.Machine.execLampTest tag seconds s
  | .brightness tag level => Sys2Proof.Machine.execBrightness tag level s
  | .noticeRead tag => Sys2Proof.Machine.execNoticeRead tag s
  | .noticeMask tag flags => Sys2Proof.Machine.execNoticeMask tag flags s
  | .noticeAck tag kind count => Sys2Proof.Machine.execNoticeAck tag kind count s
  | .referenceClockTenth => Sys2Proof.Machine.execReferenceClockTenth s
  | .clockGradeAgeing => Sys2Proof.Machine.execClockGradeAgeing s
  | .reSendTimerExpiry => Sys2Proof.Machine.execReSendTimerExpiry s
  | .headInputChange pair head active => Sys2Proof.Machine.execHeadInputChange pair head active s
  | .pulse pair head count => Sys2Proof.Machine.execPulse pair head count s
  | .overflow pair => Sys2Proof.Machine.execOverflow pair s
  | .quietTimerExpiry pair => Sys2Proof.Machine.execQuietTimerExpiry pair s
  | .attemptStart => Sys2Proof.Machine.execAttemptStart s
  | .busyFailure => Sys2Proof.Machine.execBusyFailure s
  | .collision => Sys2Proof.Machine.execCollision s
  | .backoffEnd => Sys2Proof.Machine.execBackoffEnd s
  | .completion => Sys2Proof.Machine.execCompletion s
  | .malformedFrame bytes => Sys2Proof.Machine.execMalformedFrame bytes s
  | .announceReceived head fields => Sys2Proof.Machine.execAnnounceReceived head fields s
  | .runningReceived head fields => Sys2Proof.Machine.execRunningReceived head fields s
  | .approachReceived head fields => Sys2Proof.Machine.execApproachReceived head fields s
  | .departReceived head fields => Sys2Proof.Machine.execDepartReceived head fields s
  | .claimReceived head fields => Sys2Proof.Machine.execClaimReceived head fields s
  | .takenReceived head fields => Sys2Proof.Machine.execTakenReceived head fields s
  | .releaseReceived head fields => Sys2Proof.Machine.execReleaseReceived head fields s
  | .segReqReceived head fields => Sys2Proof.Machine.execSegReqReceived head fields s
  | .segmentReceived head fields => Sys2Proof.Machine.execSegmentReceived head fields s
  | .bulletinReceived head fields => Sys2Proof.Machine.execBulletinReceived head fields s
  | .peerSilenceTimerExpiry station => Sys2Proof.Machine.execPeerSilenceTimerExpiry station s
  | .announceTimerExpiry => Sys2Proof.Machine.execAnnounceTimerExpiry s
  | .pullWaitTimerExpiry kind => Sys2Proof.Machine.execPullWaitTimerExpiry kind s
  | .replyTimerExpiry kind => Sys2Proof.Machine.execReplyTimerExpiry kind s
  | .quoteLifetimeExpiry => Sys2Proof.Machine.execQuoteLifetimeExpiry s
  | .paymentTimerExpiry => Sys2Proof.Machine.execPaymentTimerExpiry s
  | .claimLifetimeExpiry origin seq => Sys2Proof.Machine.execClaimLifetimeExpiry origin seq s
  | .rotationTimerExpiry => Sys2Proof.Machine.execRotationTimerExpiry s
  | .warningTimerExpiry direction => Sys2Proof.Machine.execWarningTimerExpiry direction s
  | .lampTestTimerExpiry => Sys2Proof.Machine.execLampTestTimerExpiry s
  | .panelSendEnd => Sys2Proof.Machine.execPanelSendEnd s
  | .returnToInactive pair head => Sys2Proof.Machine.execReturnToInactive pair head s

end Sys2Proof.Machine
end

