-- ==== Sys2Proof/Machine/ResultFormats.lean ====
section
/-! DEFINITION. The bytes of a result frame (R172, R190): status and reason codes, the data of each
command. Fields follow in the order in which each command's rule lists them. -/

namespace Sys2Proof.Machine

/-- Result statuses run from 0 in the order of R173 (R188). -/
def Status.code : Status → Nat
  | .ok => 0
  | .busy => 1
  | .refused => 2
  | .badCommand => 3
  | .badLength => 4
  | .badCrc => 5
  | .notStarted => 6
  | .alreadyStarted => 7

/-- The reasons in the alphabetical order of their names (R188). -/
def reasonOrder : List Reason :=
  [.alreadyConfigured, .badAmount, .badBulletin, .badCount, .badDestination, .badDuration, .badHalt, .badHold,
   .badIntegrity, .badKind, .badLevel, .badPassengers, .badRecord, .badReport, .badSignature, .badSize] ++
  [.badStrap, .badTime, .callEnded, .callGone, .cannotAdd, .empty, .expired, .frozen, .hostCancel, .inIssue, .issued,
   .journalFull, .lineBusy, .lineFault, .notConfigured, .notInTable] ++
  [.notIssuing, .notNewer, .notOffered, .notOwn, .notPaying, .notSelling, .notShowing, .noCall, .noFares, .noLoad, .noPair,
   .noQuote, .noRoom, .noSale, .noService, .noSpace] ++
  [.noSpaceSale, .noTime, .outOfSequence, .payTimeout, .quoteExpired, .saleBusy, .serialsExhausted, .staleAck, .staleReport,
   .tooMany, .tooManyCalls, .void, .wrongDate, .wrongHalt, .wrongKind]

/-- Reason codes run from 1; 0 means no reason (R188). -/
def reasonCode (r : Option Reason) : Nat :=
  match r with
  | some r => reasonOrder.idxOf r + 1
  | none => 0

/-! ### Numbers of enumerations (R188) -/

/-- The number of a call kind. -/
def callKindByte : CallKind → Nat
  | .stop => 0
  | .pass => 1

/-- The number of a call state. -/
def CallState.byte : CallState → Nat
  | .pending => 0
  | .reported => 1
  | .approaching => 2
  | .arrived => 3
  | .departed => 4
  | .cancelled => 5
  | .lapsed => 6

/-- The number of a source of estimate. -/
def EstimateSource.byte : EstimateSource → Nat
  | .schedule => 0
  | .report => 1
  | .approach => 2

/-- The number of a passage state. -/
def PassageState.byte : PassageState → Nat
  | .quiet => 0
  | .timing => 1
  | .passage => 2
  | .faulty => 3

/-- The number of a peer state. -/
def PeerState.byte : PeerState → Nat
  | .unknown => 0
  | .present => 1
  | .silent => 2
  | .foreign => 3

/-- The number of a loader state. -/
def LoaderState.byte : LoaderState → Nat
  | .empty => 0
  | .hostFill => 1
  | .peerFill => 2
  | .staged => 3

/-- A fill origin in one byte: HOST 0, or the peer's station number. -/
def FillOrigin.byte : FillOrigin → Nat
  | .host => 0
  | .peer n => n

/-- The number of a product class. -/
def ProductClass.byte : ProductClass → Nat
  | .single => 0
  | .ret => 1
  | .day => 2
  | .spaceBike => 3
  | .spaceChair => 4

/-- The number of a sale state; IDLE is 0. -/
def SaleStage.byte : SaleStage → Nat
  | .quoted => 1
  | .claiming => 2
  | .paying => 3
  | .issuing => 4

/-- The number of a claim state. -/
def ClaimState.byte : ClaimState → Nat
  | .queued => 0
  | .granted => 1
  | .pending => 2
  | .taken => 3

/-- The number of a board mode. -/
def BoardMode.byte : BoardMode → Nat
  | .noTimetable => 0
  | .noTime => 1
  | .suspended => 2
  | .normal => 3

/-- The number of a bulletin event. -/
def BulletinEvent.byte : BulletinEvent → Nat
  | .added => 0
  | .replaced => 1
  | .removed => 2
  | .dropped => 3

/-- The number of a line failure. -/
def LineFailure.byte : LineFailure → Nat
  | .collision => 0
  | .busy => 1

/-! ### Records -/

/-- The parameters of CONFIGURE, and its answer, in the order of R185. -/
def configBytes (x : Settings) (a b : PairConfig) (c : BoardConfig) : List Nat :=
  num2 x.haltCode ++ num2 x.rolloverMinute ++ num1 x.minDwell ++ num2 x.minSpeed ++ flag a.enabled ++ num1 (directionByte a.direction) ++
    flag b.enabled ++ num1 (directionByte b.direction) ++ num2 a.spacing ++ num2 a.distance ++ num1 a.braking ++ num2 b.spacing ++
    num2 b.distance ++ num1 b.braking ++ num1 c.rows ++ num1 c.columns ++ num1 c.filter ++ num2 c.nightStart ++
    num2 c.nightEnd ++ num1 c.nightLevel ++ num1 c.dayLevel ++ num1 x.coinStep ++ num3 x.resume

/-- A slot's fields but for the refused edition, which R118 lists after those of both kinds. The fill origin is one optional part, and
the pull's source station, expected index and try count together are one, with one presence flag: R118 does not group them (log
entry 46). -/
def slotBytes (x : SlotReport) : List Nat :=
  num2 x.activeEdition ++ num1 x.loader.byte ++ num2 x.stagedEdition ++ num2 x.declared ++ num2 x.offset ++
    optional 1 (fun o => num1 (FillOrigin.byte o)) x.origin ++ flag x.waiting ++
    optional 3 (fun p => num1 p.1 ++ num1 p.2.1 ++ num1 p.2.2) x.pull

/-- The items of a quote (R130). -/
def quoteBytes (q : QuoteItems) : List Nat :=
  num1 q.product ++ num1 q.cls.byte ++ num2 q.destination ++ num1 q.band ++ num1 q.nameIndex ++ num1 q.concession ++
    num1 q.passengers ++ num3 q.baseFare ++ num3 q.unitFare ++ flag q.offPeak ++ num3 q.quote ++ num2 q.edition

/-- A hold setting: its number, then the seconds given (R137). -/
def holdBytes : Hold → List Nat
  | .none => num1 0 ++ num2 0
  | .extended n => num1 1 ++ num2 n
  | .suspended => num1 2 ++ num2 0

/-- The payment time remaining (R155). -/
def paymentBytes : PaymentLeft → List Nat
  | .none => num1 0 ++ num2 0
  | .seconds n => num1 1 ++ num2 n
  | .suspended => num1 2 ++ num2 0

/-- The fields of a sale that is not IDLE, but for its state (R155), the space call and the claim sequence
an optional part each (log entry 46): 39 bytes. -/
def saleFieldBytes (left : PaymentLeft) (r : SaleRecord) : List Nat :=
  quoteBytes r.quote ++ optional 6 (fun x => num2 x.service ++ date3 x.date ++ num1 (classByte x.cls)) r.space ++
    optional 2 num2 r.claim ++ num3 r.credit ++ paymentBytes left ++ holdBytes r.hold

/-- The sale as GET_STATUS gives it: its state, IDLE being 0, then its fields as one optional part, absent in IDLE (R155,
R188; log entry 46). -/
def saleBytes (r : Option SaleRecord) (left : PaymentLeft) : List Nat :=
  num1 (match r with | some r => r.stage.byte | none => 0) ++ optional 39 (saleFieldBytes left) r

/-- A critical latch (R181). -/
def latchBytes (l : Latch) : List Nat := flag l.isSet ++ num1 l.count

/-- The snapshot of GET_STATUS, group by group (R175, R190). Each part of the warning latch, the override and the shown suspension are
optional parts, the ageing left is a running tick, and the mask has no count byte (log entry 46). -/
def statusBytes (x : StatusReport) : List Nat :=
  (flag x.running ++ flag x.configured ++ num1 x.straps.station ++ flag x.straps.sells ++ flag x.straps.shows ++
    configBytes x.settings x.pairA x.pairB x.board ++ counted num1 x.overlay.ids ++ flag x.overlay.frozen) ++
  (date3 x.date ++ num1 x.weekday ++ num3 x.second ++ num1 x.tenths ++ num3 x.clockTime ++ num1 x.grade.code ++ tick5 x.tick ++
    tick5 x.ageingLeft) ++
  (slotBytes x.timetable ++ slotBytes x.fare ++ num2 x.timetable.refused ++ num2 x.fare.refused) ++
  (saleBytes x.sale x.paymentLeft ++ num3 x.serialCounter ++ num1 x.journalCount) ++
  (num1 x.mode.byte ++ num1 x.phase ++ num1 x.page ++ num1 x.listed ++ optional 1 num1 x.warnUp ++ optional 1 num1 x.warnDown ++
    num1 x.lampLeft ++ num1 x.imageLevel ++ optional 1 num1 x.override ++ flag x.portSending ++ flag x.portPending ++
    num1 x.bulletins ++ optional 2 (fun b => num1 b.1 ++ num1 b.2) x.shown) ++
  (num1 x.noticeCount ++ flag x.overrun ++ num1 x.drops ++ x.mask.flatMap flag ++ latchBytes x.suspension ++
    latchBytes x.clash ++ flag x.noticeLine)

/-- A call summary (R35). -/
def summaryBytes (x : CallSummary) : List Nat :=
  num1 x.index ++ num2 x.service ++ num1 (callKindByte x.kind) ++ num1 (directionByte x.direction) ++ num1 x.platform ++ num1 x.state.byte ++
    optional 3 num3 x.dep ++ flag x.delayed

/-- A whole call record, in the order of R15 (R35). Its estimates, report and approach record are one optional part each; the speed of an approach record is written as a line frame carries one (log
entry 46). -/
def callBytes (index : Nat) (c : Call) : List Nat :=
  num1 index ++ num2 c.service ++ num1 (callKindByte c.kind) ++ num1 c.platform ++ num1 (directionByte c.direction) ++ num1 c.destination ++
    num3 c.schedArr ++ num3 c.schedDep ++
    counted (fun u => num1 u.code ++ num2 u.runTime ++ num2 u.allowance) c.points ++ num1 c.bike ++ num1 c.chair ++
    num1 c.state.byte ++ optional 11 (fun e => num3 e.base ++ num3 e.arr ++ num3 e.dep ++ num2 e.creep) c.estimates ++
    flag c.delayed ++ num1 c.source.byte ++
    optional 8 (fun r => num1 r.point ++ signed2 r.lateness ++ num3 r.observed ++ num1 r.origin ++ flag r.cancelled) c.report ++
    optional 11 (fun a => num3 a.detect ++ speed4 a.speed ++ num2 a.eta ++ num1 (pairByte a.pair) ++ num1 a.origin) c.approach ++
    flag c.sensed

/-- The four flags of a coverage, a byte each (R188). -/
def coverageFlags (c : Coverage) : List Nat := flag c.arrUp ++ flag c.arrDown ++ flag c.depUp ++ flag c.depDown

/-- A peer entry: the fields of R95 in their order, then the seconds of R97. Its place among the entries, which stand in
station order, names its station (log entry 46). -/
def peerBytes (x : PeerReport) : List Nat :=
  num1 x.peer.state.byte ++ flag x.peer.sells ++ flag x.peer.shows ++ num2 x.peer.timetable ++ num2 x.peer.fare ++
    num1 x.peer.grade.code ++ coverageFlags x.peer.coverage ++ tick5 x.peer.lastHeard ++ optional 4 num4 x.since

/-- A claim (R147, R155). Its line position, its heard tick, absent but in PENDING, and the lifetime left are an optional
part each (log entries 46, 47). -/
def claimReportBytes (x : ClaimReport) : List Nat :=
  num2 x.claim.service ++ date3 x.claim.date ++ num1 (classByte x.claim.cls) ++ num1 x.claim.origin ++ num2 x.claim.seq ++
    optional 4 num4 x.claim.position ++ num1 x.claim.state.byte ++ optional 5 tick5 x.claim.heard ++ optional 1 num1 x.left

/-- A journal record, 30 bytes (R190). -/
def journalBytes (j : JournalRecord) : List Nat :=
  num3 j.serial ++ num1 j.product ++ num2 j.destination ++ num1 j.concession ++ num1 j.passengers ++ num3 j.fare ++
    num3 j.change ++ num3 j.refund ++ num2 j.edition ++ date3 j.date ++ num3 j.second ++
    optional 3 (fun x => num2 x.1 ++ num1 (classByte x.2)) j.space ++ flag j.void

/-- A measurement record and its two ETAs, one optional part of TREADLE_READ (R71, R72; log entry 46). -/
def measurementBytes (m : Measurement × Nat × Nat) : List Nat :=
  num1 (if m.1.inbound then 0 else 1) ++ num2 m.1.count ++ num3 m.1.speed ++ flag m.1.slow ++ num1 m.1.axles ++
    num3 m.1.detect ++ flag m.1.fresh ++ num2 m.2.1 ++ num2 m.2.2

/-- A snapshot of a pair (R72). -/
def treadleBytes (x : TreadleReport) : List Nat :=
  flag x.enabled ++ num1 (directionByte x.direction) ++ num1 x.state.byte ++ num1 x.voids ++ optional 16 measurementBytes x.record

/-- The content of a notice, in the order its raising rule gives (10.4). A serial or a service number it may lack is an optional part
(log entry 46). -/
def contentBytes : NoticeContent → List Nat
  | .saleState reason product q credit change refund serial =>
    num1 (reasonCode (some reason)) ++ num1 product ++ num3 q ++ num3 credit ++ num3 change ++ num3 refund ++ optional 3 num3 serial
  | .ticketReady serial product q credit change => num3 serial ++ num1 product ++ num3 q ++ num3 credit ++ num3 change
  | .callChanged b => num1 b
  | .approachSeen p d t v slow es ep axles void service =>
    num1 (pairByte p) ++ num1 (directionByte d) ++ num3 t ++ num3 v ++ flag slow ++ num2 es ++ num2 ep ++ num1 axles ++ flag void ++
      optional 2 num2 service
  | .departureSeen p d t v slow axles void service =>
    num1 (pairByte p) ++ num1 (directionByte d) ++ num3 t ++ num3 v ++ flag slow ++ num1 axles ++ flag void ++ optional 2 num2 service
  | .editionStaged k e o => num1 k.code ++ num2 e ++ num1 o.byte
  | .editionActive k e r o => num1 k.code ++ num2 e ++ num2 r ++ num1 o.byte
  | .loadRejected k reason off o => num1 k.code ++ num1 (reasonCode (some reason)) ++ num2 off ++ num1 o.byte
  | .peerChange n o x => num1 n ++ num1 o.byte ++ num1 x.byte
  | .clockAdopted n g => num1 n ++ num1 g.code
  | .treadleFault p => num1 (pairByte p)
  | .lineTrouble k seq why => num1 k.code ++ num2 seq ++ num1 why.byte
  | .journalFull => []
  | .bulletin o n k e => num1 o ++ num1 n ++ num1 (bulletinKindByte k) ++ num1 e.byte

/-- A notice: kind, content and joining tick (R181); kinds run from 1 in the order of 10.4 (R188). -/
def noticeBytes (x : Notice) : List Nat := num1 (x.content.maskIndex + 1) ++ contentBytes x.content ++ num4 x.tick

/-- The data of a result (R190). The overlay, a set, is a list of its ids in rising order; NOTICE_READ's number returned is
the count of its notices. Every OK answer of LOAD_SEGMENT holds the loader state as an optional part, a presence flag and a byte, both
0 but at the last segment: R105 says only that the last answer also carries it. The id of a dropped bulletin is an optional part too
(log entry 46). -/
def Reply.bytes : Reply → List Nat
  | .none => []
  | .configured x a b c => configBytes x a b c
  | .status x => statusBytes x
  | .overlay ids => counted num1 ids
  | .overlayRead ids frozen => counted num1 ids ++ flag frozen
  | .lowestId i => num1 i
  | .loadProgress off l => num2 off ++ optional 1 (fun l => num1 (LoaderState.byte l)) l
  | .reportTaken i st => num1 i ++ num1 st.byte
  | .bulletinPosted o n dropped => num1 o ++ num1 n ++ optional 2 (fun b => num1 b.1 ++ num1 b.2) dropped
  | .bulletinHeld held => flag held
  | .calls b d n xs => num1 b ++ date3 d ++ num1 n ++ counted summaryBytes xs
  | .call b i c => callBytes i c ++ num1 b
  | .peers n muted queued rx seq xs => num1 n ++ flag muted ++ num1 queued ++ num4 rx ++ num2 seq ++ counted peerBytes xs
  | .claims n xs => num1 n ++ counted claimReportBytes xs
  | .quote items => quoteBytes items
  | .saleStage st => num1 st.byte
  | .credit c owed => num3 c ++ num3 owed
  | .creditIssued c change serial => num3 c ++ num3 change ++ num3 serial
  | .refund n => num3 n
  | .journal n xs => num1 n ++ counted journalBytes xs
  | .journalCount n => num1 n
  | .treadle x => treadleBytes x
  | .notices a b overrun drops _ left xs =>
    latchBytes a ++ latchBytes b ++ flag overrun ++ num1 drops ++ num1 xs.length ++ num1 left ++ xs.flatMap noticeBytes
  | .mask flags => flags.flatMap flag
  | .latchCount n => num1 n

/-- A result frame before its CRC (R190). -/
def resultBody (r : HostResult) : List Nat :=
  num1 r.code ++ num1 r.tag ++ num1 r.answer.status.code ++ num1 (reasonCode r.answer.reason) ++
    num2 r.answer.data.bytes.length ++ r.answer.data.bytes

/-- The bytes of the result frame (R172, R190). -/
def resultBytes (r : HostResult) : List Nat := resultBody r ++ num1 (crc8 (resultBody r))

/-- The byte shifted out at each place of a transaction: the result frame from its first byte, and the idle fill value
after its CRC (R172, R190). -/
def shiftedOut (r : HostResult) (place : Nat) : Nat := (resultBytes r).getD place idleFill

/-- What the host collects in a transaction of some bytes (R172). -/
def collected (r : HostResult) (length : Nat) : List Nat := (List.range length).map (shiftedOut r)

end Sys2Proof.Machine
end

