-- ==== Sys2Proof/Safety.lean ====
section
/-! DEFINITION. What a safe run keeps: the bounds and the agreements between fields that the manual's chapters state for
every moment. -/

namespace Sys2Proof.Machine

/-- The Notice Unit: a queue of at most 16, drop and occurrence counts within a byte, fourteen mask flags, and the notice
line asserted exactly while an unmasked notice is queued or a latch is set (R178 to R180). -/
structure NoticesOk (n : Notices) : Prop where
  queue : n.queue.length ≤ Config.noticeCapacity
  drops : n.drops ≤ 255
  mask : n.mask.length = 14
  suspension : n.suspension.count ≤ 255
  clash : n.clash.count ≤ 255
  line : n.line = n.lineWanted

/-- The transmit queue holds at most one ANNOUNCE and at most one RUNNING per service (R86). -/
def NoRepeats (q : List TxFrame) : Prop :=
  q.Pairwise (fun a b => Payload.supersedes a.payload b.payload = false ∧ Payload.supersedes b.payload a.payload = false)

/-- The Line Controller: at most 12 frames, none while muted, a condition exactly while a frame is queued, counters within
their ranges, no repeats (R80, R85, R86, R92). -/
structure LineOk (l : Line) : Prop where
  queue : l.queue.length ≤ Config.queueCapacity
  muted : l.muted = true → l.queue = []
  current : l.condition = .noFrame ↔ l.queue = []
  seq : l.seqCounter ≤ 4095
  received : l.rxCount ≤ 4294967295
  repeats : NoRepeats l.queue

/-- A sale that has passed SALE_ACCEPT and has not yet been issued. -/
def SaleRecord.unissued (r : SaleRecord) : Prop := r.stage = .claiming ∨ r.stage = .paying

/-- The Sale Unit: at most 64 journal records, a serial counter within its range, room and a serial kept for a sale that
is CLAIMING or PAYING, and no sale outside RUN (R136, R144, R145). -/
structure SaleOk (s : State) : Prop where
  journal : s.sales.journal.length ≤ Config.journalCapacity
  serial : s.sales.serialCounter ≤ Config.maxSerial
  room : ∀ r, s.sales.sale = some r → r.unissued →
    s.sales.journal.length < Config.journalCapacity ∧ s.sales.serialCounter < Config.maxSerial
  setup : s.setup.running = false → s.sales.sale = none

/-- An image whose byte sum is 0 mod 256 and whose header carries a halt code (R103, R107). -/
def Sound (haltCode : Nat) (image : List Byte) : Prop :=
  (byteValues image).foldl (· + ·) 0 % 256 = 0 ∧ ∃ h, headerOf image = some h ∧ h.haltCode = haltCode

/-- A kind's slot: active and staged images are sound, and outside RUN there is neither (R102, R109). -/
structure SlotOk (running : Bool) (haltCode : Nat) (x : Slot) : Prop where
  active : ∀ image, x.active = some image → Sound haltCode image
  staged : x.loader = .staged → Sound haltCode x.staging
  setup : running = false → x.active = none ∧ x.loader ≠ .staged

/-- Both kinds of the Edition Store. -/
def StoreOk (s : State) : Prop :=
  SlotOk s.setup.running s.setup.settings.haltCode s.store.timetable ∧
    SlotOk s.setup.running s.setup.settings.haltCode s.store.fare

/-- The Halt Clock: date in its range, the weekday that of the date, second and tenths in their ranges (R1, R5). -/
structure ClockOk (c : Clock) : Prop where
  date : c.date.valid = true
  weekday : c.weekday = c.date.weekday
  second : c.second ≤ 86399
  tenths : c.tenths ≤ 9

/-- No two bulletins share an id (R168). -/
def DistinctIds (list : List Bulletin) : Prop := list.Pairwise (fun a b => ¬(a.origin = b.origin ∧ a.number = b.number))

/-- The Bulletin List: at most four bulletins, no two of one id (R168). -/
structure BulletinsOk (list : List Bulletin) : Prop where
  capacity : list.length ≤ Config.bulletinCapacity
  ids : DistinctIds list

/-- The capacities of the Call Table and Claim List (R15, R147), and the Bulletin List (R168). -/
structure CapacitiesOk (s : State) : Prop where
  calls : s.calls.calls.length ≤ Config.maxCalls
  claims : s.claims.length ≤ Config.claimCapacity
  bulletins : BulletinsOk s.bulletins.list

/-- A call's times: S_d not before S_a, both on the service day; a stored lateness at least −900; E_base and E_a at least S_a − 900;
for a STOP call E_d at least S_d and E_a plus the dwell, for a PASS call E_d equal to E_a (R38, R44 to R47). -/
structure CallOk (minDwell : Nat) (c : Call) : Prop where
  scheduled : c.schedArr ≤ c.schedDep ∧ c.schedArr ≤ 86399
  report : ∀ r, c.report = some r → -900 ≤ r.lateness ∧ r.lateness ≤ 21600
  base : ∀ e, c.estimates = some e → c.schedArr ≤ e.base + 900 ∧ c.schedArr ≤ e.arr + 900
  stop : ∀ e, c.estimates = some e → c.kind = .stop →
    c.schedDep ≤ e.dep ∧ e.arr + max (c.schedDep - c.schedArr) minDwell ≤ e.dep
  pass : ∀ e, c.estimates = some e → c.kind = .pass → e.dep = e.arr

/-- The Call Table: every call's times in their bounds, no two calls of one service number, the table that of the clock's service
date, estimates exactly at grades 1..3, and no call outside RUN, where the grade is 0 (R12, R15, R16, R17, R37, R47). -/
structure CallsOk (s : State) : Prop where
  calls : ∀ c ∈ s.calls.calls, CallOk s.setup.settings.minDwell c
  services : s.calls.calls.Pairwise (fun a b => a.service ≠ b.service)
  date : s.calls.date = s.clock.date
  timed : ∀ c ∈ s.calls.calls, c.estimates ≠ none ↔ s.clock.grade ≠ .unset
  setup : s.setup.running = false → s.calls.calls = [] ∧ s.clock.grade = .unset

/-- A call of the table, neither DEPARTED, LAPSED nor CANCELLED, has this service number, and the table is of this date. -/
def OnLiveCall (s : State) (service : Nat) (date : Date) : Prop :=
  date = s.calls.date ∧ ∃ c ∈ s.calls.calls, c.service = service ∧ c.state ≠ .departed ∧ c.state ≠ .lapsed ∧ c.state ≠ .cancelled

/-- The Claim List: no two claims share a key, and every claim is for a call that is neither DEPARTED, LAPSED nor CANCELLED, as is
every space sale that has not reached ISSUING (R31, R143, R147). -/
structure ClaimsOk (s : State) : Prop where
  keys : s.claims.Pairwise (fun a b => ¬(a.origin = b.origin ∧ a.seq = b.seq))
  live : ∀ x ∈ s.claims, OnLiveCall s x.service x.date
  sale : ∀ r x, s.sales.sale = some r → r.stage ≠ .issuing → r.space = some x → OnLiveCall s x.service x.date

/-- Everything that a safe run keeps. -/
structure Safe (s : State) : Prop where
  notices : NoticesOk s.notices
  line : LineOk s.line
  sale : SaleOk s
  store : StoreOk s
  clock : ClockOk s.clock
  capacities : CapacitiesOk s

/-! ### Terms that claims are stated in -/

/-- The peer table has one entry for each station 1..15 but the own one, in order (R95), and in RUN the watch view is the one
formed from the own pairs and the PRESENT peers (R20). -/
structure PeersOk (s : State) : Prop where
  entries : s.line.peers.map (·.station) = (List.range' 1 15).filter (· != s.setup.straps.station)
  watch : s.setup.running = true → s.calls.watch = watchView s.treadles s.line.peers

/-- The overlay is a list of ids 1..15 in rising order, never empty (R184, R187). -/
structure OverlayOk (o : Overlay) : Prop where
  ids : o.ids.Sublist (List.range' 1 15)
  some : o.ids ≠ []

/-- The money and the serials of the Sale Unit: no credit before PAYING, less than the quote in PAYING; in ISSUING the credit is the
fare and the change, and the newest journal record, not VOID, is the sale's; serials rise, carry the station's number and stay below
the serial counter; a VOID record gives no change (R139, R142, R144, R145). -/
structure MoneyOk (s : State) : Prop where
  before : ∀ r, s.sales.sale = some r → r.stage = .quoted ∨ r.stage = .claiming → r.credit = 0
  paying : ∀ r, s.sales.sale = some r → r.stage = .paying → r.credit < r.quote.quote
  issuing : ∀ r, s.sales.sale = some r → r.stage = .issuing → r.credit = r.quote.quote + r.change ∧ r.refund = 0 ∧
    ∃ j, s.sales.journal.getLast? = some j ∧ r.serial = some j.serial ∧ j.fare = r.quote.quote ∧ j.change = r.change ∧
      j.void = false
  rising : s.sales.journal.Pairwise (fun a b => a.serial < b.serial)
  numbered : ∀ j ∈ s.sales.journal, s.setup.straps.station * 1000000 ≤ j.serial ∧
    j.serial < s.setup.straps.station * 1000000 + s.sales.serialCounter
  void : ∀ j ∈ s.sales.journal, j.void = true → j.change = 0

/-- Initialisation is over and the part is in RUN (R173, R184). -/
structure State.Serving (s : State) : Prop where
  ready : s.host.ready = true
  running : s.setup.running = true

/-- Initialisation is over and the part is in SETUP (R173, R184). -/
structure State.InSetup (s : State) : Prop where
  ready : s.host.ready = true
  running : s.setup.running = false

/-- The state with a result for a command code and tag in the result buffer, and nothing else changed (R172). -/
def State.answered (s : State) (code tag : Nat) (a : Answer) : State := { s with host := { s.host with result := ⟨code, tag, a⟩ } }

/-- The code (R174, R188) and tag of the host commands; none for frames, events and raw bytes. -/
def hostFrame : Instr → Option (Nat × Nat)
  | .configure tag _ => some (1, tag)
  | .start tag => some (2, tag)
  | .reset tag _ => some (3, tag)
  | .getStatus tag => some (4, tag)
  | .setTime tag _ _ => some (5, tag)
  | .overlaySet tag _ => some (6, tag)
  | .overlayRestore tag => some (7, tag)
  | .overlayFreeze tag => some (8, tag)
  | .overlayRead tag => some (9, tag)
  | .loadBegin tag _ _ => some (10, tag)
  | .loadSegment tag _ _ _ => some (11, tag)
  | .loadAbandon tag _ => some (12, tag)
  | .reportRunning tag _ => some (13, tag)
  | .postBulletin tag _ _ _ _ => some (14, tag)
  | .withdrawBulletin tag _ _ => some (15, tag)
  | .readCalls tag _ => some (16, tag)
  | .readCall tag _ => some (17, tag)
  | .readPeers tag => some (18, tag)
  | .readClaims tag _ => some (19, tag)
  | .saleQuote tag _ => some (20, tag)
  | .saleAccept tag => some (21, tag)
  | .saleCredit tag _ => some (22, tag)
  | .saleHold tag _ => some (23, tag)
  | .saleCancel tag => some (24, tag)
  | .salePrinted tag _ => some (25, tag)
  | .journalRead tag _ => some (26, tag)
  | .journalRelease tag _ => some (27, tag)
  | .treadleRead tag _ => some (28, tag)
  | .treadleEnable tag _ => some (29, tag)
  | .lampTest tag _ => some (30, tag)
  | .brightness tag _ => some (31, tag)
  | .noticeRead tag => some (32, tag)
  | .noticeMask tag _ => some (33, tag)
  | .noticeAck tag _ _ => some (34, tag)
  | _ => none

/-- The head of a received frame, and whether every field of its payload lies in its range (R79); none for other commands. -/
def receivedFrame : Instr → Option (FrameHead × Bool)
  | .announceReceived h f => some (h, f.wellFormed)
  | .runningReceived h f => some (h, f.wellFormed)
  | .approachReceived h f => some (h, f.wellFormed)
  | .departReceived h f => some (h, f.wellFormed)
  | .claimReceived h f => some (h, f.wellFormed)
  | .takenReceived h f => some (h, f.wellFormed)
  | .releaseReceived h f => some (h, f.wellFormed)
  | .segReqReceived h f => some (h, f.wellFormed)
  | .segmentReceived h f => some (h, f.wellFormed)
  | .bulletinReceived h f => some (h, f.wellFormed)
  | _ => none

/-- A frame whose head names a PRESENT peer reaches a station in RUN whose peer table and watch view are in order. -/
structure FromPresent (h : FrameHead) (s : State) : Prop where
  running : s.setup.running = true
  head : h.wellFormed = true
  peers : PeersOk s
  present : ∃ p ∈ s.line.peers, p.station = h.origin ∧ p.state = .present

/-- The state in which an accepted frame of a PRESENT peer is handed on: counted (R85), the peer heard now and its silence
timer of 35 s restarted (R95, R96). -/
def State.heardFrom (s : State) (n : Nat) : State :=
  { s with line := { s.line with
      rxCount := (s.line.rxCount + 1) % 4294967296
      peers := s.line.peers.map (fun p =>
        if p.station = n then { p with lastHeard := s.clock.tick, silence := some ⟨s.clock.tick, 350⟩ } else p) } }

/-- The Board Composer is at work (R157). -/
def State.Composing (s : State) : Prop := s.setup.straps.shows = true ∧ s.board.rotation ≠ none

/-- A call's E_d from its E_a (R47). -/
def departureFrom (minDwell : Nat) (c : Call) (arr : Nat) : Nat :=
  if c.kind = .stop then max c.schedDep (arr + max (c.schedDep - c.schedArr) minDwell) else arr

/-! ### Evaluations and builds of the Call Table -/

/-- The evaluation of one call at a service second under a watch view takes c to c' (R22, R27 to R30, R45). -/
structure EvaluatedTo (watch : Coverage) (second minDwell : Nat) (c c' : Call) : Prop where
  ended : c.state.over = true ∨ c.estimates = none → c' = c
  creeps : ∀ (e : Estimates) (late : Bool) (creep : Nat), c.estimates = some e → c.state.awaited = true →
    watch.arrival c.direction = true → c.approach = none →
    (late = true ↔ c.delayed = true ∨ e.base + 1200 < second + 30) → creep = (if late then 1200 else second + 30 - e.base) →
    c' = { c with
      delayed := late
      estimates := some ⟨e.base, e.base + creep, departureFrom minDwell c (e.base + creep), creep⟩
      state := if late = true ∧ e.base + 3000 ≤ second then .lapsed else c.state }
  waits : ∀ e, c.estimates = some e → c.state.awaited = true → watch.arrival c.direction = false → second < e.arr → c' = c
  arrives : ∀ (e : Estimates) (margin : Nat), c.estimates = some e →
    margin = (if watch.departure c.direction then 900 else 30) → e.arr ≤ second →
    (c.state.awaited = true ∧ watch.arrival c.direction = false) ∨ c.state = .approaching →
    c' = { c with state := if e.dep + margin ≤ second then .departed else .arrived }
  departs : ∀ (e : Estimates) (margin : Nat), c.estimates = some e →
    margin = (if watch.departure c.direction then 900 else 30) →
    c.state = .arrived ∨ (c.state = .approaching ∧ second < e.arr) →
    c' = { c with state := if e.dep + margin ≤ second then .departed else c.state }

/-- Between two states of the table the call of this service number became DEPARTED, LAPSED or CANCELLED. -/
def Ended (v u : State) (service : Nat) : Prop :=
  ∃ (i : Nat) (c c' : Call), v.calls.calls[i]? = some c ∧ u.calls.calls[i]? = some c' ∧ c.service = service ∧
    c.state.over = false ∧ c'.state.over = true

/-- Every call of v became one as `became` says, with its hand-offs (R31, R36): the claims of an ended call go, a space sale on it is
closed unless it is ISSUING, and the host is told of a change. -/
structure CallsMoved (became : Call → Call → Prop) (v u : State) : Prop where
  length : u.calls.calls.length = v.calls.calls.length
  calls : ∀ (i : Nat) (c : Call), v.calls.calls[i]? = some c → ∃ c', u.calls.calls[i]? = some c' ∧ became c c'
  table : u.calls = { v.calls with calls := u.calls.calls }
  claims : ∀ x ∈ u.claims, x ∈ v.claims ∧ ¬(x.date = v.calls.date ∧ Ended v u x.service)
  stay : v.sales.sale = none → ∀ x ∈ v.claims, ¬(x.date = v.calls.date ∧ Ended v u x.service) → x ∈ u.claims
  closed : ∀ r x, v.sales.sale = some r → r.stage ≠ .issuing → r.space = some x → x.date = v.calls.date → Ended v u x.service →
    u.sales.sale = none
  stands : (∀ r x, v.sales.sale = some r → r.space = some x → ¬(x.date = v.calls.date ∧ Ended v u x.service)) → u.sales = v.sales
  told : (∃ (i : Nat) (c c' : Call), v.calls.calls[i]? = some c ∧ u.calls.calls[i]? = some c' ∧
      (c'.state ≠ c.state ∨ c'.delayed ≠ c.delayed ∨
        c'.estimates.map (fun e => (e.dep + 30) / 60) ≠ c.estimates.map (fun e => (e.dep + 30) / 60))) →
    ∃ n ∈ u.notices.queue, n.content = .callChanged v.calls.buildCount
  quiet : u.calls.calls = v.calls.calls → u = v
  others : u = { v with calls := u.calls, line := u.line, store := u.store, sales := u.sales, claims := u.claims
                        board := u.board, notices := u.notices }
  kept : u.line.peers = v.line.peers ∧ u.line.muted = v.line.muted ∧ u.line.rxCount = v.line.rxCount ∧
    u.sales.journal = v.sales.journal ∧ u.sales.serialCounter = v.sales.serialCounter ∧ u.store.timetable.active = v.store.timetable.active

/-- Every call of v, first changed by `start`, was evaluated (R22), with its hand-offs (R31, R36). -/
def CallsEvaluated (start : Call → Call) (v u : State) : Prop :=
  CallsMoved (fun c c' => EvaluatedTo v.calls.watch v.clock.second v.setup.settings.minDwell (start c) c') v u

/-- What the change of the watch view from `old` to `new` makes of one call (R21): a PENDING or REPORTED call whose arrival flag clears
is brought to the unwatched case (creep 0, E_a back at E_base, E_d from it, DELAYED clear) and evaluated; one whose arrival flag sets,
and an APPROACHING or ARRIVED one whose departure flag changes, is evaluated as it stands; any other is left alone. -/
structure RewatchedTo (old new : Coverage) (second minDwell : Nat) (c c' : Call) : Prop where
  cleared : ∀ e, c.estimates = some e → c.state.awaited = true → old.arrival c.direction = true → new.arrival c.direction = false →
    EvaluatedTo new second minDwell
      { c with delayed := false, estimates := some ⟨e.base, e.base, departureFrom minDwell c e.base, 0⟩ } c'
  sets : c.state.awaited = true → old.arrival c.direction = false → new.arrival c.direction = true →
    EvaluatedTo new second minDwell c c'
  margin : c.state.atHand = true → old.departure c.direction ≠ new.departure c.direction → EvaluatedTo new second minDwell c c'
  alone : (c.state.awaited = true → old.arrival c.direction = new.arrival c.direction) →
    (c.state.atHand = true → old.departure c.direction = new.departure c.direction) → c' = c

/-- The watch view of s was formed again from the own pairs and the PRESENT peers (R20, R21): unchanged, nothing happens; at grade 0
it is recorded only; at grades 1..3 every call a changed flag concerns is evaluated again, with its hand-offs. -/
structure Rewatched (s u : State) : Prop where
  same : watchView s.treadles s.line.peers = s.calls.watch → u = s
  recorded : s.clock.grade = .unset → u = { s with calls := { s.calls with watch := watchView s.treadles s.line.peers } }
  moved : s.clock.grade ≠ .unset →
    CallsMoved (RewatchedTo s.calls.watch (watchView s.treadles s.line.peers) s.clock.second s.setup.settings.minDwell)
      { s with calls := { s.calls with watch := watchView s.treadles s.line.peers } } u

/-- E_base of a call from its report or, with none, from the schedule (R43, R44). -/
def IsBase (c : Call) (base : Nat) : Prop :=
  match c.report with
  | none => base = min 108000 c.schedArr
  | some r => (base : Int) = max 0 (min 108000 ((c.schedArr : Int) +
      (if r.lateness ≤ 0 then r.lateness else max 0 (r.lateness - (((c.points[r.point]?).map (·.allowance)).getD 0 : Nat)))))

/-- A new call from its entry (R15, R18): PENDING, nothing known of it, on its schedule at grades 1..3. -/
structure NewCall (grade : ClockGrade) (minDwell : Nat) (en : CallEntry) (c : Call) : Prop where
  fixed : c.service = en.service ∧ c.kind = en.kind ∧ c.platform = en.platform ∧ c.direction = en.direction ∧
    c.destination = en.destination ∧ c.points = en.points ∧ c.bike = en.bike ∧ c.chair = en.chair
  times : c.schedArr = 60 * en.arrival ∧ c.schedDep = 60 * (if en.kind = .pass then en.arrival else en.departure)
  fresh : c.state = .pending ∧ c.report = none ∧ c.approach = none ∧ c.delayed = false ∧ c.sensed = false ∧ c.source = .schedule
  untimed : grade = .unset → c.estimates = none
  timed : ∀ base, grade ≠ .unset → IsBase c base → c.estimates = some ⟨base, base, departureFrom minDwell c base, 0⟩

/-- A kept call of a swap (R33): the new entry's fixed fields n, the old call's running state o, the estimates brought up to the new
schedule. -/
structure KeptCall (minDwell : Nat) (o n c : Call) : Prop where
  carried : c = { n with state := o.state, report := o.report, approach := o.approach, source := o.source, delayed := o.delayed
                         sensed := o.sensed, estimates := c.estimates }
  untimed : o.estimates = none → c.estimates = none
  timed : ∀ (e : Estimates) (base : Nat), o.estimates = some e → IsBase c base →
    ∃ arr, c.estimates = some ⟨base, arr, departureFrom minDwell c arr, e.creep⟩ ∧
      (∀ a, o.approach = some a → arr = max (a.detect + a.eta) (n.schedArr - 900)) ∧
      (o.approach = none → arr = base + (if o.delayed then 1200 else e.creep))

/-- The table of u was built in v from the active timetable, for the clock's service date, an old call being kept when it has the
service number and direction of a new one (R17 to R19, R33). A send in progress goes on, with an image pending after it (R165). -/
structure CallsBuilt (old : List Call) (v u : State) : Prop where
  advanced : u.calls = { calls := u.calls.calls, buildCount := (v.calls.buildCount + 1) % 256, date := v.clock.date
                         watch := v.calls.watch, resend := v.calls.resend }
  empty : v.store.timetable.active = none → u.calls.calls = []
  length : ∀ image, v.store.timetable.active = some image →
    u.calls.calls.length = min 192 (entriesOn (timetableOf image) v.clock.weekday).length
  calls : ∀ (image : List Byte) (i : Nat) (en : CallEntry), v.store.timetable.active = some image → i < 192 →
    (entriesOn (timetableOf image) v.clock.weekday)[i]? = some en →
    ∃ (n c c' : Call), NewCall v.clock.grade v.setup.settings.minDwell en n ∧ u.calls.calls[i]? = some c' ∧
      ((∀ o ∈ old, ¬(o.service = n.service ∧ o.direction = n.direction)) → c = n) ∧
      (∀ o, old.find? (fun o => o.service = n.service && o.direction = n.direction) = some o →
        KeptCall v.setup.settings.minDwell o n c) ∧
      (v.clock.grade = .unset → c' = c) ∧
      (v.clock.grade ≠ .unset → EvaluatedTo v.calls.watch v.clock.second v.setup.settings.minDwell c c')
  told : ∃ n ∈ u.notices.queue, n.content = .callChanged u.calls.buildCount
  port : v.Composing → v.board.sending ≠ none → u.board.sending = v.board.sending ∧ u.board.waitingImage ≠ none
  others : u = { v with calls := u.calls, line := u.line, store := u.store, sales := u.sales, claims := u.claims
                        board := u.board, notices := u.notices }
  kept : u.line.peers = v.line.peers ∧ u.line.muted = v.line.muted ∧ u.line.rxCount = v.line.rxCount ∧
    u.sales.journal = v.sales.journal ∧ u.sales.serialCounter = v.sales.serialCounter

/-- A fresh build, at a rollover or a step to another date (R11, R17 to R19): every claim goes, and a space sale of another date is
closed unless it is ISSUING. -/
structure TableBuilt (v u : State) : Prop where
  table : CallsBuilt [] v u
  claims : u.claims = []
  closed : ∀ r x, v.sales.sale = some r → r.stage ≠ .issuing → r.space = some x → x.date ≠ v.clock.date → u.sales.sale = none
  stands : (∀ r, v.sales.sale = some r → r.stage = .issuing ∨ r.space = none) → u.sales = v.sales

/-! ### The panel -/

/-- A text in a row of the panel: left-aligned, cut to the width and padded with blanks (R160). -/
def shownRow (columns : Nat) (t : Text) : List Cell := ((t ++ List.replicate columns 32).take columns).map Cell.glyph

/-- A minute of the day as hh:mm (R53). -/
def clockText (minute : Nat) : Text := [48 + minute / 600, 48 + minute / 60 % 10, 58, 48 + minute % 60 / 10, 48 + minute % 10]

/-- The listed calls in their order (R159). -/
structure IsListing (s : State) (l : List Call) : Prop where
  members : l.Perm (s.calls.calls.filter (fun c => decide (c.kind = .stop ∧
    (s.board.config.filter = 0 ∨ s.board.config.filter = c.platform) ∧ c.state ≠ .departed ∧ c.state ≠ .lapsed ∧
    (c.state = .cancelled → s.clock.second < c.schedDep + 600))))
  sorted : l.Pairwise (fun a b => ∀ d e, a.estimates = some d → b.estimates = some e →
    d.dep < e.dep ∨ (d.dep = e.dep ∧ a.service ≤ b.service))

/-- The text of a call row of NORMAL: scheduled time, platform, destination, status and countdown, each in its width (R53 to R55,
R160). -/
structure RowOf (s : State) (c : Call) (e : Estimates) (dest status count row : Text) : Prop where
  fields : ∀ D, D = s.board.config.columns - 18 - (if s.board.config.filter = 0 then 2 else 0) -
      (if 36 ≤ s.board.config.columns then 7 else 0) →
    row = clockText ((c.schedDep / 60 % 1440 + s.setup.settings.rolloverMinute) % 1440) ++ [32] ++
      (if s.board.config.filter = 0 then [48 + c.platform, 32] else []) ++
      (if D = 0 then [] else (dest ++ List.replicate D 32).take D ++ [32]) ++ (status ++ List.replicate 11 32).take 11 ++
      (if 36 ≤ s.board.config.columns then [32] ++ List.replicate (6 - count.length) 32 ++ count else [])
  dest : ∀ image t, s.store.timetable.active = some image → (timetableOf image).destinations[c.destination]? = some t → dest = t
  status : (c.state = .cancelled → status = txt "Cancelled") ∧ (c.state = .approaching → status = txt "Approaching") ∧
    (c.state = .arrived → status = txt "At platform") ∧ (c.state.awaited = true →
      (c.delayed = true → status = txt "Delayed") ∧
      (c.delayed = false → e.dep < c.schedDep + 60 → status = txt "On time") ∧
      (c.delayed = false → c.schedDep + 60 ≤ e.dep →
        status = txt "Exp " ++ clockText (((e.dep + 30) / 60 % 1440 + s.setup.settings.rolloverMinute) % 1440)))
  count : (c.state = .cancelled ∨ c.delayed = true ∨ s.clock.second + 6000 ≤ e.dep → count = []) ∧
    (c.state ≠ .cancelled → c.delayed = false → e.dep < s.clock.second + 60 → count = txt "Due") ∧
    ∀ n, c.state ≠ .cancelled → c.delayed = false → s.clock.second + 60 ≤ e.dep → e.dep < s.clock.second + 6000 →
      n = (e.dep - s.clock.second) / 60 →
      count = (if n < 10 then [48 + n] else [48 + n / 10, 48 + n % 10]) ++ txt " min"

/-- The bulletin of a kind that is in force and stands last in the list (R162, R169). -/
def LastInForce (list : List Bulletin) (kind : BulletinKind) (b : Bulletin) : Prop :=
  b.inForce = true ∧ b.kind = kind ∧ ∃ l m, list = l ++ b :: m ∧ ∀ x ∈ m, ¬(x.inForce = true ∧ x.kind = kind)

/-! ### Command frames -/

/-- The lowest and the highest number of parameter bytes of each command code (R190, and the rules of the commands). -/
def paramLengths (code : Nat) : Nat × Nat :=
  match code with
  | 1 => (34, 34)
  | 5 => (6, 6)
  | 6 => (1, 16)
  | 10 => (3, 3)
  | 11 => (4, 67)
  | 12 => (1, 1)
  | 13 => (12, 12)
  | 14 => (15, 78)
  | 15 => (2, 2)
  | 16 => (1, 1)
  | 17 => (1, 1)
  | 19 => (1, 1)
  | 20 => (8, 8)
  | 22 => (3, 3)
  | 23 => (2, 2)
  | 25 => (1, 1)
  | 26 => (1, 1)
  | 27 => (1, 1)
  | 28 => (1, 1)
  | 29 => (1, 1)
  | 30 => (1, 1)
  | 31 => (1, 1)
  | 33 => (14, 14)
  | 34 => (2, 2)
  | _ => (0, 0)

/-! ### Effects -/

/-- A report was accepted for the call c at index i, with its base arrival (R42 to R48): what the call becomes, and that no other
call and no other block than those named changes. -/
structure ReportTaken (s t : State) (i : Nat) (c : Call) (r : BestReport) (base : Nat) : Prop where
  call : ∃ c', t.calls = { s.calls with calls := s.calls.calls.set i c' } ∧ c'.report = some r ∧
    (c.state.atHand = true → c' = { c with report := some r }) ∧
    (r.cancelled = true → c.state = .cancelled → c' = { c with report := some r }) ∧
    (r.cancelled = true → c.state.awaited = true →
      c' = { c with report := some r, source := .report, state := .cancelled, delayed := false }) ∧
    (∀ e, r.cancelled = false → c.state.awaited = true ∨ c.state = .cancelled → c.estimates = some e →
      s.clock.second + 30 < base →
      c' = { c with report := some r, source := .report, state := .reported, delayed := false
                    estimates := some ⟨base, base, departureFrom s.setup.settings.minDwell c base, 0⟩ })
  others : t = { s with
    calls := t.calls, board := t.board, line := t.line, store := t.store, sales := t.sales, claims := t.claims
    notices := t.notices }
  counted : t.sales.journal = s.sales.journal ∧ t.sales.serialCounter = s.sales.serialCounter ∧ t.line.peers = s.line.peers ∧
    t.line.rxCount = s.line.rxCount ∧ t.line.muted = s.line.muted
  live : c.state.atHand = true ∨ (r.cancelled = true ∧ c.state = .cancelled) ∨
      (r.cancelled = false ∧ c.estimates ≠ none ∧ s.clock.second + 30 < base) →
    t = raise (.callChanged s.calls.buildCount) (compose { s with calls := t.calls })
  ended : r.cancelled = true → c.state.awaited = true →
    (∀ x ∈ t.claims, x ∈ s.claims ∧ ¬(x.service = c.service ∧ x.date = s.calls.date)) ∧
    (∀ x y, s.sales.sale = some x → x.stage ≠ .issuing → x.space = some y → y.service = c.service → y.date = s.calls.date →
      t.sales.sale = none)

/-- The bulletin list as an evaluation of force leaves it: the expired ones gone, each in-force flag as defined (R169). -/
def Judged (c : Clock) (list : List Bulletin) : List Bulletin :=
  (list.filter (fun b => !b.expiredAt c)).map (fun b => { b with inForce := b.inForceAt c })

/-- A change left this list of bulletins to be evaluated (R168, R169): the list after it, the SUSPENSION latch, and that only list,
notices and board changed. -/
structure BulletinsChanged (s t : State) (list : List Bulletin) : Prop where
  after : t.bulletins.list = Judged s.clock list
  counter : t.bulletins.counter = s.bulletins.counter
  rest : t = { s with bulletins := t.bulletins, board := t.board, notices := t.notices }
  latch : (∃ b ∈ list, b.kind = .suspension ∧ b.inForce = false ∧ b.inForceAt s.clock = true) →
    t.notices.suspension.isSet = true
  still : (∀ b ∈ list, b.kind = .suspension → b.inForceAt s.clock = true → b.inForce = true) →
    t.notices.suspension = s.notices.suspension

/-- A sale enters ISSUING with its credit (R139): change, serial and journal record, TICKET_READY, and JOURNAL_FULL at 64 records. -/
structure Issued (s t : State) (r : SaleRecord) (credit serial change : Nat) : Prop where
  numbered : serial = s.setup.straps.station * 1000000 + s.sales.serialCounter
  returned : change = credit - r.quote.quote
  sales : t.sales = {
    sale := some { r with stage := .issuing, credit := credit, change := change, refund := 0, serial := some serial
                          hold := .none, lifetime := none, payment := none }
    serialCounter := s.sales.serialCounter + 1
    journal := s.sales.journal ++
      [{ serial := serial, product := r.quote.product, destination := r.quote.destination, concession := r.quote.concession
         passengers := r.quote.passengers, fare := r.quote.quote, change := change, refund := 0, edition := r.quote.edition
         date := s.clock.date, second := s.clock.second, space := r.space.map (fun x => (x.service, x.cls)), void := false }] }
  ready : s.sales.journal.length ≠ 63 →
    t = raise (.ticketReady serial r.quote.product r.quote.quote credit change) { s with sales := t.sales }
  full : s.sales.journal.length = 63 → t = raise .journalFull
    (raise (.ticketReady serial r.quote.product r.quote.quote credit change) { s with sales := t.sales })

/-- A sale is closed (R142, R153): the own claim is taken or released, SALE_STATE raised, the record cleared, and a staged fare
image activated (R117). -/
structure Closed (s t : State) (r : SaleRecord) (reason : Reason) (issued : Bool) (change refund : Nat) (serial : Option Nat) :
    Prop where
  sale : t.sales = { s.sales with sale := none }
  others : t = { s with line := t.line, store := t.store, sales := t.sales, claims := t.claims, notices := t.notices }
  plain : (∀ q, r.claim = some q → findClaim s.claims s.setup.straps.station q = none) → s.store.fare.loader ≠ .staged →
    t = raise (.saleState reason r.quote.product r.quote.quote r.credit change refund serial) { s with sales := t.sales }
  fare : s.store.fare.loader = .staged → s.store.fare.pull = none →
    t.store.fare = { s.store.fare with
      active := some s.store.fare.staging, activeEdition := editionOf s.store.fare.staging, loader := .empty, staging := []
      declared := none, offset := 0, origin := none, pull := none }
  kept : s.store.fare.loader ≠ .staged →
    t.store.fare.active = s.store.fare.active ∧ t.store.fare.activeEdition = s.store.fare.activeEdition
  claim : ∀ q c, r.claim = some q → findClaim s.claims s.setup.straps.station q = some c →
    (c.state = .granted → issued = true → t.claims = s.claims.map (fun x =>
      if x.origin = s.setup.straps.station ∧ x.seq = q then { x with state := .taken } else x)) ∧
    ((c.state = .granted ∨ c.state = .queued) → issued = false →
      t.claims = s.claims.filter (fun x => !(x.origin = s.setup.straps.station && x.seq = q))) ∧
    (c.state = .granted → s.line.muted = false → s.line.queue.length < 12 → t.line.queue = s.line.queue ++
      [⟨s.line.seqCounter, 0, if issued then .taken ⟨c.service, c.date, c.cls, c.seq⟩
        else .release ⟨c.service, c.date, c.cls, c.seq⟩⟩]) ∧
    (c.state = .queued → issued = false → ∀ i, s.line.queue.findIdx? (fun f => f.seq = q && f.payload.kind = .claim) = some i →
      t.line.queue = s.line.queue.eraseIdx i)

/-- A complete image stands in a kind's staging slot and is checked (R107, R109): rejected, staged, or activated at once
(R115 to R117). -/
structure FillChecked (k : TableKind) (x : Slot) (s t : State) : Prop where
  rejected : ∀ why off, checkImage k s.setup.settings.haltCode x.activeEdition x.staging = some (why, off) →
    t = raise (.loadRejected k why off (x.origin.getD .host)) { s with store := (s.store.setSlot k { x with
      loader := .empty, staging := [], declared := none, offset := 0, origin := none, pull := none
      refused := (match x.pull with | some p => p.edition | none => x.refused) }) }
  waits : checkImage k s.setup.settings.haltCode x.activeEdition x.staging = none →
    (k = .fare ∧ s.sales.sale ≠ none) ∨ (k = .timetable ∧ s.clock.grade = .unset ∧ x.active ≠ none) ∨
      (k = .timetable ∧ s.clock.grade ≠ .unset ∧ (effectiveDateOf x.staging).onOrBefore s.clock.date = false) →
    t = raise (.editionStaged k (editionOf x.staging) (x.origin.getD .host))
      { s with store := (s.store.setSlot k { x with loader := .staged, pull := none }) }
  fare : checkImage k s.setup.settings.haltCode x.activeEdition x.staging = none → k = .fare → s.sales.sale = none →
    t = raise (.editionActive k (editionOf x.staging) x.activeEdition (x.origin.getD .host))
      (raise (.editionStaged k (editionOf x.staging) (x.origin.getD .host)) { s with store := (s.store.setSlot k { x with
        active := some x.staging, activeEdition := editionOf x.staging, loader := .empty, staging := [], declared := none
        offset := 0, origin := none, pull := none }) })
  timetable : checkImage k s.setup.settings.haltCode x.activeEdition x.staging = none → k = .timetable →
    (s.clock.grade = .unset ∧ x.active = none) ∨
      (s.clock.grade ≠ .unset ∧ (effectiveDateOf x.staging).onOrBefore s.clock.date = true) →
    t.store.timetable.active = some x.staging ∧ t.store.timetable.activeEdition = editionOf x.staging ∧
    (∃ w, w.store.timetable.active = some x.staging ∧ CallsBuilt s.calls.calls (compose w) t ∧
      w = { s with store := w.store, notices := w.notices }) ∧
    t = { s with store := t.store, calls := t.calls, line := t.line, sales := t.sales, claims := t.claims
                 board := t.board, notices := t.notices } ∧
    t.line.peers = s.line.peers ∧ t.sales.journal = s.sales.journal

/-- The capture or overflow of a pair is done: the pair is in PASSAGE with the record, its counter and the quiet timer of 8 s
(R65 to R67); the observation went to the Call Table (R75), its effects reaching no other block than those named. With no call in
the table it reaches the board and, at grades 1..3, the line, where its frame is the newest queued if there is room; at a full queue
it may displace a pull's SEG_REQ, which the Edition Store is told (R88, R90). At grade 0, and while muted, no frame is queued. -/
structure EntersPassage (p : PairId) (x : Pair) (m : Measurement) (s t : State) : Prop where
  pair : t.treadles = s.treadles.setPair p
    { x with state := .passage, record := some m, counter := m.count, quietTimer := some ⟨s.clock.tick, 80⟩,
             matched := (t.treadles.pair p).matched }
  others : t = { s with
    treadles := t.treadles, calls := t.calls, line := t.line, store := t.store, sales := t.sales, claims := t.claims,
    board := t.board, notices := t.notices }
  kept : t.calls.date = s.calls.date ∧ t.calls.buildCount = s.calls.buildCount ∧ t.calls.watch = s.calls.watch ∧
    t.line.peers = s.line.peers ∧ t.line.muted = s.line.muted ∧ t.line.rxCount = s.line.rxCount ∧
    t.sales.journal = s.sales.journal ∧ t.sales.serialCounter = s.sales.serialCounter ∧ t.notices.mask = s.notices.mask
  alone : s.calls.calls = [] → (t.treadles.pair p).matched = none ∧
    t = { s with treadles := t.treadles, line := t.line, board := t.board, store := t.store } ∧
    (s.clock.grade = .unset ∨ s.line.muted = true → t = { s with treadles := t.treadles, board := t.board }) ∧
    (s.clock.grade ≠ .unset → s.line.muted = false → s.line.queue.length < 12 → t = { s with
      treadles := t.treadles
      board := t.board
      line := { s.line with
        queue := s.line.queue ++ [⟨s.line.seqCounter, 0, observationPayload p x.config m⟩]
        seqCounter := (s.line.seqCounter + 1) % 4096
        condition := if s.line.queue = [] then .waiting s.clock.tick else s.line.condition } })

end Sys2Proof.Machine
end

