-- ==== Sys2Proof/WellFormed.lean ====
section
/-! DEFINITION. The operand ranges of the commands: what a command frame, a halt line frame or a pin can carry. A command
outside them is still executed; its block refuses or discards it as its rule says. -/

namespace Sys2Proof

/-! ### Checks -/

/-- A number of one byte. -/
def isByte (n : Nat) : Bool := n ≤ 255

/-- A number of two bytes. -/
def isWord (n : Nat) : Bool := n ≤ 65535

/-- A number of three bytes. -/
def isTriple (n : Nat) : Bool := n ≤ 16777215

/-- The straps give a station number 0..15 (R184). -/
def Straps.wellFormed (x : Straps) : Bool := x.station ≤ 15

/-- A date that three bytes can carry (R188). -/
def Date.encodable (d : Date) : Bool := 2000 ≤ d.year && d.year ≤ 2255 && isByte d.month && isByte d.day

/-- A clock time that three bytes can carry (R6, R188). -/
def ClockTime.encodable (t : ClockTime) : Bool := isByte t.hours && isByte t.minutes && isByte t.seconds

/-- An instant that six bytes can carry (R188). -/
def Instant.encodable (i : Instant) : Bool := i.date.encodable && isTriple i.second

/-- A pair's configuration as CONFIGURE can carry it (R185, R188). -/
def PairConfig.encodable (p : PairConfig) : Bool := isWord p.spacing && isWord p.distance && isByte p.braking

/-- The parameters CONFIGURE can carry (R185, R188). -/
def ConfigParams.encodable (p : ConfigParams) : Bool :=
  isWord p.haltCode && isWord p.rolloverMinute && isByte p.minDwell && isWord p.minSpeed && p.pairA.encodable &&
    p.pairB.encodable && isByte p.rows && isByte p.columns && isByte p.platformFilter && isWord p.nightStart &&
    isWord p.nightEnd && isByte p.nightLevel && isByte p.dayLevel && isByte p.coinStep && isTriple p.resume

/-- The report REPORT_RUNNING can carry (R38, R188). -/
def RunningFields.encodable (f : RunningFields) : Bool :=
  isWord f.service && f.date.encodable && isByte f.point && (-32768 : Int) ≤ f.lateness && f.lateness ≤ (32767 : Int) &&
    isTriple f.observed

/-- The request SALE_QUOTE can carry (R126, R134, R188). -/
def QuoteRequest.encodable (q : QuoteRequest) : Bool :=
  isByte q.product && isWord q.destination && isByte q.concession && isByte q.passengers && isWord (q.call.getD 0)

/-- A text a POST_BULLETIN can carry: 1..64 characters of one byte (R190). -/
def postable (t : Text) : Bool := 1 ≤ t.length && t.length ≤ 64 && t.all isByte

/-- The ids an OVERLAY_SET can carry (R190). -/
def listable (ids : List Nat) : Bool := ids.length ≤ 15 && ids.all isByte

/-- The data a LOAD_SEGMENT can carry (R105). -/
def loadable (data : List Byte) : Bool := 1 ≤ data.length && data.length ≤ 64

/-! ### The whole command -/

/-- The operands lie in the ranges that their carrier gives them. -/
def Instr.wellFormed : Instr → Bool
  | .powerOnReset x => x.wellFormed
  | .pinReset x => x.wellFormed
  | .initialisationComplete => true
  | .unknownCommandFrame _ => true
  | .configure tag p => isByte tag && p.encodable
  | .start tag => isByte tag
  | .reset tag x => isByte tag && x.wellFormed
  | .getStatus tag => isByte tag
  | .setTime tag d t => isByte tag && d.encodable && t.encodable
  | .overlaySet tag ids => isByte tag && listable ids
  | .overlayRestore tag => isByte tag
  | .overlayFreeze tag => isByte tag
  | .overlayRead tag => isByte tag
  | .loadBegin tag k n => isByte tag && isByte k && isWord n
  | .loadSegment tag k o data => isByte tag && isByte k && isWord o && loadable data
  | .loadAbandon tag k => isByte tag && isByte k
  | .reportRunning tag f => isByte tag && f.encodable
  | .postBulletin tag k a b t => isByte tag && isByte k && a.encodable && b.encodable && postable t
  | .withdrawBulletin tag o n => isByte tag && isByte o && isByte n
  | .readCalls tag i => isByte tag && isByte i
  | .readCall tag i => isByte tag && isByte i
  | .readPeers tag => isByte tag
  | .readClaims tag i => isByte tag && isByte i
  | .saleQuote tag q => isByte tag && q.encodable
  | .saleAccept tag => isByte tag
  | .saleCredit tag n => isByte tag && isTriple n
  | .saleHold tag n => isByte tag && isWord n
  | .saleCancel tag => isByte tag
  | .salePrinted tag _ => isByte tag
  | .journalRead tag k => isByte tag && isByte k
  | .journalRelease tag n => isByte tag && isByte n
  | .treadleRead tag p => isByte tag && isByte p
  | .treadleEnable tag p => isByte tag && isByte p
  | .lampTest tag n => isByte tag && isByte n
  | .brightness tag n => isByte tag && isByte n
  | .noticeRead tag => isByte tag
  | .noticeMask tag fs => isByte tag && fs.length = 14
  | .noticeAck tag k n => isByte tag && isByte k && isByte n
  | .referenceClockTenth => true
  | .clockGradeAgeing => true
  | .reSendTimerExpiry => true
  | .headInputChange _ _ _ => true
  | .pulse _ _ n => isWord n
  | .overflow _ => true
  | .quietTimerExpiry _ => true
  | .attemptStart => true
  | .busyFailure => true
  | .collision => true
  | .backoffEnd => true
  | .completion => true
  | .malformedFrame _ => true
  | .announceReceived h f => h.wellFormed && f.wellFormed
  | .runningReceived h f => h.wellFormed && f.wellFormed
  | .approachReceived h f => h.wellFormed && f.wellFormed
  | .departReceived h f => h.wellFormed && f.wellFormed
  | .claimReceived h f => h.wellFormed && f.wellFormed
  | .takenReceived h f => h.wellFormed && f.wellFormed
  | .releaseReceived h f => h.wellFormed && f.wellFormed
  | .segReqReceived h f => h.wellFormed && f.wellFormed
  | .segmentReceived h f => h.wellFormed && f.wellFormed
  | .bulletinReceived h f => h.wellFormed && f.wellFormed
  | .peerSilenceTimerExpiry n => validStation n
  | .announceTimerExpiry => true
  | .pullWaitTimerExpiry _ => true
  | .replyTimerExpiry _ => true
  | .quoteLifetimeExpiry => true
  | .paymentTimerExpiry => true
  | .claimLifetimeExpiry o q => validStation o && q ≤ 4095
  | .rotationTimerExpiry => true
  | .warningTimerExpiry _ => true
  | .lampTestTimerExpiry => true
  | .panelSendEnd => true
  | .returnToInactive _ _ => true

end Sys2Proof
end

