-- ==== Sys2Proof/Certificates/Slice0/Obligations.lean ====
section
/-! DEFINITION. The statements for the provers: what each command does, block by block, then what every step keeps. -/

open Sys2Proof Sys2Proof.Machine

/-! ### The step -/

/-- A step takes the command at the front of the queue and executes it on the state with the queue's rest. On an empty
queue the block idles: that clause is the model's own choice (log entry 6). -/
def Obligations.StepTakesTheFrontCommand : Prop :=
  (∀ (c : Instr) (rest : List Instr) (s : State),
    step { s with pending := c :: rest } = exec c { s with pending := rest }) ∧
  ∀ s : State, step { s with pending := [] } = .next { s with pending := [] }

/-! ### Resets (R1, R37, R62, R78, R95, R101, R102, R133, R145, R147, R157, R168, R172, R183, R184) -/

/-- The state a power-on reset leaves, field by field. A pin reset, and the soft reset of a RESET taken after initialisation,
leave the same but for the serial counter, the overlay with its frozen flag, and, after RESET, the result buffer (R172, R184). The
resume value 0 and the fields a passage or START sets are the model's own (log entries 2, 44), and so is that the head pins' levels and the queue of commands stay (log entries 7
and 8). -/
def Obligations.ResetsLeaveTheResetValues : Prop :=
  (∀ (straps : Straps) (s : State), exec (.powerOnReset straps) s = .next
     { setup :=
         { running := false, configured := false, straps := straps
           settings := { haltCode := 0, rolloverMinute := 180, minDwell := 30, minSpeed := 300, coinStep := 1, resume := 0 } }
       overlay := { ids := [1, 2, 3, 4, 5, 6, 7, 8, 9, 10, 11, 12, 13, 14, 15], frozen := false }
       clock := { date := ⟨2000, 1, 1⟩, weekday := 5, second := 0, tenths := 0, grade := .unset, hostSetTick := 0, tick := 0 }
       calls := { calls := [], buildCount := 0, date := ⟨2000, 1, 1⟩, watch := ⟨false, false, false, false⟩, resend := none }
       treadles :=
         { pairA :=
             { config := { enabled := false, direction := .up, spacing := 150, distance := 1000, braking := 30 }
               head1 := ⟨s.treadles.pairA.head1.input, false⟩, head2 := ⟨s.treadles.pairA.head2.input, false⟩
               state := .quiet, firstHead := .one, counter := 0, axles := 0, secondSeen := false, quietTimer := none
               voids := 0, record := none, matched := none }
           pairB :=
             { config := { enabled := false, direction := .down, spacing := 150, distance := 1000, braking := 30 }
               head1 := ⟨s.treadles.pairB.head1.input, false⟩, head2 := ⟨s.treadles.pairB.head2.input, false⟩
               state := .quiet, firstHead := .one, counter := 0, axles := 0, secondSeen := false, quietTimer := none
               voids := 0, record := none, matched := none } }
       line :=
         { queue := [], condition := .noFrame, seqCounter := 0, rxCount := 0
           peers := ([1, 2, 3, 4, 5, 6, 7, 8, 9, 10, 11, 12, 13, 14, 15].filter (· != straps.station)).map (fun n =>
             { station := n, state := .unknown, sells := false, shows := false, timetable := 0, fare := 0, grade := .unset
               coverage := ⟨false, false, false, false⟩, lastHeard := 0, silence := none })
           muted := false, announceTimer := none, freshCount := 0, rng := none }
       store :=
         { timetable := { active := none, activeEdition := 0, loader := .empty, staging := [], declared := none, offset := 0
                          origin := none, pull := none, pullWait := none, refused := 0 }
           fare := { active := none, activeEdition := 0, loader := .empty, staging := [], declared := none, offset := 0
                     origin := none, pull := none, pullWait := none, refused := 0 } }
       sales := { sale := none, serialCounter := 0, journal := [] }
       claims := []
       bulletins := { list := [], counter := 0 }
       board :=
         { config := { rows := 4, columns := 24, filter := 0, nightStart := 0, nightEnd := 0, nightLevel := 3, dayLevel := 7 }
           image := { cells := List.replicate 4 (List.replicate 24 (.glyph 32)), level := 7 }, mode := .noTimetable
           phase := 0, page := 0, warnUp := none, warnDown := none, rotation := none, lamp := none, override := none
           sending := none, waitingImage := none }
       host := { ready := false, result := ⟨0, 0, ⟨.ok, none, .none⟩⟩ }
       notices := { queue := [], overrun := false, drops := 0, mask := List.replicate 14 false, suspension := ⟨false, 0⟩
                    clash := ⟨false, 0⟩, line := false }
       pending := s.pending }) ∧
  (∀ (straps : Straps) (tag : Nat) (s r : State), exec (.powerOnReset straps) s = .next r →
     exec (.pinReset straps) s = .next { r with overlay := s.overlay, sales := { r.sales with serialCounter := s.sales.serialCounter } } ∧
     (s.host.ready = true → exec (.reset tag straps) s = .next
       { r with
         overlay := s.overlay
         sales := { r.sales with serialCounter := s.sales.serialCounter }
         host := { r.host with result := ⟨3, tag, ⟨.ok, none, .none⟩⟩ } }))

/-- The state after reset meets every invariant stated below. The straps of State.reset, and the values that the manual
leaves open, are the model's choice (log entries 1, 2, 44). -/
def Obligations.ResetStateMeetsTheInvariants : Prop :=
  Safe State.reset ∧ MoneyOk State.reset ∧ PeersOk State.reset ∧ OverlayOk State.reset.overlay ∧ CallsOk State.reset ∧
    ClaimsOk State.reset

/-! ### Tests on a command frame, reading (R14, R35, R72, R97, R155, R171 to R175, R187) -/

/-- Until initialisation completes every host command is answered BUSY; after it, one not accepted in the present
start-up state, or without its role, is answered so; a frame's bytes with a wrong length, CRC-8, code, number of parameters or
count byte are answered so in that order, a frame cut short of its length byte is BAD_LENGTH (or BUSY), and idle fill
alone takes nothing; nothing else changes (R172 to R174, R190). That a frame is taken whole, that sound bytes run as their
command, and the free tag of a frame cut before it are the model's choices (log entries 4, 13, 31, 37). -/
def Obligations.CommandFramesAreTestedInOrder : Prop :=
  ((∀ (i : Instr) (code tag : Nat) (s : State), hostFrame i = some (code, tag) → s.host.ready = false →
     exec i s = .next (s.answered code tag ⟨.busy, none, .none⟩)) ∧
   ∀ s : State, exec .initialisationComplete s = .next { s with host := { s.host with ready := true } }) ∧
  (∀ (i : Instr) (code tag : Nat) (s : State), hostFrame i = some (code, tag) → i.wellFormed = true → s.host.ready = true →
     (s.setup.running = false → code = 5 ∨ (10 ≤ code ∧ code ≤ 31) →
       exec i s = .next (s.answered code tag ⟨.notStarted, none, .none⟩)) ∧
     (s.setup.running = true → code = 1 ∨ code = 2 →
       exec i s = .next (s.answered code tag ⟨.alreadyStarted, none, .none⟩)) ∧
     (s.setup.running = true → s.setup.straps.sells = false → 20 ≤ code ∧ code ≤ 27 →
       exec i s = .next (s.answered code tag ⟨.refused, some .notSelling, .none⟩)) ∧
     (s.setup.running = true → s.setup.straps.shows = false → code = 30 ∨ code = 31 →
       exec i s = .next (s.answered code tag ⟨.refused, some .notShowing, .none⟩))) ∧
  (∀ (code : Byte) (s : State) (st : Status), st = (if s.host.ready then .badLength else .busy) →
     (code ≠ 0xFF#8 → ∃ tag, exec (.unknownCommandFrame [code]) s = .next (s.answered code.toNat tag ⟨st, none, .none⟩)) ∧
     ∀ tag : Byte, code ≠ 0xFF#8 ∨ tag ≠ 0xFF#8 →
       exec (.unknownCommandFrame [code, tag]) s = .next (s.answered code.toNat tag.toNat ⟨st, none, .none⟩)) ∧
  ((∀ (n : Nat) (s : State), exec (.unknownCommandFrame (List.replicate n 0xFF#8)) s = .next s) ∧
   ∀ (code tag len : Byte) (rest : List Byte) (s : State), (∃ b ∈ code :: tag :: len :: rest, b ≠ 0xFF#8) →
     (s.host.ready = false →
       exec (.unknownCommandFrame (code :: tag :: len :: rest)) s =
         .next (s.answered code.toNat tag.toNat ⟨.busy, none, .none⟩)) ∧
     (s.host.ready = true →
       (rest.length ≤ len.toNat →
         exec (.unknownCommandFrame (code :: tag :: len :: rest)) s =
           .next (s.answered code.toNat tag.toNat ⟨.badLength, none, .none⟩)) ∧
       ((∃ b ∈ rest.drop (len.toNat + 1), b ≠ 0xFF#8) →
         exec (.unknownCommandFrame (code :: tag :: len :: rest)) s =
           .next (s.answered code.toNat tag.toNat ⟨.badLength, none, .none⟩)) ∧
       ∀ (ps : List Byte) (crc : Byte) (fill : Nat), rest = ps ++ crc :: List.replicate fill 0xFF#8 → ps.length = len.toNat →
         (crc.toNat ≠ crc8 (byteValues (code :: tag :: len :: ps)) →
           exec (.unknownCommandFrame (code :: tag :: len :: rest)) s =
             .next (s.answered code.toNat tag.toNat ⟨.badCrc, none, .none⟩)) ∧
         (crc.toNat = crc8 (byteValues (code :: tag :: len :: ps)) →
           (code.toNat = 0 ∨ 34 < code.toNat → exec (.unknownCommandFrame (code :: tag :: len :: rest)) s =
             .next (s.answered code.toNat tag.toNat ⟨.badCommand, none, .none⟩)) ∧
           (1 ≤ code.toNat → code.toNat ≤ 34 →
             ps.length < (paramLengths code.toNat).1 ∨ (paramLengths code.toNat).2 < ps.length ∨
               (code.toNat = 6 ∧ ∃ n, ps[0]? = some n ∧ n.toNat + 1 ≠ ps.length) ∨
               (code.toNat = 14 ∧ ∃ n, ps[13]? = some n ∧ n.toNat + 14 ≠ ps.length) →
             exec (.unknownCommandFrame (code :: tag :: len :: rest)) s =
               .next (s.answered code.toNat tag.toNat ⟨.badLength, none, .none⟩)))))

/-- GET_STATUS, in SETUP and in RUN, and the other read commands answer OK with the fields as they stand and change
nothing but the result buffer; READ_CALL of a call that is not there is refused NO_CALL. Rounding whole seconds down, no
listed call outside NORMAL, and the composed image's level during a lamp test are the model's reading (log entries 23, 35,
49). -/
def Obligations.ReadCommandsChangeNothing : Prop :=
  (∀ (tag : Nat) (s : State), s.host.ready = true →
     ∃ r : StatusReport, exec (.getStatus tag) s = .next (s.answered 4 tag ⟨.ok, none, .status r⟩) ∧
       r.running = s.setup.running ∧ r.configured = s.setup.configured ∧ r.straps = s.setup.straps ∧
       r.settings = s.setup.settings ∧ r.pairA = s.treadles.pairA.config ∧ r.pairB = s.treadles.pairB.config ∧
       r.board = s.board.config ∧ r.overlay = s.overlay ∧
       r.date = s.clock.date ∧ r.weekday = s.clock.weekday ∧ r.second = s.clock.second ∧ r.tenths = s.clock.tenths ∧
       r.clockTime = (s.clock.second + 60 * s.setup.settings.rolloverMinute) % 86400 ∧ r.grade = s.clock.grade ∧
       r.tick = s.clock.tick ∧
       (s.clock.grade = .host → r.ageingLeft = s.clock.hostSetTick + 216000 - s.clock.tick) ∧
       (s.clock.grade ≠ .host → r.ageingLeft = 0) ∧
       r.timetable.activeEdition = s.store.timetable.activeEdition ∧ r.timetable.loader = s.store.timetable.loader ∧
       r.timetable.offset = s.store.timetable.offset ∧ r.timetable.origin = s.store.timetable.origin ∧
       r.timetable.refused = s.store.timetable.refused ∧
       r.timetable.stagedEdition = (if s.store.timetable.loader = .staged then editionOf s.store.timetable.staging else 0) ∧
       r.timetable.declared = s.store.timetable.declared.getD 0 ∧
       (r.timetable.waiting = true ↔ s.store.timetable.pullWait ≠ none) ∧
       r.timetable.pull = s.store.timetable.pull.map (fun p => (p.source, p.index, p.tries)) ∧
       r.fare.activeEdition = s.store.fare.activeEdition ∧ r.fare.loader = s.store.fare.loader ∧
       r.fare.offset = s.store.fare.offset ∧ r.fare.origin = s.store.fare.origin ∧ r.fare.refused = s.store.fare.refused ∧
       r.fare.stagedEdition = (if s.store.fare.loader = .staged then editionOf s.store.fare.staging else 0) ∧
       r.fare.declared = s.store.fare.declared.getD 0 ∧ (r.fare.waiting = true ↔ s.store.fare.pullWait ≠ none) ∧
       r.fare.pull = s.store.fare.pull.map (fun p => (p.source, p.index, p.tries)) ∧
       r.sale = s.sales.sale ∧ r.serialCounter = s.sales.serialCounter ∧ r.journalCount = s.sales.journal.length ∧
       (∀ x, s.sales.sale = some x →
         (x.hold = .suspended → r.paymentLeft = .suspended) ∧ (x.hold ≠ .suspended → x.payment = none → r.paymentLeft = .none) ∧
         ∀ y, x.hold ≠ .suspended → x.payment = some y → r.paymentLeft = .seconds ((y.start + y.span - s.clock.tick) / 10)) ∧
       (s.sales.sale = none → r.paymentLeft = .none) ∧
       (s.Composing → s.store.timetable.active ≠ none → s.clock.grade ≠ .unset →
         (∀ y ∈ s.bulletins.list, y.inForce = true → y.kind = .info) → ∃ l, IsListing s l ∧ r.listed = l.length) ∧
       (¬s.Composing ∨ s.store.timetable.active = none ∨ s.clock.grade = .unset ∨
         (∃ y ∈ s.bulletins.list, y.inForce = true ∧ y.kind = .suspension) → r.listed = 0) ∧
       r.warnUp = s.board.warnUp.map (fun y => (y.start + y.span - s.clock.tick) / 10) ∧
       r.warnDown = s.board.warnDown.map (fun y => (y.start + y.span - s.clock.tick) / 10) ∧
       r.lampLeft = (s.board.lamp.map (fun y => (y.start + y.span - s.clock.tick) / 10)).getD 0 ∧
       (r.portPending = true ↔ s.board.waitingImage ≠ none) ∧
       (∀ b, LastInForce s.bulletins.list .suspension b → r.shown = some (b.origin, b.number)) ∧
       ((∀ y ∈ s.bulletins.list, y.inForce = true → y.kind = .info) → r.shown = none) ∧
       r.mode = s.board.mode ∧ r.phase = s.board.phase ∧ r.page = s.board.page ∧ r.imageLevel = s.board.image.level ∧
       r.override = s.board.override ∧ (r.portSending = true ↔ s.board.sending ≠ none) ∧ r.bulletins = s.bulletins.list.length ∧
       r.noticeCount = s.notices.queue.length ∧ r.overrun = s.notices.overrun ∧ r.drops = s.notices.drops ∧
       r.mask = s.notices.mask ∧ r.suspension = s.notices.suspension ∧ r.clash = s.notices.clash ∧
       r.noticeLine = s.notices.line) ∧
  ((∀ (tag : Nat) (s : State), s.host.ready = true →
     exec (.overlayRead tag) s = .next (s.answered 9 tag ⟨.ok, none, .overlayRead s.overlay.ids s.overlay.frozen⟩)) ∧
   ∀ (tag n : Nat) (s : State), s.Serving →
     (∃ xs : List CallSummary,
       exec (.readCalls tag n) s =
         .next (s.answered 16 tag ⟨.ok, none, .calls s.calls.buildCount s.calls.date s.calls.calls.length xs⟩) ∧
       xs.length = min 8 (s.calls.calls.length - n) ∧
       ∀ (k : Nat) (x : CallSummary), xs[k]? = some x → ∃ c, s.calls.calls[n + k]? = some c ∧
         x = { index := n + k, service := c.service, kind := c.kind, direction := c.direction, platform := c.platform
               state := c.state, dep := if s.clock.grade = .unset then none else c.estimates.map (·.dep), delayed := c.delayed }) ∧
     (∀ c, s.calls.calls[n]? = some c →
       exec (.readCall tag n) s = .next (s.answered 17 tag ⟨.ok, none, .call s.calls.buildCount n c⟩)) ∧
     (s.calls.calls.length ≤ n → exec (.readCall tag n) s = .next (s.answered 17 tag ⟨.refused, some .noCall, .none⟩)) ∧
     exec (.readPeers tag) s = .next (s.answered 18 tag ⟨.ok, none, .peers s.setup.straps.station s.line.muted
       s.line.queue.length s.line.rxCount s.line.seqCounter (s.line.peers.map (fun p =>
         ⟨p, if p.state = .unknown then none else some ((s.clock.tick - p.lastHeard) / 10)⟩))⟩) ∧
     (∃ xs : List ClaimReport,
       exec (.readClaims tag n) s = .next (s.answered 19 tag ⟨.ok, none, .claims s.claims.length xs⟩) ∧
       xs.map (·.claim) = (s.claims.drop n).take 8 ∧
       ∀ x ∈ xs, ∀ t, x.claim.state = .pending → x.claim.heard = some t → x.left = some ((t + 1800 - s.clock.tick) / 10)))

/-! ### Start-up and overlay (R128, R184 to R187) -/

/-- CONFIGURE in SETUP: refused when configured already or for halt code 0, else every field is stored clamped, the serial
counter becomes the larger of itself and the resume value, and the stored values are answered; nothing else changes. START
in SETUP: refused before CONFIGURE or with station 0; else the part enters RUN with the line seeded and its first ANNOUNCE
queued, an empty Call Table under an advanced build count, its timers running, and the board of a SHOWS station composing.
START is stated of a state as every reset leaves it: an empty queue, unmuted, no sale, no claim, no timetable, no
rotation. The random draws are free values (log entry 3), and what the first ANNOUNCE holds in the queue before an attempt
fills it in is the model's choice (log entry 17). -/
def Obligations.ConfigureStoresAndStartEntersRun : Prop :=
  (∀ (tag : Nat) (p : ConfigParams) (s : State), s.InSetup →
     (s.setup.configured = true →
       exec (.configure tag p) s = .next (s.answered 1 tag ⟨.refused, some .alreadyConfigured, .none⟩)) ∧
     (s.setup.configured = false → p.haltCode = 0 →
       exec (.configure tag p) s = .next (s.answered 1 tag ⟨.refused, some .badHalt, .none⟩)) ∧
     (s.setup.configured = false → p.haltCode ≠ 0 →
       ∃ (x : Settings) (a b : PairConfig) (c : BoardConfig),
         x = { haltCode := min 65535 p.haltCode, rolloverMinute := min 359 p.rolloverMinute
               minDwell := max 20 (min 120 p.minDwell), minSpeed := max 100 (min 1000 p.minSpeed)
               coinStep := ([50, 20, 10, 5].find? (· ≤ p.coinStep)).getD 1, resume := min 999999 p.resume } ∧
         a = { enabled := p.pairA.enabled, direction := p.pairA.direction, spacing := max 50 (min 500 p.pairA.spacing)
               distance := max 100 (min 5000 p.pairA.distance), braking := min 180 p.pairA.braking } ∧
         b = { enabled := p.pairB.enabled, direction := p.pairB.direction, spacing := max 50 (min 500 p.pairB.spacing)
               distance := max 100 (min 5000 p.pairB.distance), braking := min 180 p.pairB.braking } ∧
         c = { rows := max 2 (min 8 p.rows), columns := max 16 (min 40 p.columns), filter := min 2 p.platformFilter
               nightStart := min 1439 p.nightStart, nightEnd := min 1439 p.nightEnd, nightLevel := min 7 p.nightLevel
               dayLevel := min 7 p.dayLevel } ∧
         exec (.configure tag p) s = .next
           { s with
             setup := { s.setup with configured := true, settings := x }
             treadles := { pairA := { s.treadles.pairA with config := a }, pairB := { s.treadles.pairB with config := b } }
             board := { s.board with config := c }
             sales := { s.sales with serialCounter := max s.sales.serialCounter (min 999999 p.resume) }
             host := { s.host with result := ⟨1, tag, ⟨.ok, none, .configured x a b c⟩⟩ } })) ∧
  (∀ (tag : Nat) (s : State), s.InSetup →
     (s.setup.configured = false →
       exec (.start tag) s = .next (s.answered 2 tag ⟨.refused, some .notConfigured, .none⟩)) ∧
     (s.setup.configured = true → s.setup.straps.station = 0 →
       exec (.start tag) s = .next (s.answered 2 tag ⟨.refused, some .badStrap, .none⟩)) ∧
     (s.setup.configured = true → s.setup.straps.station ≠ 0 → s.line.queue = [] → s.line.muted = false →
       s.sales.sale = none → s.claims = [] → s.store.timetable.active = none → s.board.rotation = none →
       ∃ (t : State) (f : AnnounceFields) (d : Nat), exec (.start tag) s = .next t ∧
         t.setup = { s.setup with running := true } ∧
         f.haltCode = s.setup.settings.haltCode ∧ f.grade = s.clock.grade ∧ f.fresh = true ∧
         f.coverage = ownCoverage s.treadles ∧
         t.line = { s.line with
           queue := [⟨s.line.seqCounter, 0, .announce f⟩], condition := .waiting s.clock.tick
           seqCounter := (s.line.seqCounter + 1) % 4096, freshCount := 3
           announceTimer := some ⟨s.clock.tick, 100 + d⟩, rng := some ⟨s.setup.straps.station, s.clock.tick, 1⟩ } ∧ d ≤ 10 ∧
         t.calls = { calls := [], buildCount := (s.calls.buildCount + 1) % 256, date := s.clock.date
                     watch := watchView s.treadles s.line.peers, resend := some ⟨s.clock.tick, 600⟩ } ∧
         (s.setup.straps.shows = true → t.board.rotation = some ⟨s.clock.tick, 100⟩ ∧ t.board.mode = .noTimetable) ∧
         (s.setup.straps.shows = false → t.board = s.board) ∧
         t.host = { s.host with result := ⟨2, tag, ⟨.ok, none, .none⟩⟩ } ∧
         t.overlay = s.overlay ∧ t.clock = s.clock ∧ t.treadles = s.treadles ∧ t.store = s.store ∧ t.sales = s.sales ∧
         t.claims = [] ∧ t.bulletins = s.bulletins ∧ t.pending = s.pending))

/-- The overlay commands: refused FROZEN under the frozen flag; OVERLAY_SET checks its ids against the overlay, then that
there is one, and sets the overlay to the ids listed; OVERLAY_RESTORE and OVERLAY_FREEZE; nothing else changes. -/
def Obligations.OverlayCommandsFollowTheFrozenFlag : Prop :=
  ∀ (tag : Nat) (ids : List Nat) (s : State), s.host.ready = true → ids.length ≤ 15 →
    (s.overlay.frozen = true →
      exec (.overlaySet tag ids) s = .next (s.answered 6 tag ⟨.refused, some .frozen, .none⟩) ∧
      exec (.overlayRestore tag) s = .next (s.answered 7 tag ⟨.refused, some .frozen, .none⟩) ∧
      exec (.overlayFreeze tag) s = .next (s.answered 8 tag ⟨.refused, some .frozen, .none⟩)) ∧
    (s.overlay.frozen = false →
      (∀ m ∈ ids, m ∉ s.overlay.ids → (∀ j ∈ ids, j ∉ s.overlay.ids → m ≤ j) →
        exec (.overlaySet tag ids) s = .next (s.answered 6 tag ⟨.refused, some .cannotAdd, .lowestId m⟩)) ∧
      (ids = [] → exec (.overlaySet tag ids) s = .next (s.answered 6 tag ⟨.refused, some .empty, .none⟩)) ∧
      (OverlayOk s.overlay → ids ≠ [] → (∀ m ∈ ids, m ∈ s.overlay.ids) →
        ∃ set : List Nat, exec (.overlaySet tag ids) s = .next
            ({ s with overlay := { s.overlay with ids := set } }.answered 6 tag ⟨.ok, none, .overlay set⟩) ∧
          set.Sublist (List.range' 1 15) ∧ ∀ n, n ∈ set ↔ n ∈ ids) ∧
      exec (.overlayRestore tag) s = .next
        ({ s with overlay := { s.overlay with ids := List.range' 1 15 } }.answered 7 tag
          ⟨.ok, none, .overlay (List.range' 1 15)⟩) ∧
      exec (.overlayFreeze tag) s = .next
        ({ s with overlay := { s.overlay with frozen := true } }.answered 8 tag ⟨.ok, none, .none⟩))

/-! ### The Halt Clock (R1 to R7) -/

/-- SET_TIME in RUN: a date and time that fail a check are refused BAD_TIME and change nothing; else the service date and
second are those of the clock time, the grade HOST, hostSetTick the running tick. -/
def Obligations.SetTimeSetsTheServiceClock : Prop :=
  ∀ (tag : Nat) (d : Date) (h : ClockTime) (s : State) (c rm : Nat), s.Serving → c = h.hours * 3600 + h.minutes * 60 + h.seconds →
    rm = s.setup.settings.rolloverMinute → rm ≤ 359 →
    ((d.valid = false ∨ 23 < h.hours ∨ 59 < h.minutes ∨ 59 < h.seconds ∨ (d = ⟨2000, 1, 1⟩ ∧ c < 60 * rm)) →
      exec (.setTime tag d h) s = .next (s.answered 5 tag ⟨.refused, some .badTime, .none⟩)) ∧
    (d.valid = true → h.hours ≤ 23 → h.minutes ≤ 59 → h.seconds ≤ 59 → (d ≠ ⟨2000, 1, 1⟩ ∨ 60 * rm ≤ c) →
      ∃ t, exec (.setTime tag d h) s = .next t ∧
        (t.clock.second + 60 * rm) % 86400 = c ∧ t.clock.second ≤ 86399 ∧
        (60 * rm ≤ c → t.clock.date = d) ∧ (c < 60 * rm → t.clock.date.next = d) ∧
        t.clock.weekday = t.clock.date.weekday ∧ t.clock.tenths = 0 ∧ t.clock.grade = .host ∧
        t.clock.hostSetTick = s.clock.tick ∧ t.clock.tick = s.clock.tick ∧
        t.host = { s.host with result := ⟨5, tag, ⟨.ok, none, .none⟩⟩ } ∧
        t.setup = s.setup ∧ t.overlay = s.overlay ∧ t.treadles = s.treadles ∧ t.line.peers = s.line.peers ∧
        t.line.muted = s.line.muted ∧ t.line.rxCount = s.line.rxCount ∧ t.sales.journal = s.sales.journal ∧
        t.sales.serialCounter = s.sales.serialCounter ∧ t.notices.mask = s.notices.mask ∧ t.pending = s.pending)

/-- A tenth of the reference clock: the running tick advances, holding at its end; at grade 0 nothing else changes; else
tenths, then the service second, then the service date advance, the year's end returning the clock to its reset values.
Ageing: at grade HOST, 21,600 s of running tick after the host set the time, the grade falls to HOST_AGED and the clock
keeps its time. That ageing is a command which acts only when due, and that a tenth raises no expiry, are the model's
choices (log entries 9, 10). -/
def Obligations.ReferenceTenthAndAgeing : Prop :=
  (∀ (s : State) (k : Nat), k = min 42949672959 (s.clock.tick + 1) →
     (s.clock.grade = .unset → exec .referenceClockTenth s = .next { s with clock := { s.clock with tick := k } }) ∧
     (s.clock.grade ≠ .unset → s.clock.tenths < 9 →
       exec .referenceClockTenth s = .next { s with clock := { s.clock with tick := k, tenths := s.clock.tenths + 1 } }) ∧
     (s.clock.grade ≠ .unset → 9 ≤ s.clock.tenths →
       ∃ t, exec .referenceClockTenth s = .next t ∧
         (s.clock.second < 86399 →
           t.clock = { s.clock with tick := k, second := s.clock.second + 1, tenths := 0 } ∧ t.calls.date = s.calls.date) ∧
         (86399 ≤ s.clock.second → s.clock.date ≠ ⟨2099, 12, 31⟩ →
           t.clock = { s.clock with tick := k, second := 0, tenths := 0, date := s.clock.date.next,
                                    weekday := s.clock.date.next.weekday } ∧
           t.calls.date = s.clock.date.next) ∧
         (86399 ≤ s.clock.second → s.clock.date = ⟨2099, 12, 31⟩ →
           t.clock = { date := ⟨2000, 1, 1⟩, weekday := 5, second := 0, tenths := 0, grade := .unset, hostSetTick := 0,
                       tick := k } ∧ t.calls.date = ⟨2000, 1, 1⟩) ∧
         t.setup = s.setup ∧ t.overlay = s.overlay ∧ t.treadles = s.treadles ∧ t.line.peers = s.line.peers ∧
         t.line.muted = s.line.muted ∧ t.line.rxCount = s.line.rxCount ∧ t.sales.journal = s.sales.journal ∧
         t.sales.serialCounter = s.sales.serialCounter ∧ t.host = s.host ∧ t.pending = s.pending)) ∧
  (∀ s : State,
     (s.clock.grade = .host → s.clock.hostSetTick + 216000 ≤ s.clock.tick →
       ∃ t, exec .clockGradeAgeing s = .next t ∧ t.clock = { s.clock with grade := .hostAged } ∧ t.calls = s.calls ∧
         t.setup = s.setup ∧ t.overlay = s.overlay ∧ t.treadles = s.treadles ∧ t.line = s.line ∧ t.store = s.store ∧
         t.sales = s.sales ∧ t.claims = s.claims ∧ t.host = s.host ∧ t.pending = s.pending) ∧
     (s.clock.grade ≠ .host ∨ s.clock.tick < s.clock.hostSetTick + 216000 → exec .clockGradeAgeing s = .next s))

/-- A seconds event takes every call through its evaluation (creep, lapse, arrival, assumed departure) with the hand-offs of
an ended one, then the bulletins into and out of force. Rollover, and the year's end, build the table of the new service
date from the active timetable, a staged one whose date has come becoming active first, with a composition of its own. Ageing
touches the bulletins and the board alone. The order of effects inside the event is read by inference (log entries 19, 20, 21, 25). -/
def Obligations.SecondsEventsMoveTheCallTable : Prop :=
  (∀ (s : State) (c : Clock), s.clock.grade ≠ .unset → 9 ≤ s.clock.tenths → DistinctIds s.bulletins.list →
     (s.clock.second < 86399 →
       c = { s.clock with tick := min 42949672959 (s.clock.tick + 1), second := s.clock.second + 1, tenths := 0 } →
       ∃ u t, exec .referenceClockTenth s = .next t ∧ CallsEvaluated (fun x => x) { s with clock := c } u ∧
         BulletinsChanged u t s.bulletins.list) ∧
     (86399 ≤ s.clock.second →
       (s.clock.date ≠ ⟨2099, 12, 31⟩ → c = { s.clock with
         tick := min 42949672959 (s.clock.tick + 1), second := 0, tenths := 0, date := s.clock.date.next
         weekday := s.clock.date.next.weekday }) →
       (s.clock.date = ⟨2099, 12, 31⟩ → c = { date := ⟨2000, 1, 1⟩, weekday := 5, second := 0, tenths := 0, grade := .unset
                                              hostSetTick := 0, tick := min 42949672959 (s.clock.tick + 1) }) →
       (s.store.timetable.loader ≠ .staged ∨ (s.clock.date ≠ ⟨2099, 12, 31⟩ ∧
           (effectiveDateOf s.store.timetable.staging).onOrBefore c.date = false) →
         ∃ u t, exec .referenceClockTenth s = .next t ∧ TableBuilt { s with clock := c } u ∧
           BulletinsChanged u t s.bulletins.list) ∧
       (s.store.timetable.loader = .staged → s.clock.date ≠ ⟨2099, 12, 31⟩ →
         (effectiveDateOf s.store.timetable.staging).onOrBefore c.date = true →
         ∃ u t, exec .referenceClockTenth s = .next t ∧ TableBuilt
             (compose (raise (.editionActive .timetable (editionOf s.store.timetable.staging) s.store.timetable.activeEdition
               (s.store.timetable.origin.getD .host)) { s with
                 clock := c
                 store := { s.store with timetable := { s.store.timetable with
                   active := some s.store.timetable.staging, activeEdition := editionOf s.store.timetable.staging, loader := .empty
                   staging := [], declared := none, offset := 0, origin := none, pull := none } } })) u ∧
           BulletinsChanged u t s.bulletins.list))) ∧
  ∀ s : State, s.clock.grade = .host → s.clock.hostSetTick + 216000 ≤ s.clock.tick → DistinctIds s.bulletins.list →
    ∃ t, exec .clockGradeAgeing s = .next t ∧
      BulletinsChanged { s with clock := { s.clock with grade := .hostAged } } t s.bulletins.list

/-- A step of the clock, by SET_TIME or by an adopted ANNOUNCE: on the same service date every call is evaluated again,
after taking its schedule's estimates when the grade was 0; on another date the table is built afresh; then the bulletins
are evaluated. An ANNOUNCE is adopted at grade 0 from any grade above it, and at ADOPTED or HOST_AGED from a HOST peer
whose instant differs by 2.0 s or more or whose date differs; CLOCK_ADOPTED carries the grade held before. Estimates at
the first step, and the order of the effects of an ANNOUNCE and of a build, are read by inference (log entries 18, 20,
42). -/
def Obligations.StepsReevaluateOrRebuildTheTable : Prop :=
  ∀ (s : State) (start : Call → Call), CallsOk s → DistinctIds s.bulletins.list →
    (∀ c, (s.clock.grade ≠ .unset → start c = c) ∧ (s.clock.grade = .unset → start c = { c with estimates := (some
      ⟨min 108000 c.schedArr, min 108000 c.schedArr, departureFrom s.setup.settings.minDwell c (min 108000 c.schedArr), 0⟩) })) →
    (∀ (tag : Nat) (d : Date) (h : ClockTime), s.Serving → s.setup.settings.rolloverMinute ≤ 359 → d.valid = true → h.hours ≤ 23 →
      h.minutes ≤ 59 → h.seconds ≤ 59 →
      d ≠ ⟨2000, 1, 1⟩ ∨ 60 * s.setup.settings.rolloverMinute ≤ h.hours * 3600 + h.minutes * 60 + h.seconds →
      ∃ u t, exec (.setTime tag d h) s = .next (t.answered 5 tag ⟨.ok, none, .none⟩) ∧ BulletinsChanged u t s.bulletins.list ∧
        (t.clock.date = s.clock.date → CallsEvaluated start { s with clock := t.clock } u) ∧
        (t.clock.date ≠ s.clock.date → TableBuilt { s with clock := t.clock } u)) ∧
    ∀ (h : FrameHead) (f : AnnounceFields) (p : Peer) (v : State), FromPresent h s → f.wellFormed = true →
      f.haltCode = s.setup.settings.haltCode → p ∈ s.line.peers → p.station = h.origin → p.coverage = f.coverage →
      f.timetable = 0 → f.fare = 0 → f.fresh = false →
      (s.clock.grade = .unset ∧ f.grade ≠ .unset) ∨
        ((s.clock.grade = .adopted ∨ s.clock.grade = .hostAged) ∧ f.grade = .host ∧
          (s.clock.date ≠ f.date ∨ s.clock.second * 10 + s.clock.tenths + 20 ≤ f.second * 10 + f.tenths ∨
            f.second * 10 + f.tenths + 20 ≤ s.clock.second * 10 + s.clock.tenths)) →
      v = { s with
        clock := { s.clock with date := f.date, weekday := f.date.weekday, second := f.second, tenths := f.tenths, grade := .adopted }
        line := { s.line with rxCount := (s.line.rxCount + 1) % 4294967296, peers := s.line.peers.map (fun x =>
          if x.station = h.origin then
            { station := h.origin, state := .present, sells := f.sells, shows := f.shows, timetable := 0, fare := 0
              grade := f.grade, coverage := f.coverage, lastHeard := s.clock.tick, silence := some ⟨s.clock.tick, 350⟩ }
          else x) } } →
      ∃ u t, exec (.announceReceived h f) s = .next (raise (.clockAdopted h.origin s.clock.grade) t) ∧
        BulletinsChanged u t s.bulletins.list ∧ (f.date = s.clock.date → CallsEvaluated start v u) ∧
        (f.date ≠ s.clock.date → TableBuilt v u)

/-! ### Shared operations: notices, frames, compositions (R86 to R88, R92, R157 to R167, R178, R179) -/

/-- A raised notice joins the queue with the whole seconds of running tick: at a full queue the oldest is dropped and
counted; a queued CALL_CHANGED takes the new build count in its place; the line is driven for what then stands. That the
seconds are rounded down is read by inference (log entry 35). -/
def Obligations.NoticeJoinsTheQueue : Prop :=
  ∀ (c : NoticeContent) (s : State),
    ∃ n, raise c s = { s with notices := n } ∧
      n.mask = s.notices.mask ∧ n.suspension = s.notices.suspension ∧ n.clash = s.notices.clash ∧
      (n.line = true ↔ n.suspension.isSet = true ∨ n.clash.isSet = true ∨
        ∃ x ∈ n.queue, n.mask.getD x.content.maskIndex false = false) ∧
      ((∀ b, c ≠ .callChanged b) ∨ (∀ x ∈ s.notices.queue, ∀ b, x.content ≠ .callChanged b) →
        (s.notices.queue.length < 16 → n.queue = s.notices.queue ++ [⟨c, s.clock.tick / 10⟩] ∧
          n.overrun = s.notices.overrun ∧ n.drops = s.notices.drops) ∧
        (16 ≤ s.notices.queue.length → n.queue = s.notices.queue.drop 1 ++ [⟨c, s.clock.tick / 10⟩] ∧
          n.overrun = true ∧ n.drops = min 255 (s.notices.drops + 1))) ∧
      (∀ b, c = .callChanged b → (∃ x ∈ s.notices.queue, ∃ b', x.content = .callChanged b') →
        n.overrun = s.notices.overrun ∧ n.drops = s.notices.drops ∧ n.queue.length = s.notices.queue.length ∧
        ∀ (k : Nat) (x : Notice), s.notices.queue[k]? = some x →
          ((∃ b', x.content = .callChanged b') → n.queue[k]? = some { x with content := .callChanged b }) ∧
          ((∀ b', x.content ≠ .callChanged b') → n.queue[k]? = some x))

/-- A frame handed over: discarded while muted; in the place of the one it supersedes, with a new sequence; at the tail
when there is room; at a full queue an urgent frame takes the room of the newest routine one, and what finds no room is
turned away; a pull whose request is displaced finds no room for another and is abandoned. That an urgent frame enters
before a displaced request is told lost is read by inference (log entry 14), and which SEG_REQ concerns a pull is the
model's choice (log entry 16). -/
def Obligations.FrameHandedToTheQueue : Prop :=
  ∀ (p : Payload) (s : State), s.line.seqCounter ≤ 4095 →
    (s.line.muted = true → handOver p s = (.muted, s)) ∧
    (s.line.muted = false →
      (∀ (i : Nat) (f : TxFrame), s.line.queue[i]? = some f → p.supersedes f.payload = true →
        (∀ j < i, ∀ g, s.line.queue[j]? = some g → p.supersedes g.payload = false) →
        handOver p s = (.queued s.line.seqCounter, { s with line := { s.line with
          queue := s.line.queue.set i ⟨s.line.seqCounter, 0, p⟩, seqCounter := (s.line.seqCounter + 1) % 4096
          condition := if i = 0 then .waiting s.clock.tick else s.line.condition } })) ∧
      ((∀ g ∈ s.line.queue, p.supersedes g.payload = false) →
        (s.line.queue.length < 12 →
          handOver p s = (.queued s.line.seqCounter, { s with line := { s.line with
            queue := s.line.queue ++ [⟨s.line.seqCounter, 0, p⟩], seqCounter := (s.line.seqCounter + 1) % 4096
            condition := if s.line.queue = [] then .waiting s.clock.tick else s.line.condition } })) ∧
        (12 ≤ s.line.queue.length → p.kind.urgent = false → handOver p s = (.dropped, s)) ∧
        (12 ≤ s.line.queue.length → p.kind.urgent = true → (∀ g ∈ s.line.queue, g.payload.kind.urgent = true) →
          handOver p s = (.refused, s)) ∧
        ∀ (i : Nat) (f : TxFrame) (u : State), 12 = s.line.queue.length → p.kind.urgent = true → s.line.queue[i]? = some f →
          f.payload.kind.urgent = false → (∀ j, i < j → ∀ g, s.line.queue[j]? = some g → g.payload.kind.urgent = true) →
          u = { s with line := { s.line with
            queue := s.line.queue.eraseIdx i ++ [⟨s.line.seqCounter, 0, p⟩], seqCounter := (s.line.seqCounter + 1) % 4096
            condition := if i = 0 then .waiting s.clock.tick else s.line.condition } } →
          (f.payload.kind ≠ .segReq → handOver p s = (.queued s.line.seqCounter, u)) ∧
          ∀ g, f.payload = .segReq g →
            ((∀ x, (s.store.slot g.kind).pull = some x → x.request ≠ some f.seq) →
              handOver p s = (.queued s.line.seqCounter, u)) ∧
            ∀ x, (s.store.slot g.kind).pull = some x → x.request = some f.seq →
              handOver p s = (.queued s.line.seqCounter, { u with store := (s.store.setSlot g.kind { s.store.slot g.kind with
                loader := .empty, staging := [], declared := none, offset := 0, origin := none, pull := none }) })))

/-- A composition of an active board: the mode is the first of the table of R158, the image has as many rows and columns as are
configured and the level of R167, the page is the phase when more calls are listed than a page holds and else 0, and the
image, or the lamp-test image, goes to the port, which sends row 0 first, each row from left to right, then the level. Page 0 outside NORMAL is the model's reading (log entry 23). -/
def Obligations.CompositionFillsThePanel : Prop :=
  ∀ s : State, s.setup.straps.shows = true → s.board.rotation ≠ none → 2 ≤ s.board.config.rows →
    ∃ (b : Board) (x : FrameImage), compose s = { s with board := b } ∧
      b = { s.board with image := b.image, mode := b.mode, page := b.page, sending := b.sending, waitingImage := b.waitingImage } ∧
      (s.store.timetable.active = none → b.mode = .noTimetable) ∧
      (s.store.timetable.active ≠ none → s.clock.grade = .unset → b.mode = .noTime) ∧
      (s.store.timetable.active ≠ none → s.clock.grade ≠ .unset →
        ((∃ y ∈ s.bulletins.list, y.inForce = true ∧ y.kind = .suspension) → b.mode = .suspended) ∧
        ((∀ y ∈ s.bulletins.list, y.inForce = true → y.kind = .info) → b.mode = .normal)) ∧
      (b.mode = .normal →
        ∃ l, IsListing s l ∧ b.page = if s.board.config.rows - 1 < l.length then s.board.phase else 0) ∧
      (b.mode ≠ .normal → b.page = 0) ∧
      b.image.cells.length = s.board.config.rows ∧ (∀ row ∈ b.image.cells, row.length = s.board.config.columns) ∧
      (∀ l, s.board.override = some l → b.image.level = l) ∧
      (s.board.override = none → s.clock.grade = .unset → b.image.level = s.board.config.dayLevel) ∧
      (s.board.override = none → s.clock.grade ≠ .unset → s.board.config.nightStart < s.board.config.nightEnd →
        b.image.level = if s.board.config.nightStart ≤ s.clock.second / 60 ∧ s.clock.second / 60 < s.board.config.nightEnd
          then s.board.config.nightLevel else s.board.config.dayLevel) ∧
      (s.board.override = none → s.clock.grade ≠ .unset → s.board.config.nightEnd < s.board.config.nightStart →
        b.image.level = if s.board.config.nightStart ≤ s.clock.second / 60 ∨ s.clock.second / 60 < s.board.config.nightEnd
          then s.board.config.nightLevel else s.board.config.dayLevel) ∧
      (s.board.override = none → s.board.config.nightEnd = s.board.config.nightStart →
        b.image.level = s.board.config.dayLevel) ∧
      (s.board.lamp = none → x = b.image) ∧
      (s.board.lamp ≠ none → x.level = 7 ∧
        x.cells = List.replicate s.board.config.rows (List.replicate s.board.config.columns .lit)) ∧
      (s.board.sending = none → b.sending = some x ∧ b.waitingImage = s.board.waitingImage ∧
        (∀ r c, r < s.board.config.rows → c < s.board.config.columns → ∃ row cell, x.cells[r]? = some row ∧ row[c]? = some cell ∧
          (portOutput b)[r * s.board.config.columns + c]? = some (.cell cell)) ∧
        (portOutput b).drop (s.board.config.rows * s.board.config.columns) = [.level x.level]) ∧
      (s.board.sending ≠ none → b.sending = s.board.sending ∧ b.waitingImage = some x)

/-- The rows of a composed image: in NO_TIMETABLE and NO_TIME their fixed text; in SUSPENDED the pieces of the text of the
suspension shown; in NORMAL the listed calls of the page, row by row, and blank rows after them (R53 to R55, R158 to R161). The
status row: the passing warning in every mode; else the mode's text, the newest INFO text in phase 1, or the clock (R162, R164). -/
def Obligations.PanelRowsShowTheMode : Prop :=
  ∀ (s : State) (b : Board) (w n : Nat), s.Composing → compose s = { s with board := b } → w = s.board.config.columns →
    n + 1 = s.board.config.rows →
    (∀ k < n, (b.mode = .noTimetable → b.image.cells[k]? = some (shownRow w (txt "Timetable loading"))) ∧
      (b.mode = .noTime → b.image.cells[k]? = some (shownRow w (txt "Times not available"))) ∧
      (∀ x, b.mode = .suspended → LastInForce s.bulletins.list .suspension x →
        b.image.cells[k]? = some (shownRow w (x.text.drop (k * w))))) ∧
    (b.mode = .normal → ∃ l, IsListing s l ∧ ∀ k < n,
      (l.length ≤ b.page * n + k → b.image.cells[k]? = some (shownRow w [])) ∧
      ∀ c e, l[b.page * n + k]? = some c → c.estimates = some e → c.platform ≤ 9 →
        ∃ dest status count row, RowOf s c e dest status count row ∧ b.image.cells[k]? = some (shownRow w row)) ∧
    (s.board.warnUp ≠ none ∨ s.board.warnDown ≠ none → b.image.cells[n]? =
      some (shownRow w (if 26 ≤ w then txt "Stand back - train passing" else txt "Train passing"))) ∧
    (s.board.warnUp = none → s.board.warnDown = none →
      (b.mode = .noTimetable → b.image.cells[n]? = some (shownRow w (txt "Timetable loading"))) ∧
      (b.mode = .noTime → b.image.cells[n]? = some (shownRow w (txt "Times not available"))) ∧
      (b.mode = .suspended ∨ b.mode = .normal →
        (∀ x, s.board.phase = 1 → LastInForce s.bulletins.list .info x → b.image.cells[n]? = some (shownRow w x.text)) ∧
        ∀ q, q = (s.clock.second + 60 * s.setup.settings.rolloverMinute) % 86400 →
          s.board.phase ≠ 1 ∨ (∀ x ∈ s.bulletins.list, x.inForce = true → x.kind = .suspension) →
          b.image.cells[n]? = some (shownRow w (clockText (q / 60) ++ [58, 48 + q % 60 / 10, 48 + q % 60 % 10]))))

/-! ### The Treadle Unit (R63 to R76) -/

/-- Head levels: an input change is stored; a level held long enough is taken into the settled level; a pulse of a
disabled or FAULTY pair, or in SETUP, has no other effect. A pulse that reaches a pair starts a passage in QUIET; in
TIMING another of the first head is one more pulse, counted for head 1; in PASSAGE it restarts the quiet timer of 8 s
and is counted likewise. That debouncing is asserted by the command is the model's choice (log entry 11). -/
def Obligations.PulsesMoveHeadsAndPassages : Prop :=
  (∀ (p : PairId) (h : HeadId) (n : Nat) (v : HeadInput) (s : State), (s.treadles.pair p).head h = v →
     (∀ active, exec (.headInputChange p h active) s = .next
       { s with treadles := s.treadles.setPair p ((s.treadles.pair p).setHead h ⟨active, v.settled⟩) }) ∧
     (v = ⟨false, true⟩ → exec (.returnToInactive p h) s = .next
       { s with treadles := s.treadles.setPair p ((s.treadles.pair p).setHead h ⟨false, false⟩) }) ∧
     (v ≠ ⟨false, true⟩ → exec (.returnToInactive p h) s = .next s) ∧
     (v ≠ ⟨true, false⟩ → exec (.pulse p h n) s = .next s) ∧
     (v = ⟨true, false⟩ → s.setup.running = false ∨ (s.treadles.pair p).config.enabled = false ∨
         (s.treadles.pair p).state = .faulty → exec (.pulse p h n) s = .next
       { s with treadles := s.treadles.setPair p ((s.treadles.pair p).setHead h ⟨true, true⟩) })) ∧
  (∀ (p : PairId) (h : HeadId) (n : Nat) (s : State) (x : Pair), s.setup.running = true →
     (s.treadles.pair p).config.enabled = true → (s.treadles.pair p).head h = ⟨true, false⟩ →
     x = (s.treadles.pair p).setHead h ⟨true, true⟩ →
     (x.state = .quiet → exec (.pulse p h n) s = .next { s with treadles := (s.treadles.setPair p
       { x with state := .timing, firstHead := h, counter := 0, secondSeen := false, axles := if h = .one then 1 else 0 }) }) ∧
     (x.state = .timing → h = x.firstHead → exec (.pulse p h n) s = .next { s with treadles := (s.treadles.setPair p
       { x with axles := if h = .one then min 255 (x.axles + 1) else x.axles }) }) ∧
     (x.state = .passage → ∃ y, exec (.pulse p h n) s = .next { s with treadles := s.treadles.setPair p y } ∧
       y = { x with quietTimer := some ⟨s.clock.tick, 80⟩, axles := if h = .one then min 255 (x.axles + 1) else x.axles
                    secondSeen := y.secondSeen, record := y.record } ∧
       (y.secondSeen = true ↔ x.secondSeen = true ∨ h ≠ x.firstHead) ∧
       (x.record = none → y.record = none) ∧ ∀ m, x.record = some m → y.record = some { m with axles := y.axles }))

/-- The second head's pulse in TIMING: N is the count, at least 1 and at most 65535; the record holds floor(G × 10,000 /
N) cm/s, or v_min with the SLOW flag. OVERFLOW in TIMING: N = 65535, v_min, SLOW. Either takes the pair to PASSAGE, and
the observation goes to the Call Table and, at grades 1..3, to the line. With no call in the table its frame is the newest
queued when there is room; at grade 0 or while muted none is queued; only at a full queue may the line's displacement of a
SEG_REQ reach the Edition Store. That the timing counter's value comes as the operand is the model's choice (log entry
11). -/
def Obligations.CaptureOrOverflowGivesTheSpeed : Prop :=
  (∀ (p : PairId) (h : HeadId) (n : Nat) (s : State) (x : Pair) (m : Measurement), s.setup.running = true →
     (s.treadles.pair p).config.enabled = true → (s.treadles.pair p).head h = ⟨true, false⟩ →
     x = (s.treadles.pair p).setHead h ⟨true, true⟩ → x.state = .timing → h ≠ x.firstHead →
     m.count = max 1 (min 65535 n) → (m.inbound = true ↔ x.firstHead = .one) →
     m.axles = (if h = .one then min 255 (x.axles + 1) else x.axles) →
     (s.setup.settings.minSpeed ≤ x.config.spacing * 10000 / m.count →
       m.speed = x.config.spacing * 10000 / m.count ∧ m.slow = false) →
     (x.config.spacing * 10000 / m.count < s.setup.settings.minSpeed → m.speed = s.setup.settings.minSpeed ∧ m.slow = true) →
     (s.clock.grade = .unset → m.detect = 0) → (s.clock.grade ≠ .unset → m.detect = s.clock.second) → m.fresh = true →
     ∃ t, exec (.pulse p h n) s = .next t ∧ EntersPassage p { x with axles := m.axles, secondSeen := true } m s t) ∧
  (∀ (p : PairId) (s : State) (x : Pair) (m : Measurement), x = s.treadles.pair p →
     (x.state ≠ .timing → exec (.overflow p) s = .next s) ∧
     (x.state = .timing → m.count = 65535 → (m.inbound = true ↔ x.firstHead = .one) → m.axles = x.axles →
       m.speed = s.setup.settings.minSpeed → m.slow = true → (s.clock.grade = .unset → m.detect = 0) →
       (s.clock.grade ≠ .unset → m.detect = s.clock.second) → m.fresh = true →
       ∃ t, exec (.overflow p) s = .next t ∧ EntersPassage p x m s t))

/-- QUIET_TIMER_EXPIRY in PASSAGE when due: the passage ends, void when the second head gave no pulse; the pair is QUIET,
or FAULTY at the third void in a row; its notice is raised, at FAULTY also TREADLE_FAULT, and then the watch view is
formed again: at grades 1..3 each PENDING or REPORTED call whose arrival flag cleared returns to creep 0, E_a = E_base,
E_d from it and DELAYED clear, and is evaluated; each APPROACHING or ARRIVED call whose departure flag cleared is
evaluated; the others are left alone. That the expiry is a command which acts only when due is the model's choice (log
entry 9). -/
def Obligations.QuietTimerEndsPassage : Prop :=
  ∀ (p : PairId) (s : State) (x : Pair), x = s.treadles.pair p →
    (x.state ≠ .passage ∨ (∀ q, x.quietTimer = some q → s.clock.tick < q.start + q.span) →
      exec (.quietTimerExpiry p) s = .next s) ∧
    ∀ (q : Timer) (m : Measurement) (v d : Nat) (n : NoticeContent), x.state = .passage → x.quietTimer = some q →
      q.start + q.span ≤ s.clock.tick → x.record = some m → v = (if x.secondSeen then 0 else x.voids + 1) →
      d = (x.config.distance * 100 + m.speed - 1) / m.speed → 0 < m.speed →
      n = (if m.inbound then
          .approachSeen p x.config.direction m.detect m.speed m.slow (max 1 (min 1800 (d + x.config.braking)))
            (max 1 (min 1800 d)) m.axles (!x.secondSeen) x.matched
        else .departureSeen p x.config.direction.opposite m.detect m.speed m.slow m.axles (!x.secondSeen) x.matched) →
      (v < 3 → exec (.quietTimerExpiry p) s = .next (raise n
        { s with treadles := s.treadles.setPair p { x with state := .quiet, quietTimer := none, voids := v } })) ∧
      (3 ≤ v → ∃ t, exec (.quietTimerExpiry p) s = .next t ∧
        t.treadles = s.treadles.setPair p { x with state := .faulty, quietTimer := none, voids := v } ∧
        t.calls.watch = watchView t.treadles s.line.peers ∧
        t = updateWatch (raise (.treadleFault p) (raise n { s with treadles := t.treadles })) ∧
        Rewatched (raise (.treadleFault p) (raise n { s with treadles := t.treadles })) t ∧
        (s.clock.grade = .unset → t = (raise (.treadleFault p) (raise n
          { s with treadles := t.treadles, calls := { s.calls with watch := t.calls.watch } }))) ∧
        t = { s with treadles := t.treadles, calls := t.calls, line := t.line, store := t.store, sales := t.sales,
                     claims := t.claims, board := t.board, notices := t.notices } ∧
        t.line.peers = s.line.peers ∧ t.sales.journal = s.sales.journal ∧ t.sales.serialCounter = s.sales.serialCounter ∧
        t.calls.date = s.calls.date ∧ t.calls.buildCount = s.calls.buildCount)

/-- TREADLE_ENABLE and TREADLE_READ: a number that names no pair is refused NO_PAIR, and so is a disabled pair for
TREADLE_ENABLE. TREADLE_ENABLE clears the void count and returns a FAULTY pair to QUIET, after which the watch view is
formed again and the calls it concerns are evaluated; TREADLE_READ answers the record with the fresh flag as it stood and
then clears the flag. -/
def Obligations.TreadleCommandsActOnOnePair : Prop :=
  ∀ (tag k : Nat) (p : PairId) (s : State), s.Serving →
    (1 < k → exec (.treadleRead tag k) s = .next (s.answered 28 tag ⟨.refused, some .noPair, .none⟩) ∧
      exec (.treadleEnable tag k) s = .next (s.answered 29 tag ⟨.refused, some .noPair, .none⟩)) ∧
    (k = (match p with | .a => 0 | .b => 1) →
      (∃ r : TreadleReport, exec (.treadleRead tag k) s = .next
          ({ s with treadles := (s.treadles.setPair p
              { s.treadles.pair p with record := (s.treadles.pair p).record.map (fun (m : Measurement) => { m with fresh := false }) }) }.answered
            28 tag ⟨.ok, none, .treadle r⟩) ∧
        r.enabled = (s.treadles.pair p).config.enabled ∧ r.direction = (s.treadles.pair p).config.direction ∧
        r.state = (s.treadles.pair p).state ∧ r.voids = (s.treadles.pair p).voids ∧
        r.record.map (·.1) = (s.treadles.pair p).record) ∧
      ((s.treadles.pair p).config.enabled = false →
        exec (.treadleEnable tag k) s = .next (s.answered 29 tag ⟨.refused, some .noPair, .none⟩)) ∧
      ((s.treadles.pair p).config.enabled = true → ∃ t, exec (.treadleEnable tag k) s = .next t ∧
        t.host = { s.host with result := ⟨29, tag, ⟨.ok, none, .none⟩⟩ } ∧
        ((s.treadles.pair p).state = .faulty →
          t.treadles = s.treadles.setPair p { s.treadles.pair p with voids := 0, state := .quiet } ∧
          t.calls.watch = watchView t.treadles s.line.peers ∧
          ∃ u, Rewatched { s with treadles := t.treadles } u ∧ t = u.answered 29 tag ⟨.ok, none, .none⟩) ∧
        ((s.treadles.pair p).state ≠ .faulty → PeersOk s → t =
          { s with treadles := s.treadles.setPair p { s.treadles.pair p with voids := 0 }
                   host := { s.host with result := ⟨29, tag, ⟨.ok, none, .none⟩⟩ } }) ∧
        t = { s with treadles := t.treadles, calls := t.calls, line := t.line, store := t.store, sales := t.sales,
                     claims := t.claims, board := t.board, notices := t.notices, host := t.host } ∧
        t.line.peers = s.line.peers ∧ t.sales.journal = s.sales.journal ∧ t.sales.serialCounter = s.sales.serialCounter ∧
        t.calls.date = s.calls.date ∧ t.calls.buildCount = s.calls.buildCount))

/-! ### Board and notices (R161, R164 to R167, R179 to R181) -/

/-- LAMP_TEST and BRIGHTNESS: a value out of range is refused; else the lamp test timer starts, or the override is set or
removed and the board composes. Board timers when due: the rotation timer restarts and the phase changes, the warning part
clears, the lamp test ends; each composes. PANEL_SEND_END sends the pending image or leaves the port IDLE. That LAMP_TEST
itself composes nothing is read by inference (log entry 24); that expiries are commands which act only when due is the
model's choice (log entry 9). -/
def Obligations.BoardCommandsAndTimers : Prop :=
  (∀ (tag n : Nat) (s : State), s.Serving → s.setup.straps.shows = true →
     (n = 0 ∨ 30 < n → exec (.lampTest tag n) s = .next (s.answered 30 tag ⟨.refused, some .badDuration, .none⟩)) ∧
     (1 ≤ n → n ≤ 30 → exec (.lampTest tag n) s = .next
       ({ s with board := { s.board with lamp := some ⟨s.clock.tick, 10 * n⟩ } }.answered 30 tag ⟨.ok, none, .none⟩)) ∧
     (8 < n → exec (.brightness tag n) s = .next (s.answered 31 tag ⟨.refused, some .badLevel, .none⟩)) ∧
     (n = 8 → exec (.brightness tag n) s = .next
       ((compose { s with board := { s.board with override := none } }).answered 31 tag ⟨.ok, none, .none⟩)) ∧
     (n ≤ 7 → exec (.brightness tag n) s = .next
       ((compose { s with board := { s.board with override := some n } }).answered 31 tag ⟨.ok, none, .none⟩))) ∧
  (∀ s : State,
     ((∀ x, s.board.rotation = some x → s.clock.tick < x.start + x.span) → exec .rotationTimerExpiry s = .next s) ∧
     (∀ x k, s.board.rotation = some x → x.start + x.span ≤ s.clock.tick → s.board.phase + k = 1 →
       exec .rotationTimerExpiry s = .next
         (compose { s with board := { s.board with rotation := some ⟨s.clock.tick, 100⟩, phase := k } })) ∧
     ((∀ x, s.board.warnUp = some x → s.clock.tick < x.start + x.span) → exec (.warningTimerExpiry .up) s = .next s) ∧
     (∀ x, s.board.warnUp = some x → x.start + x.span ≤ s.clock.tick →
       exec (.warningTimerExpiry .up) s = .next (compose { s with board := { s.board with warnUp := none } })) ∧
     ((∀ x, s.board.warnDown = some x → s.clock.tick < x.start + x.span) → exec (.warningTimerExpiry .down) s = .next s) ∧
     (∀ x, s.board.warnDown = some x → x.start + x.span ≤ s.clock.tick →
       exec (.warningTimerExpiry .down) s = .next (compose { s with board := { s.board with warnDown := none } })) ∧
     ((∀ x, s.board.lamp = some x → s.clock.tick < x.start + x.span) → exec .lampTestTimerExpiry s = .next s) ∧
     ∀ x, s.board.lamp = some x → x.start + x.span ≤ s.clock.tick →
       exec .lampTestTimerExpiry s = .next (compose { s with board := { s.board with lamp := none } })) ∧
  (∀ s : State,
     (s.board.sending = none → exec .panelSendEnd s = .next s) ∧
     (∀ x y, s.board.sending = some x → s.board.waitingImage = some y →
       exec .panelSendEnd s = .next { s with board := { s.board with sending := some y, waitingImage := none } }) ∧
     ∀ x, s.board.sending = some x → s.board.waitingImage = none →
       exec .panelSendEnd s = .next { s with board := { s.board with sending := none } })

/-- NOTICE_READ answers latches, overrun flag and drop count as they stood, and the oldest notices, up to four; these leave
the queue, flag and count are cleared, the line is driven for what is left. NOTICE_MASK replaces the mask whole, answers
it and drives the line; NOTICE_ACK clears a set latch on its present count, is refused STALE_ACK on another and BAD_KIND
for another kind, and leaves a clear latch (R179 to R181). -/
def Obligations.NoticesAreReadMaskedAndAcknowledged : Prop :=
  (∀ (tag : Nat) (s : State), s.host.ready = true →
     ∃ (out rest : List Notice) (line : Bool), s.notices.queue = out ++ rest ∧ out.length = min 4 s.notices.queue.length ∧
       (line = true ↔ s.notices.suspension.isSet = true ∨ s.notices.clash.isSet = true ∨
         ∃ x ∈ rest, s.notices.mask.getD x.content.maskIndex false = false) ∧
       exec (.noticeRead tag) s = .next
         ({ s with notices := { s.notices with queue := rest, overrun := false, drops := 0, line := line } }.answered 32 tag
           ⟨.ok, none, .notices s.notices.suspension s.notices.clash s.notices.overrun s.notices.drops out.length rest.length out⟩)) ∧
  (∀ (tag k n : Nat) (flags : List Bool) (s : State), s.host.ready = true →
     (flags.length = 14 → ∃ line : Bool,
       (line = true ↔ s.notices.suspension.isSet = true ∨ s.notices.clash.isSet = true ∨
         ∃ x ∈ s.notices.queue, flags.getD x.content.maskIndex false = false) ∧
       exec (.noticeMask tag flags) s = .next
         ({ s with notices := { s.notices with mask := flags, line := line } }.answered 33 tag ⟨.ok, none, .mask flags⟩)) ∧
     (k ≠ 15 → k ≠ 16 → exec (.noticeAck tag k n) s = .next (s.answered 34 tag ⟨.refused, some .badKind, .none⟩)) ∧
     (k = 15 →
       (s.notices.suspension.isSet = false → exec (.noticeAck tag k n) s = .next (s.answered 34 tag ⟨.ok, none, .none⟩)) ∧
       (s.notices.suspension.isSet = true → s.notices.suspension.count ≠ n → exec (.noticeAck tag k n) s = .next
         (s.answered 34 tag ⟨.refused, some .staleAck, .latchCount s.notices.suspension.count⟩)) ∧
       (s.notices.suspension = ⟨true, n⟩ → ∃ line : Bool,
         (line = true ↔ s.notices.clash.isSet = true ∨
           ∃ x ∈ s.notices.queue, s.notices.mask.getD x.content.maskIndex false = false) ∧
         exec (.noticeAck tag k n) s = .next
           ({ s with notices := { s.notices with suspension := ⟨false, n⟩, line := line } }.answered 34 tag ⟨.ok, none, .none⟩))) ∧
     (k = 16 →
       (s.notices.clash.isSet = false → exec (.noticeAck tag k n) s = .next (s.answered 34 tag ⟨.ok, none, .none⟩)) ∧
       (s.notices.clash.isSet = true → s.notices.clash.count ≠ n → exec (.noticeAck tag k n) s = .next
         (s.answered 34 tag ⟨.refused, some .staleAck, .latchCount s.notices.clash.count⟩)) ∧
       (s.notices.clash = ⟨true, n⟩ → ∃ line : Bool,
         (line = true ↔ s.notices.suspension.isSet = true ∨
           ∃ x ∈ s.notices.queue, s.notices.mask.getD x.content.maskIndex false = false) ∧
         exec (.noticeAck tag k n) s = .next
           ({ s with notices := { s.notices with clash := ⟨false, n⟩, line := line } }.answered 34 tag ⟨.ok, none, .none⟩))))

/-! ### Attempts on the line (R81 to R85, R90, R98, R150) -/

/-- ATTEMPT_START of a frame in WAITING: one attempt more, SENDING, an ANNOUNCE filled in from the state of the moment.
BACKOFF_END returns it to WAITING. A failed attempt below the tenth (a collision while SENDING, or 2 s of WAITING, which
counts one) draws slots below 2^min(a, 6): BACKOFF for them, or WAITING at once for none. That idle time and slots are
asserted by the commands, the draw a free value and the ANNOUNCE filled at once are the model's choices (log entries 3,
11, 17). -/
def Obligations.AttemptsFailAndBackOff : Prop :=
  (∀ (s : State) (f : TxFrame) (q : List TxFrame), s.line.queue = f :: q →
     (∀ since, s.line.condition = .waiting since → ∃ p,
       exec .attemptStart s = .next { s with line := { s.line with
         queue := { f with attempts := f.attempts + 1, payload := p } :: q, condition := .sending } } ∧
       (f.payload.kind ≠ .announce → p = f.payload) ∧
       (f.payload.kind = .announce → ∃ g, p = .announce g ∧ g.sells = s.setup.straps.sells ∧ g.shows = s.setup.straps.shows ∧
         g.haltCode = s.setup.settings.haltCode ∧ g.timetable = s.store.timetable.activeEdition ∧
         g.fare = s.store.fare.activeEdition ∧ g.grade = s.clock.grade ∧ g.coverage = ownCoverage s.treadles ∧
         (g.fresh = true ↔ 0 < s.line.freshCount) ∧
         (s.clock.grade ≠ .unset → g.date = s.clock.date ∧ g.second = s.clock.second ∧ g.tenths = s.clock.tenths) ∧
         (s.clock.grade = .unset → g.date = ⟨2000, 0, 0⟩ ∧ g.second = 0 ∧ g.tenths = 0))) ∧
     ((∀ since, s.line.condition ≠ .waiting since) → exec .attemptStart s = .next s) ∧
     (∀ b, s.line.condition = .backoff b →
       exec .backoffEnd s = .next { s with line := { s.line with condition := .waiting s.clock.tick } }) ∧
     ((∀ b, s.line.condition ≠ .backoff b) → exec .backoffEnd s = .next s)) ∧
  (∀ (s : State) (f : TxFrame) (q : List TxFrame) (r : Rng), s.line.queue = f :: q → s.line.rng = some r →
     (s.line.condition ≠ .sending → exec .collision s = .next s) ∧
     (s.line.condition = .sending → f.attempts < 10 → ∃ b, b < 2 ^ min f.attempts 6 ∧
       exec .collision s = .next { s with line := { s.line with
         condition := if b = 0 then .waiting s.clock.tick else .backoff b, rng := some { r with drawn := r.drawn + 1 } } }) ∧
     ((∀ since, s.line.condition = .waiting since → s.clock.tick < since + 20) → exec .busyFailure s = .next s) ∧
     ∀ since, s.line.condition = .waiting since → since + 20 ≤ s.clock.tick → f.attempts < 9 →
       ∃ b, b < 2 ^ min (f.attempts + 1) 6 ∧
         exec .busyFailure s = .next { s with line := { s.line with
           queue := { f with attempts := f.attempts + 1 } :: q
           condition := if b = 0 then .waiting s.clock.tick else .backoff b, rng := some { r with drawn := r.drawn + 1 } } })

/-- The tenth failure abandons the frame: the next is current in WAITING and LINE_TROUBLE names kind, sequence and
failure; of a CLAIM the queued claim goes and the sale CLAIMING with it is closed, also when a swap removed the claim
before; a pull's SEG_REQ is requested once more, or the pull is abandoned on its last try. That the 2 s of WAITING are
told by the running tick, which SEG_REQ concerns a pull, and a sale that outlives its claim are the model's choices or
readings (log entries 11, 16, 45). -/
def Obligations.TenthFailureAbandonsTheFrame : Prop :=
  ∀ (s u : State) (f : TxFrame) (q : List TxFrame) (e : Instr) (why : LineFailure), s.line.queue = f :: q →
    (e = .collision ∧ why = .collision ∧ s.line.condition = .sending ∧ 10 ≤ f.attempts ∨
      e = .busyFailure ∧ why = .busy ∧ 9 ≤ f.attempts ∧ ∃ since, s.line.condition = .waiting since ∧ since + 20 ≤ s.clock.tick) →
    u = raise (.lineTrouble f.payload.kind f.seq why) { s with line := { s.line with
      queue := q, condition := if q = [] then .noFrame else .waiting s.clock.tick } } →
    (f.payload.kind ≠ .claim → f.payload.kind ≠ .segReq → exec e s = .next u) ∧
    (∀ g, f.payload = .claim g →
      ((∀ c, findClaim s.claims s.setup.straps.station f.seq = some c → c.state ≠ .queued) →
        (∀ r, s.sales.sale = some r → r.stage ≠ .claiming ∨ r.claim ≠ some f.seq) → exec e s = .next u) ∧
      ((∀ c, findClaim s.claims s.setup.straps.station f.seq = some c → c.state = .queued) →
        ∃ t, exec e s = .next t ∧ t.claims = s.claims.filter (fun x => !(x.origin = s.setup.straps.station && x.seq = f.seq)) ∧
          t.line = u.line ∧
          (∀ r, s.sales.sale = some r → r.stage = .claiming → r.claim = some f.seq → t.sales = { s.sales with sale := none }) ∧
          ((∀ r, s.sales.sale = some r → r.stage ≠ .claiming ∨ r.claim ≠ some f.seq) → t.sales = s.sales ∧ t.store = s.store) ∧
          t = { u with claims := t.claims, sales := t.sales, store := t.store, notices := t.notices })) ∧
    (∀ g, f.payload = .segReq g →
      ((∀ p, (s.store.slot g.kind).pull = some p → p.request ≠ some f.seq) → exec e s = .next u) ∧
      ∀ p, (s.store.slot g.kind).pull = some p → p.request = some f.seq →
        (4 ≤ p.tries → exec e s = .next { u with store := (s.store.setSlot g.kind { s.store.slot g.kind with
          loader := .empty, staging := [], declared := none, offset := 0, origin := none, pull := none }) }) ∧
        (p.tries < 4 → s.line.muted = false → q.length < 12 → exec e s = .next { u with
          line := { u.line with
            queue := q ++ [⟨s.line.seqCounter, 0, .segReq ⟨p.source, g.kind, p.edition, p.index⟩⟩]
            seqCounter := (s.line.seqCounter + 1) % 4096, condition := .waiting s.clock.tick }
          store := (s.store.setSlot g.kind { s.store.slot g.kind with pull := (some
            { p with tries := p.tries + 1, replyTimer := none, request := some s.line.seqCounter }) }) }))

/-- COMPLETION of the frame SENDING: the receive count advances, the next frame is current in WAITING; an ANNOUNCE
lowers the fresh count, a pull's SEG_REQ starts its reply timer of 1 s; when no frame is SENDING nothing changes. That
the end of the frame is asserted by the command, and which SEG_REQ concerns a pull, are the model's choices (log entries
11, 16). -/
def Obligations.CompletionCountsAndTellsTheOwner : Prop :=
  ∀ (s u : State) (f : TxFrame) (q : List TxFrame), s.line.queue = f :: q →
    u = { s with line := { s.line with
      queue := q, condition := if q = [] then .noFrame else .waiting s.clock.tick
      rxCount := (s.line.rxCount + 1) % 4294967296 } } →
    (s.line.condition ≠ .sending → exec .completion s = .next s) ∧
    (s.line.condition = .sending →
      (f.payload.kind ≠ .claim → f.payload.kind ≠ .segReq → f.payload.kind ≠ .announce → exec .completion s = .next u) ∧
      (f.payload.kind = .announce →
        exec .completion s = .next { u with line := { u.line with freshCount := s.line.freshCount - 1 } }) ∧
      (∀ g, f.payload = .segReq g →
        ((∀ p, (s.store.slot g.kind).pull = some p → p.request ≠ some f.seq) → exec .completion s = .next u) ∧
        ∀ p, (s.store.slot g.kind).pull = some p → p.request = some f.seq →
          exec .completion s = .next { u with store := (s.store.setSlot g.kind
            { s.store.slot g.kind with pull := some { p with replyTimer := some ⟨s.clock.tick, 10⟩, request := none } }) }))

/-- The completion of a CLAIM of a CLAIMING sale decides the grant at the line position: with fewer counting claims before it than
places the claim is GRANTED and the sale PAYING, or ISSUING when nothing is owed; else claim and sale end and a RELEASE is handed over. -/
def Obligations.ClaimCompletionDecidesTheGrant : Prop :=
  ∀ (s : State) (f : TxFrame) (q : List TxFrame) (g : ClaimFields) (c : Claim) (r : SaleRecord) (pos : Nat),
    s.line.queue = f :: q → s.line.condition = .sending → f.payload = .claim g →
    findClaim s.claims s.setup.straps.station f.seq = some c → c.state = .queued → s.sales.sale = some r → r.stage = .claiming →
    r.claim = some f.seq → pos = (s.line.rxCount + 1) % 4294967296 →
    (claimsBefore s.claims c.service c.date c.cls pos < capacityOf s c.service c.date c.cls →
      ∃ t, exec .completion s = .next t ∧
        t.claims = s.claims.map (fun x => if x.origin = s.setup.straps.station ∧ x.seq = f.seq then
          { x with state := .granted, position := some pos } else x) ∧
        t.line = { s.line with queue := q, condition := if q = [] then .noFrame else .waiting s.clock.tick, rxCount := pos } ∧
        (r.credit < r.quote.quote → t.notices = s.notices ∧ t.sales = { s.sales with sale := (some
          { r with stage := .paying, hold := .none, lifetime := none, payment := some ⟨s.clock.tick, 1200⟩ }) }) ∧
        (r.quote.quote ≤ r.credit → ∃ x, t.sales.sale = some x ∧ x.stage = .issuing ∧
          x.serial = some (s.setup.straps.station * 1000000 + s.sales.serialCounter) ∧
          t.sales.serialCounter = s.sales.serialCounter + 1 ∧ t.sales.journal.length = s.sales.journal.length + 1) ∧
        t = { s with claims := t.claims, line := t.line, sales := t.sales, notices := t.notices }) ∧
    (capacityOf s c.service c.date c.cls ≤ claimsBefore s.claims c.service c.date c.cls pos →
      ∃ t, exec .completion s = .next t ∧
        t.claims = s.claims.filter (fun x => !(x.origin = s.setup.straps.station && x.seq = f.seq)) ∧
        t.sales = { s.sales with sale := none } ∧ t.line.rxCount = pos ∧
        (s.line.muted = false → s.line.queue.length ≤ 12 → t.line.queue = q ++ [⟨s.line.seqCounter, 0, .release c.fields⟩]) ∧
        t = { s with claims := t.claims, line := t.line, sales := t.sales, notices := t.notices, store := t.store } ∧
        t.line.peers = s.line.peers)

/-! ### The receive path (R85, R91 to R95, R7, R110) -/

/-- A frame is discarded, nothing changing, in SETUP, or when its head or a field of it is out of range; from a FOREIGN
peer every kind but an ANNOUNCE is counted and sets the last-heard tick only; so is every byte sequence with a wrong
CRC-16 discarded. That the command carries the bytes is the model's choice, and ranges no rule states for a field are
inferred (log entries 30, 36). -/
def Obligations.DiscardedFramesLeaveTheState : Prop :=
  (∀ (i : Instr) (h : FrameHead) (ok : Bool) (s : State), receivedFrame i = some (h, ok) →
    (s.setup.running = false ∨ h.wellFormed = false ∨ ok = false → exec i s = .next s) ∧
    ∀ p : Peer, s.setup.running = true → h.wellFormed = true → ok = true → PeersOk s → p ∈ s.line.peers → p.station = h.origin →
      p.state = .foreign → (∀ f, i ≠ .announceReceived h f) →
      exec i s = .next { s with line := { s.line with
        rxCount := (s.line.rxCount + 1) % 4294967296
        peers := s.line.peers.map (fun x => if x.station = h.origin then { x with lastHeard := s.clock.tick } else x) } }) ∧
  ∀ (bs : List Byte) (s : State),
    (byteValues bs).drop (bs.length - 2) ≠ num2 (crc16 ((byteValues bs).take (bs.length - 2))) →
    exec (.malformedFrame bs) s = .next s

/-- A well-formed frame with the own number sets the STATION_CLASH latch and raises its count, is counted, and mutes the
station: the queue is emptied; of each emptied CLAIM the own queued claim goes and the sale CLAIMING with it is closed. A
muted station does no more than count and latch. An ANNOUNCE with a wrong halt code makes its sender's entry FOREIGN,
heard now, without a silence timer, the other fields kept; a change of state raises PEER_CHANGE; of a peer that was
PRESENT the watch view is formed again without it, the calls concerned re-evaluated, and a pull from it is abandoned;
neither clock nor offers are considered. The order of muting and telling the owners, and of the effects of a change of a
peer, are read by inference (log entries 15, 18). -/
def Obligations.ClashMutesAndWrongHaltCodeMakesForeign : Prop :=
  (∀ (i : Instr) (h : FrameHead) (s : State), receivedFrame i = some (h, true) → s.setup.running = true → h.wellFormed = true →
     h.origin = s.setup.straps.station →
     ∃ t, exec i s = .next t ∧ t.notices.clash = ⟨true, (s.notices.clash.count + 1) % 256⟩ ∧ t.notices.line = true ∧
       t.line.rxCount = (s.line.rxCount + 1) % 4294967296 ∧ t.line.muted = true ∧ t.line.peers = s.line.peers ∧
       (s.line.muted = true → t = { s with line := { s.line with rxCount := (s.line.rxCount + 1) % 4294967296 }
                                           notices := { s.notices with clash := t.notices.clash, line := true } }) ∧
       (s.line.muted = false → t.line.queue = [] ∧ t.line.condition = .noFrame ∧
         (∀ f ∈ s.line.queue, f.payload.kind = .claim → ∀ c, findClaim s.claims s.setup.straps.station f.seq = some c →
           c.state = .queued → ∀ x ∈ t.claims, ¬(x.origin = s.setup.straps.station ∧ x.seq = f.seq)) ∧
         (∀ f ∈ s.line.queue, f.payload.kind = .claim → ∀ r, s.sales.sale = some r → r.stage = .claiming → r.claim = some f.seq →
           t.sales.sale = none) ∧
         ((∀ f ∈ s.line.queue, f.payload.kind ≠ .claim ∧ f.payload.kind ≠ .segReq) → t =
           { s with line := { s.line with queue := [], condition := .noFrame, muted := true
                                          rxCount := (s.line.rxCount + 1) % 4294967296 }
                    notices := { s.notices with clash := t.notices.clash, line := true } })) ∧
       t = { s with line := t.line, store := t.store, sales := t.sales, claims := t.claims, notices := t.notices } ∧
       t.sales.journal = s.sales.journal ∧ t.sales.serialCounter = s.sales.serialCounter) ∧
  (∀ (h : FrameHead) (f : AnnounceFields) (s : State) (p : Peer), s.setup.running = true → h.wellFormed = true →
     f.wellFormed = true → PeersOk s → p ∈ s.line.peers → p.station = h.origin → f.haltCode ≠ s.setup.settings.haltCode →
     ∃ t, exec (.announceReceived h f) s = .next t ∧
       t.line.peers = s.line.peers.map (fun x =>
         if x.station = h.origin then { p with state := .foreign, lastHeard := s.clock.tick, silence := none } else x) ∧
       t.line.rxCount = (s.line.rxCount + 1) % 4294967296 ∧ t.calls.watch = watchView s.treadles t.line.peers ∧
       (p.state = .present → ∀ k x, (t.store.slot k).pull = some x → x.source ≠ h.origin) ∧
       (p.state = .foreign → t = { s with line := { s.line with peers := t.line.peers, rxCount := t.line.rxCount } }) ∧
       (p.state ≠ .foreign → p.state ≠ .present → t = raise (.peerChange h.origin p.state .foreign)
         { s with line := { s.line with peers := t.line.peers, rxCount := t.line.rxCount } }) ∧
       (p.state = .present → t = abandonPullsFrom h.origin (updateWatch (raise (.peerChange h.origin .present .foreign)
         { s with line := { s.line with peers := t.line.peers, rxCount := t.line.rxCount } })) ∧
         ∃ u, Rewatched (raise (.peerChange h.origin .present .foreign)
           { s with line := { s.line with peers := t.line.peers, rxCount := t.line.rxCount } }) u ∧
           t = { u with store := t.store }) ∧
       t = { s with line := t.line, calls := t.calls, store := t.store, sales := t.sales, claims := t.claims
                    board := t.board, notices := t.notices } ∧
       t.calls.date = s.calls.date ∧ t.calls.buildCount = s.calls.buildCount ∧ t.sales.journal = s.sales.journal ∧
       t.sales.serialCounter = s.sales.serialCounter ∧ t.notices.mask = s.notices.mask)

/-- An ANNOUNCE with the right halt code: the sender's entry is PRESENT, heard now, its silence timer of 35 s restarted,
and holds what the frame carries; a change of state raises PEER_CHANGE; the watch view is formed again and the calls a
changed flag concerns are re-evaluated; the clock adopts the carried date and time at grade ADOPTED when R7 says so and is
otherwise kept; a fresh flag has the own reports, TAKEN claims and bulletins in force sent again, in this order (R99). The
order of the effects is read by inference (log entry 18). -/
def Obligations.AcceptedAnnounceUpdatesPeerAndClock : Prop :=
  ∀ (h : FrameHead) (f : AnnounceFields) (s : State) (p : Peer), s.setup.running = true → h.wellFormed = true →
    f.wellFormed = true → PeersOk s → p ∈ s.line.peers → p.station = h.origin → f.haltCode = s.setup.settings.haltCode →
    ∃ t, exec (.announceReceived h f) s = .next t ∧
      t.line.peers = s.line.peers.map (fun x =>
        if x.station = h.origin then
          { station := h.origin, state := .present, sells := f.sells, shows := f.shows, timetable := f.timetable, fare := f.fare
            grade := f.grade, coverage := f.coverage, lastHeard := s.clock.tick, silence := some ⟨s.clock.tick, 350⟩ }
        else x) ∧
      t.line.rxCount = (s.line.rxCount + 1) % 4294967296 ∧ t.calls.watch = watchView s.treadles t.line.peers ∧
      ((s.clock.grade = .unset ∧ f.grade ≠ .unset) ∨
        ((s.clock.grade = .adopted ∨ s.clock.grade = .hostAged) ∧ f.grade = .host ∧
          (s.clock.date ≠ f.date ∨ s.clock.second * 10 + s.clock.tenths + 20 ≤ f.second * 10 + f.tenths ∨
            f.second * 10 + f.tenths + 20 ≤ s.clock.second * 10 + s.clock.tenths)) →
        t.clock = { s.clock with date := f.date, weekday := f.date.weekday, second := f.second, tenths := f.tenths
                                 grade := .adopted }) ∧
      (s.clock.grade = .host ∨ f.grade = .unset ∨ (s.clock.grade ≠ .unset ∧ f.grade ≠ .host) ∨
          (s.clock.grade ≠ .unset ∧ s.clock.date = f.date ∧
            s.clock.second * 10 + s.clock.tenths < f.second * 10 + f.tenths + 20 ∧
            f.second * 10 + f.tenths < s.clock.second * 10 + s.clock.tenths + 20) →
        t.clock = s.clock) ∧
      (∀ w u : State, s.clock.grade = .host → f.timetable = 0 → f.fare = 0 →
        w = { s with line := { s.line with
          rxCount := (s.line.rxCount + 1) % 4294967296, peers := s.line.peers.map (fun x =>
            if x.station = h.origin then
              { station := h.origin, state := .present, sells := f.sells, shows := f.shows, timetable := 0, fare := 0
                grade := f.grade, coverage := f.coverage, lastHeard := s.clock.tick, silence := some ⟨s.clock.tick, 350⟩ }
            else x) } } →
        u = updateWatch (if p.state = .present then w else raise (.peerChange h.origin p.state .present) w) →
        Rewatched (if p.state = .present then w else raise (.peerChange h.origin p.state .present) w) u ∧
        (f.fresh = false → t = u) ∧
        (∀ (taken : List Claim) (frames : List Payload), f.fresh = true →
          taken = u.claims.filter (fun x => x.origin = s.setup.straps.station && x.state = .taken) →
          taken.Pairwise (fun a b => a.seq ≠ b.seq ∧ positionBefore (a.position.getD 0) (b.position.getD 0) = true) →
          DistinctIds u.bulletins.list →
          (∀ q ∈ u.line.queue, q.payload.kind ≠ .taken ∧ q.payload.kind ≠ .bulletin) →
          frames = u.calls.calls.filterMap (fun c => c.report.bind (fun r =>
              if c.state ≠ .departed ∧ c.state ≠ .lapsed ∧ r.origin = s.setup.straps.station then
                some (.running ⟨c.service, u.calls.date, r.point, r.lateness, r.observed, r.cancelled⟩)
              else none)) ++
            taken.map (fun x => .taken ⟨x.service, x.date, x.cls, x.seq⟩) ++
            (u.bulletins.list.filter (fun b => b.origin = s.setup.straps.station && b.inForce)).map (fun b =>
              .bulletin ⟨b.origin, b.number, b.kind, false, b.validFrom, b.validUntil, b.text⟩) →
          t = frames.foldl (fun v q => hand q v) u)) ∧
      t.setup = s.setup ∧ t.overlay = s.overlay ∧ t.treadles = s.treadles ∧ t.host = s.host ∧ t.pending = s.pending ∧
      t.line.muted = s.line.muted ∧ t.sales.journal = s.sales.journal ∧ t.sales.serialCounter = s.sales.serialCounter ∧
      t.notices.mask = s.notices.mask

/-- An accepted ANNOUNCE of a PRESENT peer at grade HOST, with its stored coverage and no fresh flag, starts the pull
wait of 0..20 tenths of each kind it offers whose loader is EMPTY and not waiting; a staged image gives way to a higher
edition alone; nothing else follows. The draw is a free value (log entry 3). -/
def Obligations.OfferedEditionStartsThePullWait : Prop :=
  ∀ (h : FrameHead) (f : AnnounceFields) (s u : State) (p : Peer) (r : Rng), FromPresent h s → f.wellFormed = true →
    f.haltCode = s.setup.settings.haltCode → s.clock.grade = .host → f.fresh = false → p ∈ s.line.peers → p.station = h.origin →
    p.coverage = f.coverage → s.line.rng = some r →
    u = { s with line := { s.line with rxCount := (s.line.rxCount + 1) % 4294967296, peers := s.line.peers.map (fun x =>
        if x.station = h.origin then
          { station := h.origin, state := .present, sells := f.sells, shows := f.shows, timetable := f.timetable, fare := f.fare
            grade := f.grade, coverage := f.coverage, lastHeard := s.clock.tick, silence := some ⟨s.clock.tick, 350⟩ }
        else x) } } →
    ∃ t n, exec (.announceReceived h f) s = .next t ∧
      t = { u with line := { u.line with rng := some { r with drawn := r.drawn + n } }, store := t.store } ∧
      ∀ (k : TableKind) (e : Nat) (x y : Slot), e = (match k with | .timetable => f.timetable | .fare => f.fare) →
        x = s.store.slot k → y = t.store.slot k →
        (e = 0 ∨ e = x.refused ∨ (x.active ≠ none ∧ e ≤ x.activeEdition) → y = x) ∧
        (e ≠ 0 → e ≠ x.refused → x.active = none ∨ x.activeEdition < e →
          (x.loader = .empty → x.pullWait = none → ∃ d, d ≤ 20 ∧ y = { x with pullWait := some ⟨s.clock.tick, d⟩ }) ∧
          (x.loader = .empty → x.pullWait ≠ none → y = x) ∧ (x.loader = .hostFill ∨ x.loader = .peerFill → y = x) ∧
          (x.loader = .staged → e ≤ editionOf x.staging → y = x) ∧
          (x.loader = .staged → editionOf x.staging < e → ∃ d, d ≤ 20 ∧ y =
            { x with loader := .empty, staging := [], declared := none, offset := 0, origin := none, pull := none
                     pullWait := some ⟨s.clock.tick, d⟩ }))

/-! ### The bytes of a frame (R79, R188, R189) -/

/-- The bytes of any well-formed frame are read back as that frame, with its head and every field of its payload (R79, R188, R189). -/
def Obligations.FramesReadBackAsSent : Prop :=
  ∀ (h : FrameHead) (p : Payload), h.wellFormed = true → p.wellFormed = true →
    readFrame (frameBytes h p) = some (h, p)

/-! ### Timers of the line and of pulls (R56, R96, R98, R111 to R113) -/

/-- RE_SEND_TIMER_EXPIRY when due hands the own reports of live calls to the line, in call index order.
PEER_SILENCE_TIMER_EXPIRY when due makes a PRESENT peer SILENT, with PEER_CHANGE, a new watch view with the calls it
concerns re-evaluated, and its pulls abandoned. ANNOUNCE_TIMER_EXPIRY when due queues an ANNOUNCE and restarts with 10 s
and a draw of 0..10 tenths. A timer not due changes nothing. That expiries are commands which act only when due is the
model's choice (log entry 9), as the draws are free values (log entry 3); the order of the effects of a silence is read by
inference (log entry 18), and what an ANNOUNCE holds in the queue before an attempt is the model's choice (log entry 17).
-/
def Obligations.LineTimersActWhenDue : Prop :=
  (∀ (s : State) (t : State) (frames : List Payload),
     t = { s with calls := { s.calls with resend := some ⟨s.clock.tick, 600⟩ } } →
     frames = s.calls.calls.filterMap (fun c => c.report.bind (fun r =>
       if c.state ≠ .departed ∧ c.state ≠ .lapsed ∧ r.origin = s.setup.straps.station then
         some (.running ⟨c.service, s.calls.date, r.point, r.lateness, r.observed, r.cancelled⟩)
       else none)) →
     ((∀ x, s.calls.resend = some x → s.clock.tick < x.start + x.span) → exec .reSendTimerExpiry s = .next s) ∧
     ∀ x, s.calls.resend = some x → x.start + x.span ≤ s.clock.tick →
       (s.line.muted = true → exec .reSendTimerExpiry s = .next t) ∧
       (s.line.muted = false → s.line.seqCounter ≤ 4095 → s.line.queue.length + frames.length ≤ 12 →
         (∀ f ∈ s.line.queue, f.payload.kind ≠ .running) → s.calls.calls.Pairwise (fun a b => a.service ≠ b.service) →
         exec .reSendTimerExpiry s = .next { t with line := { s.line with
           queue := s.line.queue ++ frames.zipIdx.map (fun p => ⟨(s.line.seqCounter + p.2) % 4096, 0, p.1⟩)
           seqCounter := (s.line.seqCounter + frames.length) % 4096
           condition := if s.line.queue = [] ∧ frames ≠ [] then .waiting s.clock.tick else s.line.condition } })) ∧
  (∀ (n : Nat) (s : State) (p : Peer), PeersOk s → p ∈ s.line.peers → p.station = n →
     (p.state ≠ .present ∨ (∀ x, p.silence = some x → s.clock.tick < x.start + x.span) →
       exec (.peerSilenceTimerExpiry n) s = .next s) ∧
     (∀ x, p.state = .present → p.silence = some x → x.start + x.span ≤ s.clock.tick → s.setup.running = true →
       ∃ t, exec (.peerSilenceTimerExpiry n) s = .next t ∧
         t.line.peers = s.line.peers.map (fun y => if y.station = n then { p with state := .silent, silence := none } else y) ∧
         t.calls.watch = watchView s.treadles t.line.peers ∧
         (∀ k y, (t.store.slot k).pull = some y → y.source ≠ n) ∧
         (∃ u, Rewatched (raise (.peerChange n .present .silent) { s with line := { s.line with peers := t.line.peers } }) u ∧
           t = { u with store := t.store }) ∧
         (s.clock.grade = .unset →
           t = { raise (.peerChange n .present .silent)
               { s with line := { s.line with peers := t.line.peers }, calls := { s.calls with watch := t.calls.watch } } with
             store := t.store }) ∧
         (p.coverage = ⟨false, false, false, false⟩ → (∀ k y, (s.store.slot k).pull = some y → y.source ≠ n) →
           t = raise (.peerChange n .present .silent) { s with line := { s.line with peers := t.line.peers } }) ∧
         t = { s with line := t.line, calls := t.calls, store := t.store, sales := t.sales, claims := t.claims
                      board := t.board, notices := t.notices } ∧
         t.line.rxCount = s.line.rxCount ∧ t.line.muted = s.line.muted ∧ t.sales.journal = s.sales.journal ∧
         t.sales.serialCounter = s.sales.serialCounter ∧ t.calls.date = s.calls.date ∧ t.notices.mask = s.notices.mask) ∧
     ((∀ x, s.line.announceTimer = some x → s.clock.tick < x.start + x.span) → exec .announceTimerExpiry s = .next s) ∧
     ∀ x r, s.line.announceTimer = some x → x.start + x.span ≤ s.clock.tick → s.line.rng = some r →
       ∃ d, d ≤ 10 ∧
         (s.line.muted = true → exec .announceTimerExpiry s = .next { s with line := { s.line with
           announceTimer := some ⟨s.clock.tick, 100 + d⟩, rng := some { r with drawn := r.drawn + 1 } } }) ∧
         (s.line.muted = false → s.line.queue.length < 12 → (∀ g ∈ s.line.queue, g.payload.kind ≠ .announce) →
           ∃ g, exec .announceTimerExpiry s = .next { s with line := { s.line with
             queue := s.line.queue ++ [⟨s.line.seqCounter, 0, .announce g⟩], seqCounter := (s.line.seqCounter + 1) % 4096
             condition := if s.line.queue = [] then .waiting s.clock.tick else s.line.condition
             announceTimer := some ⟨s.clock.tick, 100 + d⟩, rng := some { r with drawn := r.drawn + 1 } } }))

/-- PULL_WAIT_TIMER_EXPIRY when due stops the wait; with no PRESENT peer offering the kind no more is done; else the
pull of segment 0 begins from the highest offered edition, the lowest station among equals. REPLY_TIMER_EXPIRY when due
requests the segment once more, or abandons the pull on the fourth try. That expiries are commands which act only when
due, and that the pull holds its request's sequence, are the model's choices (log entries 9, 16). -/
def Obligations.PullsAreRequestedAndRetried : Prop :=
  ∀ (k : TableKind) (s : State) (x : Slot), x = s.store.slot k →
    ((∀ w, x.pullWait = some w → s.clock.tick < w.start + w.span) → exec (.pullWaitTimerExpiry k) s = .next s) ∧
    (∀ w, x.pullWait = some w → w.start + w.span ≤ s.clock.tick →
      ((∀ p ∈ s.line.peers, p.state = .present → p.edition k = 0 ∨ p.edition k = x.refused ∨
          (x.active ≠ none ∧ p.edition k ≤ x.activeEdition)) →
        exec (.pullWaitTimerExpiry k) s = .next { s with store := (s.store.setSlot k { x with pullWait := none }) }) ∧
      ∀ p ∈ s.line.peers, p.state = .present → p.edition k ≠ 0 → p.edition k ≠ x.refused →
        x.active = none ∨ x.activeEdition < p.edition k → PeersOk s →
        (∀ y ∈ s.line.peers, y.state = .present → y.edition k ≠ x.refused →
          y.edition k < p.edition k ∨ (y.edition k = p.edition k ∧ p.station ≤ y.station)) →
        s.line.muted = false → s.line.queue.length < 12 →
        exec (.pullWaitTimerExpiry k) s = .next { s with
          store := (s.store.setSlot k { x with
            pullWait := none, loader := .peerFill, staging := [], declared := none, offset := 0
            origin := some (.peer p.station)
            pull := some ⟨p.station, p.edition k, 0, 1, none, some s.line.seqCounter⟩ })
          line := { s.line with
            queue := s.line.queue ++ [⟨s.line.seqCounter, 0, .segReq ⟨p.station, k, p.edition k, 0⟩⟩]
            seqCounter := (s.line.seqCounter + 1) % 4096
            condition := if s.line.queue = [] then .waiting s.clock.tick else s.line.condition } }) ∧
    ((∀ p w, x.pull = some p → p.replyTimer = some w → s.clock.tick < w.start + w.span) →
      exec (.replyTimerExpiry k) s = .next s) ∧
    ∀ p w, x.pull = some p → p.replyTimer = some w → w.start + w.span ≤ s.clock.tick →
      (4 ≤ p.tries → exec (.replyTimerExpiry k) s = .next { s with store := (s.store.setSlot k { x with
        loader := .empty, staging := [], declared := none, offset := 0, origin := none, pull := none }) }) ∧
      (p.tries < 4 → s.line.muted = false → s.line.queue.length < 12 → exec (.replyTimerExpiry k) s = .next { s with
        store := (s.store.setSlot k { x with
          pull := (some { p with tries := p.tries + 1, replyTimer := none, request := some s.line.seqCounter }) })
        line := { s.line with
          queue := s.line.queue ++ [⟨s.line.seqCounter, 0, .segReq ⟨p.source, k, p.edition, p.index⟩⟩]
          seqCounter := (s.line.seqCounter + 1) % 4096
          condition := if s.line.queue = [] then .waiting s.clock.tick else s.line.condition } })

/-! ### Reports and observations (R23 to R29, R38 to R52) -/

/-- RUNNING from a PRESENT peer: discarded but for the peer's entry by the checks of R40 and R41; else, with the lateness
clamped to −900..21,600 and the propagated lateness of R43 giving E_base, accepted for its call with the sender as origin.
A frame of any kind but ANNOUNCE from an UNKNOWN or SILENT peer first makes it PRESENT, heard now, its silence timer of 35
s started and its other fields kept, raises PEER_CHANGE, and forms the watch view again; it then acts, counted once, as
from the PRESENT peer it has become. One change for a report and its creep, the source of an estimate, and the order of
the effects of a change of a peer are read by inference (log entries 18, 21, 22). -/
def Obligations.RunningFrameActsOnItsCall : Prop :=
  (∀ (h : FrameHead) (f : RunningFields) (s u : State), FromPresent h s → f.wellFormed = true → u = s.heardFrom h.origin →
     (s.clock.grade = .unset ∨ f.date ≠ s.clock.date ∨ s.clock.second + 60 < f.observed ∨
         (∀ c ∈ s.calls.calls, c.service ≠ f.service) →
       exec (.runningReceived h f) s = .next u) ∧
     ∀ (i : Nat) (c : Call), callIndex s.calls.calls f.service = some i → s.calls.calls[i]? = some c →
       (c.state = .departed ∨ c.state = .lapsed ∨ (∃ x, c.report = some x ∧ f.observed ≤ x.observed) →
         exec (.runningReceived h f) s = .next u) ∧
       ∀ (r : BestReport) (a base : Nat), s.clock.grade ≠ .unset → f.date = s.clock.date → f.observed ≤ s.clock.second + 60 →
         c.state ≠ .departed → c.state ≠ .lapsed → (∀ x, c.report = some x → x.observed < f.observed) →
         r = ⟨f.point, max (-900) (min 21600 f.lateness), f.observed, h.origin, f.cancelled⟩ →
         a = ((c.points[r.point]?).map (·.allowance)).getD 0 →
         (base : Int) = max 0 (min 108000 (c.schedArr + (if r.lateness ≤ 0 then r.lateness else max 0 (r.lateness - a)))) →
         ∃ t, exec (.runningReceived h f) s = .next t ∧ ReportTaken u t i c r base) ∧
  (∀ (i : Instr) (h : FrameHead) (s v : State) (p : Peer), receivedFrame i = some (h, true) →
     (∀ f, i ≠ .announceReceived h f) → s.setup.running = true → h.wellFormed = true → PeersOk s → p ∈ s.line.peers →
     p.station = h.origin → p.state = .unknown ∨ p.state = .silent →
     v = raise (.peerChange h.origin p.state .present) { s with line := { s.line with
       rxCount := (s.line.rxCount + 1) % 4294967296
       peers := s.line.peers.map (fun x => if x.station = h.origin then
         { p with state := .present, lastHeard := s.clock.tick, silence := some ⟨s.clock.tick, 350⟩ } else x) } } →
     ∃ u w t, Rewatched v u ∧ u.line.peers = v.line.peers ∧ u.line.rxCount = v.line.rxCount ∧
       w = { u with line := { u.line with rxCount := s.line.rxCount } } ∧ FromPresent h w ∧
       w.calls.watch = watchView s.treadles v.line.peers ∧ exec i s = exec i w ∧ exec i s = .next t)

/-- REPORT_RUNNING: the checks of R39 in their order, each with its reason; an accepted report acts as a RUNNING frame
with the station as origin, is answered with the call's index and state, and its RUNNING frame is handed to the line.
One change for a report and its creep, and the source of an estimate, are read by inference (log entries 21, 22). -/
def Obligations.ReportRunningActsOnItsCall : Prop :=
  ∀ (tag : Nat) (f : RunningFields) (s : State), s.Serving →
    (s.clock.grade = .unset → exec (.reportRunning tag f) s = .next (s.answered 13 tag ⟨.refused, some .noTime, .none⟩)) ∧
    (s.clock.grade ≠ .unset →
      (f.service < 1 ∨ 9999 < f.service ∨ 86399 < f.observed ∨ s.clock.second + 60 < f.observed →
        exec (.reportRunning tag f) s = .next (s.answered 13 tag ⟨.refused, some .badReport, .none⟩)) ∧
      (1 ≤ f.service → f.service ≤ 9999 → f.observed ≤ 86399 → f.observed ≤ s.clock.second + 60 →
        (f.date ≠ s.clock.date →
          exec (.reportRunning tag f) s = .next (s.answered 13 tag ⟨.refused, some .wrongDate, .none⟩)) ∧
        (f.date = s.clock.date →
          ((∀ c ∈ s.calls.calls, c.service ≠ f.service) →
            exec (.reportRunning tag f) s = .next (s.answered 13 tag ⟨.refused, some .noService, .none⟩)) ∧
          ∀ (i : Nat) (c : Call), callIndex s.calls.calls f.service = some i → s.calls.calls[i]? = some c →
            (c.state = .departed ∨ c.state = .lapsed →
              exec (.reportRunning tag f) s = .next (s.answered 13 tag ⟨.refused, some .callEnded, .none⟩)) ∧
            (c.state ≠ .departed → c.state ≠ .lapsed → (∃ x, c.report = some x ∧ f.observed ≤ x.observed) →
              exec (.reportRunning tag f) s = .next (s.answered 13 tag ⟨.refused, some .staleReport, .none⟩)) ∧
            ∀ (r : BestReport) (a base : Nat), c.state ≠ .departed → c.state ≠ .lapsed →
              (∀ x, c.report = some x → x.observed < f.observed) →
              r = ⟨f.point, max (-900) (min 21600 f.lateness), f.observed, s.setup.straps.station, f.cancelled⟩ →
              a = ((c.points[r.point]?).map (·.allowance)).getD 0 →
              (base : Int) = max 0 (min 108000 (c.schedArr + (if r.lateness ≤ 0 then r.lateness else max 0 (r.lateness - a)))) →
              ∃ (v : State) (c' : Call), ReportTaken s v i c r base ∧ v.calls.calls[i]? = some c' ∧
                exec (.reportRunning tag f) s = .next
                  ((hand (.running ⟨c.service, s.calls.date, r.point, r.lateness, r.observed, r.cancelled⟩) v).answered 13 tag
                    ⟨.ok, none, .reportTaken i c'.state⟩))))

/-- APPROACH from a PRESENT peer: unmatched, the passing warning of its direction is raised for 90 s; matched to the
nearest PENDING or REPORTED call of its direction within 1200 s, that call is APPROACHING with E_a = max(t + ETA, S_a −
900); a PASS call raises the warning too; of a second approach for an APPROACHING call the earlier stands. That the change
of a PASS call composes before its warning does is read by inference (log entry 19). -/
def Obligations.ApproachFrameMatchesTheNearestCall : Prop :=
  ∀ (h : FrameHead) (f : ApproachFields) (s u : State) (eta : Call → Nat), FromPresent h s → f.wellFormed = true →
    u = s.heardFrom h.origin → (∀ c, eta c = f.detect + (if c.kind = .stop then f.etaStop else f.etaPass)) →
    (s.clock.grade = .unset ∨ (∀ c ∈ s.calls.calls, c.direction = f.direction →
        (c.state.awaited = true → ∀ e, c.estimates = some e → 1200 < natDist e.arr (eta c)) ∧
        (c.state.atHand = true → ∀ x, c.approach = some x → 300 < natDist (x.detect + x.eta) (eta c))) →
      (¬s.Composing → exec (.approachReceived h f) s = .next u) ∧
      (s.Composing → exec (.approachReceived h f) s = .next
        (compose { u with board := (s.board.setWarning f.direction (some ⟨s.clock.tick, 900⟩)) }))) ∧
    ∀ (i : Nat) (c : Call) (e : Estimates), s.clock.grade ≠ .unset → s.calls.calls[i]? = some c → c.direction = f.direction →
      c.estimates = some e →
      (c.state.awaited = true → natDist e.arr (eta c) ≤ 1200 →
        (∀ x ∈ s.calls.calls, x.direction = f.direction → x.state.atHand = true → ∀ y, x.approach = some y →
          300 < natDist (y.detect + y.eta) (eta x)) →
        (∀ j x y, j ≠ i → s.calls.calls[j]? = some x → x.direction = f.direction → x.state.awaited = true → x.estimates = some y →
          natDist e.arr (eta c) < natDist y.arr (eta x)) →
        ∀ (arr : Nat) (v : State), arr = max (eta c) (c.schedArr - 900) → s.clock.second < arr →
          v = raise (.callChanged s.calls.buildCount) (compose { u with calls := { s.calls with calls := (s.calls.calls.set i
            { c with state := .approaching, source := .approach, delayed := false
                     approach := some ⟨f.detect, f.speed, eta c - f.detect, f.pair, h.origin⟩
                     estimates := some ⟨e.base, arr, departureFrom s.setup.settings.minDwell c arr, 0⟩ }) } }) →
          (c.kind = .stop ∨ ¬s.Composing → exec (.approachReceived h f) s = .next v) ∧
          (c.kind = .pass → s.Composing → exec (.approachReceived h f) s = .next
            (compose { v with board := (v.board.setWarning f.direction (some ⟨s.clock.tick, 900⟩)) }))) ∧
      ∀ x, c.state = .approaching → c.kind = .stop → c.approach = some x → natDist (x.detect + x.eta) (eta c) ≤ 300 →
        (∀ j z y, j ≠ i → s.calls.calls[j]? = some z → z.direction = f.direction → z.state.atHand = true → z.approach = some y →
          natDist (x.detect + x.eta) (eta c) < natDist (y.detect + y.eta) (eta z)) →
        (x.detect < f.detect ∨ (x.detect = f.detect ∧ x.origin ≤ h.origin) → exec (.approachReceived h f) s = .next u) ∧
        ∀ arr, f.detect < x.detect ∨ (f.detect = x.detect ∧ h.origin < x.origin) → arr = max (eta c) (c.schedArr - 900) →
          s.clock.second < arr → exec (.approachReceived h f) s = .next (raise (.callChanged s.calls.buildCount)
            (compose { u with calls := { s.calls with calls := (s.calls.calls.set i
              { c with source := .approach, delayed := false
                       approach := some ⟨f.detect, f.speed, eta c - f.detect, f.pair, h.origin⟩
                       estimates := some ⟨e.base, arr, departureFrom s.setup.settings.minDwell c arr, 0⟩ }) } }))

/-- DEPART from a PRESENT peer: the passing warning of its direction is cleared; matched to the nearest APPROACHING or ARRIVED call of
its direction within 900 s of its E_d, that call is DEPARTED, sensed, its claims go and a sale on it is closed. -/
def Obligations.DepartFrameEndsTheNearestCall : Prop :=
  ∀ (h : FrameHead) (f : DepartFields) (s u : State), FromPresent h s → f.wellFormed = true → u = s.heardFrom h.origin →
    (s.clock.grade = .unset ∨ (∀ c ∈ s.calls.calls, c.direction = f.direction → c.state.atHand = true →
        ∀ e, c.estimates = some e → 900 < natDist e.dep f.detect) →
      (¬s.Composing ∨ s.board.warning f.direction = none → exec (.departReceived h f) s = .next u) ∧
      (s.Composing → s.board.warning f.direction ≠ none → exec (.departReceived h f) s = .next
        (compose { u with board := (s.board.setWarning f.direction none) }))) ∧
    ∀ (i : Nat) (c : Call) (e : Estimates), s.clock.grade ≠ .unset → s.calls.calls[i]? = some c → c.direction = f.direction →
      c.state.atHand = true → c.estimates = some e → natDist e.dep f.detect ≤ 900 →
      (∀ j x y, j ≠ i → s.calls.calls[j]? = some x → x.direction = f.direction → x.state.atHand = true → x.estimates = some y →
        natDist e.dep f.detect < natDist y.dep f.detect) →
      ∃ t, exec (.departReceived h f) s = .next t ∧
        t.calls = { s.calls with calls := (s.calls.calls.set i { c with state := .departed, sensed := true }) } ∧
        (∀ x ∈ t.claims, x ∈ s.claims ∧ ¬(x.service = c.service ∧ x.date = s.calls.date)) ∧
        (∀ x y, s.sales.sale = some x → x.stage ≠ .issuing → x.space = some y → y.service = c.service → y.date = s.calls.date →
          t.sales.sale = none) ∧
        (s.sales.sale = none → t.claims = s.claims.filter (fun x => !(x.service = c.service && x.date = s.calls.date)) ∧
          t = { u with calls := t.calls, claims := t.claims, board := t.board, notices := t.notices }) ∧
        (s.board.warning f.direction ≠ none → s.Composing → t.board.warning f.direction = none) ∧
        t = { u with calls := t.calls, claims := t.claims, board := t.board, notices := t.notices, line := t.line
                     sales := t.sales, store := t.store } ∧
        t.line.peers = u.line.peers ∧ t.sales.journal = s.sales.journal ∧ t.sales.serialCounter = s.sales.serialCounter

/-! ### Claims of peers (R147, R149, R151) -/

/-- CLAIM, TAKEN and RELEASE from a PRESENT peer, while no own claim is queued: a CLAIM of a new key joins as PENDING at
the line position, a TAKEN makes a PENDING one TAKEN or joins as TAKEN, a RELEASE removes; a claim for no live call, or
beyond 24, does not join. CLAIM_LIFETIME_EXPIRY removes a PENDING claim 180 s old. A received CLAIM that fills the class
an own queued claim claims withdraws the own claim: its frame leaves the queue, the claim the list, and the sale CLAIMING
with it is closed, without a RELEASE (R149). That the expiry of a pending claim is a command which acts only when due,
when the withdrawal test is made, and that a TAKEN claim loses its heard tick are the model's choices or readings (log
entries 9, 28, 47). -/
def Obligations.ClaimFramesKeepTheClaimList : Prop :=
  (∀ (h : FrameHead) (f : ClaimFields) (s u : State), FromPresent h s → f.wellFormed = true → u = s.heardFrom h.origin →
     (∀ x ∈ s.claims, ¬(x.state = .queued ∧ x.origin = s.setup.straps.station)) →
     (∀ c, findClaim s.claims h.origin f.seq = some c →
       exec (.claimReceived h f) s = .next u ∧
       (c.state ≠ .pending → exec (.takenReceived h f) s = .next u) ∧
       (c.state = .pending → exec (.takenReceived h f) s = .next { u with claims := (s.claims.map (fun x =>
         if x.origin = h.origin ∧ x.seq = f.seq then { x with state := .taken, heard := none } else x)) })) ∧
     (findClaim s.claims h.origin f.seq = none →
       (24 ≤ s.claims.length ∨ f.date ≠ s.clock.date ∨ s.calls.date ≠ f.date ∨
           (∀ c ∈ s.calls.calls, c.service = f.service → c.state = .departed ∨ c.state = .lapsed ∨ c.state = .cancelled) →
         exec (.claimReceived h f) s = .next u ∧ exec (.takenReceived h f) s = .next u) ∧
       (s.claims.length < 24 → f.date = s.clock.date → s.calls.date = f.date → ∀ c,
         s.calls.calls.find? (fun x => x.service = f.service) = some c → c.state ≠ .departed → c.state ≠ .lapsed →
         c.state ≠ .cancelled →
         exec (.claimReceived h f) s = .next { u with claims := (s.claims ++
           [⟨f.service, f.date, f.cls, h.origin, f.seq, some u.line.rxCount, .pending, some s.clock.tick⟩]) } ∧
         exec (.takenReceived h f) s = .next { u with claims := (s.claims ++
           [⟨f.service, f.date, f.cls, h.origin, f.seq, some u.line.rxCount, .taken, none⟩]) })) ∧
     exec (.releaseReceived h f) s = .next
       { u with claims := (s.claims.filter (fun x => !(x.origin = h.origin && x.seq = f.seq))) } ∧
     ∀ (o q : Nat),
       ((∀ c, findClaim s.claims o q = some c → c.state ≠ .pending ∨ ∀ t, c.heard = some t → s.clock.tick < t + 1800) →
         exec (.claimLifetimeExpiry o q) s = .next s) ∧
       ∀ c t, findClaim s.claims o q = some c → c.state = .pending → c.heard = some t → t + 1800 ≤ s.clock.tick →
         exec (.claimLifetimeExpiry o q) s = .next
           { s with claims := (s.claims.filter (fun x => !(x.origin = o && x.seq = q))) }) ∧
  (∀ (h : FrameHead) (f : ClaimFields) (s : State) (q : Claim) (c : Call) (r : SaleRecord) (i : Nat),
     FromPresent h s → f.wellFormed = true → findClaim s.claims h.origin f.seq = none → s.claims.length < 24 →
     f.date = s.clock.date → s.calls.date = f.date → s.calls.calls.find? (fun x => x.service = f.service) = some c →
     c.state.over = false → s.claims.find? (fun x => x.state = .queued && x.origin = s.setup.straps.station) = some q →
     findClaim s.claims s.setup.straps.station q.seq = some q →
     capacityOf s q.service q.date q.cls ≤ occupancy s.claims q.service q.date q.cls + (if q.isFor f.service f.date f.cls then 1 else 0) →
     s.sales.sale = some r → r.stage = .claiming → r.claim = some q.seq →
     s.line.queue.findIdx? (fun x => x.seq = q.seq && x.payload.kind = .claim) = some i →
     ∃ t, exec (.claimReceived h f) s = .next t ∧ t.sales = { s.sales with sale := none } ∧ t.line.queue = s.line.queue.eraseIdx i ∧
       t.claims = s.claims.filter (fun x => !(x.origin = s.setup.straps.station && x.seq = q.seq)) ++
         [⟨f.service, f.date, f.cls, h.origin, f.seq, some ((s.line.rxCount + 1) % 4294967296), .pending, some s.clock.tick⟩] ∧
       t = { s with line := t.line, claims := t.claims, sales := t.sales, notices := t.notices, store := t.store } ∧
       t.line.peers = (s.heardFrom h.origin).line.peers ∧ t.line.seqCounter = s.line.seqCounter)

/-! ### Editions between stations and from the host (R103 to R117) -/

/-- SEG_REQ from a PRESENT peer: addressed to this station it is answered with one SEGMENT, the data of the active image when the
edition and index name a segment of it, else the gone flag; addressed elsewhere it has no further effect. -/
def Obligations.SegReqIsAnswered : Prop :=
  ∀ (h : FrameHead) (f : SegReqFields) (s u : State) (g : SegmentFields), FromPresent h s → f.wellFormed = true →
    u = s.heardFrom h.origin →
    (f.addressee ≠ s.setup.straps.station → exec (.segReqReceived h f) s = .next u) ∧
    (f.addressee = s.setup.straps.station → g.addressee = h.origin → g.kind = f.kind → g.edition = f.edition → g.index = f.index →
      (∀ image, (s.store.slot f.kind).active = some image → (s.store.slot f.kind).activeEdition = f.edition →
        64 * f.index < image.length → g.gone = false ∧ g.data = (image.drop (64 * f.index)).take 64) →
      ((∀ image, (s.store.slot f.kind).active = some image → (s.store.slot f.kind).activeEdition = f.edition →
        image.length ≤ 64 * f.index) → g.gone = true ∧ g.data = []) →
      (s.line.muted = true → exec (.segReqReceived h f) s = .next u) ∧
      (s.line.muted = false → 12 ≤ s.line.queue.length → exec (.segReqReceived h f) s = .next u) ∧
      (s.line.muted = false → s.line.queue.length < 12 → exec (.segReqReceived h f) s = .next { u with line := { u.line with
        queue := s.line.queue ++ [⟨s.line.seqCounter, 0, .segment g⟩], seqCounter := (s.line.seqCounter + 1) % 4096
        condition := if s.line.queue = [] then .waiting s.clock.tick else s.line.condition } }))

/-- SEGMENT from a PRESENT peer: it reaches a pull from its sender of its edition alone; the gone flag, a higher index or
a wrong length abandons the pull, a lower index is ignored, the expected one is appended, and the next is requested or the
image checked. That the pull record holds the sequence of its outstanding request is the model's choice (log entry 16);
the order of a build's effects is read by inference (log entries 19, 20). -/
def Obligations.SegmentFillsThePull : Prop :=
  ∀ (h : FrameHead) (f : SegmentFields) (s u : State) (x : Slot), FromPresent h s → f.wellFormed = true →
    u = s.heardFrom h.origin → x = s.store.slot f.kind →
    (f.addressee ≠ s.setup.straps.station ∨ x.loader ≠ .peerFill ∨
        (∀ p, x.pull = some p → p.source ≠ h.origin ∨ p.edition ≠ f.edition) →
      exec (.segmentReceived h f) s = .next u) ∧
    ∀ p, f.addressee = s.setup.straps.station → x.loader = .peerFill → x.pull = some p → p.source = h.origin →
      p.edition = f.edition →
      (f.gone = false → f.index < p.index → exec (.segmentReceived h f) s = .next u) ∧
      (f.gone = true ∨ p.index < f.index ∨
          (f.index = p.index ∧ ∃ n, x.declared = some n ∧ f.data.length ≠ min 64 (n - 64 * f.index)) →
        exec (.segmentReceived h f) s = .next { u with store := (s.store.setSlot f.kind { x with
          loader := .empty, staging := [], declared := none, offset := 0, origin := none, pull := none }) }) ∧
      ∀ n, f.gone = false → f.index = p.index →
        (x.declared = some n ∨ (x.declared = none ∧ ∃ hd, headerOf f.data = some hd ∧ hd.length = n ∧ hd.edition = p.edition ∧
          hd.kind = (match f.kind with | .timetable => 0 | .fare => 1) ∧ imageMinimum ≤ n ∧ n ≤ imageLimit f.kind)) →
        f.data.length = min 64 (n - 64 * f.index) →
        (x.offset + f.data.length ≠ n → s.line.muted = false → s.line.queue.length < 12 →
          exec (.segmentReceived h f) s = .next { u with
            store := (s.store.setSlot f.kind { x with
              staging := x.staging ++ f.data, offset := x.offset + f.data.length, declared := some n
              pull := some ⟨p.source, p.edition, p.index + 1, 1, none, some s.line.seqCounter⟩ })
            line := { u.line with
              queue := s.line.queue ++ [⟨s.line.seqCounter, 0, .segReq ⟨p.source, f.kind, p.edition, p.index + 1⟩⟩]
              seqCounter := (s.line.seqCounter + 1) % 4096
              condition := if s.line.queue = [] then .waiting s.clock.tick else s.line.condition } }) ∧
        (x.offset + f.data.length = n → ∃ t, exec (.segmentReceived h f) s = .next t ∧
          FillChecked f.kind { x with staging := x.staging ++ f.data, offset := n, declared := some n
                                      pull := some { p with replyTimer := none, request := none } } u t)

/-- LOAD_BEGIN: BAD_KIND, then BAD_SIZE outside a header and integrity word to 6,144 or 2,048 bytes; else a host fill
begins in place of whatever the loader held, the active image staying. LOAD_SEGMENT of 1..64 bytes: BAD_KIND, NO_LOAD
outside HOST_FILL, OUT_OF_SEQUENCE with the fill discarded; else the data is appended, and a complete image is checked
within the command. The loader state that the last segment answers, and the order of a build's effects, are read by
inference (log entries 19, 20, 32). -/
def Obligations.HostFillBeginsAndRunsInSequence : Prop :=
  (∀ (tag k n : Nat) (kind : TableKind) (s : State), s.Serving →
     (1 < k → exec (.loadBegin tag k n) s = .next (s.answered 10 tag ⟨.refused, some .badKind, .none⟩)) ∧
     (k = (match kind with | .timetable => 0 | .fare => 1) →
       (n < imageMinimum ∨ (match kind with | .timetable => 6144 | .fare => 2048) < n →
         exec (.loadBegin tag k n) s = .next (s.answered 10 tag ⟨.refused, some .badSize, .none⟩)) ∧
       (imageMinimum ≤ n → n ≤ (match kind with | .timetable => 6144 | .fare => 2048) →
         exec (.loadBegin tag k n) s = .next ({ s with store := (s.store.setSlot kind { s.store.slot kind with
           loader := .hostFill, staging := [], declared := some n, offset := 0, origin := some .host, pull := none
           pullWait := none }) }.answered 10 tag ⟨.ok, none, .none⟩)))) ∧
  (∀ (tag k off : Nat) (data : List Byte) (kind : TableKind) (s : State) (x : Slot), s.Serving → 1 ≤ data.length →
     data.length ≤ 64 → x = s.store.slot kind →
     (1 < k → exec (.loadSegment tag k off data) s = .next (s.answered 11 tag ⟨.refused, some .badKind, .none⟩)) ∧
     (k = (match kind with | .timetable => 0 | .fare => 1) →
       (x.loader ≠ .hostFill → exec (.loadSegment tag k off data) s = .next (s.answered 11 tag ⟨.refused, some .noLoad, .none⟩)) ∧
       ∀ n, x.loader = .hostFill → x.declared = some n →
         (off ≠ x.offset ∨ n < off + data.length → exec (.loadSegment tag k off data) s = .next
           ((raise (.loadRejected kind .outOfSequence x.offset .host) { s with store := (s.store.setSlot kind { x with
             loader := .empty, staging := [], declared := none, offset := 0, origin := none, pull := none }) }).answered 11 tag
               ⟨.refused, some .outOfSequence, .none⟩)) ∧
         (off = x.offset → off + data.length < n → exec (.loadSegment tag k off data) s = .next
           ({ s with store := (s.store.setSlot kind
               { x with staging := x.staging ++ data, offset := off + data.length }) }.answered 11 tag
             ⟨.ok, none, .loadProgress (off + data.length) none⟩)) ∧
         (off = x.offset → off + data.length = n → ∃ t l, exec (.loadSegment tag k off data) s = .next
             (t.answered 11 tag ⟨.ok, none, .loadProgress n (some l)⟩) ∧
           FillChecked kind { x with staging := x.staging ++ data, offset := n } s t ∧
           (checkImage kind s.setup.settings.haltCode x.activeEdition (x.staging ++ data) = none → l = .staged) ∧
           (checkImage kind s.setup.settings.haltCode x.activeEdition (x.staging ++ data) ≠ none → l = .empty))))

/-- LOAD_ABANDON: BAD_KIND; in HOST_FILL the fill is discarded and the loader EMPTY, without a notice; else NO_LOAD (R106). -/
def Obligations.LoadAbandonDiscardsTheFill : Prop :=
  ∀ (tag k : Nat) (kind : TableKind) (s : State), s.Serving →
    (1 < k → exec (.loadAbandon tag k) s = .next (s.answered 12 tag ⟨.refused, some .badKind, .none⟩)) ∧
    (k = (match kind with | .timetable => 0 | .fare => 1) →
      ((s.store.slot kind).loader ≠ .hostFill →
        exec (.loadAbandon tag k) s = .next (s.answered 12 tag ⟨.refused, some .noLoad, .none⟩)) ∧
      ((s.store.slot kind).loader = .hostFill →
        exec (.loadAbandon tag k) s = .next ({ s with store := (s.store.setSlot kind { s.store.slot kind with
          loader := .empty, staging := [], declared := none, offset := 0, origin := none, pull := none }) }.answered 12 tag
            ⟨.ok, none, .none⟩)))

/-! ### Bulletins (R168, R169, R176, R177) -/

/-- BULLETIN from a PRESENT peer, by the first row of R168: carried for another origin or without a span of validity it
is ignored; withdrawn or expired it removes; equal content changes nothing; else it replaces in place or joins at the
end of a list with room. The order of the changes, and the event at INFO becoming SUSPENSION, are read by inference (log
entries 25, 26). -/
def Obligations.BulletinFrameKeepsTheList : Prop :=
  ∀ (h : FrameHead) (f : BulletinFields) (s u : State) (n : Bulletin), FromPresent h s → f.wellFormed = true →
    u = s.heardFrom h.origin → DistinctIds s.bulletins.list →
    n = ⟨f.origin, f.number, f.kind, f.validFrom, f.validUntil, f.text, false⟩ →
    (f.origin ≠ h.origin ∨ (f.withdrawn = false ∧ f.validFrom.before f.validUntil = false) →
      exec (.bulletinReceived h f) s = .next u) ∧
    (f.origin = h.origin → f.withdrawn = true ∨ f.validFrom.before f.validUntil = true →
      (findBulletin s.bulletins.list f.origin f.number = none →
        (f.withdrawn = true ∨ n.expiredAt s.clock = true → exec (.bulletinReceived h f) s = .next u) ∧
        (f.withdrawn = false → n.expiredAt s.clock = false → s.bulletins.list.length < 4 →
          ∃ t, exec (.bulletinReceived h f) s = .next t ∧ BulletinsChanged u t (s.bulletins.list ++ [n]))) ∧
      ∀ b, findBulletin s.bulletins.list f.origin f.number = some b →
        (f.withdrawn = true ∨ n.expiredAt s.clock = true →
          ∃ t, exec (.bulletinReceived h f) s = .next t ∧ BulletinsChanged u t
            (s.bulletins.list.filter (fun x => !(x.origin = f.origin && x.number = f.number)))) ∧
        (f.withdrawn = false → n.expiredAt s.clock = false → n = { b with inForce := false } →
          exec (.bulletinReceived h f) s = .next u) ∧
        (f.withdrawn = false → n.expiredAt s.clock = false → n ≠ { b with inForce := false } →
          (b.inForce = false ∨ b.kind = .suspension ∨ n.kind = .info) →
          ∃ t, exec (.bulletinReceived h f) s = .next t ∧ BulletinsChanged u t (s.bulletins.list.map (fun x =>
            if x.origin = f.origin ∧ x.number = f.number then { n with inForce := b.inForce } else x))) ∧
        (f.withdrawn = false → n.expiredAt s.clock = false → b.inForce = true → b.kind = .info → n.kind = .suspension →
          ∃ t, exec (.bulletinReceived h f) s = .next t ∧ BulletinsChanged (raiseSuspension u) t (s.bulletins.list.map (fun x =>
            if x.origin = f.origin ∧ x.number = f.number then { n with inForce := true } else x))))

/-- POST_BULLETIN: BAD_BULLETIN, then EXPIRED; else the counter rises, 255 going on to 1, the id is answered, the
bulletin joins (at four, an INFO one with the earliest valid-until is dropped, else such a SUSPENSION one), and its
frame is handed to the line. WITHDRAW_BULLETIN: NOT_OWN, then BAD_BULLETIN; else the answer says whether it was held, it
leaves the list, and a withdrawn frame is handed to the line. The order of the changes, and a post whose number is still
held, are the model's reading (log entries 25, 27). -/
def Obligations.BulletinCommandsKeepTheList : Prop :=
  (∀ (tag k : Nat) (a b : Instant) (text : Text) (s : State), s.Serving → 1 ≤ text.length → text.length ≤ 64 →
     (1 < k ∨ a.valid = false ∨ b.valid = false ∨ (∃ c ∈ text, c < 32 ∨ 126 < c) ∨ a.before b = false →
       exec (.postBulletin tag k a b text) s = .next (s.answered 14 tag ⟨.refused, some .badBulletin, .none⟩)) ∧
     (k ≤ 1 → a.valid = true → b.valid = true → (∀ c ∈ text, 32 ≤ c ∧ c ≤ 126) → a.before b = true →
       (s.clock.grade ≠ .unset → (⟨s.clock.date, s.clock.second⟩ : Instant).before b = false →
         exec (.postBulletin tag k a b text) s = .next (s.answered 14 tag ⟨.refused, some .expired, .none⟩)) ∧
       ∀ (m : Nat) (x : Bulletin), s.clock.grade = .unset ∨ (⟨s.clock.date, s.clock.second⟩ : Instant).before b = true →
         m = (if s.bulletins.counter = 255 then 1 else s.bulletins.counter + 1) →
         x = ⟨s.setup.straps.station, m, if k = 0 then .info else .suspension, a, b, text, false⟩ →
         DistinctIds s.bulletins.list → findBulletin s.bulletins.list s.setup.straps.station m = none →
         (s.bulletins.list.length < 4 → ∃ v, BulletinsChanged
             { s with bulletins := { s.bulletins with counter := m } } v (s.bulletins.list ++ [x]) ∧
           exec (.postBulletin tag k a b text) s = .next ((hand (.bulletin ⟨x.origin, m, x.kind, false, a, b, text⟩) v).answered
             14 tag ⟨.ok, none, .bulletinPosted x.origin m none⟩)) ∧
         ∀ d, s.bulletins.list.length = 4 → d ∈ s.bulletins.list →
           (d.kind = .info ∨ ∀ y ∈ s.bulletins.list, y.kind = .suspension) →
           (∀ y ∈ s.bulletins.list, y ≠ d → d.kind = .info → y.kind = .suspension ∨ d.validUntil.before y.validUntil = true) →
           (∀ y ∈ s.bulletins.list, y ≠ d → d.kind = .suspension → d.validUntil.before y.validUntil = true) →
           ∃ v, BulletinsChanged { s with bulletins := { s.bulletins with counter := m } } v
               (s.bulletins.list.filter (fun y => !(y.origin = d.origin && y.number = d.number)) ++ [x]) ∧
             exec (.postBulletin tag k a b text) s = .next ((hand (.bulletin ⟨x.origin, m, x.kind, false, a, b, text⟩) v).answered
               14 tag ⟨.ok, none, .bulletinPosted x.origin m (some (d.origin, d.number))⟩))) ∧
  (∀ (tag o n : Nat) (s : State), s.Serving → DistinctIds s.bulletins.list →
     (o ≠ s.setup.straps.station →
       exec (.withdrawBulletin tag o n) s = .next (s.answered 15 tag ⟨.refused, some .notOwn, .none⟩)) ∧
     (o = s.setup.straps.station → n = 0 ∨ 255 < n →
       exec (.withdrawBulletin tag o n) s = .next (s.answered 15 tag ⟨.refused, some .badBulletin, .none⟩)) ∧
     (o = s.setup.straps.station → 1 ≤ n → n ≤ 255 →
       (findBulletin s.bulletins.list o n = none → exec (.withdrawBulletin tag o n) s = .next
         ((hand (.bulletin ⟨o, n, .info, true, ⟨⟨2000, 0, 0⟩, 0⟩, ⟨⟨2000, 0, 0⟩, 0⟩, []⟩) s).answered 15 tag
           ⟨.ok, none, .bulletinHeld false⟩)) ∧
       ∀ b, findBulletin s.bulletins.list o n = some b → ∃ v,
         BulletinsChanged s v (s.bulletins.list.filter (fun x => !(x.origin = o && x.number = n))) ∧
         exec (.withdrawBulletin tag o n) s = .next
           ((hand (.bulletin ⟨o, n, b.kind, true, b.validFrom, b.validUntil, []⟩) v).answered 15 tag
             ⟨.ok, none, .bulletinHeld true⟩)))

/-! ### Sales (R120 to R146) -/

/-- SALE_QUOTE: SALE_BUSY past QUOTED, then the checks of R126 in their order, each with its reason; a request that passes
is priced by R127 to R129 and, for a space product, checked against its call; the sale is QUOTED with the items, for 60 s.
That bit 0 of the off-peak mask is Monday is read by inference (log entry 50). -/
def Obligations.SaleQuotePricesTheRequest : Prop :=
  ∀ (tag : Nat) (q : QuoteRequest) (s : State) (no : Reason → State), s.Serving → s.setup.straps.sells = true →
    (∀ x, no x = s.answered 20 tag ⟨.refused, some x, .none⟩) →
    (∀ r, s.sales.sale = some r → r.stage ≠ .quoted → exec (.saleQuote tag q) s = .next (no .saleBusy)) ∧
    ((∀ r, s.sales.sale = some r → r.stage = .quoted) →
      (s.store.fare.active = none → exec (.saleQuote tag q) s = .next (no .noFares)) ∧
      ∀ (image : List Byte) (t : FareTable), s.store.fare.active = some image → t = fareTableOf image →
        (s.clock.grade = .unset → exec (.saleQuote tag q) s = .next (no .noTime)) ∧
        (s.clock.grade ≠ .unset → q.product ∉ s.overlay.ids → exec (.saleQuote tag q) s = .next (no .notOffered)) ∧
        (s.clock.grade ≠ .unset → q.product ∈ s.overlay.ids →
          (t.productWith q.product = none → exec (.saleQuote tag q) s = .next (no .notInTable)) ∧
          ∀ (p : Product) (bands : List Nat) (space : Bool) (con n : Nat), t.productWith q.product = some (p, bands) →
            (space = true ↔ p.cls = .spaceBike ∨ p.cls = .spaceChair) → con = (if space then 0 else q.concession) →
            n = (if space then 1 else q.passengers) →
            (con ≠ 0 → (∀ x ∈ t.concessions, x.1 ≠ con) → exec (.saleQuote tag q) s = .next (no .notInTable)) ∧
            ∀ pct, (con = 0 ∧ pct = 100 ∨ con ≠ 0 ∧ (t.concessions.find? (fun x => x.1 = con)).map (·.2) = some pct) →
              ((∀ f ∈ t.stations, f.code ≠ q.destination) → exec (.saleQuote tag q) s = .next (no .badDestination)) ∧
              ∀ f, t.stations.find? (fun x => x.code = q.destination) = some f →
                (n = 0 → exec (.saleQuote tag q) s = .next (no .badPassengers)) ∧
                (0 < n → space = false → t.groupLimit.getD 0 < n → exec (.saleQuote tag q) s = .next (no .tooMany)) ∧
                ∀ (rule : OffPeakRule) (inside : Bool) (b b1 b2 : Nat) (items : QuoteItems), 0 < n →
                  space = true ∨ n ≤ t.groupLimit.getD 0 → t.offPeak = some rule →
                  (inside = true ↔ p.offPeakEligible = true ∧ rule.mask.testBit s.clock.weekday = true ∧ rule.start < rule.stop ∧
                    rule.start ≤ s.clock.second / 60 ∧ s.clock.second / 60 < rule.stop) →
                  b = bands.getD (f.band - 1) 0 → b1 = (if inside then (b * rule.percent + 50) / 100 else b) →
                  b2 = (b1 * pct + 50) / 100 →
                  items = { product := p.id, cls := p.cls, destination := f.code, band := f.band, nameIndex := f.nameIndex
                            concession := con, passengers := n, baseFare := b, unitFare := b2, offPeak := inside
                            quote := min 99999
                              ((b2 * n + s.setup.settings.coinStep - 1) / s.setup.settings.coinStep * s.setup.settings.coinStep)
                            edition := s.store.fare.activeEdition } →
                  (space = true → s.calls.date ≠ s.clock.date ∨
                      (∀ c ∈ s.calls.calls, some c.service = q.call → c.kind = .pass ∨ c.state.awaited = false ∨
                        ∀ e, c.estimates = some e → e.dep ≤ s.clock.second + 120) ∨
                      (∃ x ∈ s.bulletins.list, x.inForce = true ∧ x.kind = .suspension) →
                    exec (.saleQuote tag q) s = .next (no .noSpaceSale)) ∧
                  (space = false → exec (.saleQuote tag q) s = .next ({ s with sales := { s.sales with sale := (some
                    ⟨.quoted, items, none, none, 0, 0, 0, none, .none, some ⟨s.clock.tick, 600⟩, none⟩) } }.answered 20 tag
                      ⟨.ok, none, .quote items⟩)) ∧
                  ∀ (c : Call) (e : Estimates) (cls : SpaceClass), space = true → s.calls.date = s.clock.date →
                    q.call = some c.service → s.calls.calls.find? (fun x => x.service = c.service) = some c → c.kind = .stop →
                    c.state.awaited = true → c.estimates = some e → s.clock.second + 120 < e.dep →
                    (∀ x ∈ s.bulletins.list, x.inForce = true → x.kind = .info) →
                    (p.cls = .spaceBike → cls = .bike) → (p.cls = .spaceChair → cls = .chair) →
                    exec (.saleQuote tag q) s = .next ({ s with sales := { s.sales with sale := (some
                      ⟨.quoted, items, some ⟨c.service, s.clock.date, cls⟩, none, 0, 0, 0, none, .none, some ⟨s.clock.tick, 600⟩,
                        none⟩) } }.answered 20 tag ⟨.ok, none, .quote items⟩)))

/-- SALE_ACCEPT: NO_QUOTE, SALE_BUSY, JOURNAL_FULL, SERIALS_EXHAUSTED; an ordinary sale enters PAYING for 120 s, or
ISSUING when its quote is 0; a space sale queues a CLAIM and is CLAIMING, or is closed and refused for want of space, room
or the line. That the CLAIM names the sequence it is queued under is read by inference (log entry 43). -/
def Obligations.SaleAcceptPaysOrClaims : Prop :=
  ∀ (tag : Nat) (s : State) (no : Reason → State → State), s.Serving → s.setup.straps.sells = true →
    (∀ x v, no x v = v.answered 21 tag ⟨.refused, some x, .none⟩) →
    (s.sales.sale = none → exec (.saleAccept tag) s = .next (no .noQuote s)) ∧
    ∀ r, s.sales.sale = some r →
      (r.stage ≠ .quoted → exec (.saleAccept tag) s = .next (no .saleBusy s)) ∧
      (r.stage = .quoted → 64 ≤ s.sales.journal.length → exec (.saleAccept tag) s = .next (no .journalFull s)) ∧
      (r.stage = .quoted → s.sales.journal.length < 64 → 999999 ≤ s.sales.serialCounter →
        exec (.saleAccept tag) s = .next (no .serialsExhausted s)) ∧
      (r.stage = .quoted → s.sales.journal.length < 64 → s.sales.serialCounter < 999999 →
        (r.space = none → r.credit < r.quote.quote → exec (.saleAccept tag) s = .next
          ({ s with sales := { s.sales with sale := (some { r with
            stage := .paying, hold := .none, lifetime := none, payment := some ⟨s.clock.tick, 1200⟩ }) } }.answered 21 tag
              ⟨.ok, none, .saleStage .paying⟩)) ∧
        (r.space = none → r.quote.quote ≤ r.credit → ∃ t n c, Issued s t r r.credit n c ∧
          exec (.saleAccept tag) s = .next (t.answered 21 tag ⟨.ok, none, .saleStage .issuing⟩)) ∧
        ∀ x, r.space = some x →
          (capacityOf s x.service x.date x.cls ≤ occupancy s.claims x.service x.date x.cls →
            ∃ t, Closed s t r .noSpace false 0 r.credit none ∧ exec (.saleAccept tag) s = .next (no .noSpace t)) ∧
          (occupancy s.claims x.service x.date x.cls < capacityOf s x.service x.date x.cls →
            (24 ≤ s.claims.length →
              ∃ t, Closed s t r .noRoom false 0 r.credit none ∧ exec (.saleAccept tag) s = .next (no .noRoom t)) ∧
            (s.claims.length < 24 → s.line.muted = true →
              ∃ t, Closed s t r .lineFault false 0 r.credit none ∧ exec (.saleAccept tag) s = .next (no .lineFault t)) ∧
            (s.claims.length < 24 → s.line.muted = false → 12 ≤ s.line.queue.length →
              (∀ g ∈ s.line.queue, g.payload.kind.urgent = true) →
              ∃ t, Closed s t r .lineBusy false 0 r.credit none ∧ exec (.saleAccept tag) s = .next (no .lineBusy t)) ∧
            (s.claims.length < 24 → s.line.muted = false → s.line.queue.length < 12 → exec (.saleAccept tag) s = .next
              ({ s with
                line := { s.line with
                  queue := s.line.queue ++ [(⟨s.line.seqCounter, 0, .claim ⟨x.service, x.date, x.cls, s.line.seqCounter⟩⟩ : TxFrame)]
                  seqCounter := (s.line.seqCounter + 1) % 4096
                  condition := if s.line.queue = [] then .waiting s.clock.tick else s.line.condition }
                claims := s.claims ++
                  [(⟨x.service, x.date, x.cls, s.setup.straps.station, s.line.seqCounter, none, .queued, none⟩ : Claim)]
                sales := { s.sales with sale := (some { r with
                  stage := .claiming, claim := some s.line.seqCounter, lifetime := none }) } }.answered 21 tag
                ⟨.ok, none, .saleStage .claiming⟩))))

/-- SALE_CREDIT: NOT_PAYING in any other state, BAD_AMOUNT outside 1..99,999; else the credit grows and the hold ends: below the
quote the payment timer restarts with 120 s, at or above it the sale enters ISSUING. -/
def Obligations.SaleCreditPaysTheQuote : Prop :=
  ∀ (tag n : Nat) (s : State), s.Serving → s.setup.straps.sells = true →
    ((∀ r, s.sales.sale = some r → r.stage ≠ .paying) →
      exec (.saleCredit tag n) s = .next (s.answered 22 tag ⟨.refused, some .notPaying, .none⟩)) ∧
    ∀ r, s.sales.sale = some r → r.stage = .paying →
      (n = 0 ∨ 99999 < n → exec (.saleCredit tag n) s = .next (s.answered 22 tag ⟨.refused, some .badAmount, .none⟩)) ∧
      (1 ≤ n → n ≤ 99999 →
        (r.credit + n < r.quote.quote → exec (.saleCredit tag n) s = .next
          ({ s with sales := { s.sales with sale := (some { r with
            credit := r.credit + n, hold := .none, payment := some ⟨s.clock.tick, 1200⟩ }) } }.answered 22 tag
              ⟨.ok, none, .credit (r.credit + n) (r.quote.quote - (r.credit + n))⟩)) ∧
        (r.quote.quote ≤ r.credit + n → ∃ t serial change, Issued s t r (r.credit + n) serial change ∧
          exec (.saleCredit tag n) s = .next (t.answered 22 tag ⟨.ok, none, .creditIssued (r.credit + n) change serial⟩)))

/-- SALE_HOLD: NOT_PAYING, BAD_HOLD above 600; else the payment timer restarts with the seconds given, or stops for 0.
SALE_CANCEL, and the quote lifetime and payment timers when due, close an unissued sale with its credit as the refund;
SALE_CANCEL is refused NO_SALE in IDLE and IN_ISSUE in ISSUING; a timer not due, or of another state, changes nothing.
That expiries are commands which act only when due is the model's choice (log entry 9). -/
def Obligations.HoldsAndAbortsOfASale : Prop :=
  (∀ (tag n : Nat) (s : State), s.Serving → s.setup.straps.sells = true →
     ((∀ r, s.sales.sale = some r → r.stage ≠ .paying) →
       exec (.saleHold tag n) s = .next (s.answered 23 tag ⟨.refused, some .notPaying, .none⟩)) ∧
     ∀ r, s.sales.sale = some r → r.stage = .paying →
       (600 < n → exec (.saleHold tag n) s = .next (s.answered 23 tag ⟨.refused, some .badHold, .none⟩)) ∧
       (n = 0 → exec (.saleHold tag n) s = .next ({ s with sales := { s.sales with
         sale := (some { r with hold := .suspended, payment := none }) } }.answered 23 tag ⟨.ok, none, .none⟩)) ∧
       (1 ≤ n → n ≤ 600 → exec (.saleHold tag n) s = .next ({ s with sales := { s.sales with
         sale := (some { r with hold := .extended n, payment := some ⟨s.clock.tick, 10 * n⟩ }) } }.answered 23 tag
           ⟨.ok, none, .none⟩))) ∧
  (∀ (tag : Nat) (s : State), s.Serving → s.setup.straps.sells = true →
     (s.sales.sale = none → exec (.saleCancel tag) s = .next (s.answered 24 tag ⟨.refused, some .noSale, .none⟩) ∧
       exec .quoteLifetimeExpiry s = .next s ∧ exec .paymentTimerExpiry s = .next s) ∧
     ∀ r, s.sales.sale = some r →
       (r.stage = .issuing → exec (.saleCancel tag) s = .next (s.answered 24 tag ⟨.refused, some .inIssue, .none⟩)) ∧
       (r.stage ≠ .issuing → ∃ t, Closed s t r .hostCancel false 0 r.credit none ∧
         exec (.saleCancel tag) s = .next (t.answered 24 tag ⟨.ok, none, .refund r.credit⟩)) ∧
       (r.stage ≠ .quoted ∨ (∀ x, r.lifetime = some x → s.clock.tick < x.start + x.span) →
         exec .quoteLifetimeExpiry s = .next s) ∧
       (∀ x, r.stage = .quoted → r.lifetime = some x → x.start + x.span ≤ s.clock.tick →
         ∃ t, exec .quoteLifetimeExpiry s = .next t ∧ Closed s t r .quoteExpired false 0 r.credit none) ∧
       (r.stage ≠ .paying ∨ (∀ x, r.payment = some x → s.clock.tick < x.start + x.span) →
         exec .paymentTimerExpiry s = .next s) ∧
       ∀ x, r.stage = .paying → r.payment = some x → x.start + x.span ≤ s.clock.tick →
         ∃ t, exec .paymentTimerExpiry s = .next t ∧ Closed s t r .payTimeout false 0 r.credit none)

/-- SALE_PRINTED: NOT_ISSUING outside ISSUING; ok closes the sale ISSUED, its claim taken; failed makes its journal record VOID with
the credit as the refund, and closes it VOID, its claim released. -/
def Obligations.SalePrintedClosesTheIssue : Prop :=
  ∀ (tag : Nat) (s : State), s.Serving → s.setup.straps.sells = true →
    (∀ x, (∀ r, s.sales.sale = some r → r.stage ≠ .issuing) →
      exec (.salePrinted tag x) s = .next (s.answered 25 tag ⟨.refused, some .notIssuing, .none⟩)) ∧
    ∀ r, s.sales.sale = some r → r.stage = .issuing →
      (∃ t, Closed s t r .issued true r.change r.refund r.serial ∧
        exec (.salePrinted tag .ok) s = .next (t.answered 25 tag ⟨.ok, none, .none⟩)) ∧
      ∃ t, Closed { s with sales := { s.sales with journal := (s.sales.journal.map (fun j =>
            if r.serial = some j.serial then { j with void := true, refund := r.credit, change := 0 } else j)) } }
          t r .void false 0 r.credit r.serial ∧
        exec (.salePrinted tag .failed) s = .next (t.answered 25 tag ⟨.ok, none, .none⟩)

/-- JOURNAL_READ answers the count and up to four records after the k oldest; JOURNAL_RELEASE removes the n oldest and answers the new
count, or is refused BAD_COUNT, or IN_ISSUE for the record of the sale being issued (R146). -/
def Obligations.JournalReadAndRelease : Prop :=
  ∀ (tag n : Nat) (s : State), s.Serving → s.setup.straps.sells = true →
    (∃ out, exec (.journalRead tag n) s = .next (s.answered 26 tag ⟨.ok, none, .journal s.sales.journal.length out⟩) ∧
      out.length = min 4 (s.sales.journal.length - n) ∧
      ∀ (k : Nat) (j : JournalRecord), out[k]? = some j → s.sales.journal[n + k]? = some j) ∧
    (s.sales.journal.length < n →
      exec (.journalRelease tag n) s = .next (s.answered 27 tag ⟨.refused, some .badCount, .none⟩)) ∧
    (n = s.sales.journal.length → (∃ r, s.sales.sale = some r ∧ r.stage = .issuing) →
      exec (.journalRelease tag n) s = .next (s.answered 27 tag ⟨.refused, some .inIssue, .none⟩)) ∧
    ∀ old rest, s.sales.journal = old ++ rest → old.length = n →
      (rest ≠ [] ∨ ∀ r, s.sales.sale = some r → r.stage ≠ .issuing) →
      exec (.journalRelease tag n) s = .next
        ({ s with sales := { s.sales with journal := rest } }.answered 27 tag ⟨.ok, none, .journalCount rest.length⟩)

/-! ### What every step keeps -/

/-- Every step, from any state, keeps the Notice Unit: at most 16 notices, counts within a byte, fourteen flags, and the notice line
asserted exactly while an unmasked notice is queued or a latch is set (R178 to R180). -/
def Obligations.EveryStepKeepsTheNoticeUnit : Prop :=
  ∀ s t : State, step s = .next t →
    NoticesOk s.notices → NoticesOk t.notices

/-- Every step keeps the transmit queue: at most 12 frames, at most one ANNOUNCE and one RUNNING per service, none while muted, a
condition exactly while a frame is current, sequence and receive count within their ranges (R80, R85, R86, R92). -/
def Obligations.EveryStepKeepsTheTransmitQueue : Prop :=
  ∀ s t : State, step s = .next t → LineOk s.line → LineOk t.line

/-- Every step keeps the service clock within its ranges, the weekday being that of the date (R1, R5), the Call Table, Claim List
and Bulletin List within 192, 24 and 4 entries, and the bulletins' ids distinct (R15, R147, R168). -/
def Obligations.EveryStepKeepsClockAndCapacities : Prop :=
  ∀ s t : State, step s = .next t → ClockOk s.clock → CapacitiesOk s → ClockOk t.clock ∧ CapacitiesOk t

/-- Every step keeps the Call Table: for every call S_d at or after S_a, E_base and E_a at least S_a − 900, E_d of a STOP call at
least S_d and at least E_a plus the dwell, E_d of a PASS call its E_a (R47); no two calls of one service number; the table that of
the clock's date; estimates exactly at grades 1..3 (R12, R16 to R18). The last at a first step is the model's reading (log entry 42). -/
def Obligations.EveryStepKeepsTheCallTable : Prop :=
  ∀ s t : State, step s = .next t → CallsOk s → CallsOk t

/-- Every step keeps the Claim List: no two claims share a key, and every claim, and every space sale not yet in ISSUING, is for a call
that is neither DEPARTED, LAPSED nor CANCELLED (R31, R143, R147). That no own claim bears the sequence about to be given is assumed,
since the model does not tell two own claims of one sequence apart (log entry 29). -/
def Obligations.EveryStepKeepsClaimsOnLiveCalls : Prop :=
  ∀ s t : State, step s = .next t → CallsOk s → ClaimsOk s →
    (∀ x ∈ s.claims, x.origin = s.setup.straps.station → x.seq ≠ s.line.seqCounter) → ClaimsOk t

/-- Every step keeps the Sale Unit: the journal's 64 records, room and a serial for every accepted sale, and its money: credit is
fare and change in ISSUING, the newest record the sale's own; serials rise and carry the station's number (R136, R139, R142 to R145). -/
def Obligations.EveryStepKeepsTheSaleUnit : Prop :=
  ∀ s t : State, step s = .next t → SaleOk s → MoneyOk s → SaleOk t ∧ MoneyOk t

/-- Every step keeps the law that every active image, and every staged one, has passed the integrity check and carries the
station's configured halt code (R109). -/
def Obligations.EveryStepKeepsTheStoredEditionsSound : Prop :=
  ∀ s t : State, step s = .next t → StoreOk s → StoreOk t

/-- Every step keeps one peer entry for each other station and, in RUN, the watch view formed of the own covering pairs and the
PRESENT peers (R20, R21, R95). -/
def Obligations.EveryStepKeepsThePeerTable : Prop :=
  ∀ s t : State, step s = .next t → PeersOk s → PeersOk t

/-- Every step keeps the overlay a non-empty set of the ids 1..15; a frozen overlay changes by POWER_ON_RESET alone (R184, R187). -/
def Obligations.EveryStepKeepsTheOverlay : Prop :=
  ∀ s t : State, step s = .next t → OverlayOk s.overlay → OverlayOk t.overlay ∧
    (s.overlay.frozen = true → (∀ x, s.pending.head? ≠ some (.powerOnReset x)) → t.overlay = s.overlay)

/-- The active fare image and edition do not change in a step that finds the sale out of IDLE and leaves it out of IDLE (R117). -/
def Obligations.FareEditionStandsDuringASale : Prop :=
  ∀ s t : State, step s = .next t → s.sales.sale ≠ none → t.sales.sale ≠ none →
    t.store.fare.active = s.store.fare.active ∧ t.store.fare.activeEdition = s.store.fare.activeEdition

/-- The serial counter falls at POWER_ON_RESET alone (R144); a mute ends at a reset alone (R92); the clock grade rises by
SET_TIME, to HOST, or by an ANNOUNCE, to ADOPTED, alone, as commands of their own or as the bytes that carry them (R5 to
R7). That two commands carry raw bytes is the model's choice (log entries 36, 37). -/
def Obligations.SerialsMutingAndGradesMoveByRule : Prop :=
  ∀ (s t : State) (c : Instr) (rest : List Instr), s.pending = c :: rest → step s = .next t →
    ((∀ x, c ≠ .powerOnReset x) → s.sales.serialCounter ≤ t.sales.serialCounter) ∧
    (s.line.muted = true → t.line.muted = true ∨
      (t.setup.running = false ∧ t.setup.configured = false ∧ t.host.ready = false ∧
        ((∃ x, c = .powerOnReset x) ∨ (∃ x, c = .pinReset x) ∨ (∃ tag x, c = .reset tag x) ∨
          ∃ bs, c = .unknownCommandFrame bs))) ∧
    (s.clock.grade.code < t.clock.grade.code →
      (t.clock.grade = .host ∧ ((∃ tag d h, c = .setTime tag d h) ∨ ∃ bs, c = .unknownCommandFrame bs)) ∨
      (t.clock.grade = .adopted ∧ ((∃ h f, c = .announceReceived h f) ∨ ∃ bs, c = .malformedFrame bs)))
end

