-- ==== Sys2Proof/Laws/State.lean ====
section
/-! SUPPORT. One lemma per block per block update of State, true by rfl: what each update leaves and what it sets. -/

namespace Sys2Proof.Machine.State

section withSetup
variable (s : State) (x y : Setup)
@[simp] theorem withSetup_setup : (s.withSetup x).setup = x := rfl
@[simp] theorem withSetup_overlay : (s.withSetup x).overlay = s.overlay := rfl
@[simp] theorem withSetup_clock : (s.withSetup x).clock = s.clock := rfl
@[simp] theorem withSetup_calls : (s.withSetup x).calls = s.calls := rfl
@[simp] theorem withSetup_treadles : (s.withSetup x).treadles = s.treadles := rfl
@[simp] theorem withSetup_line : (s.withSetup x).line = s.line := rfl
@[simp] theorem withSetup_store : (s.withSetup x).store = s.store := rfl
@[simp] theorem withSetup_sales : (s.withSetup x).sales = s.sales := rfl
@[simp] theorem withSetup_claims : (s.withSetup x).claims = s.claims := rfl
@[simp] theorem withSetup_bulletins : (s.withSetup x).bulletins = s.bulletins := rfl
@[simp] theorem withSetup_board : (s.withSetup x).board = s.board := rfl
@[simp] theorem withSetup_host : (s.withSetup x).host = s.host := rfl
@[simp] theorem withSetup_notices : (s.withSetup x).notices = s.notices := rfl
@[simp] theorem withSetup_pending : (s.withSetup x).pending = s.pending := rfl
@[simp] theorem withSetup_withSetup : (s.withSetup x).withSetup y = s.withSetup y := rfl
@[simp] theorem withSetup_self : s.withSetup s.setup = s := rfl
end withSetup

section withOverlay
variable (s : State) (x y : Overlay)
@[simp] theorem withOverlay_setup : (s.withOverlay x).setup = s.setup := rfl
@[simp] theorem withOverlay_overlay : (s.withOverlay x).overlay = x := rfl
@[simp] theorem withOverlay_clock : (s.withOverlay x).clock = s.clock := rfl
@[simp] theorem withOverlay_calls : (s.withOverlay x).calls = s.calls := rfl
@[simp] theorem withOverlay_treadles : (s.withOverlay x).treadles = s.treadles := rfl
@[simp] theorem withOverlay_line : (s.withOverlay x).line = s.line := rfl
@[simp] theorem withOverlay_store : (s.withOverlay x).store = s.store := rfl
@[simp] theorem withOverlay_sales : (s.withOverlay x).sales = s.sales := rfl
@[simp] theorem withOverlay_claims : (s.withOverlay x).claims = s.claims := rfl
@[simp] theorem withOverlay_bulletins : (s.withOverlay x).bulletins = s.bulletins := rfl
@[simp] theorem withOverlay_board : (s.withOverlay x).board = s.board := rfl
@[simp] theorem withOverlay_host : (s.withOverlay x).host = s.host := rfl
@[simp] theorem withOverlay_notices : (s.withOverlay x).notices = s.notices := rfl
@[simp] theorem withOverlay_pending : (s.withOverlay x).pending = s.pending := rfl
@[simp] theorem withOverlay_withOverlay : (s.withOverlay x).withOverlay y = s.withOverlay y := rfl
@[simp] theorem withOverlay_self : s.withOverlay s.overlay = s := rfl
end withOverlay

section withClock
variable (s : State) (x y : Clock)
@[simp] theorem withClock_setup : (s.withClock x).setup = s.setup := rfl
@[simp] theorem withClock_overlay : (s.withClock x).overlay = s.overlay := rfl
@[simp] theorem withClock_clock : (s.withClock x).clock = x := rfl
@[simp] theorem withClock_calls : (s.withClock x).calls = s.calls := rfl
@[simp] theorem withClock_treadles : (s.withClock x).treadles = s.treadles := rfl
@[simp] theorem withClock_line : (s.withClock x).line = s.line := rfl
@[simp] theorem withClock_store : (s.withClock x).store = s.store := rfl
@[simp] theorem withClock_sales : (s.withClock x).sales = s.sales := rfl
@[simp] theorem withClock_claims : (s.withClock x).claims = s.claims := rfl
@[simp] theorem withClock_bulletins : (s.withClock x).bulletins = s.bulletins := rfl
@[simp] theorem withClock_board : (s.withClock x).board = s.board := rfl
@[simp] theorem withClock_host : (s.withClock x).host = s.host := rfl
@[simp] theorem withClock_notices : (s.withClock x).notices = s.notices := rfl
@[simp] theorem withClock_pending : (s.withClock x).pending = s.pending := rfl
@[simp] theorem withClock_withClock : (s.withClock x).withClock y = s.withClock y := rfl
@[simp] theorem withClock_self : s.withClock s.clock = s := rfl
end withClock

section withCalls
variable (s : State) (x y : CallTable)
@[simp] theorem withCalls_setup : (s.withCalls x).setup = s.setup := rfl
@[simp] theorem withCalls_overlay : (s.withCalls x).overlay = s.overlay := rfl
@[simp] theorem withCalls_clock : (s.withCalls x).clock = s.clock := rfl
@[simp] theorem withCalls_calls : (s.withCalls x).calls = x := rfl
@[simp] theorem withCalls_treadles : (s.withCalls x).treadles = s.treadles := rfl
@[simp] theorem withCalls_line : (s.withCalls x).line = s.line := rfl
@[simp] theorem withCalls_store : (s.withCalls x).store = s.store := rfl
@[simp] theorem withCalls_sales : (s.withCalls x).sales = s.sales := rfl
@[simp] theorem withCalls_claims : (s.withCalls x).claims = s.claims := rfl
@[simp] theorem withCalls_bulletins : (s.withCalls x).bulletins = s.bulletins := rfl
@[simp] theorem withCalls_board : (s.withCalls x).board = s.board := rfl
@[simp] theorem withCalls_host : (s.withCalls x).host = s.host := rfl
@[simp] theorem withCalls_notices : (s.withCalls x).notices = s.notices := rfl
@[simp] theorem withCalls_pending : (s.withCalls x).pending = s.pending := rfl
@[simp] theorem withCalls_withCalls : (s.withCalls x).withCalls y = s.withCalls y := rfl
@[simp] theorem withCalls_self : s.withCalls s.calls = s := rfl
end withCalls

section withTreadles
variable (s : State) (x y : Treadles)
@[simp] theorem withTreadles_setup : (s.withTreadles x).setup = s.setup := rfl
@[simp] theorem withTreadles_overlay : (s.withTreadles x).overlay = s.overlay := rfl
@[simp] theorem withTreadles_clock : (s.withTreadles x).clock = s.clock := rfl
@[simp] theorem withTreadles_calls : (s.withTreadles x).calls = s.calls := rfl
@[simp] theorem withTreadles_treadles : (s.withTreadles x).treadles = x := rfl
@[simp] theorem withTreadles_line : (s.withTreadles x).line = s.line := rfl
@[simp] theorem withTreadles_store : (s.withTreadles x).store = s.store := rfl
@[simp] theorem withTreadles_sales : (s.withTreadles x).sales = s.sales := rfl
@[simp] theorem withTreadles_claims : (s.withTreadles x).claims = s.claims := rfl
@[simp] theorem withTreadles_bulletins : (s.withTreadles x).bulletins = s.bulletins := rfl
@[simp] theorem withTreadles_board : (s.withTreadles x).board = s.board := rfl
@[simp] theorem withTreadles_host : (s.withTreadles x).host = s.host := rfl
@[simp] theorem withTreadles_notices : (s.withTreadles x).notices = s.notices := rfl
@[simp] theorem withTreadles_pending : (s.withTreadles x).pending = s.pending := rfl
@[simp] theorem withTreadles_withTreadles : (s.withTreadles x).withTreadles y = s.withTreadles y := rfl
@[simp] theorem withTreadles_self : s.withTreadles s.treadles = s := rfl
end withTreadles

section withLine
variable (s : State) (x y : Line)
@[simp] theorem withLine_setup : (s.withLine x).setup = s.setup := rfl
@[simp] theorem withLine_overlay : (s.withLine x).overlay = s.overlay := rfl
@[simp] theorem withLine_clock : (s.withLine x).clock = s.clock := rfl
@[simp] theorem withLine_calls : (s.withLine x).calls = s.calls := rfl
@[simp] theorem withLine_treadles : (s.withLine x).treadles = s.treadles := rfl
@[simp] theorem withLine_line : (s.withLine x).line = x := rfl
@[simp] theorem withLine_store : (s.withLine x).store = s.store := rfl
@[simp] theorem withLine_sales : (s.withLine x).sales = s.sales := rfl
@[simp] theorem withLine_claims : (s.withLine x).claims = s.claims := rfl
@[simp] theorem withLine_bulletins : (s.withLine x).bulletins = s.bulletins := rfl
@[simp] theorem withLine_board : (s.withLine x).board = s.board := rfl
@[simp] theorem withLine_host : (s.withLine x).host = s.host := rfl
@[simp] theorem withLine_notices : (s.withLine x).notices = s.notices := rfl
@[simp] theorem withLine_pending : (s.withLine x).pending = s.pending := rfl
@[simp] theorem withLine_withLine : (s.withLine x).withLine y = s.withLine y := rfl
@[simp] theorem withLine_self : s.withLine s.line = s := rfl
end withLine

section withStore
variable (s : State) (x y : Store)
@[simp] theorem withStore_setup : (s.withStore x).setup = s.setup := rfl
@[simp] theorem withStore_overlay : (s.withStore x).overlay = s.overlay := rfl
@[simp] theorem withStore_clock : (s.withStore x).clock = s.clock := rfl
@[simp] theorem withStore_calls : (s.withStore x).calls = s.calls := rfl
@[simp] theorem withStore_treadles : (s.withStore x).treadles = s.treadles := rfl
@[simp] theorem withStore_line : (s.withStore x).line = s.line := rfl
@[simp] theorem withStore_store : (s.withStore x).store = x := rfl
@[simp] theorem withStore_sales : (s.withStore x).sales = s.sales := rfl
@[simp] theorem withStore_claims : (s.withStore x).claims = s.claims := rfl
@[simp] theorem withStore_bulletins : (s.withStore x).bulletins = s.bulletins := rfl
@[simp] theorem withStore_board : (s.withStore x).board = s.board := rfl
@[simp] theorem withStore_host : (s.withStore x).host = s.host := rfl
@[simp] theorem withStore_notices : (s.withStore x).notices = s.notices := rfl
@[simp] theorem withStore_pending : (s.withStore x).pending = s.pending := rfl
@[simp] theorem withStore_withStore : (s.withStore x).withStore y = s.withStore y := rfl
@[simp] theorem withStore_self : s.withStore s.store = s := rfl
end withStore

section withSales
variable (s : State) (x y : SaleUnit)
@[simp] theorem withSales_setup : (s.withSales x).setup = s.setup := rfl
@[simp] theorem withSales_overlay : (s.withSales x).overlay = s.overlay := rfl
@[simp] theorem withSales_clock : (s.withSales x).clock = s.clock := rfl
@[simp] theorem withSales_calls : (s.withSales x).calls = s.calls := rfl
@[simp] theorem withSales_treadles : (s.withSales x).treadles = s.treadles := rfl
@[simp] theorem withSales_line : (s.withSales x).line = s.line := rfl
@[simp] theorem withSales_store : (s.withSales x).store = s.store := rfl
@[simp] theorem withSales_sales : (s.withSales x).sales = x := rfl
@[simp] theorem withSales_claims : (s.withSales x).claims = s.claims := rfl
@[simp] theorem withSales_bulletins : (s.withSales x).bulletins = s.bulletins := rfl
@[simp] theorem withSales_board : (s.withSales x).board = s.board := rfl
@[simp] theorem withSales_host : (s.withSales x).host = s.host := rfl
@[simp] theorem withSales_notices : (s.withSales x).notices = s.notices := rfl
@[simp] theorem withSales_pending : (s.withSales x).pending = s.pending := rfl
@[simp] theorem withSales_withSales : (s.withSales x).withSales y = s.withSales y := rfl
@[simp] theorem withSales_self : s.withSales s.sales = s := rfl
end withSales

section withClaims
variable (s : State) (x y : List Claim)
@[simp] theorem withClaims_setup : (s.withClaims x).setup = s.setup := rfl
@[simp] theorem withClaims_overlay : (s.withClaims x).overlay = s.overlay := rfl
@[simp] theorem withClaims_clock : (s.withClaims x).clock = s.clock := rfl
@[simp] theorem withClaims_calls : (s.withClaims x).calls = s.calls := rfl
@[simp] theorem withClaims_treadles : (s.withClaims x).treadles = s.treadles := rfl
@[simp] theorem withClaims_line : (s.withClaims x).line = s.line := rfl
@[simp] theorem withClaims_store : (s.withClaims x).store = s.store := rfl
@[simp] theorem withClaims_sales : (s.withClaims x).sales = s.sales := rfl
@[simp] theorem withClaims_claims : (s.withClaims x).claims = x := rfl
@[simp] theorem withClaims_bulletins : (s.withClaims x).bulletins = s.bulletins := rfl
@[simp] theorem withClaims_board : (s.withClaims x).board = s.board := rfl
@[simp] theorem withClaims_host : (s.withClaims x).host = s.host := rfl
@[simp] theorem withClaims_notices : (s.withClaims x).notices = s.notices := rfl
@[simp] theorem withClaims_pending : (s.withClaims x).pending = s.pending := rfl
@[simp] theorem withClaims_withClaims : (s.withClaims x).withClaims y = s.withClaims y := rfl
@[simp] theorem withClaims_self : s.withClaims s.claims = s := rfl
end withClaims

section withBulletins
variable (s : State) (x y : Bulletins)
@[simp] theorem withBulletins_setup : (s.withBulletins x).setup = s.setup := rfl
@[simp] theorem withBulletins_overlay : (s.withBulletins x).overlay = s.overlay := rfl
@[simp] theorem withBulletins_clock : (s.withBulletins x).clock = s.clock := rfl
@[simp] theorem withBulletins_calls : (s.withBulletins x).calls = s.calls := rfl
@[simp] theorem withBulletins_treadles : (s.withBulletins x).treadles = s.treadles := rfl
@[simp] theorem withBulletins_line : (s.withBulletins x).line = s.line := rfl
@[simp] theorem withBulletins_store : (s.withBulletins x).store = s.store := rfl
@[simp] theorem withBulletins_sales : (s.withBulletins x).sales = s.sales := rfl
@[simp] theorem withBulletins_claims : (s.withBulletins x).claims = s.claims := rfl
@[simp] theorem withBulletins_bulletins : (s.withBulletins x).bulletins = x := rfl
@[simp] theorem withBulletins_board : (s.withBulletins x).board = s.board := rfl
@[simp] theorem withBulletins_host : (s.withBulletins x).host = s.host := rfl
@[simp] theorem withBulletins_notices : (s.withBulletins x).notices = s.notices := rfl
@[simp] theorem withBulletins_pending : (s.withBulletins x).pending = s.pending := rfl
@[simp] theorem withBulletins_withBulletins : (s.withBulletins x).withBulletins y = s.withBulletins y := rfl
@[simp] theorem withBulletins_self : s.withBulletins s.bulletins = s := rfl
end withBulletins

section withBoard
variable (s : State) (x y : Board)
@[simp] theorem withBoard_setup : (s.withBoard x).setup = s.setup := rfl
@[simp] theorem withBoard_overlay : (s.withBoard x).overlay = s.overlay := rfl
@[simp] theorem withBoard_clock : (s.withBoard x).clock = s.clock := rfl
@[simp] theorem withBoard_calls : (s.withBoard x).calls = s.calls := rfl
@[simp] theorem withBoard_treadles : (s.withBoard x).treadles = s.treadles := rfl
@[simp] theorem withBoard_line : (s.withBoard x).line = s.line := rfl
@[simp] theorem withBoard_store : (s.withBoard x).store = s.store := rfl
@[simp] theorem withBoard_sales : (s.withBoard x).sales = s.sales := rfl
@[simp] theorem withBoard_claims : (s.withBoard x).claims = s.claims := rfl
@[simp] theorem withBoard_bulletins : (s.withBoard x).bulletins = s.bulletins := rfl
@[simp] theorem withBoard_board : (s.withBoard x).board = x := rfl
@[simp] theorem withBoard_host : (s.withBoard x).host = s.host := rfl
@[simp] theorem withBoard_notices : (s.withBoard x).notices = s.notices := rfl
@[simp] theorem withBoard_pending : (s.withBoard x).pending = s.pending := rfl
@[simp] theorem withBoard_withBoard : (s.withBoard x).withBoard y = s.withBoard y := rfl
@[simp] theorem withBoard_self : s.withBoard s.board = s := rfl
end withBoard

section withHost
variable (s : State) (x y : HostLink)
@[simp] theorem withHost_setup : (s.withHost x).setup = s.setup := rfl
@[simp] theorem withHost_overlay : (s.withHost x).overlay = s.overlay := rfl
@[simp] theorem withHost_clock : (s.withHost x).clock = s.clock := rfl
@[simp] theorem withHost_calls : (s.withHost x).calls = s.calls := rfl
@[simp] theorem withHost_treadles : (s.withHost x).treadles = s.treadles := rfl
@[simp] theorem withHost_line : (s.withHost x).line = s.line := rfl
@[simp] theorem withHost_store : (s.withHost x).store = s.store := rfl
@[simp] theorem withHost_sales : (s.withHost x).sales = s.sales := rfl
@[simp] theorem withHost_claims : (s.withHost x).claims = s.claims := rfl
@[simp] theorem withHost_bulletins : (s.withHost x).bulletins = s.bulletins := rfl
@[simp] theorem withHost_board : (s.withHost x).board = s.board := rfl
@[simp] theorem withHost_host : (s.withHost x).host = x := rfl
@[simp] theorem withHost_notices : (s.withHost x).notices = s.notices := rfl
@[simp] theorem withHost_pending : (s.withHost x).pending = s.pending := rfl
@[simp] theorem withHost_withHost : (s.withHost x).withHost y = s.withHost y := rfl
@[simp] theorem withHost_self : s.withHost s.host = s := rfl
end withHost

section withNotices
variable (s : State) (x y : Notices)
@[simp] theorem withNotices_setup : (s.withNotices x).setup = s.setup := rfl
@[simp] theorem withNotices_overlay : (s.withNotices x).overlay = s.overlay := rfl
@[simp] theorem withNotices_clock : (s.withNotices x).clock = s.clock := rfl
@[simp] theorem withNotices_calls : (s.withNotices x).calls = s.calls := rfl
@[simp] theorem withNotices_treadles : (s.withNotices x).treadles = s.treadles := rfl
@[simp] theorem withNotices_line : (s.withNotices x).line = s.line := rfl
@[simp] theorem withNotices_store : (s.withNotices x).store = s.store := rfl
@[simp] theorem withNotices_sales : (s.withNotices x).sales = s.sales := rfl
@[simp] theorem withNotices_claims : (s.withNotices x).claims = s.claims := rfl
@[simp] theorem withNotices_bulletins : (s.withNotices x).bulletins = s.bulletins := rfl
@[simp] theorem withNotices_board : (s.withNotices x).board = s.board := rfl
@[simp] theorem withNotices_host : (s.withNotices x).host = s.host := rfl
@[simp] theorem withNotices_notices : (s.withNotices x).notices = x := rfl
@[simp] theorem withNotices_pending : (s.withNotices x).pending = s.pending := rfl
@[simp] theorem withNotices_withNotices : (s.withNotices x).withNotices y = s.withNotices y := rfl
@[simp] theorem withNotices_self : s.withNotices s.notices = s := rfl
end withNotices

section withPending
variable (s : State) (x y : List Instr)
@[simp] theorem withPending_setup : (s.withPending x).setup = s.setup := rfl
@[simp] theorem withPending_overlay : (s.withPending x).overlay = s.overlay := rfl
@[simp] theorem withPending_clock : (s.withPending x).clock = s.clock := rfl
@[simp] theorem withPending_calls : (s.withPending x).calls = s.calls := rfl
@[simp] theorem withPending_treadles : (s.withPending x).treadles = s.treadles := rfl
@[simp] theorem withPending_line : (s.withPending x).line = s.line := rfl
@[simp] theorem withPending_store : (s.withPending x).store = s.store := rfl
@[simp] theorem withPending_sales : (s.withPending x).sales = s.sales := rfl
@[simp] theorem withPending_claims : (s.withPending x).claims = s.claims := rfl
@[simp] theorem withPending_bulletins : (s.withPending x).bulletins = s.bulletins := rfl
@[simp] theorem withPending_board : (s.withPending x).board = s.board := rfl
@[simp] theorem withPending_host : (s.withPending x).host = s.host := rfl
@[simp] theorem withPending_notices : (s.withPending x).notices = s.notices := rfl
@[simp] theorem withPending_pending : (s.withPending x).pending = x := rfl
@[simp] theorem withPending_withPending : (s.withPending x).withPending y = s.withPending y := rfl
@[simp] theorem withPending_self : s.withPending s.pending = s := rfl
end withPending

end Sys2Proof.Machine.State
end

