-- ==== Sys2Proof/Laws/Moves.lean ====
section
/-! SUPPORT. What a shared operation may do to the state, said once: `Moves s t` gathers what no shared operation changes
(configuration, overlay, clock, result buffer, queue of commands) and what each of them keeps. -/

namespace Sys2Proof.Machine

/-- What a shared operation of the blocks leaves unchanged and what it keeps. -/
structure Moves (s t : State) : Prop where
  setup : t.setup = s.setup
  overlay : t.overlay = s.overlay
  clock : t.clock = s.clock
  host : t.host = s.host
  pending : t.pending = s.pending
  pairA : t.treadles.pairA.config = s.treadles.pairA.config
  pairB : t.treadles.pairB.config = s.treadles.pairB.config
  panel : t.board.config = s.board.config
  notices : NoticesOk s.notices → NoticesOk t.notices
  line : LineOk s.line → LineOk t.line
  muted : s.line.muted = true → t.line.muted = true
  serial : s.sales.serialCounter ≤ t.sales.serialCounter
  sale : SaleOk s → SaleOk t
  store : StoreOk s → StoreOk t
  fare : t.sales.sale.isSome = true → s.sales.sale.isSome = true ∧ t.store.fare.active = s.store.fare.active ∧
    t.store.fare.activeEdition = s.store.fare.activeEdition
  calls : s.calls.calls.length ≤ Config.maxCalls → t.calls.calls.length ≤ Config.maxCalls
  claims : s.claims.length ≤ Config.claimCapacity → t.claims.length ≤ Config.claimCapacity
  bulletins : BulletinsOk s.bulletins.list → BulletinsOk t.bulletins.list

theorem Moves.refl (s : State) : Moves s s :=
  ⟨rfl, rfl, rfl, rfl, rfl, rfl, rfl, rfl, id, id, id, Nat.le_refl _, id, id, fun h => ⟨h, rfl, rfl⟩, id, id, id⟩

theorem Moves.trans {s t u : State} (a : Moves s t) (b : Moves t u) : Moves s u where
  setup := b.setup.trans a.setup
  overlay := b.overlay.trans a.overlay
  clock := b.clock.trans a.clock
  host := b.host.trans a.host
  pending := b.pending.trans a.pending
  pairA := b.pairA.trans a.pairA
  pairB := b.pairB.trans a.pairB
  panel := b.panel.trans a.panel
  notices := b.notices ∘ a.notices
  line := b.line ∘ a.line
  muted := b.muted ∘ a.muted
  serial := a.serial.trans b.serial
  sale := b.sale ∘ a.sale
  store := b.store ∘ a.store
  fare h := ⟨(a.fare (b.fare h).1).1, (b.fare h).2.1.trans (a.fare (b.fare h).1).2.1,
    (b.fare h).2.2.trans (a.fare (b.fare h).1).2.2⟩
  calls := b.calls ∘ a.calls
  claims := b.claims ∘ a.claims
  bulletins := b.bulletins ∘ a.bulletins

/-- A fold of operations moves when each of them does. -/
theorem Moves.foldl {α : Type} {f : State → α → State} (h : ∀ s a, Moves s (f s a)) (xs : List α) (s : State) :
    Moves s (xs.foldl f s) := by
  induction xs generalizing s with
  | nil => exact .refl s
  | cons x xs ih => exact (h s x).trans (ih (f s x))

theorem Moves.ite {s t u : State} {c : Prop} [Decidable c] (a : c → Moves s t) (b : ¬c → Moves s u) :
    Moves s (if c then t else u) := by
  split
  · exact a ‹_›
  · exact b ‹_›

/-! ### One block replaced -/

theorem SaleOk.congr {s t : State} (h : SaleOk s) (e : t.sales = s.sales) (e' : t.setup = s.setup) : SaleOk t :=
  ⟨e ▸ h.journal, e ▸ h.serial, by rw [e]; exact h.room, by rw [e, e']; exact h.setup⟩

theorem Moves.board {s : State} {x : Board} (h : x.config = s.board.config) : Moves s (s.withBoard x) where
  setup := rfl
  overlay := rfl
  clock := rfl
  host := rfl
  pending := rfl
  pairA := rfl
  pairB := rfl
  panel := h
  notices := id
  line := id
  muted := id
  serial := Nat.le_refl _
  sale h := h.congr rfl rfl
  store := id
  fare h := ⟨h, rfl, rfl⟩
  calls := id
  claims := id
  bulletins := id

theorem Moves.notices' {s : State} {x : Notices} (h : NoticesOk s.notices → NoticesOk x) : Moves s (s.withNotices x) where
  setup := rfl
  overlay := rfl
  clock := rfl
  host := rfl
  pending := rfl
  pairA := rfl
  pairB := rfl
  panel := rfl
  notices := h
  line := id
  muted := id
  serial := Nat.le_refl _
  sale h := h.congr rfl rfl
  store := id
  fare h := ⟨h, rfl, rfl⟩
  calls := id
  claims := id
  bulletins := id

theorem Moves.calls' {s : State} {x : CallTable}
    (h : s.calls.calls.length ≤ Config.maxCalls → x.calls.length ≤ Config.maxCalls) : Moves s (s.withCalls x) where
  setup := rfl
  overlay := rfl
  clock := rfl
  host := rfl
  pending := rfl
  pairA := rfl
  pairB := rfl
  panel := rfl
  notices := id
  line := id
  muted := id
  serial := Nat.le_refl _
  sale h := h.congr rfl rfl
  store := id
  fare h := ⟨h, rfl, rfl⟩
  calls := h
  claims := id
  bulletins := id

theorem Moves.claims' {s : State} {x : List Claim}
    (h : s.claims.length ≤ Config.claimCapacity → x.length ≤ Config.claimCapacity) : Moves s (s.withClaims x) where
  setup := rfl
  overlay := rfl
  clock := rfl
  host := rfl
  pending := rfl
  pairA := rfl
  pairB := rfl
  panel := rfl
  notices := id
  line := id
  muted := id
  serial := Nat.le_refl _
  sale h := h.congr rfl rfl
  store := id
  fare h := ⟨h, rfl, rfl⟩
  calls := id
  claims := h
  bulletins := id

theorem Moves.bulletins' {s : State} {x : Bulletins}
    (h : BulletinsOk s.bulletins.list → BulletinsOk x.list) :
    Moves s (s.withBulletins x) where
  setup := rfl
  overlay := rfl
  clock := rfl
  host := rfl
  pending := rfl
  pairA := rfl
  pairB := rfl
  panel := rfl
  notices := id
  line := id
  muted := id
  serial := Nat.le_refl _
  sale h := h.congr rfl rfl
  store := id
  fare h := ⟨h, rfl, rfl⟩
  calls := id
  claims := id
  bulletins := h

theorem Moves.treadles' {s : State} {x : Treadles} (ha : x.pairA.config = s.treadles.pairA.config)
    (hb : x.pairB.config = s.treadles.pairB.config) : Moves s (s.withTreadles x) where
  setup := rfl
  overlay := rfl
  clock := rfl
  host := rfl
  pending := rfl
  pairA := ha
  pairB := hb
  panel := rfl
  notices := id
  line := id
  muted := id
  serial := Nat.le_refl _
  sale h := h.congr rfl rfl
  store := id
  fare h := ⟨h, rfl, rfl⟩
  calls := id
  claims := id
  bulletins := id

theorem Moves.line' {s : State} {x : Line} (h : LineOk s.line → LineOk x) (m : s.line.muted = true → x.muted = true) :
    Moves s (s.withLine x) where
  setup := rfl
  overlay := rfl
  clock := rfl
  host := rfl
  pending := rfl
  pairA := rfl
  pairB := rfl
  panel := rfl
  notices := id
  line := h
  muted := m
  serial := Nat.le_refl _
  sale h := h.congr rfl rfl
  store := id
  fare h := ⟨h, rfl, rfl⟩
  calls := id
  claims := id
  bulletins := id

theorem Moves.store' {s : State} {x : Store} (h : StoreOk s → StoreOk (s.withStore x))
    (f : s.sales.sale.isSome = true → x.fare.active = s.store.fare.active ∧ x.fare.activeEdition = s.store.fare.activeEdition) :
    Moves s (s.withStore x) where
  setup := rfl
  overlay := rfl
  clock := rfl
  host := rfl
  pending := rfl
  pairA := rfl
  pairB := rfl
  panel := rfl
  notices := id
  line := id
  muted := id
  serial := Nat.le_refl _
  sale h := h.congr rfl rfl
  store := h
  fare h := ⟨h, f h⟩
  calls := id
  claims := id
  bulletins := id

theorem Moves.sales' {s : State} {x : SaleUnit} (h : SaleOk s → SaleOk (s.withSales x))
    (c : s.sales.serialCounter ≤ x.serialCounter) (f : x.sale.isSome = true → s.sales.sale.isSome = true) :
    Moves s (s.withSales x) where
  setup := rfl
  overlay := rfl
  clock := rfl
  host := rfl
  pending := rfl
  pairA := rfl
  pairB := rfl
  panel := rfl
  notices := id
  line := id
  muted := id
  serial := c
  sale := h
  store := id
  fare h := ⟨f h, rfl, rfl⟩
  calls := id
  claims := id
  bulletins := id

/-! ### The narrower relation -/

/-- What an operation of the inner blocks (transmit queue, Edition Store, Sale Unit's closing, Claim List, Bulletin List,
Call Table, composition) leaves unchanged beyond `Moves`: the sensors, the peers, the line's counters and timers, the
board's commands and timers, the journal, the mask and the clash latch. A sale stays as it is or is closed. -/
structure Inner (s t : State) : Prop extends Moves s t where
  treadles : t.treadles = s.treadles
  peers : t.line.peers = s.line.peers
  muteFlag : t.line.muted = s.line.muted
  rxCount : t.line.rxCount = s.line.rxCount
  freshCount : t.line.freshCount = s.line.freshCount
  announceTimer : t.line.announceTimer = s.line.announceTimer
  resend : t.calls.resend = s.calls.resend
  rotation : t.board.rotation = s.board.rotation
  phase : t.board.phase = s.board.phase
  lamp : t.board.lamp = s.board.lamp
  override : t.board.override = s.board.override
  counter : t.bulletins.counter = s.bulletins.counter
  mask : t.notices.mask = s.notices.mask
  clash : t.notices.clash = s.notices.clash
  sales : t.sales = s.sales ∨ t.sales = { s.sales with sale := none }

theorem Inner.refl (s : State) : Inner s s :=
  { Moves.refl s with
    treadles := rfl, peers := rfl, muteFlag := rfl, rxCount := rfl, freshCount := rfl, announceTimer := rfl, resend := rfl,
    rotation := rfl, phase := rfl, lamp := rfl, override := rfl, counter := rfl, mask := rfl, clash := rfl, sales := .inl rfl }

theorem Inner.trans {s t u : State} (a : Inner s t) (b : Inner t u) : Inner s u :=
  { a.toMoves.trans b.toMoves with
    treadles := b.treadles.trans a.treadles
    peers := b.peers.trans a.peers
    muteFlag := b.muteFlag.trans a.muteFlag
    rxCount := b.rxCount.trans a.rxCount
    freshCount := b.freshCount.trans a.freshCount
    announceTimer := b.announceTimer.trans a.announceTimer
    resend := b.resend.trans a.resend
    rotation := b.rotation.trans a.rotation
    phase := b.phase.trans a.phase
    lamp := b.lamp.trans a.lamp
    override := b.override.trans a.override
    counter := b.counter.trans a.counter
    mask := b.mask.trans a.mask
    clash := b.clash.trans a.clash
    sales := by
      rcases a.sales with x | x <;> rcases b.sales with y | y <;> rw [x] at y
      · exact .inl y
      · exact .inr y
      · exact .inr y
      · exact .inr y }

/-- A fold of inner operations. -/
theorem Inner.foldl {α : Type} {f : State → α → State} (h : ∀ s a, Inner s (f s a)) (xs : List α) (s : State) :
    Inner s (xs.foldl f s) := by
  induction xs generalizing s with
  | nil => exact .refl s
  | cons x xs ih => exact (h s x).trans (ih (f s x))

theorem Inner.ite {s t u : State} {c : Prop} [Decidable c] (a : c → Inner s t) (b : ¬c → Inner s u) :
    Inner s (if c then t else u) := by
  split
  · exact a ‹_›
  · exact b ‹_›

theorem Inner.board {s : State} {x : Board} (h : x.config = s.board.config ∧ x.rotation = s.board.rotation ∧
    x.phase = s.board.phase ∧ x.lamp = s.board.lamp ∧ x.override = s.board.override) : Inner s (s.withBoard x) :=
  { Moves.board h.1 with
    treadles := rfl, peers := rfl, muteFlag := rfl, rxCount := rfl, freshCount := rfl, announceTimer := rfl, resend := rfl,
    rotation := h.2.1, phase := h.2.2.1, lamp := h.2.2.2.1, override := h.2.2.2.2, counter := rfl, mask := rfl, clash := rfl,
    sales := .inl rfl }

theorem Inner.notices' {s : State} {x : Notices} (h : NoticesOk s.notices → NoticesOk x) (m : x.mask = s.notices.mask)
    (c : x.clash = s.notices.clash) : Inner s (s.withNotices x) :=
  { Moves.notices' h with
    treadles := rfl, peers := rfl, muteFlag := rfl, rxCount := rfl, freshCount := rfl, announceTimer := rfl, resend := rfl,
    rotation := rfl, phase := rfl, lamp := rfl, override := rfl, counter := rfl, mask := m, clash := c, sales := .inl rfl }

theorem Inner.calls' {s : State} {x : CallTable}
    (h : s.calls.calls.length ≤ Config.maxCalls → x.calls.length ≤ Config.maxCalls) (r : x.resend = s.calls.resend) :
    Inner s (s.withCalls x) :=
  { Moves.calls' h with
    treadles := rfl, peers := rfl, muteFlag := rfl, rxCount := rfl, freshCount := rfl, announceTimer := rfl, resend := r,
    rotation := rfl, phase := rfl, lamp := rfl, override := rfl, counter := rfl, mask := rfl, clash := rfl, sales := .inl rfl }

theorem Inner.claims' {s : State} {x : List Claim}
    (h : s.claims.length ≤ Config.claimCapacity → x.length ≤ Config.claimCapacity) : Inner s (s.withClaims x) :=
  { Moves.claims' h with
    treadles := rfl, peers := rfl, muteFlag := rfl, rxCount := rfl, freshCount := rfl, announceTimer := rfl, resend := rfl,
    rotation := rfl, phase := rfl, lamp := rfl, override := rfl, counter := rfl, mask := rfl, clash := rfl, sales := .inl rfl }

theorem Inner.bulletins' {s : State} {x : Bulletins}
    (h : BulletinsOk s.bulletins.list → BulletinsOk x.list)
    (c : x.counter = s.bulletins.counter) : Inner s (s.withBulletins x) :=
  { Moves.bulletins' h with
    treadles := rfl, peers := rfl, muteFlag := rfl, rxCount := rfl, freshCount := rfl, announceTimer := rfl, resend := rfl,
    rotation := rfl, phase := rfl, lamp := rfl, override := rfl, counter := c, mask := rfl, clash := rfl, sales := .inl rfl }

theorem Inner.line' {s : State} {x : Line} (h : LineOk s.line → LineOk x) (p : x.peers = s.line.peers)
    (m : x.muted = s.line.muted) (r : x.rxCount = s.line.rxCount) (f : x.freshCount = s.line.freshCount)
    (a : x.announceTimer = s.line.announceTimer) : Inner s (s.withLine x) :=
  { Moves.line' h (fun e => m.trans e) with
    treadles := rfl, peers := p, muteFlag := m, rxCount := r, freshCount := f, announceTimer := a, resend := rfl,
    rotation := rfl, phase := rfl, lamp := rfl, override := rfl, counter := rfl, mask := rfl, clash := rfl, sales := .inl rfl }

theorem Inner.store' {s : State} {x : Store} (h : StoreOk s → StoreOk (s.withStore x))
    (f : s.sales.sale.isSome = true → x.fare.active = s.store.fare.active ∧ x.fare.activeEdition = s.store.fare.activeEdition) :
    Inner s (s.withStore x) :=
  { Moves.store' h f with
    treadles := rfl, peers := rfl, muteFlag := rfl, rxCount := rfl, freshCount := rfl, announceTimer := rfl, resend := rfl,
    rotation := rfl, phase := rfl, lamp := rfl, override := rfl, counter := rfl, mask := rfl, clash := rfl, sales := .inl rfl }

/-! ### Notices and the generator -/

theorem NoticesOk.refresh {n : Notices} (h : n.queue.length ≤ Config.noticeCapacity) (hd : n.drops ≤ 255)
    (hm : n.mask.length = 14) (hs : n.suspension.count ≤ 255) (hc : n.clash.count ≤ 255) : NoticesOk n.refresh :=
  ⟨h, hd, hm, hs, hc, rfl⟩

theorem Notices.join_length {n : Notices} {x : Notice} (h : n.queue.length ≤ Config.noticeCapacity) :
    (n.join x).queue.length ≤ Config.noticeCapacity := by
  unfold Notices.join
  split
  · simp; omega
  · simp [Config.noticeCapacity] at *; omega

theorem Notices.join_rest (n : Notices) (x : Notice) : (n.join x).mask = n.mask ∧ (n.join x).suspension = n.suspension ∧
    (n.join x).clash = n.clash ∧ (n.drops ≤ 255 → (n.join x).drops ≤ 255) := by
  unfold Notices.join
  split
  · simp
  · simp

theorem NoticesOk.add_ok {n : Notices} (h : NoticesOk n) (c : NoticeContent) (seconds : Nat) :
    NoticesOk (n.add c seconds).refresh := by
  have j : ∀ x, NoticesOk (n.join x).refresh := fun x =>
    .refresh (Notices.join_length h.queue) ((Notices.join_rest n x).2.2.2 h.drops) ((Notices.join_rest n x).1 ▸ h.mask)
      ((Notices.join_rest n x).2.1 ▸ h.suspension) ((Notices.join_rest n x).2.2.1 ▸ h.clash)
  cases c
  case callChanged b =>
    simp only [Notices.add]
    split
    · exact .refresh (by simpa using h.queue) h.drops h.mask h.suspension h.clash
    · exact j _
  all_goals exact j _

theorem Notices.add_rest (n : Notices) (c : NoticeContent) (seconds : Nat) :
    (n.add c seconds).refresh.mask = n.mask ∧ (n.add c seconds).refresh.clash = n.clash := by
  have j : ∀ x, (n.join x).refresh.mask = n.mask ∧ (n.join x).refresh.clash = n.clash := fun x =>
    ⟨(Notices.join_rest n x).1, (Notices.join_rest n x).2.2.1⟩
  cases c
  case callChanged b =>
    simp only [Notices.add]
    split
    · exact ⟨rfl, rfl⟩
    · exact j _
  all_goals exact j _

theorem raise_inner (c : NoticeContent) (s : State) : Inner s (raise c s) :=
  Inner.notices' (fun h => h.add_ok c _) (Notices.add_rest _ c _).1 (Notices.add_rest _ c _).2

theorem raise_moves (c : NoticeContent) (s : State) : Moves s (raise c s) := (raise_inner c s).toMoves

theorem raiseSuspension_inner (s : State) : Inner s (raiseSuspension s) :=
  Inner.notices' (fun h => .refresh h.queue h.drops h.mask (by simp [Latch.occur]; omega) h.clash) rfl rfl

theorem raiseClash_moves (s : State) : Moves s (raiseClash s) :=
  Moves.notices' fun h => .refresh h.queue h.drops h.mask h.suspension (by simp [Latch.occur]; omega)

/-- A line that differs only in what LineOk does not read. -/
theorem LineOk.congr {l m : Line} (h : LineOk l) (q : m.queue = l.queue) (u : m.muted = l.muted)
    (c : m.condition = l.condition) (n : m.seqCounter = l.seqCounter) (r : m.rxCount = l.rxCount) : LineOk m :=
  ⟨q ▸ h.queue, by rw [u, q]; exact h.muted, by rw [c, q]; exact h.current, n ▸ h.seq, r ▸ h.received, q ▸ h.repeats⟩

theorem draw_inner (n : Nat) (s : State) : Inner s (draw n s).2 := by
  unfold draw
  split
  · exact Inner.line' (fun h => h.congr rfl rfl rfl rfl rfl) rfl rfl rfl rfl rfl
  · exact .refl s

theorem draw_moves (n : Nat) (s : State) : Moves s (draw n s).2 := (draw_inner n s).toMoves

end Sys2Proof.Machine
end

