-- ==== Sys2Proof/Laws/Line.lean ====
section
/-! SUPPORT. What the transmit queue's operations can do (R86 to R90), and the pulls that live off it. -/

namespace Sys2Proof.Machine

/-! ### Supersession as equality of keys -/

/-- What a frame is unique by in the queue: RUNNING by its service, ANNOUNCE by its kind (R86). -/
def Payload.key : Payload → Option (Option Nat)
  | .announce _ => some none
  | .running f => some (some f.service)
  | _ => none

theorem Payload.supersedes_iff (a b : Payload) : a.supersedes b = true ↔ a.key = b.key ∧ a.key ≠ none := by
  cases a <;> cases b <;> simp [Payload.supersedes, Payload.key]

theorem Payload.supersedes_false (a b : Payload) : a.supersedes b = false ↔ ¬(a.key = b.key ∧ a.key ≠ none) := by
  rw [← Payload.supersedes_iff]
  simp

theorem noRepeats_iff (q : List TxFrame) :
    NoRepeats q ↔ (q.map (·.payload.key)).Pairwise (fun a b => ¬(a = b ∧ a ≠ none)) := by
  unfold NoRepeats
  rw [List.pairwise_map]
  constructor <;> intro h <;> refine h.imp ?_ <;> intro a b
  · rw [Payload.supersedes_false]; exact fun h => h.1
  · simp only [Payload.supersedes_false]
    exact fun h => ⟨h, fun k => h ⟨k.1.symm, k.1 ▸ k.2⟩⟩

theorem NoRepeats.congr {q r : List TxFrame} (h : NoRepeats q) (e : r.map (·.payload.key) = q.map (·.payload.key)) :
    NoRepeats r := by
  rw [noRepeats_iff] at *
  rwa [e]

/-! ### The queue's operations -/

theorem nextSeq_le (n : Nat) : nextSeq n ≤ 4095 := by unfold nextSeq; omega

theorem freshCondition_iff (q : List TxFrame) (tick : Tick) : freshCondition q tick = .noFrame ↔ q = [] := by
  cases q <;> simp [freshCondition]

theorem LineOk.remove {l : Line} (h : LineOk l) (tick : Tick) (i : Nat) : LineOk (l.remove tick i) where
  queue := (List.length_eraseIdx_le l.queue i).trans h.queue
  muted m := by simp [Line.remove, h.muted m]
  current := by
    simp only [Line.remove]
    split
    · exact freshCondition_iff _ _
    · rename_i hi
      rw [h.current]
      cases hq : l.queue with
      | nil => simp
      | cons f q => cases i with
        | zero => exact absurd rfl hi
        | succ i => simp
  seq := h.seq
  received := h.received
  repeats := h.repeats.sublist (List.eraseIdx_sublist l.queue i)

theorem LineOk.push {l : Line} (h : LineOk l) (tick : Tick) (p : Payload) (room : l.queue.length < Config.queueCapacity)
    (m : l.muted = false) (new : ∀ f ∈ l.queue, p.supersedes f.payload = false) : LineOk (l.push tick p) where
  queue := by simp [Line.push]; omega
  muted x := by simp [Line.push, m] at x
  current := by
    simp only [Line.push]
    split
    · simp
    · rename_i e
      rw [h.current]
      simp_all
  seq := nextSeq_le _
  received := h.received
  repeats := by
    refine List.pairwise_append.2 ⟨h.repeats, List.pairwise_singleton _ _, ?_⟩
    intro a ha b hb
    simp only [List.mem_singleton] at hb
    subst hb
    have := new a ha
    refine ⟨?_, this⟩
    rw [Payload.supersedes_false] at *
    exact fun k => this ⟨k.1.symm, k.1 ▸ k.2⟩

theorem LineOk.supersede {l : Line} (h : LineOk l) (tick : Tick) (i : Nat) (p : Payload) (m : l.muted = false)
    (f : TxFrame) (hf : l.queue[i]? = some f) (hs : p.supersedes f.payload = true) : LineOk (l.supersede tick i p) where
  queue := by simpa [Line.supersede] using h.queue
  muted x := by simp [Line.supersede, m] at x
  current := by
    have hne : l.queue ≠ [] := by rintro e; simp [e] at hf
    simp only [Line.supersede]
    split
    · simpa using hne
    · rw [h.current]; simp
  seq := nextSeq_le _
  received := h.received
  repeats := by
    refine h.repeats.congr ?_
    simp only [Line.supersede, List.map_set]
    rw [((Payload.supersedes_iff _ _).1 hs).1]
    refine List.ext_getElem? fun n => ?_
    rw [List.getElem?_set]
    split
    · rename_i e; subst e; rw [List.getElem?_map, hf]; simp [(List.getElem?_eq_some_iff.1 hf).1]
    · rfl

theorem findIdx?_getElem {α : Type} {p : α → Bool} {xs : List α} {i : Nat} (h : xs.findIdx? p = some i) :
    ∃ x, xs[i]? = some x ∧ p x = true := by
  rw [List.findIdx?_eq_some_iff_getElem] at h
  obtain ⟨hi, hp, -⟩ := h
  exact ⟨xs[i], List.getElem?_eq_getElem hi, hp⟩

theorem findIdx?_none_all {α : Type} {p : α → Bool} {xs : List α} (h : xs.findIdx? p = none) : ∀ x ∈ xs, p x = false := by
  simpa [List.findIdx?_eq_none_iff] using h

theorem Line.newestRoutine_lt {l : Line} {i : Nat} (h : l.newestRoutine = some i) : i < l.queue.length := by
  unfold Line.newestRoutine at h
  simp only [Option.map_eq_some_iff] at h
  obtain ⟨x, hx, rfl⟩ := h
  have := List.mem_filter.1 (List.mem_of_getLast? hx)
  exact List.snd_lt_of_mem_zipIdx this.1

theorem Line.hand_ok {l : Line} (h : LineOk l) (tick : Tick) (p : Payload) : LineOk (l.hand tick p).2.1 := by
  unfold Line.hand
  split
  · exact h
  · rename_i hm
    have hm : l.muted = false := by simpa using hm
    split
    · rename_i i hi
      obtain ⟨f, hf, hs⟩ := findIdx?_getElem hi
      exact h.supersede tick i p hm f hf hs
    · rename_i hn
      have new := findIdx?_none_all hn
      split
      · exact h.push tick p ‹_› hm new
      · split
        · split
          · rename_i i hi
            refine (h.remove tick i).push tick p ?_ hm fun f hf => new f (List.mem_of_mem_eraseIdx hf)
            have := Line.newestRoutine_lt hi
            have := h.queue
            simp [Line.remove, List.length_eraseIdx]
            split <;> omega
          · exact h
        · exact h

theorem Line.hand_muted (l : Line) (tick : Tick) (p : Payload) : (l.hand tick p).2.1.muted = l.muted := by
  unfold Line.hand
  split
  · rfl
  · split
    · rfl
    · split
      · rfl
      · split
        · split <;> rfl
        · rfl

/-- What a hand-over leaves unchanged in the line (R86 to R88, R92). -/
theorem Line.hand_rest (l : Line) (tick : Tick) (p : Payload) : (l.hand tick p).2.1.peers = l.peers ∧
    (l.hand tick p).2.1.rxCount = l.rxCount ∧ (l.hand tick p).2.1.freshCount = l.freshCount ∧
    (l.hand tick p).2.1.announceTimer = l.announceTimer := by
  unfold Line.hand
  split
  · simp
  · split
    · simp [Line.supersede]
    · split
      · simp [Line.push]
      · split
        · split
          · simp [Line.push, Line.remove]
          · simp
        · simp

theorem handToLine_inner (p : Payload) (s : State) : Inner s (handToLine p s).2.1 :=
  have r := Line.hand_rest s.line s.clock.tick p
  Inner.line' (fun h => Line.hand_ok h _ _) r.1 (Line.hand_muted _ _ _) r.2.1 r.2.2.1 r.2.2.2

/-! ### Slots and pulls -/

theorem setSlot_inner (k : TableKind) (x : Slot) (s : State)
    (h : SlotOk s.setup.running s.setup.settings.haltCode (slotOf s k) → SlotOk s.setup.running s.setup.settings.haltCode x)
    (a : x.active = (slotOf s k).active) (e : x.activeEdition = (slotOf s k).activeEdition) : Inner s (setSlot k x s) := by
  cases k
  · exact Inner.store' (fun o => ⟨h o.1, o.2⟩) (fun _ => ⟨rfl, rfl⟩)
  · exact Inner.store' (fun o => ⟨o.1, h o.2⟩) (fun _ => ⟨a, e⟩)

theorem SlotOk.cleared {r : Bool} {c : Nat} {x : Slot} (h : SlotOk r c x) : SlotOk r c x.cleared :=
  ⟨h.active, fun e => (by cases e), fun e => ⟨(h.setup e).1, by simp [Slot.cleared]⟩⟩

/-- A slot that differs only in what SlotOk does not read. -/
theorem SlotOk.congr {r : Bool} {c : Nat} {x y : Slot} (h : SlotOk r c x) (a : y.active = x.active) (l : y.loader = x.loader)
    (b : y.staging = x.staging) : SlotOk r c y :=
  ⟨a ▸ h.active, by rw [l, b]; exact h.staged, by rw [a, l]; exact h.setup⟩

/-- A slot whose loader is not STAGED. -/
theorem SlotOk.filling {r : Bool} {c : Nat} {x y : Slot} (h : SlotOk r c x) (a : y.active = x.active)
    (l : y.loader ≠ .staged) : SlotOk r c y :=
  ⟨a ▸ h.active, fun e => absurd e l, fun e => ⟨a ▸ (h.setup e).1, l⟩⟩

theorem abandonPull_inner (k : TableKind) (s : State) : Inner s (abandonPull k s) :=
  setSlot_inner k _ s SlotOk.cleared rfl rfl

theorem setPull_inner (k : TableKind) (p : Pull) (s : State) : Inner s (setPull k p s) :=
  setSlot_inner k _ s (fun h => h.congr rfl rfl rfl) rfl rfl

theorem requestSegment_inner (fuel : Nat) (k : TableKind) (p : Pull) (s : State) : Inner s (requestSegment fuel k p s) := by
  induction fuel generalizing p s with
  | zero => exact abandonPull_inner k s
  | succ n ih =>
    simp only [requestSegment]
    refine (handToLine_inner (segReqOf k p) s).trans ?_
    split
    · exact setPull_inner _ _ _
    · exact Inner.ite (fun _ => ih _ _) (fun _ => abandonPull_inner _ _)

theorem requestExpired_inner (k : TableKind) (s : State) : Inner s (requestExpired k s) := by
  unfold requestExpired
  split
  · exact .refl s
  · exact Inner.ite (fun _ => requestSegment_inner _ _ _ _) (fun _ => abandonPull_inner _ _)

theorem segReqLost_inner (k : TableKind) (seq : Nat) (s : State) : Inner s (segReqLost k seq s) := by
  unfold segReqLost
  split
  · exact Inner.ite (fun _ => requestExpired_inner _ _) (fun _ => .refl s)
  · exact .refl s

theorem reportUnsent_inner (f : TxFrame) (s : State) : Inner s (reportUnsent f s) := by
  unfold reportUnsent
  split
  · exact segReqLost_inner _ _ _
  · exact .refl s

theorem handOver_inner (p : Payload) (s : State) : Inner s (handOver p s).2 := by
  simp only [handOver]
  split
  · exact (handToLine_inner p s).trans (reportUnsent_inner _ _)
  · exact handToLine_inner p s

theorem hand_inner (p : Payload) (s : State) : Inner s (hand p s) := handOver_inner p s

theorem withdrawClaim_inner (seq : Nat) (s : State) : Inner s (withdrawClaim seq s).2 := by
  unfold withdrawClaim
  split
  · exact Inner.line' (fun h => h.remove _ _) rfl rfl rfl rfl rfl
  · exact .refl s

end Sys2Proof.Machine
end

