-- ==== Sys2Proof/Laws/Sale.lean ====
section
/-! SUPPORT. What the operations of the sale, the claims, the board and the bulletins can do. -/

namespace Sys2Proof.Machine

/-! ### The board -/

theorem handToPort_rest (b : Board) (x : FrameImage) : (b.handToPort x).config = b.config ∧
    (b.handToPort x).rotation = b.rotation ∧ (b.handToPort x).phase = b.phase ∧ (b.handToPort x).lamp = b.lamp ∧
    (b.handToPort x).override = b.override := by
  unfold Board.handToPort
  split <;> simp

@[simp] theorem portOutput_sending {b : Board} {x : FrameImage} (h : b.sending = some x) : portOutput b = x.sendOrder := by
  simp [portOutput, h]

@[simp] theorem portOutput_idle {b : Board} (h : b.sending = none) : portOutput b = [] := by simp [portOutput, h]

theorem compose_inner (s : State) : Inner s (compose s) := by
  simp only [compose]
  exact Inner.ite (fun _ => Inner.board (handToPort_rest _ _)) (fun _ => .refl s)

theorem setWarning_rest (b : Board) (d : Direction) (t : Option Timer) : (b.setWarning d t).config = b.config ∧
    (b.setWarning d t).rotation = b.rotation ∧ (b.setWarning d t).phase = b.phase ∧ (b.setWarning d t).lamp = b.lamp ∧
    (b.setWarning d t).override = b.override := by
  cases d <;> simp [Board.setWarning]

theorem raiseWarning_inner (d : Direction) (s : State) : Inner s (raiseWarning d s) := by
  simp only [raiseWarning]
  exact Inner.ite (fun _ => (Inner.board (setWarning_rest _ _ _)).trans (compose_inner _)) (fun _ => .refl s)

theorem clearWarning_inner (d : Direction) (s : State) : Inner s (clearWarning d s) := by
  simp only [clearWarning]
  exact Inner.ite (fun _ => (Inner.board (setWarning_rest _ _ _)).trans (compose_inner _)) (fun _ => .refl s)

/-! ### Activation of fares -/

/-- A staged image that becomes active is sound as it stands (R115). -/
theorem SlotOk.activated {r : Bool} {c : Nat} {x : Slot} (h : SlotOk r c x) (st : x.loader = .staged) (e : Nat) :
    SlotOk r c { x.cleared with active := some x.staging, activeEdition := e } :=
  ⟨fun i hi => by cases hi; exact h.staged st, fun k => (by cases k), fun k => absurd st (h.setup k).2⟩

theorem activate_fare_inner (s : State) (st : s.store.fare.loader = .staged) (idle : s.sales.sale = none) :
    Inner s (activate .fare s) := by
  refine Inner.trans ?_ (raise_inner _ (setSlot .fare { s.store.fare.cleared with
    active := some s.store.fare.staging, activeEdition := editionOf s.store.fare.staging } s))
  exact Inner.store' (fun o => ⟨o.1, o.2.activated st _⟩) (by simp [idle])

theorem activate_timetable_inner (s : State) (st : s.store.timetable.loader = .staged) : Inner s (activate .timetable s) := by
  refine Inner.trans ?_ (raise_inner _ (setSlot .timetable { s.store.timetable.cleared with
    active := some s.store.timetable.staging, activeEdition := editionOf s.store.timetable.staging } s))
  exact Inner.store' (fun o => ⟨o.1.activated st _, o.2⟩) (fun _ => ⟨rfl, rfl⟩)

theorem activateFare_inner (s : State) : Inner s (activateFare s) := by
  simp only [activateFare]
  refine Inner.ite (fun h => ?_) (fun _ => .refl s)
  simp only [Bool.and_eq_true, decide_eq_true_eq, Option.isNone_iff_eq_none] at h
  exact activate_fare_inner s h.1 h.2

/-! ### Claims -/

theorem filterClaims_inner (f : Claim → Bool) (s : State) : Inner s (s.withClaims (s.claims.filter f)) :=
  Inner.claims' fun h => (List.length_filter_le _ _).trans h

theorem removeClaim_inner (origin seq : Nat) (s : State) : Inner s (removeClaim origin seq s) := filterClaims_inner _ s

theorem updateClaim_inner (origin seq : Nat) (f : Claim → Claim) (s : State) : Inner s (updateClaim origin seq f s) :=
  Inner.claims' fun h => by simpa using h

theorem closeClaim_inner (issued : Bool) (seq : Nat) (s : State) : Inner s (closeClaim issued seq s) := by
  unfold closeClaim
  split
  · exact .refl s
  · split
    · exact (updateClaim_inner _ _ _ s).trans (hand_inner _ _)
    · exact (removeClaim_inner _ _ s).trans (hand_inner _ _)
    · exact (withdrawClaim_inner _ s).trans (removeClaim_inner _ _ _)
    · exact .refl s

/-! ### The sale -/

theorem setSale_none_inner (s : State) : Inner s (setSale none s) :=
  { Inner.refl s with
    serial := Nat.le_refl _
    sale := fun h => ⟨h.journal, h.serial, by simp [setSale], fun _ => rfl⟩
    fare := by simp [setSale]
    sales := .inr rfl }

/-- A sale record replaced while a sale stands: what is asked of the new one. -/
theorem setSale_moves (r : SaleRecord) (s : State) (some' : s.sales.sale.isSome = true)
    (h : SaleOk s → r.unissued → s.sales.journal.length < Config.journalCapacity ∧ s.sales.serialCounter < Config.maxSerial) :
    Moves s (setSale (some r) s) :=
  Moves.sales'
    (fun o => ⟨o.journal, o.serial, fun x e u => by cases e; exact h o u,
      fun k => by have := o.setup k; simp [this] at some'⟩) (Nat.le_refl _) (fun _ => some')

theorem closeSale_inner (reason : Reason) (issued : Bool) (r : SaleRecord) (s : State) :
    Inner s (closeSale reason issued r s) := by
  have h : ∀ t : State, Inner s t → Inner s (activateFare (setSale none (raise (.saleState reason r.quote.product r.quote.quote
      r.credit r.change r.refund (if reason = .issued || reason = .void then r.serial else none)) t))) := fun t m =>
    ((m.trans (raise_inner _ t)).trans (setSale_none_inner _)).trans (activateFare_inner _)
  unfold closeSale
  cases r.claim with
  | none => exact h s (.refl s)
  | some seq => exact h _ (closeClaim_inner issued seq s)

theorem abortSale_inner (reason : Reason) (s : State) : Inner s (abortSale reason s) := by
  unfold abortSale
  split
  · exact Inner.ite (fun _ => .refl s) (fun _ => closeSale_inner _ _ _ _)
  · exact .refl s

/-- Entry to ISSUING, where the sale found room for its record and a serial at its acceptance (R136, R139). -/
theorem enterIssuing_moves (r : SaleRecord) (s : State) (some' : s.sales.sale.isSome = true)
    (h : SaleOk s → s.sales.journal.length < Config.journalCapacity ∧ s.sales.serialCounter < Config.maxSerial) :
    Moves s (enterIssuing r s) := by
  have m : Moves s (s.withSales
      { sale := some { r with stage := .issuing, change := r.credit - r.quote.quote, refund := 0,
                              serial := some (own s * 1000000 + s.sales.serialCounter), lifetime := none, payment := none }
        serialCounter := s.sales.serialCounter + 1
        journal := s.sales.journal ++ [journalRecordOf r (own s * 1000000 + s.sales.serialCounter) s.clock] }) :=
    Moves.sales'
      (fun o => ⟨by have := (h o).1; simp; omega, (h o).2,
        fun x e u => by cases e; rcases u with u | u <;> simp at u,
        fun k => by have := o.setup k; simp [this] at some'⟩)
      (Nat.le_succ _) (fun _ => some')
  simp only [enterIssuing]
  exact Moves.ite (fun _ => (m.trans (raise_moves _ _)).trans (raise_moves _ _)) (fun _ => m.trans (raise_moves _ _))

theorem enterPaying_moves (r : SaleRecord) (s : State) (some' : s.sales.sale.isSome = true)
    (h : SaleOk s → s.sales.journal.length < Config.journalCapacity ∧ s.sales.serialCounter < Config.maxSerial) :
    Moves s (enterPaying r s) := by
  simp only [enterPaying]
  exact Moves.ite (fun _ => enterIssuing_moves _ _ some' h) (fun _ => setSale_moves _ _ some' (fun o _ => h o))

/-! ### Own claims on the line -/

theorem claimingWith_some {s : State} {seq : Nat} {r : SaleRecord} (h : claimingWith s seq = some r) :
    s.sales.sale = some r ∧ r.stage = .claiming := by
  unfold claimingWith at h
  split at h
  · split at h
    · cases h
      rename_i e c
      simp only [Bool.and_eq_true, decide_eq_true_eq] at c
      exact ⟨e, c.1⟩
    · cases h
  · cases h

theorem dropQueued_inner (seq : Nat) (s : State) : Inner s (dropQueued seq s) := by
  unfold dropQueued
  split
  · exact Inner.ite (fun _ => removeClaim_inner _ _ s) (fun _ => .refl s)
  · exact .refl s

theorem failClaim_inner (reason : Reason) (seq : Nat) (s : State) : Inner s (failClaim reason seq s) := by
  unfold failClaim
  split
  · exact (dropQueued_inner _ s).trans (abortSale_inner _ _)
  · exact dropQueued_inner _ s

theorem decideGrant_moves (seq position : Nat) (s : State) : Moves s (decideGrant seq position s) := by
  unfold decideGrant
  split
  · refine Moves.ite (fun _ => Moves.ite (fun _ => ?_) (fun _ => ?_)) (fun _ => .refl s)
    · split
      · rename_i r hr
        obtain ⟨e, st⟩ := claimingWith_some hr
        refine (updateClaim_inner _ _ _ s).toMoves.trans (enterPaying_moves _ _ ?_ fun o => ?_)
        · simp [updateClaim, e]
        · exact o.room r (by simpa [updateClaim] using e) (Or.inl st)
      · exact (updateClaim_inner _ _ _ s).toMoves
    · split
      · exact (((removeClaim_inner _ _ s).trans (hand_inner _ _)).trans (abortSale_inner _ _)).toMoves
      · exact ((removeClaim_inner _ _ s).trans (hand_inner _ _)).toMoves
  · exact .refl s

theorem withdrawalTest_inner (s : State) : Inner s (withdrawalTest s) := by
  unfold withdrawalTest
  split
  · rename_i c _
    refine Inner.ite (fun _ => ?_) (fun _ => .refl s)
    exact Inner.ite (fun _ => (withdrawClaim_inner _ s).trans (failClaim_inner _ _ _)) (fun _ => .refl s)
  · exact .refl s

/-! ### Hand-offs from the Call Table -/

theorem saleCallEnded_inner (service : Nat) (s : State) : Inner s (saleCallEnded service s) :=
  Inner.ite (fun _ => abortSale_inner _ s) (fun _ => .refl s)

theorem releaseOwn_inner (removed : List Claim) (s : State) : Inner s (releaseOwn removed s) :=
  Inner.foldl (fun t _ => Inner.ite (fun _ => hand_inner _ t) (fun _ => .refl t)) removed s

theorem removeCallClaims_inner (service : Nat) (releases : Bool) (s : State) : Inner s (removeCallClaims service releases s) := by
  simp only [removeCallClaims]
  exact Inner.ite (fun _ => (filterClaims_inner _ s).trans (releaseOwn_inner _ _)) (fun _ => filterClaims_inner _ s)

theorem saleAfterBuild_inner (s : State) : Inner s (saleAfterBuild s) := by
  unfold saleAfterBuild
  split
  · split
    · split
      · exact abortSale_inner _ s
      · exact Inner.ite (fun _ => .refl s) (fun _ => abortSale_inner _ s)
    · exact .refl s
  · exact .refl s

/-! ### Bulletins -/

/-- The ids of bulletins, in list order. -/
def idsOf (list : List Bulletin) : List (Nat × Nat) := list.map (fun b => (b.origin, b.number))

theorem distinctIds_iff (list : List Bulletin) : DistinctIds list ↔ (idsOf list).Nodup := by
  simp [DistinctIds, idsOf, List.Nodup, List.pairwise_map]

/-- What leaves no id that was not there, and none twice, keeps the Bulletin List. -/
theorem BulletinsOk.sublist {l m : List Bulletin} (h : BulletinsOk l) (k : (idsOf m).Sublist (idsOf l)) : BulletinsOk m :=
  ⟨(by simpa [idsOf] using k.length_le : m.length ≤ l.length).trans h.capacity,
    (distinctIds_iff m).2 (((distinctIds_iff l).1 h.ids).sublist k)⟩

theorem idsOf_filter (f : Bulletin → Bool) (l : List Bulletin) : (idsOf (l.filter f)).Sublist (idsOf l) :=
  List.filter_sublist.map _

/-- A change of bulletins in their places keeps their ids when it keeps each one's. -/
theorem idsOf_map {f : Bulletin → Bulletin} {l : List Bulletin}
    (h : ∀ b ∈ l, (f b).origin = b.origin ∧ (f b).number = b.number) : idsOf (l.map f) = idsOf l := by
  simp only [idsOf, List.map_map]
  exact List.map_congr_left fun b k => by simp [h b k]

theorem setBulletins_inner (list : List Bulletin) (s : State) (h : (idsOf list).Sublist (idsOf s.bulletins.list)) :
    Inner s (setBulletins list s) := Inner.bulletins' (fun o => o.sublist h) rfl

theorem filterBulletins_inner (f : Bulletin → Bool) (s : State) : Inner s (setBulletins (s.bulletins.list.filter f) s) :=
  setBulletins_inner _ s (idsOf_filter f _)

theorem mapBulletins_inner (f : Bulletin → Bulletin) (s : State)
    (h : ∀ b ∈ s.bulletins.list, (f b).origin = b.origin ∧ (f b).number = b.number) :
    Inner s (setBulletins (s.bulletins.list.map f) s) :=
  setBulletins_inner _ s ((idsOf_map h).symm ▸ List.Sublist.refl _)

/-- An in-force flag set or cleared keeps the ids. -/
theorem flagged_ids (p : Bulletin → Bool) (v : Bool) (b : Bulletin) :
    (if p b then { b with inForce := v } else b).origin = b.origin ∧
      (if p b then { b with inForce := v } else b).number = b.number := by
  split <;> exact ⟨rfl, rfl⟩

theorem bulletinNotice_inner (b : Bulletin) (e : BulletinEvent) (s : State) : Inner s (bulletinNotice b e s) := raise_inner _ s

theorem evaluateBulletin_inner (s : State) (id : Nat × Nat) : Inner s (evaluateBulletin s id) := by
  unfold evaluateBulletin
  split
  · exact .refl s
  · refine Inner.ite (fun _ => ?_) (fun _ => Inner.ite (fun _ => .refl s) (fun _ => ?_))
    · exact ((filterBulletins_inner _ s).trans (bulletinNotice_inner _ _ _)).trans (compose_inner _)
    · refine Inner.trans ?_ (compose_inner _)
      rename_i b _ _ _
      have m := mapBulletins_inner _ s fun x _ => flagged_ids (fun y => y.hasId id.1 id.2) (b.inForceAt s.clock) x
      exact Inner.ite (fun _ => m.trans (raiseSuspension_inner _)) (fun _ => m)

theorem evaluateForce_inner (s : State) : Inner s (evaluateForce s) := Inner.foldl evaluateBulletin_inner _ s

theorem bulletinChanged_inner (b : Bulletin) (e : BulletinEvent) (s : State) : Inner s (bulletinChanged b e s) :=
  ((bulletinNotice_inner b e s).trans (evaluateForce_inner _)).trans (compose_inner _)

theorem removeBulletin_inner (b : Bulletin) (e : BulletinEvent) (s : State) : Inner s (removeBulletin b e s) :=
  (filterBulletins_inner _ s).trans (bulletinChanged_inner _ _ _)

theorem replaceBulletin_inner (old new : Bulletin) (s : State) (o : new.origin = old.origin) (n : new.number = old.number) :
    Inner s (replaceBulletin old new s) := by
  simp only [replaceBulletin]
  refine Inner.trans ?_ (bulletinChanged_inner _ _ _)
  have m := mapBulletins_inner
    (fun y => if y.hasId old.origin old.number then { new with inForce := old.inForce } else y) s fun b _ => by
      simp only [Bulletin.hasId, Bool.and_eq_true, decide_eq_true_eq]
      split
      · next h => exact ⟨o.trans h.1.symm, n.trans h.2.symm⟩
      · exact ⟨rfl, rfl⟩
  exact Inner.ite (fun _ => m.trans (raiseSuspension_inner _)) (fun _ => m)

/-! ### What stays within the board, the bulletins and the notices -/

/-- Only the board, the Bulletin List and the Notice Unit may differ. -/
def OnBoard (s t : State) : Prop := ∃ b l n, t = { s with board := b, bulletins := l, notices := n }

theorem OnBoard.refl (s : State) : OnBoard s s := ⟨_, _, _, rfl⟩

theorem OnBoard.trans {s t u : State} (a : OnBoard s t) (b : OnBoard t u) : OnBoard s u := by
  obtain ⟨_, _, _, rfl⟩ := a
  obtain ⟨_, _, _, rfl⟩ := b
  exact ⟨_, _, _, rfl⟩

theorem compose_onBoard (s : State) : OnBoard s (compose s) := by
  simp only [compose]
  split
  · exact ⟨_, _, _, rfl⟩
  · exact .refl s

theorem evaluateBulletin_onBoard (s : State) (id : Nat × Nat) : OnBoard s (evaluateBulletin s id) := by
  unfold evaluateBulletin
  split
  · exact .refl s
  · split
    · exact OnBoard.trans ⟨_, _, _, rfl⟩ (compose_onBoard _)
    · split
      · exact .refl s
      · refine OnBoard.trans ?_ (compose_onBoard _)
        split <;> exact ⟨_, _, _, rfl⟩

theorem evaluateForce_onBoard (s : State) : OnBoard s (evaluateForce s) := by
  unfold evaluateForce
  generalize s.bulletins.list.map _ = ids
  induction ids generalizing s with
  | nil => exact .refl s
  | cons x xs ih => exact (evaluateBulletin_onBoard s x).trans (ih _)

end Sys2Proof.Machine
end

