-- ==== Sys2Proof/Laws/Bulletins.lean ====
section
/-! SUPPORT. The Bulletin List never outgrows its four places nor holds an id twice (R168). -/

namespace Sys2Proof.Machine

@[simp] theorem compose_bulletins (s : State) : (compose s).bulletins = s.bulletins := by
  simp only [compose]
  split <;> rfl

@[simp] theorem raise_bulletins (c : NoticeContent) (s : State) : (raise c s).bulletins = s.bulletins := rfl

@[simp] theorem raiseSuspension_bulletins (s : State) : (raiseSuspension s).bulletins = s.bulletins := rfl

@[simp] theorem bulletinNotice_bulletins (b : Bulletin) (e : BulletinEvent) (s : State) :
    (bulletinNotice b e s).bulletins = s.bulletins := rfl

@[simp] theorem setBulletins_list (l : List Bulletin) (s : State) : (setBulletins l s).bulletins.list = l := rfl

/-- The evaluation of one bulletin removes it or keeps every id. -/
theorem evaluateBulletin_ids (s : State) (id : Nat × Nat) :
    (idsOf (evaluateBulletin s id).bulletins.list).Sublist (idsOf s.bulletins.list) := by
  unfold evaluateBulletin
  split
  · exact .refl _
  · split
    · simpa using idsOf_filter _ _
    · split
      · exact .refl _
      · rename_i b _ _ _
        have m := idsOf_map (l := s.bulletins.list) fun x _ => flagged_ids (fun y => y.hasId id.1 id.2) (b.inForceAt s.clock) x
        simp only [compose_bulletins]
        split <;> exact m.symm ▸ .refl _

theorem evaluateForce_ids (s : State) : (idsOf (evaluateForce s).bulletins.list).Sublist (idsOf s.bulletins.list) := by
  unfold evaluateForce
  generalize s.bulletins.list.map (fun b => (b.origin, b.number)) = ids
  induction ids generalizing s with
  | nil => exact .refl _
  | cons i ids ih => exact (ih _).trans (evaluateBulletin_ids s i)

/-- A change's evaluation of force leaves no id that was not there. -/
theorem bulletinChanged_ids (b : Bulletin) (e : BulletinEvent) (s : State) :
    (idsOf (bulletinChanged b e s).bulletins.list).Sublist (idsOf s.bulletins.list) := by
  simpa [bulletinChanged] using evaluateForce_ids (bulletinNotice b e s)

theorem bulletinChanged_length (b : Bulletin) (e : BulletinEvent) (s : State) :
    (bulletinChanged b e s).bulletins.list.length ≤ s.bulletins.list.length := by
  simpa [idsOf] using (bulletinChanged_ids b e s).length_le

/-- The bulletin found has the id sought. -/
theorem findBulletin_id {l : List Bulletin} {o n : Nat} {b : Bulletin} (h : findBulletin l o n = some b) :
    b.origin = o ∧ b.number = n := by
  simpa [Bulletin.hasId] using List.find?_some h

/-- An id that is not found is not among the ids. -/
theorem findBulletin_none {l : List Bulletin} {o n : Nat} (h : findBulletin l o n = none) : (o, n) ∉ idsOf l := by
  simp only [findBulletin, List.find?_eq_none, Bulletin.hasId, Bool.and_eq_true, decide_eq_true_eq] at h
  simpa [idsOf] using h

theorem foldl_mem {α : Type} (f : α → α → α) (h : ∀ a b, f a b = a ∨ f a b = b) (x : α) (xs : List α) :
    xs.foldl f x = x ∨ xs.foldl f x ∈ xs := by
  induction xs generalizing x with
  | nil => exact .inl rfl
  | cons y ys ih =>
    rcases ih (f x y) with k | k
    · rcases h x y with e | e <;> rw [List.foldl_cons, k, e]
      · exact .inl rfl
      · exact .inr (List.mem_cons_self ..)
    · exact .inr (List.mem_cons_of_mem _ k)

theorem earliestUntil_mem {l : List Bulletin} {b : Bulletin} (h : earliestUntil l = some b) : b ∈ l := by
  cases l with
  | nil => cases h
  | cons x xs =>
    simp only [earliestUntil, Option.some.injEq] at h
    rcases foldl_mem (fun a b => if b.validUntil.before a.validUntil then b else a)
      (fun a b => by split <;> simp) x xs with k | k
    · rw [← h, k]; simp
    · rw [← h]; simp [k]

theorem earliestUntil_some {l : List Bulletin} (h : l ≠ []) : ∃ b, earliestUntil l = some b := by
  cases l with
  | nil => exact absurd rfl h
  | cons x xs => exact ⟨_, rfl⟩

theorem dropChoice_mem {l : List Bulletin} {b : Bulletin} (h : dropChoice l = some b) : b ∈ l := by
  unfold dropChoice at h
  split at h
  · rename_i e
    cases h
    exact (List.mem_filter.1 (earliestUntil_mem e)).1
  · exact earliestUntil_mem h

theorem dropChoice_some {l : List Bulletin} (h : l ≠ []) : ∃ b, dropChoice l = some b := by
  unfold dropChoice
  split
  · exact ⟨_, rfl⟩
  · exact earliestUntil_some h

theorem Bulletin.hasId_self (b : Bulletin) : b.hasId b.origin b.number = true := by simp [Bulletin.hasId]

theorem removed_length {l : List Bulletin} {b : Bulletin} (h : b ∈ l) :
    (l.filter (fun x => !x.hasId b.origin b.number)).length < l.length :=
  List.length_filter_lt_length_iff_exists.2 ⟨b, h, by simp [Bulletin.hasId_self]⟩

theorem removeBulletin_length {b : Bulletin} {s : State} (e : BulletinEvent) (h : b ∈ s.bulletins.list) :
    (removeBulletin b e s).bulletins.list.length < s.bulletins.list.length :=
  Nat.lt_of_le_of_lt (bulletinChanged_length _ _ _) (removed_length h)

theorem makeRoom_inner (s : State) : Inner s (makeRoom s).2 := by
  unfold makeRoom
  split
  · exact .refl s
  · split
    · exact removeBulletin_inner _ _ s
    · exact .refl s

theorem makeRoom_ids (s : State) : (idsOf (makeRoom s).2.bulletins.list).Sublist (idsOf s.bulletins.list) := by
  unfold makeRoom
  split
  · exact .refl _
  · split
    · exact (bulletinChanged_ids _ _ _).trans (idsOf_filter _ _)
    · exact .refl _

theorem makeRoom_length (s : State) (h : s.bulletins.list.length ≤ Config.bulletinCapacity) :
    (makeRoom s).2.bulletins.list.length < Config.bulletinCapacity := by
  unfold makeRoom
  split
  · assumption
  · rename_i full
    have ne : s.bulletins.list ≠ [] := by
      rintro e; simp [e, Config.bulletinCapacity] at full
    obtain ⟨b, hb⟩ := dropChoice_some ne
    rw [hb]
    exact Nat.lt_of_lt_of_le (removeBulletin_length _ (dropChoice_mem hb)) h

/-- An operation followed by a new list of bulletins that keeps what the list keeps. -/
theorem Inner.thenBulletins {s t : State} (m : Inner s t) (x : Bulletins)
    (h : BulletinsOk s.bulletins.list → BulletinsOk x.list) (c : x.counter = t.bulletins.counter) : Inner s (t.withBulletins x) :=
  { m with bulletins := h, counter := c.trans m.counter, sale := fun o => (m.sale o).congr rfl rfl }

/-- An operation followed by another list of bulletins that keeps what the list keeps. -/
theorem Inner.setBulletins {s t : State} (m : Inner s t) (list : List Bulletin)
    (h : BulletinsOk s.bulletins.list → BulletinsOk list) : Inner s (setBulletins list t) := m.thenBulletins _ h rfl

/-- A bulletin of an id that the list does not hold joins a list with room for it. -/
theorem BulletinsOk.append {l : List Bulletin} (h : BulletinsOk l) (room : l.length < Config.bulletinCapacity) {b : Bulletin}
    (new : (b.origin, b.number) ∉ idsOf l) : BulletinsOk (l ++ [b]) :=
  ⟨by simpa using room, (distinctIds_iff _).2 (by
    have k := (distinctIds_iff l).1 h.ids
    simp only [idsOf, List.map_append, List.map_cons, List.map_nil] at new ⊢
    exact List.nodup_append.2 ⟨k, by simp, fun a ha c hc e => new (by simp_all)⟩)⟩

/-- A bulletin of a new id joins the list, room being made first (R168). -/
theorem addBulletin_inner (b : Bulletin) (s : State) (new : findBulletin s.bulletins.list b.origin b.number = none) :
    Inner s (addBulletin b s).2 := by
  have m := makeRoom_inner s
  have room := makeRoom_length s
  have ids := makeRoom_ids s
  unfold addBulletin
  generalize makeRoom s = r at m room ids
  refine (Inner.setBulletins m _ (fun h => ?_)).trans (bulletinChanged_inner _ _ _)
  exact (h.sublist ids).append (room h.capacity) fun k => findBulletin_none new (ids.subset k)

theorem takeBulletin_inner (origin : Nat) (f : BulletinFields) (s : State) : Inner s (takeBulletin origin f s) := by
  unfold takeBulletin
  refine Inner.ite (fun _ => .refl s) (fun _ => Inner.ite (fun _ => .refl s) (fun _ => ?_))
  split
  · next h =>
    refine Inner.ite (fun _ => removeBulletin_inner _ _ s) (fun _ => Inner.ite (fun _ => .refl s) (fun _ => ?_))
    exact replaceBulletin_inner _ _ s (findBulletin_id h).1.symm (findBulletin_id h).2.symm
  · next h => exact Inner.ite (fun _ => .refl s) (fun _ => addBulletin_inner _ s h)

end Sys2Proof.Machine
end

