-- ==== Sys2Proof/Laws/Calls.lean ====
section
/-! SUPPORT. What the Call Table's operations and the Edition Store's can do. -/

namespace Sys2Proof.Machine

/-! ### The Call Table -/

theorem callChanged_inner (s : State) : Inner s (callChanged s) := raise_inner _ s

theorem setCall_inner (i : Nat) (c : Call) (s : State) : Inner s (setCall i c s) := Inner.calls' (fun h => by simpa using h) rfl

theorem callEnded_inner (c : Call) (s : State) : Inner s (callEnded c s) :=
  (saleCallEnded_inner _ s).trans (removeCallClaims_inner _ _ _)

theorem notifyCall_inner (old new : Call) (s : State) : Inner s (notifyCall old new s) := by
  have m : Inner s (if boardChange old new then compose s else s) := Inner.ite (fun _ => compose_inner s) (fun _ => .refl s)
  simp only [notifyCall]
  exact Inner.ite (fun _ => m.trans (callChanged_inner _)) (fun _ => m)

theorem commitCall_inner (i : Nat) (new : Call) (s : State) : Inner s (commitCall i new s) := by
  unfold commitCall
  split
  · exact .refl s
  · refine (setCall_inner i new s).trans (Inner.trans ?_ (notifyCall_inner _ _ _))
    exact Inner.ite (fun _ => callEnded_inner _ _) (fun _ => .refl _)

theorem evalPhase_inner (f : EvalContext → Call → Call) (i : Nat) (s : State) : Inner s (evalPhase f i s) := by
  unfold evalPhase
  split
  · exact Inner.ite (fun _ => commitCall_inner _ _ s) (fun _ => .refl s)
  · exact .refl s

theorem evalCall_inner (i : Nat) (s : State) : Inner s (evalCall i s) :=
  (((evalPhase_inner _ i s).trans (evalPhase_inner _ i _)).trans (evalPhase_inner _ i _)).trans (evalPhase_inner _ i _)

theorem evalAll_inner (s : State) : Inner s (evalAll s) := Inner.foldl (fun t i => evalCall_inner i t) _ s

theorem acceptReport_inner (i : Nat) (r : BestReport) (s : State) : Inner s (acceptReport i r s) := by
  unfold acceptReport
  split
  · exact .refl s
  · exact Inner.ite (fun _ => (commitCall_inner _ _ s).trans (evalCall_inner _ _)) (fun _ => commitCall_inner _ _ s)

theorem warnIfPass_inner (c : Call) (d : Direction) (s : State) : Inner s (warnIfPass c d s) :=
  Inner.ite (fun _ => raiseWarning_inner d s) (fun _ => .refl s)

theorem takeApproach_inner (i : Nat) (new : Call) (s : State) : Inner s (takeApproach i new s) :=
  (commitCall_inner i new s).trans (evalCall_inner i _)

theorem approachObserved_inner (o : ApproachObs) (s : State) : Inner s (approachObserved o s).2 := by
  unfold approachObserved
  split
  · exact raiseWarning_inner _ s
  · split
    · split
      · refine Inner.trans ?_ (warnIfPass_inner _ _ _)
        exact Inner.ite (fun _ => takeApproach_inner _ _ s) (fun _ => .refl s)
      · exact .refl s
    · split
      · split
        · exact (takeApproach_inner _ _ s).trans (warnIfPass_inner _ _ _)
        · exact .refl s
      · exact raiseWarning_inner _ s

theorem departureObserved_inner (d : Direction) (second : Nat) (s : State) : Inner s (departureObserved d second s).2 := by
  unfold departureObserved
  split
  · exact clearWarning_inner d s
  · split
    · split
      · exact (commitCall_inner _ _ s).trans (clearWarning_inner d _)
      · exact clearWarning_inner d s
    · exact clearWarning_inner d s

theorem rewatchCall_inner (old new : Coverage) (s : State) (i : Nat) : Inner s (rewatchCall old new s i) := by
  unfold rewatchCall
  split
  · refine Inner.ite (fun _ => Inner.trans ?_ (evalCall_inner i _)) (fun _ => .refl s)
    exact Inner.ite (fun _ => commitCall_inner _ _ s) (fun _ => .refl s)
  · exact .refl s

theorem updateWatch_inner (s : State) : Inner s (updateWatch s) := by
  have m : Inner s (s.withCalls { s.calls with watch := watchView s.treadles s.line.peers }) := Inner.calls' id rfl
  simp only [updateWatch]
  refine Inner.ite (fun _ => .refl s) (fun _ => Inner.ite (fun _ => m) (fun _ => m.trans ?_))
  exact Inner.foldl (fun t i => rewatchCall_inner _ _ t i) _ _

/-! ### Builds -/

theorem builtCalls_length (k : BuildKind) (s : State) : (builtCalls k s).length ≤ Config.maxCalls := by
  unfold builtCalls newCalls
  cases k <;> simp [Config.maxCalls]

theorem endAfterBuild_inner (s : State) (c : Call) : Inner s (endAfterBuild s c) :=
  ((callEnded_inner c s).trans (compose_inner _)).trans (callChanged_inner _)

theorem claimsAfterBuild_inner (k : BuildKind) (dropped : List Nat) (s : State) : Inner s (claimsAfterBuild k dropped s) := by
  cases k
  · exact Inner.claims' fun _ => by simp
  · exact Inner.foldl (fun t n => removeCallClaims_inner n true t) dropped s

theorem countBuild_inner (s : State) :
    Inner s (s.withCalls { s.calls with buildCount := (s.calls.buildCount + 1) % 256 }) := Inner.calls' id rfl

theorem buildTable_inner (k : BuildKind) (s : State) : Inner s (buildTable k s) := by
  simp only [buildTable]
  have m : Inner s (s.withCalls { s.calls with calls := evaluatedCalls s (builtCalls k s), date := s.clock.date }) :=
    Inner.calls' (fun _ => by simpa [evaluatedCalls] using builtCalls_length k s) rfl
  have n := m.trans ((saleAfterBuild_inner _).trans ((claimsAfterBuild_inner k (droppedBy s.calls.calls (builtCalls k s)) _).trans
    (Inner.foldl endAfterBuild_inner (endedByEvaluation (builtCalls k s) (evaluatedCalls s (builtCalls k s))) _)))
  exact n.trans ((countBuild_inner _).trans ((compose_inner _).trans (callChanged_inner _)))

/-! ### The Edition Store -/

theorem timetableReady_staged {s : State} (h : timetableReady s = true) : s.store.timetable.loader = .staged := by
  unfold timetableReady at h
  simp only [Bool.and_eq_true, decide_eq_true_eq] at h
  exact h.1

theorem activateTimetable_inner (s : State) (st : s.store.timetable.loader = .staged) : Inner s (activateTimetable s) :=
  (activate_timetable_inner s st).trans (compose_inner _)

theorem activateStagedTimetable_inner (s : State) : Inner s (activateStagedTimetable s) :=
  Inner.ite (fun h => (activateTimetable_inner s (timetableReady_staged h)).trans (buildTable_inner _ _)) (fun _ => .refl s)

theorem rolloverCheck_inner (s : State) : Inner s (rolloverCheck s) :=
  Inner.ite (fun h => activateTimetable_inner s (timetableReady_staged h)) (fun _ => .refl s)

theorem testActivation_inner (k : TableKind) (s : State) : Inner s (testActivation k s) := by
  cases k
  · exact activateStagedTimetable_inner s
  · exact activateFare_inner s

theorem checkHeader_haltCode {k : TableKind} {c e : Nat} {bs : List Byte} {h : ImageHeader}
    (ok : checkHeader k c e bs h = none) : h.haltCode = c := by
  unfold checkHeader at ok
  split at ok
  · cases ok
  · split at ok
    · cases ok
    · rename_i hne
      exact Decidable.not_not.1 hne

/-- An image that passes the check is sound (R107). -/
theorem checkImage_sound {k : TableKind} {c e : Nat} {bs : List Byte} (ok : checkImage k c e bs = none) : Sound c bs := by
  unfold checkImage at ok
  split at ok
  · cases ok
  · rename_i sum
    split at ok
    · cases ok
    · split at ok
      · cases ok
      · rename_i h hh
        exact ⟨Decidable.not_not.1 sum, h, hh, checkHeader_haltCode ok⟩

theorem stage_inner (k : TableKind) (s : State) (run : s.setup.running = true) (ok : stagingFault k s = none) :
    Inner s (stage k s) := by
  unfold stage
  simp only
  refine Inner.trans ?_ (Inner.trans (raise_inner _ _) (testActivation_inner k _))
  refine setSlot_inner k _ s (fun h => ⟨h.active, fun _ => checkImage_sound ok, fun e => ?_⟩) rfl rfl
  rw [run] at e
  cases e

theorem reject_inner (k : TableKind) (r : Reason) (o : Nat) (s : State) : Inner s (reject k r o s) := by
  refine Inner.trans (setSlot_inner k _ s (fun h => ?_) ?_ ?_) (raise_inner _ _)
  · exact h.filling rfl (by simp [Slot.cleared])
  · rfl
  · rfl

theorem checkFill_inner (k : TableKind) (s : State) (run : s.setup.running = true) : Inner s (checkFill k s) := by
  unfold checkFill
  split
  · exact stage_inner k s run ‹_›
  · exact reject_inner _ _ _ s

theorem startPullWait_inner (k : TableKind) (s : State) : Inner s (startPullWait k s) :=
  (draw_inner 21 s).trans (setSlot_inner k _ _ (fun h => h.congr rfl rfl rfl) rfl rfl)

theorem considerOffer_inner (k : TableKind) (e : Nat) (s : State) : Inner s (considerOffer k e s) := by
  simp only [considerOffer]
  refine Inner.ite (fun _ => ?_) (fun _ => .refl s)
  split
  · exact Inner.ite (fun _ => startPullWait_inner k s) (fun _ => .refl s)
  · exact Inner.ite (fun _ => (abandonPull_inner k s).trans (startPullWait_inner k _)) (fun _ => .refl s)
  · exact .refl s
  · exact .refl s

theorem beginPull_inner (k : TableKind) (s : State) : Inner s (beginPull k s) := by
  have m : Inner s (setSlot k { slotOf s k with pullWait := none } s) :=
    setSlot_inner k _ s (fun h => h.congr rfl rfl rfl) rfl rfl
  simp only [beginPull]
  split
  · exact m
  · refine m.trans (Inner.trans ?_ (requestSegment_inner _ _ _ _))
    exact setSlot_inner k _ _ (fun h => h.filling rfl (by simp)) rfl rfl

theorem segReqCompleted_inner (k : TableKind) (seq : Nat) (s : State) : Inner s (segReqCompleted k seq s) := by
  unfold segReqCompleted
  split
  · exact Inner.ite (fun _ => setPull_inner _ _ s) (fun _ => .refl s)
  · exact .refl s

theorem acceptSegment_inner (k : TableKind) (p : Pull) (n : Nat) (data : List Byte) (s : State) (run : s.setup.running = true)
    (fill : (slotOf s k).loader ≠ .staged) : Inner s (acceptSegment k p n data s) := by
  have m : Inner s (setSlot k { slotOf s k with
      staging := (slotOf s k).staging ++ data, offset := (slotOf s k).offset + data.length, declared := some n,
      pull := some { p with replyTimer := none, request := none } } s) :=
    setSlot_inner k _ s (fun h => h.filling rfl fill) rfl rfl
  simp only [acceptSegment]
  exact Inner.ite (fun _ => m.trans (checkFill_inner k _ (by rw [m.setup]; exact run)))
    (fun _ => m.trans (requestSegment_inner _ _ _ _))

theorem segmentForPull_inner (k : TableKind) (p : Pull) (f : SegmentFields) (s : State) (run : s.setup.running = true)
    (fill : (slotOf s k).loader ≠ .staged) : Inner s (segmentForPull k p f s) := by
  unfold segmentForPull
  refine Inner.ite (fun _ => abandonPull_inner k s) (fun _ => Inner.ite (fun _ => .refl s) (fun _ =>
    Inner.ite (fun _ => ?_) (fun _ => abandonPull_inner k s)))
  split
  · exact Inner.ite (fun _ => acceptSegment_inner k p _ _ s run fill) (fun _ => abandonPull_inner k s)
  · exact abandonPull_inner k s

theorem segmentArrived_inner (origin : Nat) (f : SegmentFields) (s : State) (run : s.setup.running = true) :
    Inner s (segmentArrived origin f s) := by
  simp only [segmentArrived]
  split
  · refine Inner.ite (fun c => segmentForPull_inner _ _ f s run ?_) (fun _ => .refl s)
    simp only [Bool.and_eq_true, decide_eq_true_eq] at c
    rw [c.1.1]
    simp
  · exact .refl s

theorem abandonPullFrom_inner (n : Nat) (k : TableKind) (s : State) : Inner s (abandonPullFrom n k s) := by
  unfold abandonPullFrom
  split
  · exact Inner.ite (fun _ => abandonPull_inner k s) (fun _ => .refl s)
  · exact .refl s

theorem abandonPullsFrom_inner (n : Nat) (s : State) : Inner s (abandonPullsFrom n s) :=
  (abandonPullFrom_inner n .timetable s).trans (abandonPullFrom_inner n .fare _)

theorem beginLoad_inner (kind n : Nat) (s : State) : Inner s (beginLoad kind n s).2 := by
  unfold beginLoad
  split
  · exact .refl s
  · split
    · exact setSlot_inner _ _ s (fun h => h.filling rfl (by simp [Slot.beginHostFill])) rfl rfl
    · exact .refl s

theorem loadData_inner (kind o : Nat) (data : List Byte) (s : State) (run : s.setup.running = true) :
    Inner s (loadData kind o data s).2 := by
  unfold loadData
  split
  · exact .refl s
  · rename_i k _
    split
    · rename_i fill
      split
      · have m : Inner s (setSlot k ((slotOf s k).append data) s) :=
          setSlot_inner k _ s (fun h => h.filling rfl (by simp [Slot.append, fill])) rfl rfl
        simp only [takeLoadSegment]
        split
        · exact m.trans (checkFill_inner k _ (by rw [m.setup]; exact run))
        · exact m
      · exact (abandonPull_inner k s).trans (raise_inner _ _)
    · exact .refl s

theorem abandonLoad_inner (kind : Nat) (s : State) : Inner s (abandonLoad kind s).2 := by
  unfold abandonLoad
  split
  · exact .refl s
  · split
    · exact abandonPull_inner _ s
    · exact .refl s

end Sys2Proof.Machine
end

