-- ==== Sys2Proof/Laws/Clock.lean ====
section
/-! SUPPORT. What the Halt Clock's events can do: each sets the clock, and what follows moves the rest. -/

namespace Sys2Proof.Machine

theorem secondsToLists_inner (s : State) : Inner s (secondsToLists s) := (evaluateForce_inner s).trans (compose_inner _)

theorem secondsToLists_onBoard (s : State) : OnBoard s (secondsToLists s) :=
  (evaluateForce_onBoard s).trans (compose_onBoard _)

theorem secondsEvent_inner (s : State) : Inner s (secondsEvent s) := (evalAll_inner s).trans (secondsToLists_inner _)

/-- The clock after one tenth of the reference clock (R2, R3, R4). -/
def Clock.afterTenth (c : Clock) : Clock :=
  if c.grade = .unset then c.tickOn
  else if c.tenths < 9 then { c.tickOn with tenths := c.tenths + 1 }
  else if c.second < 86399 then { c.tickOn with second := c.second + 1, tenths := 0 }
  else c.tickOn.rolled

theorem clockTenth_inner (s : State) : Inner (s.withClock s.clock.afterTenth) (clockTenth s) := by
  have g : s.clock.tickOn.grade = s.clock.grade := rfl
  have t : s.clock.tickOn.tenths = s.clock.tenths := rfl
  have e : s.clock.tickOn.second = s.clock.second := rfl
  unfold Clock.afterTenth
  simp only [clockTenth, g, t, e]
  split
  · exact .refl _
  · split
    · exact .refl _
    · split
      · exact secondsEvent_inner _
      · exact (rolloverCheck_inner _).trans ((buildTable_inner _ _).trans (secondsToLists_inner _))

/-- The clock after the ageing event (R5). -/
def Clock.aged (c : Clock) : Clock := if c.ageDue then { c with grade := .hostAged } else c

theorem age_inner (s : State) : Inner (s.withClock s.clock.aged) (age s) := by
  unfold Clock.aged age
  split
  · exact secondsToLists_inner _
  · exact .refl s

theorem estimateCalls_inner (s : State) : Inner s (estimateCalls s) := by
  refine Inner.foldl (fun t i => ?_) _ s
  split
  · exact commitCall_inner _ _ t
  · exact .refl t

theorem stepTaken_inner (old : Clock) (s : State) : Inner s (stepTaken old s) := by
  unfold stepTaken
  refine Inner.ite (fun _ => ?_) (fun _ => (buildTable_inner _ s).trans (secondsToLists_inner _))
  have m : Inner s (if old.grade = .unset then estimateCalls s else s) :=
    Inner.ite (fun _ => estimateCalls_inner s) (fun _ => .refl s)
  exact m.trans ((evalAll_inner _).trans (secondsToLists_inner _))

theorem stepClock_inner (c : Clock) (s : State) : Inner (s.withClock c) (stepClock c s) := stepTaken_inner _ _

/-- The clock after an accepted ANNOUNCE is considered (R7). -/
def Clock.considering (c : Clock) (f : AnnounceFields) : Clock := if adopts c f then adoptedClock f c else c

theorem considerAdoption_inner (station : Nat) (f : AnnounceFields) (s : State) :
    Inner (s.withClock (s.clock.considering f)) (considerAdoption station f s) := by
  unfold Clock.considering considerAdoption
  split
  · exact (stepClock_inner _ s).trans (raise_inner _ _)
  · exact .refl s

end Sys2Proof.Machine
end

