-- ==== Sys2Proof/Laws/Commands.lean ====
section
/-! SUPPORT. When a host command reaches its block, and what it then does. -/

namespace Sys2Proof.Machine

/-- A command of RUN without a role reaches its block in RUN. -/
theorem gate_run {c : Command} {s : State} (h : s.Serving) (a : c.acceptance ≠ .setupOnly) (r : c.role = .none) :
    gate c true s = none := by
  unfold gate
  simp only [h.ready, h.running, r]
  cases e : c.acceptance <;> simp_all

/-- A sale or journal command reaches its block on a SELLS station in RUN. -/
theorem gate_sells {c : Command} {s : State} (h : s.Serving) (a : c.acceptance ≠ .setupOnly) (r : c.role = .sells)
    (x : s.setup.straps.sells = true) : gate c true s = none := by
  unfold gate
  simp only [h.ready, h.running, r, x]
  cases e : c.acceptance <;> simp_all

/-- A board command reaches its block on a SHOWS station in RUN. -/
theorem gate_shows {c : Command} {s : State} (h : s.Serving) (a : c.acceptance ≠ .setupOnly) (r : c.role = .shows)
    (x : s.setup.straps.shows = true) : gate c true s = none := by
  unfold gate
  simp only [h.ready, h.running, r, x]
  cases e : c.acceptance <;> simp_all

/-- A command of SETUP reaches its block in SETUP. -/
theorem gate_setup {c : Command} {s : State} (h : s.InSetup) (a : c.acceptance = .setupOnly) (r : c.role = .none) :
    gate c true s = none := by
  unfold gate
  simp only [h.ready, h.running, r, a]
  simp

/-- A command of both start-up states without a role reaches its block once initialisation is over. -/
theorem gate_both {c : Command} {s : State} (h : s.host.ready = true) (a : c.acceptance = .both) (r : c.role = .none) :
    gate c true s = none := by
  unfold gate
  simp only [h, r, a]
  cases s.setup.running <;> simp

/-- A command that reaches its block is answered by it. -/
theorem hostCommand_taken {c : Command} {ok : Bool} {s : State} (g : gate c ok s = none) (tag : Nat)
    (body : State → Answer × State) : hostCommand c tag ok body s = (body s).2.answered c.code tag (body s).1 := by
  unfold hostCommand
  rw [g]
  rfl

/-- A host command either leaves all but the result buffer as it was, or does what its block does. -/
theorem hostCommand_cases (c : Command) (tag : Nat) (ok : Bool) (body : State → Answer × State) (s : State) :
    (∃ a, hostCommand c tag ok body s = s.answered c.code tag a) ∨
      (gate c ok s = none ∧ hostCommand c tag ok body s = (body s).2.answered c.code tag (body s).1) := by
  unfold hostCommand
  cases g : gate c ok s with
  | some a => exact .inl ⟨a, rfl⟩
  | none => exact .inr ⟨rfl, rfl⟩

end Sys2Proof.Machine
end

