-- ==== Sys2Proof/Laws/Send.lean ====
section
/-! SUPPORT. What getting a frame onto the line can do. -/

namespace Sys2Proof.Machine

theorem startAnnounceTimer_moves (s : State) : Moves s (startAnnounceTimer s) :=
  (draw_moves 11 s).trans (Moves.line' (fun h => h.congr rfl rfl rfl rfl rfl) id)

theorem announce_moves (s : State) : Moves s (announce s) := (hand_inner _ s).toMoves.trans (startAnnounceTimer_moves _)

/-- The current frame replaced by one of the same key, under a condition that says a frame is current. -/
theorem setCurrent_inner {f g : TxFrame} {q : List TxFrame} (c : LineCondition) (s : State) (h : s.line.queue = f :: q)
    (k : g.payload.key = f.payload.key) (n : c ≠ .noFrame) : Inner s (setCurrent g c s) := by
  refine Inner.line' (fun ok => ?_) rfl rfl rfl rfl rfl
  refine ⟨?_, ?_, ?_, ok.seq, ok.received, ?_⟩
  · simpa [h] using ok.queue
  · intro m
    have := ok.muted m
    simp [h] at this
  · simp [n]
  · exact ok.repeats.congr (by simp [h, k])

theorem filledPayload_key (s : State) (p : Payload) : (filledPayload s p).key = p.key := by
  cases p <;> rfl

theorem startAttempt_inner (s : State) : Inner s (startAttempt s) := by
  unfold startAttempt
  split
  · rename_i h
    exact setCurrent_inner _ s h (filledPayload_key s _) (by simp)
  · exact .refl s

theorem dropCurrent_inner (s : State) : Inner s (dropCurrent s) := Inner.line' (fun h => h.remove _ 0) rfl rfl rfl rfl rfl

theorem tellAbandoned_inner (f : TxFrame) (s : State) : Inner s (tellAbandoned f s) := by
  unfold tellAbandoned
  split
  · exact failClaim_inner _ _ s
  · exact segReqLost_inner _ _ s
  · exact .refl s

theorem abandonCurrent_inner (f : TxFrame) (why : LineFailure) (s : State) : Inner s (abandonCurrent f why s) :=
  (dropCurrent_inner s).trans ((raise_inner _ _).trans (tellAbandoned_inner _ _))

theorem draw_queue (n : Nat) (s : State) : (draw n s).2.line.queue = s.line.queue := by
  unfold draw
  split <;> rfl

theorem backOff_inner {f g : TxFrame} {q : List TxFrame} (s : State) (h : s.line.queue = f :: q)
    (k : g.payload.key = f.payload.key) : Inner s (backOff g s) := by
  refine (draw_inner _ s).trans (setCurrent_inner _ _ ((draw_queue _ s).trans h) k ?_)
  unfold backoffCondition
  split <;> simp

theorem attemptFailed_inner {f g : TxFrame} {q : List TxFrame} (why : LineFailure) (s : State) (h : s.line.queue = f :: q)
    (k : g.payload.key = f.payload.key) : Inner s (attemptFailed g why s) :=
  Inner.ite (fun _ => backOff_inner s h k) (fun _ => abandonCurrent_inner _ _ s)

theorem collide_inner (s : State) : Inner s (collide s) := by
  unfold collide
  split
  · rename_i h
    exact attemptFailed_inner _ s h rfl
  · exact .refl s

theorem busyFail_inner (s : State) : Inner s (busyFail s) := by
  unfold busyFail
  split
  · rename_i h
    exact Inner.ite (fun _ => attemptFailed_inner _ s h rfl) (fun _ => .refl s)
  · exact .refl s

theorem endBackoff_inner (s : State) : Inner s (endBackoff s) := by
  unfold endBackoff
  split
  · rename_i n h
    refine Inner.line' (fun ok => ⟨ok.queue, ok.muted, ?_, ok.seq, ok.received, ok.repeats⟩) rfl rfl rfl rfl rfl
    have := ok.current
    rw [h] at this
    simpa using this
  · exact .refl s

theorem countFrame_moves (s : State) : Moves s (countFrame s) :=
  Moves.line' (fun ok => ⟨ok.queue, ok.muted, ok.current, ok.seq, by simp; omega, ok.repeats⟩) id

theorem lowerFresh_moves (s : State) : Moves s (lowerFresh s) := Moves.line' (fun h => h.congr rfl rfl rfl rfl rfl) id

theorem tellCompleted_moves (f : TxFrame) (s : State) : Moves s (tellCompleted f s) := by
  unfold tellCompleted
  split
  · exact decideGrant_moves _ _ s
  · exact (segReqCompleted_inner _ _ s).toMoves
  · exact lowerFresh_moves s
  · exact .refl s

theorem complete_moves (s : State) : Moves s (complete s) := by
  unfold complete
  split
  · exact (countFrame_moves s).trans ((dropCurrent_inner _).toMoves.trans (tellCompleted_moves _ _))
  · exact .refl s

theorem handAll_inner (ps : List Payload) (s : State) : Inner s (handAll ps s) := Inner.foldl (fun t p => hand_inner p t) ps s

theorem resendReports_inner (s : State) : Inner s (resendReports s) := handAll_inner _ s

end Sys2Proof.Machine
end

