-- ==== Sys2Proof/Laws/Frames.lean ====
section
/-! SUPPORT. Which blocks an operation may change at all: the line and the store, the blocks of a sale, the board with the
bulletins and notices. -/

namespace Sys2Proof.Machine

/-! ### The line and the store -/

/-- Only the Line Controller and the Edition Store may differ. -/
def OnLine (s t : State) : Prop := ∃ l x, t = { s with line := l, store := x }

theorem OnLine.refl (s : State) : OnLine s s := ⟨_, _, rfl⟩

theorem OnLine.trans {s t u : State} (a : OnLine s t) (b : OnLine t u) : OnLine s u := by
  obtain ⟨_, _, rfl⟩ := a
  obtain ⟨_, _, rfl⟩ := b
  exact ⟨_, _, rfl⟩

theorem OnLine.ite {s t u : State} {c : Prop} [Decidable c] (a : OnLine s t) (b : OnLine s u) : OnLine s (if c then t else u) := by
  split
  · exact a
  · exact b

theorem handToLine_onLine (p : Payload) (s : State) : OnLine s (handToLine p s).2.1 := ⟨_, _, rfl⟩

theorem setSlot_onLine (k : TableKind) (x : Slot) (s : State) : OnLine s (setSlot k x s) := ⟨_, _, rfl⟩

theorem requestSegment_onLine (fuel : Nat) (k : TableKind) (p : Pull) (s : State) : OnLine s (requestSegment fuel k p s) := by
  induction fuel generalizing p s with
  | zero => exact setSlot_onLine k _ s
  | succ n ih =>
    simp only [requestSegment]
    refine (handToLine_onLine (segReqOf k p) s).trans ?_
    split
    · exact setSlot_onLine _ _ _
    · exact OnLine.ite (ih _ _) (setSlot_onLine _ _ _)

theorem requestExpired_onLine (k : TableKind) (s : State) : OnLine s (requestExpired k s) := by
  unfold requestExpired
  split
  · exact .refl s
  · exact OnLine.ite (requestSegment_onLine _ _ _ _) (setSlot_onLine _ _ _)

theorem segReqLost_onLine (k : TableKind) (seq : Nat) (s : State) : OnLine s (segReqLost k seq s) := by
  unfold segReqLost
  split
  · exact OnLine.ite (requestExpired_onLine _ _) (.refl s)
  · exact .refl s

theorem reportUnsent_onLine (f : TxFrame) (s : State) : OnLine s (reportUnsent f s) := by
  unfold reportUnsent
  split
  · exact segReqLost_onLine _ _ _
  · exact .refl s

theorem handOver_onLine (p : Payload) (s : State) : OnLine s (handOver p s).2 := by
  simp only [handOver]
  split
  · exact (handToLine_onLine p s).trans (reportUnsent_onLine _ _)
  · exact handToLine_onLine p s

theorem hand_onLine (p : Payload) (s : State) : OnLine s (hand p s) := handOver_onLine p s

theorem withdrawClaim_onLine (seq : Nat) (s : State) : OnLine s (withdrawClaim seq s).2 := by
  unfold withdrawClaim
  split
  · exact ⟨_, _, rfl⟩
  · exact .refl s

theorem handAll_onLine (ps : List Payload) (s : State) : OnLine s (handAll ps s) := by
  unfold handAll
  induction ps generalizing s with
  | nil => exact .refl s
  | cons p ps ih => exact (hand_onLine p s).trans (ih _)

theorem draw_onLine (n : Nat) (s : State) : OnLine s (draw n s).2 := by
  unfold draw
  split
  · exact ⟨_, _, rfl⟩
  · exact .refl s

theorem announce_onLine (s : State) : OnLine s (announce s) :=
  (hand_onLine _ s).trans ((draw_onLine 11 _).trans ⟨_, _, rfl⟩)

/-! ### The blocks of a sale -/

/-- Only the Line Controller, the Edition Store, the Sale Unit, the Claim List and the Notice Unit may differ. -/
def OnSale (s t : State) : Prop := ∃ l x u c n, t = { s with line := l, store := x, sales := u, claims := c, notices := n }

theorem OnSale.refl (s : State) : OnSale s s := ⟨_, _, _, _, _, rfl⟩

theorem OnSale.trans {s t u : State} (a : OnSale s t) (b : OnSale t u) : OnSale s u := by
  obtain ⟨_, _, _, _, _, rfl⟩ := a
  obtain ⟨_, _, _, _, _, rfl⟩ := b
  exact ⟨_, _, _, _, _, rfl⟩

theorem OnSale.ite {s t u : State} {c : Prop} [Decidable c] (a : OnSale s t) (b : OnSale s u) : OnSale s (if c then t else u) := by
  split
  · exact a
  · exact b

theorem OnLine.onSale {s t : State} (h : OnLine s t) : OnSale s t := by
  obtain ⟨_, _, rfl⟩ := h
  exact ⟨_, _, _, _, _, rfl⟩

theorem raise_onSale (c : NoticeContent) (s : State) : OnSale s (raise c s) := ⟨_, _, _, _, _, rfl⟩

theorem activateFare_onSale (s : State) : OnSale s (activateFare s) := by
  unfold activateFare activate
  exact OnSale.ite ((setSlot_onLine _ _ s).onSale.trans (raise_onSale _ _)) (.refl s)

theorem withClaims_onSale (c : List Claim) (s : State) : OnSale s (s.withClaims c) := ⟨_, _, _, _, _, rfl⟩

theorem closeClaim_onSale (issued : Bool) (seq : Nat) (s : State) : OnSale s (closeClaim issued seq s) := by
  unfold closeClaim
  split
  · exact .refl s
  · split
    · exact (withClaims_onSale _ s).trans (hand_onLine _ _).onSale
    · exact (withClaims_onSale _ s).trans (hand_onLine _ _).onSale
    · exact (withdrawClaim_onLine _ s).onSale.trans (withClaims_onSale _ _)
    · exact .refl s

theorem setSale_onSale (x : Option SaleRecord) (s : State) : OnSale s (setSale x s) := ⟨_, _, _, _, _, rfl⟩

theorem closeSale_onSale (reason : Reason) (issued : Bool) (r : SaleRecord) (s : State) :
    OnSale s (closeSale reason issued r s) := by
  unfold closeSale
  refine OnSale.trans ?_ ((raise_onSale _ _).trans ((setSale_onSale none _).trans (activateFare_onSale _)))
  split
  · exact closeClaim_onSale _ _ s
  · exact .refl s

theorem abortSale_onSale (reason : Reason) (s : State) : OnSale s (abortSale reason s) := by
  unfold abortSale
  split
  · exact OnSale.ite (.refl s) (closeSale_onSale _ _ _ _)
  · exact .refl s

theorem enterIssuing_onSale (r : SaleRecord) (s : State) : OnSale s (enterIssuing r s) := by
  simp only [enterIssuing]
  exact OnSale.ite ⟨_, _, _, _, _, rfl⟩ ⟨_, _, _, _, _, rfl⟩

theorem enterPaying_onSale (r : SaleRecord) (s : State) : OnSale s (enterPaying r s) :=
  OnSale.ite (enterIssuing_onSale _ s) (setSale_onSale _ s)

theorem dropQueued_onSale (seq : Nat) (s : State) : OnSale s (dropQueued seq s) := by
  unfold dropQueued
  split
  · exact OnSale.ite (withClaims_onSale _ s) (.refl s)
  · exact .refl s

theorem failClaim_onSale (reason : Reason) (seq : Nat) (s : State) : OnSale s (failClaim reason seq s) := by
  unfold failClaim
  split
  · exact (dropQueued_onSale _ s).trans (abortSale_onSale _ _)
  · exact dropQueued_onSale _ s

theorem decideGrant_onSale (seq position : Nat) (s : State) : OnSale s (decideGrant seq position s) := by
  unfold decideGrant
  split
  · refine OnSale.ite (OnSale.ite ?_ ?_) (.refl s)
    · split
      · exact (withClaims_onSale _ s).trans (enterPaying_onSale _ _)
      · exact withClaims_onSale _ s
    · split
      · exact ((withClaims_onSale _ s).trans (hand_onLine _ _).onSale).trans (abortSale_onSale _ _)
      · exact (withClaims_onSale _ s).trans (hand_onLine _ _).onSale
  · exact .refl s

theorem withdrawalTest_onSale (s : State) : OnSale s (withdrawalTest s) := by
  unfold withdrawalTest
  split
  · exact OnSale.ite (OnSale.ite ((withdrawClaim_onLine _ s).onSale.trans (failClaim_onSale _ _ _)) (.refl s)) (.refl s)
  · exact .refl s

theorem saleCallEnded_onSale (service : Nat) (s : State) : OnSale s (saleCallEnded service s) :=
  OnSale.ite (abortSale_onSale _ s) (.refl s)

theorem releaseOwn_onLine (removed : List Claim) (s : State) : OnLine s (releaseOwn removed s) := by
  unfold releaseOwn
  induction removed generalizing s with
  | nil => exact .refl s
  | cons c cs ih => exact (OnLine.ite (hand_onLine _ s) (.refl s)).trans (ih _)

theorem removeCallClaims_onSale (service : Nat) (releases : Bool) (s : State) : OnSale s (removeCallClaims service releases s) := by
  simp only [removeCallClaims]
  exact OnSale.ite ((withClaims_onSale _ s).trans (releaseOwn_onLine _ _).onSale) (withClaims_onSale _ s)

theorem callEnded_onSale (c : Call) (s : State) : OnSale s (callEnded c s) :=
  (saleCallEnded_onSale _ s).trans (removeCallClaims_onSale _ _ _)

theorem saleAfterBuild_onSale (s : State) : OnSale s (saleAfterBuild s) := by
  unfold saleAfterBuild
  split
  · split
    · split
      · exact abortSale_onSale _ s
      · exact OnSale.ite (.refl s) (abortSale_onSale _ s)
    · exact .refl s
  · exact .refl s

theorem tellAbandoned_onSale (f : TxFrame) (s : State) : OnSale s (tellAbandoned f s) := by
  unfold tellAbandoned
  split
  · exact failClaim_onSale _ _ s
  · exact (segReqLost_onLine _ _ s).onSale
  · exact .refl s

/-! ### The board with the bulletins and notices -/

theorem bulletinChanged_onBoard (b : Bulletin) (e : BulletinEvent) (s : State) : OnBoard s (bulletinChanged b e s) :=
  OnBoard.trans ⟨_, _, _, rfl⟩ ((evaluateForce_onBoard _).trans (compose_onBoard _))

theorem removeBulletin_onBoard (b : Bulletin) (e : BulletinEvent) (s : State) : OnBoard s (removeBulletin b e s) :=
  OnBoard.trans ⟨_, _, _, rfl⟩ (bulletinChanged_onBoard _ _ _)

theorem replaceBulletin_onBoard (old new : Bulletin) (s : State) : OnBoard s (replaceBulletin old new s) := by
  simp only [replaceBulletin]
  refine OnBoard.trans ?_ (bulletinChanged_onBoard _ _ _)
  split <;> exact ⟨_, _, _, rfl⟩

theorem makeRoom_onBoard (s : State) : OnBoard s (makeRoom s).2 := by
  unfold makeRoom
  split
  · exact .refl s
  · split
    · exact removeBulletin_onBoard _ _ s
    · exact .refl s

theorem addBulletin_onBoard (b : Bulletin) (s : State) : OnBoard s (addBulletin b s).2 :=
  (makeRoom_onBoard s).trans (OnBoard.trans ⟨_, _, _, rfl⟩ (bulletinChanged_onBoard _ _ _))

theorem takeBulletin_onBoard (origin : Nat) (f : BulletinFields) (s : State) : OnBoard s (takeBulletin origin f s) := by
  unfold takeBulletin
  split
  · exact .refl s
  · split
    · exact .refl s
    · split
      · split
        · exact removeBulletin_onBoard _ _ s
        · split
          · exact .refl s
          · exact replaceBulletin_onBoard _ _ s
      · split
        · exact .refl s
        · exact addBulletin_onBoard _ s

/-! ### The Call Table's own fields -/

/-- A committed call replaces the one at its index; the other fields of the Call Table stay. -/
theorem commitCall_calls (i : Nat) (new : Call) (s : State) :
    (commitCall i new s).calls = { s.calls with calls := s.calls.calls.set i new } := by
  have n : ∀ (a b : Call) (t : State), (notifyCall a b t).calls = t.calls := by
    intro a b t
    simp only [notifyCall]
    obtain ⟨_, _, _, e⟩ := compose_onBoard t
    split <;> split <;> simp [callChanged, raise, e]
  unfold commitCall
  split
  · rename_i e
    rw [List.set_eq_of_length_le (List.getElem?_eq_none_iff.1 e)]
  · rw [n]
    split
    · obtain ⟨_, _, _, _, _, e⟩ := callEnded_onSale new (setCall i new s)
      rw [e]
      simp [setCall]
    · simp [setCall]

end Sys2Proof.Machine
end

