-- ==== Sys2Proof/Laws/Receive.lean ====
section
/-! SUPPORT. What the receive path can do. An accepted ANNOUNCE alone may change the clock. -/

namespace Sys2Proof.Machine

theorem updatePeer_moves (n : Nat) (f : Peer → Peer) (s : State) : Moves s (updatePeer n f s) :=
  Moves.line' (fun h => h.congr rfl rfl rfl rfl rfl) id

theorem movePeer_moves (old new : Peer) (s : State) : Moves s (movePeer old new s) := by
  have m : Moves s (updateWatch (if old.state = new.state then updatePeer old.station (fun _ => new) s
      else raise (.peerChange old.station old.state new.state) (updatePeer old.station (fun _ => new) s))) := by
    refine Moves.trans ?_ (updateWatch_inner _).toMoves
    exact Moves.ite (fun _ => updatePeer_moves _ _ s) (fun _ => (updatePeer_moves _ _ s).trans (raise_moves _ _))
  simp only [movePeer]
  exact Moves.ite (fun _ => m.trans (abandonPullsFrom_inner _ _).toMoves) (fun _ => m)

theorem tellEmptied_inner (q : List TxFrame) (s : State) : Inner s (tellEmptied q s) :=
  Inner.foldl (fun t f => tellAbandoned_inner f t) q s

theorem mute_moves (s : State) : Moves s (mute s) := by
  refine Moves.trans (Moves.line' (fun ok => ?_) (fun _ => rfl)) (tellEmptied_inner _ _).toMoves
  exact ⟨by simp, by simp, by simp, ok.seq, ok.received, List.Pairwise.nil⟩

theorem clash_moves (s : State) : Moves s (clash s) := by
  simp only [clash]
  exact Moves.ite (fun _ => raiseClash_moves s) (fun _ => (raiseClash_moves s).trans (mute_moves _))

theorem takeFrame_moves (h : FrameHead) (handOn : State → State) (s : State)
    (m : ∀ t, t.setup = s.setup → Moves t (handOn t)) : Moves s (takeFrame h handOn s) := by
  unfold takeFrame
  refine Moves.ite (fun _ => clash_moves s) (fun _ => ?_)
  split
  · exact .refl s
  · refine Moves.ite (fun _ => updatePeer_moves _ _ s) (fun _ => ?_)
    exact (movePeer_moves _ _ s).trans (m _ (movePeer_moves _ _ s).setup)

theorem receive_moves (h : FrameHead) (wf : Bool) (handOn : State → State) (s : State)
    (m : ∀ t, t.setup.running = true → Moves t (handOn t)) : Moves s (receive h wf handOn s) := by
  unfold receive
  refine Moves.ite (fun c => ?_) (fun _ => .refl s)
  simp only [Bool.and_eq_true] at c
  refine (countFrame_moves s).trans (takeFrame_moves h handOn _ fun t e => m t ?_)
  rw [e, (countFrame_moves s).setup]
  exact c.1.1

theorem handUnlessQueued_inner (s : State) (p : Payload) : Inner s (handUnlessQueued s p) :=
  Inner.ite (fun _ => .refl s) (fun _ => hand_inner p s)

theorem freshResends_inner (s : State) : Inner s (freshResends s) :=
  (resendReports_inner s).trans ((Inner.foldl handUnlessQueued_inner _ _).trans (Inner.foldl handUnlessQueued_inner _ _))

theorem announceHandOn_inner (station : Nat) (f : AnnounceFields) (s : State) :
    Inner (s.withClock (s.clock.considering f)) (announceHandOn station f s) := by
  have m := (considerAdoption_inner station f s).trans ((considerOffer_inner .timetable f.timetable _).trans
    (considerOffer_inner .fare f.fare _))
  simp only [announceHandOn]
  exact Inner.ite (fun _ => m.trans (freshResends_inner _)) (fun _ => m)

theorem runningHandOn_inner (origin : Nat) (f : RunningFields) (s : State) : Inner s (runningHandOn origin f s) := by
  unfold runningHandOn
  split
  · exact acceptReport_inner _ _ s
  · exact .refl s

theorem approachHandOn_inner (origin : Nat) (f : ApproachFields) (s : State) : Inner s (approachHandOn origin f s) :=
  approachObserved_inner _ s

theorem departHandOn_inner (f : DepartFields) (s : State) : Inner s (departHandOn f s) := departureObserved_inner _ _ s

theorem takeIn_inner (c : Claim) (s : State) : Inner s (takeIn c s) := by
  unfold takeIn
  refine Inner.ite (fun h => (Inner.claims' fun _ => ?_).trans (withdrawalTest_inner _)) (fun _ => .refl s)
  simp only [List.length_append, List.length_singleton]
  exact h

theorem claimHandOn_inner (origin : Nat) (f : ClaimFields) (s : State) : Inner s (claimHandOn origin f s) := by
  unfold claimHandOn
  split
  · exact .refl s
  · exact Inner.ite (fun _ => takeIn_inner _ s) (fun _ => .refl s)

theorem takenHandOn_inner (origin : Nat) (f : ClaimFields) (s : State) : Inner s (takenHandOn origin f s) := by
  unfold takenHandOn
  split
  · exact Inner.ite (fun _ => updateClaim_inner _ _ _ s) (fun _ => .refl s)
  · exact Inner.ite (fun _ => takeIn_inner _ s) (fun _ => .refl s)

theorem releaseHandOn_inner (origin : Nat) (f : ClaimFields) (s : State) : Inner s (releaseHandOn origin f s) :=
  removeClaim_inner _ _ s

theorem segReqHandOn_inner (origin : Nat) (f : SegReqFields) (s : State) : Inner s (segReqHandOn origin f s) :=
  Inner.ite (fun _ => hand_inner _ s) (fun _ => .refl s)

theorem segmentHandOn_inner (origin : Nat) (f : SegmentFields) (s : State) (run : s.setup.running = true) :
    Inner s (segmentHandOn origin f s) := Inner.ite (fun _ => segmentArrived_inner origin f s run) (fun _ => .refl s)

end Sys2Proof.Machine
end

