-- ==== Sys2Proof/Laws/Treadles.lean ====
section
/-! SUPPORT. What the Treadle Unit's operations can do. -/

namespace Sys2Proof.Machine

@[simp] theorem Pair.setHead_config (x : Pair) (h : HeadId) (v : HeadInput) : (x.setHead h v).config = x.config := by
  cases h <;> rfl

/-- One pair replaced by one of the same configuration. -/
theorem setPair_moves (p : PairId) (x : Pair) (s : State) (h : x.config = (pairAt s p).config) : Moves s (setPair p x s) := by
  cases p
  · exact Moves.treadles' h rfl
  · exact Moves.treadles' rfl h

theorem setInput_moves (p : PairId) (h : HeadId) (active : Bool) (s : State) : Moves s (setInput p h active s) :=
  setPair_moves p _ s (by simp)

theorem settle_moves (p : PairId) (h : HeadId) (active : Bool) (s : State) : Moves s (settle p h active s) :=
  setPair_moves p _ s (by simp)

theorem observe_inner (p : PairId) (c : PairConfig) (m : Measurement) (s : State) : Inner s (observe p c m s).2 := by
  unfold observe
  split
  · exact approachObserved_inner _ s
  · exact departureObserved_inner _ _ s

theorem keepMatch_moves (p : PairId) (n : Option Nat) (s : State) : Moves s (keepMatch p n s) := setPair_moves p _ s rfl

theorem raiseObservation_moves (p : PairId) (c : PairConfig) (m : Measurement) (s : State) :
    Moves s (raiseObservation p c m s) := by
  have k := (observe_inner p c m s).toMoves.trans (keepMatch_moves p (observe p c m s).1 _)
  simp only [raiseObservation]
  exact Moves.ite (fun _ => k) (fun _ => k.trans (hand_inner _ _).toMoves)

theorem enterPassage_moves (p : PairId) (x : Pair) (m : Measurement) (s : State) (h : x.config = (pairAt s p).config) :
    Moves s (enterPassage p x m s) := by
  unfold enterPassage
  exact (setPair_moves p _ s (by exact h)).trans (raiseObservation_moves _ _ _ _)

theorem passagePulse_moves (p : PairId) (h : HeadId) (count : Nat) (s : State) : Moves s (passagePulse p h count s) := by
  simp only [passagePulse]
  split
  · exact setPair_moves p _ s rfl
  · exact Moves.ite (fun _ => setPair_moves p _ s rfl) (fun _ => enterPassage_moves p _ _ s rfl)
  · exact setPair_moves p _ s rfl
  · exact .refl s

theorem headPulse_moves (p : PairId) (h : HeadId) (count : Nat) (s : State) : Moves s (headPulse p h count s) := by
  simp only [headPulse]
  refine Moves.ite (fun _ => ?_) (fun _ => .refl s)
  exact Moves.ite (fun _ => (settle_moves p h true s).trans (passagePulse_moves _ _ _ _)) (fun _ => settle_moves p h true s)

theorem headReturn_moves (p : PairId) (h : HeadId) (s : State) : Moves s (headReturn p h s) :=
  Moves.ite (fun _ => settle_moves p h false s) (fun _ => .refl s)

theorem counterOverflow_moves (p : PairId) (s : State) : Moves s (counterOverflow p s) :=
  Moves.ite (fun _ => enterPassage_moves p _ _ s rfl) (fun _ => .refl s)

theorem raisePassage_moves (p : PairId) (x : Pair) (s : State) : Moves s (raisePassage p x s) := by
  unfold raisePassage
  split
  · exact raise_moves _ s
  · exact .refl s

theorem endPassage_moves (p : PairId) (s : State) : Moves s (endPassage p s) := by
  have m : Moves s (raisePassage p (pairAt s p) (setPair p (pairAt s p).ended s)) :=
    (setPair_moves p (pairAt s p).ended s rfl).trans (raisePassage_moves _ _ _)
  simp only [endPassage]
  exact Moves.ite (fun _ => m.trans ((raise_moves _ _).trans (updateWatch_inner _).toMoves)) (fun _ => m)

theorem quietExpired_moves (p : PairId) (s : State) : Moves s (quietExpired p s) :=
  Moves.ite (fun _ => endPassage_moves p s) (fun _ => .refl s)

theorem enablePair_moves (pair : Nat) (s : State) : Moves s (enablePair pair s).2 := by
  unfold enablePair
  split
  · exact .refl s
  · rename_i p _
    split
    · exact (setPair_moves p (pairAt s p).restored s rfl).trans (updateWatch_inner _).toMoves
    · exact .refl s

theorem readPair_moves (pair : Nat) (s : State) : Moves s (readPair pair s).2 := by
  unfold readPair
  split
  · exact .refl s
  · exact setPair_moves _ _ s rfl

end Sys2Proof.Machine
end

