-- ==== Sys2Proof/Tests/Slice0.lean ====
section
/-! SUPPORT. Tests: operands that each check of WellFormed refuses; the worked examples of spec/; for every statement with
hypotheses a state and operands that meet them, clause by clause. Expected values come from the manual. -/

namespace Sys2Proof.Tests
open Sys2Proof Sys2Proof.Machine

/-! ### WellFormed refuses -/

theorem smoke_straps : Instr.wellFormed (.powerOnReset ⟨16, true, true⟩) = false := by decide
theorem smoke_tag : Instr.wellFormed (.start 256) = false := by decide
theorem smoke_word : Instr.wellFormed (.saleHold 0 65536) = false := by decide
theorem smoke_triple : Instr.wellFormed (.saleCredit 0 16777216) = false := by decide
theorem smoke_date : Instr.wellFormed (.setTime 0 ⟨2256, 1, 1⟩ ⟨0, 0, 0⟩) = false := by decide
theorem smoke_time : Instr.wellFormed (.setTime 0 ⟨2025, 1, 1⟩ ⟨0, 0, 256⟩) = false := by decide
theorem smoke_ids : Instr.wellFormed (.overlaySet 0 (List.replicate 16 1)) = false := by decide
theorem smoke_data : Instr.wellFormed (.loadSegment 0 0 0 []) = false := by decide
theorem smoke_text : Instr.wellFormed (.postBulletin 0 0 ⟨⟨2025, 1, 1⟩, 0⟩ ⟨⟨2025, 1, 1⟩, 1⟩ []) = false := by decide
theorem smoke_report : Instr.wellFormed (.reportRunning 0 ⟨1, ⟨2025, 1, 1⟩, 0, -32769, 0, false⟩) = false := by decide
theorem smoke_request : Instr.wellFormed (.saleQuote 0 ⟨1, 65536, 0, 1, none⟩) = false := by decide
theorem smoke_params : Instr.wellFormed (.configure 0 ⟨1, 0, 256, 0, ⟨false, .up, 0, 0, 0⟩, ⟨false, .up, 0, 0, 0⟩, 4, 24, 0,
    0, 0, 0, 0, 0, 0⟩) = false := by decide
theorem smoke_pair : Instr.wellFormed (.configure 0 ⟨1, 0, 30, 0, ⟨false, .up, 0, 0, 256⟩, ⟨false, .up, 0, 0, 0⟩, 4, 24, 0,
    0, 0, 0, 0, 0, 0⟩) = false := by decide
theorem smoke_flags : Instr.wellFormed (.noticeMask 0 [true]) = false := by decide
theorem smoke_head : Instr.wellFormed (.segReqReceived ⟨16, 0⟩ ⟨1, .fare, 1, 0⟩) = false := by decide
theorem smoke_addressee : Instr.wellFormed (.segReqReceived ⟨1, 0⟩ ⟨16, .fare, 1, 0⟩) = false := by decide
theorem smoke_seq : Instr.wellFormed (.claimLifetimeExpiry 1 4096) = false := by decide
theorem smoke_claim : Instr.wellFormed (.claimReceived ⟨2, 0⟩ ⟨0, ⟨2025, 1, 1⟩, .bike, 0⟩) = false := by decide
theorem smoke_speed : Instr.wellFormed (.departReceived ⟨2, 0⟩ ⟨.up, 0, .cms 99, .a⟩) = false := by decide
theorem smoke_eta : Instr.wellFormed (.approachReceived ⟨2, 0⟩ ⟨.up, 0, .slow, 0, 1, .a⟩) = false := by decide
theorem smoke_gone : Instr.wellFormed (.segmentReceived ⟨2, 0⟩ ⟨1, .fare, 1, 0, true, [0]⟩) = false := by decide
theorem smoke_number : Instr.wellFormed (.bulletinReceived ⟨2, 0⟩
    ⟨2, 0, .info, false, ⟨⟨2025, 1, 1⟩, 0⟩, ⟨⟨2025, 1, 1⟩, 1⟩, [65]⟩) = false := by decide
theorem smoke_tenths : Instr.wellFormed (.announceReceived ⟨2, 0⟩ ⟨true, true, 1, 0, 0, ⟨2025, 1, 1⟩, 0, 10, .host,
    ⟨false, false, false, false⟩, false⟩) = false := by decide
theorem smoke_halt : Instr.wellFormed (.announceReceived ⟨2, 0⟩ ⟨true, true, 0, 0, 0, ⟨2025, 1, 1⟩, 0, 9, .host,
    ⟨false, false, false, false⟩, false⟩) = false := by decide
theorem smoke_good : Instr.wellFormed (.announceReceived ⟨2, 0⟩ ⟨true, true, 1, 0, 0, ⟨2025, 1, 1⟩, 0, 9, .host,
    ⟨false, false, false, false⟩, false⟩) = true := by decide

/-! ### States -/

/-- The state a command leaves. -/
def after (c : Instr) (s : State) : State :=
  match exec c s with
  | .next t => t
  | _ => s

/-- A configured part in SETUP with halt code 7. -/
def ready : State :=
  { State.reset with
    setup := { running := false, configured := true, straps := ⟨1, true, true⟩, settings := { resetSettings with haltCode := 7 } }
    host := ⟨true, noneResult⟩ }

/-- 2025-03-10, a Monday. -/
def monday : Date := ⟨2025, 3, 10⟩

/-- The call 1762 of the worked examples. -/
def call1762 : Call :=
  { service := 1762, kind := .stop, platform := 1, direction := .up, destination := 0, schedArr := 18720, schedDep := 18720
    points := [⟨1, 540, 120⟩], bike := 2, chair := 1, state := .pending, estimates := some ⟨18720, 18720, 18750, 0⟩
    delayed := false, source := .schedule, report := none, approach := none, sensed := false }

/-- The call 2140 of the worked examples. -/
def call2140 : Call :=
  { call1762 with service := 2140, schedArr := 36000, schedDep := 36060, points := []
                  estimates := some ⟨36000, 36000, 36060, 0⟩ }

/-- A station in RUN at service second 18,490, grade HOST, running tick 500.0 s, peer 2 PRESENT and last heard 35 s ago, one
call; sequence and receive counters at their ends. -/
def run : State :=
  { ready with
    setup := { ready.setup with running := true }
    clock := { date := monday, weekday := 0, second := 18490, tenths := 9, grade := .host, hostSetTick := 4123, tick := 5000 }
    calls := { calls := [call1762], buildCount := 3, date := monday, watch := noCoverage, resend := some ⟨4400, 600⟩ }
    line := { ready.line with
      seqCounter := 4095, rxCount := 4294967295, announceTimer := some ⟨4900, 100⟩, rng := some ⟨1, 1000, 7⟩
      peers := ready.line.peers.map (fun p => if p.station = 2 then { p with state := .present, silence := some ⟨4650, 350⟩ } else p) }
    board := { ready.board with rotation := some ⟨4900, 100⟩ } }

/-- The quote of 790 of the worked examples. -/
def items790 : QuoteItems :=
  { product := 2, cls := .single, destination := 3105, band := 4, nameIndex := 17, concession := 3, passengers := 2
    baseFare := 740, unitFare := 391, offPeak := true, quote := 790, edition := 12 }

/-- A sale of 790 in a state, with a credit. -/
def sale790 (stage : SaleStage) (credit : Nat) : SaleRecord :=
  { stage := stage, quote := items790, space := none, claim := none, credit := credit, change := 0, refund := 0, serial := none
    hold := .none, lifetime := some ⟨4400, 600⟩, payment := some ⟨3800, 1200⟩ }

/-- The running station with a sale. -/
def selling (r : SaleRecord) : State := { run with sales := { sale := some r, serialCounter := 4117, journal := [] } }

/-- The running station with another Call Table list. -/
def withCalls (cs : List Call) : State := { run with calls := { run.calls with calls := cs } }

/-- The running station at another service second. -/
def atSecond (second : Nat) (s : State) : State := { s with clock := { s.clock with second := second } }

/-! ### Worked examples -/

/-- SET_TIME before the rollover minute: 2025-03-10 01:30:00 with RM 180. -/
theorem test_set_time : (after (.setTime 0 monday ⟨1, 30, 0⟩) { run with clock := { resetClock with tick := 4123 } }).clock =
    ⟨⟨2025, 3, 9⟩, 6, 81000, 0, .host, 4123, 4123⟩ := by decide

/-- The rollover after it, at clock time 02:59:59. -/
theorem test_rollover : (after .referenceClockTenth
      { run with clock := ⟨⟨2025, 3, 9⟩, 6, 86399, 9, .host, 4123, 58112⟩ }).clock =
    ⟨monday, 0, 0, 0, .host, 4123, 58113⟩ := by decide

/-- The grade stays 3 until the running tick reaches 22,012.3, and is then 2. -/
theorem test_ageing : (after .clockGradeAgeing { run with clock := { run.clock with tick := 220122 } }).clock.grade = .host ∧
    (after .clockGradeAgeing { run with clock := { run.clock with tick := 220123 } }).clock.grade = .hostAged := by decide

/-- The ANNOUNCE of the adoption example: station 1's, 2025-03-10, second 18,000, tenths 4. -/
def announce (grade : ClockGrade) (second tenths : Nat) : AnnounceFields :=
  { sells := true, shows := false, haltCode := 7, timetable := 0, fare := 0, date := monday, second := second
    tenths := tenths, grade := grade, coverage := noCoverage, fresh := false }

theorem test_adoption : (after (.announceReceived ⟨2, 9⟩ (announce .host 18000 4)) { run with clock := resetClock }).clock =
    ⟨monday, 0, 18000, 4, .adopted, 0, 0⟩ := by decide

/-- At grade 1: 1.3 s ahead is no change, 2.6 s ahead is adopted, and grade 2 is never adopted. -/
theorem test_adoption_later : adopts ⟨monday, 0, 18000, 4, .adopted, 0, 0⟩ (announce .host 18001 7) = false ∧
    adopts ⟨monday, 0, 18000, 4, .adopted, 0, 0⟩ (announce .host 18003 0) = true ∧
    adopts ⟨monday, 0, 18000, 4, .adopted, 0, 0⟩ (announce .hostAged 30000 0) = false := by decide

/-- A same-day step forward passes an unwatched call through ARRIVED to DEPARTED. -/
theorem test_step_forward : (evaluated ⟨noCoverage, 30200, 30⟩
    { call1762 with estimates := some ⟨30000, 30000, 30060, 0⟩ }).state = .departed := by decide

/-- Creep, cap and lapse of call 2140. -/
theorem test_creep : (evaluated ⟨⟨true, false, false, false⟩, 36100, 30⟩ call2140).estimates = some ⟨36000, 36130, 36190, 130⟩ ∧
    (evaluated ⟨⟨true, false, false, false⟩, 37170, 30⟩ call2140).estimates = some ⟨36000, 37200, 37260, 1200⟩ := by decide

theorem test_cap_and_lapse : (evaluated ⟨⟨true, false, false, false⟩, 37171, 30⟩ call2140).delayed = true ∧
    (evaluated ⟨⟨true, false, false, false⟩, 37171, 30⟩ call2140).state = .pending ∧
    (evaluated ⟨⟨true, false, false, false⟩, 39000, 30⟩ { call2140 with delayed := true }).state = .lapsed := by decide

/-- A treadle fault while a call creeps: the unwatched call departs at once. -/
theorem test_fault_ends_creep : (evaluated ⟨noCoverage, 36400, 30⟩
    (({ call2140 with estimates := some ⟨36000, 36430, 36490, 430⟩ } : Call).unwatched 30)).state = .departed := by decide

/-- The swap build keeps 2140 APPROACHING on its approach record and 2151 REPORTED on its report. -/
theorem test_swap_keeps : (carried 30 { call2140 with schedArr := 36120, schedDep := 36180 }
      { call2140 with state := .approaching, approach := some ⟨36110, .slow, 110, .a, 1⟩
                      estimates := some ⟨36000, 36220, 36280, 0⟩ }).estimates = some ⟨36120, 36220, 36280, 0⟩ ∧
    (carried 30 { call2140 with schedArr := 36600, schedDep := 36660, points := [⟨1, 1200, 0⟩] }
      { call2140 with state := .reported, report := some ⟨0, 240, 35700, 1, false⟩
                      estimates := some ⟨36840, 36840, 36900, 0⟩ }).estimates = some ⟨36840, 36840, 36900, 0⟩ := by decide

/-- The report of the first worked example of chapter 3: lateness 300 at point 0. -/
def report1762 : RunningFields := ⟨1762, monday, 0, 300, 18480, false⟩

theorem test_report : ((after (.reportRunning 0 report1762) run).calls.calls.map (fun c => (c.state, c.estimates))) =
    [(.reported, some ⟨18900, 18900, 18930, 0⟩)] := by decide

theorem test_report_texts : statusText 180 { call1762 with state := .reported } ⟨18900, 18900, 18930, 0⟩ = txt "Exp 08:16" ∧
    countdown 18490 call1762 ⟨18900, 18900, 18930, 0⟩ = txt "7 min" ∧
    statusText 180 call1762 ⟨18720, 18720, 18750, 0⟩ = txt "On time" ∧
    countdown 18780 call1762 ⟨18900, 18780, 18810, 0⟩ = txt "Due" := by decide

/-- The approach of the same example, as a peer's frame. -/
theorem test_approach : ((after (.approachReceived ⟨2, 0⟩ ⟨.up, 18670, .cms 2777, 110, 65, .a⟩) (atSecond 18670 run)).calls.calls.map
    (fun c => (c.state, c.estimates))) = [(.approaching, some ⟨18720, 18780, 18810, 0⟩)] := by decide

/-- Its departure at 18,832. -/
theorem test_depart : ((after (.departReceived ⟨2, 0⟩ ⟨.up, 18832, .slow, .b⟩) (atSecond 18832 (withCalls
      [{ call1762 with state := .arrived, estimates := some ⟨18900, 18780, 18810, 0⟩ }]))).calls.calls.map
    (fun c => (c.state, c.sensed))) = [(.departed, true)] := by decide

/-- Two stations sense one train: station 4's earlier observation replaces station 1's. -/
theorem test_two_observations : ((after (.approachReceived ⟨4, 0⟩ ⟨.up, 35880, .slow, 140, 100, .b⟩) (atSecond 35893
      { withCalls [{ call2140 with state := .approaching, approach := some ⟨35890, .slow, 120, .a, 1⟩
                                   estimates := some ⟨36000, 36010, 36070, 0⟩ }] with
        line := { run.line with peers := run.line.peers.map (fun p => { p with state := .present }) } })).calls.calls.map
    (fun c => (c.estimates, c.approach.map (·.origin)))) = [(some ⟨36000, 36020, 36080, 0⟩, some 4)] := by decide

/-- Pair A of the inbound passage, with head 2 about to pulse. -/
def timing : Pair :=
  { run.treadles.pairA with
    config := { enabled := true, direction := .up, spacing := 150, distance := 1800, braking := 45 }
    head1 := ⟨true, true⟩, head2 := ⟨true, false⟩, state := .timing, axles := 1 }

/-- The running station with a pair A; its watch view is formed of it. -/
def withPair (x : Pair) : State :=
  { run with treadles := { run.treadles with pairA := x }
             calls := { run.calls with watch := watchView { run.treadles with pairA := x } run.line.peers } }

/-- The capture at count 540: 2,777 cm/s, and the call's E_a 18,780. -/
theorem test_inbound_passage : (after (.pulse .a .two 540) (atSecond 18670 (withPair timing))).treadles.pairA.record =
      some ⟨true, 540, 2777, false, 1, 18670, true⟩ ∧
    ((after (.pulse .a .two 540) (atSecond 18670 (withPair timing))).calls.calls.map (·.estimates)) =
      [some ⟨18720, 18780, 18810, 0⟩] := by decide

/-- APPROACH_SEEN at the end of that passage, 8 s after the last pulse. -/
theorem test_passage_end : (after (.quietTimerExpiry .a) (withPair { timing with
      state := .passage, record := some ⟨true, 540, 2777, false, 8, 18670, true⟩, secondSeen := true
      quietTimer := some ⟨4920, 80⟩, matched := some 1762 })).notices.queue =
    [⟨.approachSeen .a .up 18670 2777 false 110 65 8 false (some 1762), 500⟩] := by decide +kernel

/-- The station with a pair A and other calls. -/
def pairAndCalls (x : Pair) (cs : List Call) : State :=
  { withPair x with calls := { (withPair x).calls with calls := cs } }

/-- A void passage of pair A that has been quiet for 8 s, after two others. -/
def thirdVoid : Pair :=
  { timing with state := .passage, record := some ⟨true, 65535, 300, true, 4, 18670, true⟩, voids := 2, quietTimer := some ⟨4920, 80⟩ }

/-- A call that creeps at 36,400. -/
def creeping : Call := { call2140 with estimates := some ⟨36000, 36430, 36490, 430⟩ }

/-- A treadle fault while a call creeps: its arrival is unwatched, it returns to its base estimate and departs at once. -/
theorem test_fault_while_creeping : ((after (.quietTimerExpiry .a) (atSecond 36400 (pairAndCalls thirdVoid [creeping]))).calls.calls.map
    (fun c => (c.state, c.estimates))) = [(.departed, some ⟨36000, 36000, 36060, 0⟩)] := by decide

/-- A slow train: N 16,667 over 200 cm gives 119 cm/s, so v is v_min, and the ETAs are 130 and 100. -/
theorem test_slow_train : captureSpeed 200 16667 300 = (300, true) ∧ measuredSpeed 200 16667 = 119 ∧
    etaStop ⟨true, .down, 200, 300, 30⟩ 300 = 130 ∧ etaPass ⟨true, .down, 200, 300, 30⟩ 300 = 100 := by decide

/-- The third void passage in a row makes the pair FAULTY. -/
theorem test_third_void : ((after (.quietTimerExpiry .a) (withPair { timing with
      state := .passage, record := some ⟨true, 65535, 300, true, 4, 18670, true⟩, voids := 2
      quietTimer := some ⟨4920, 80⟩ })).treadles.pairA.state = .faulty) ∧
    (after (.treadleEnable 0 0) (withPair { timing with state := .faulty, voids := 3 })).treadles.pairA.state = .quiet := by decide

/-- The full queue: ANNOUNCE, RUNNING 2140 and 2151, BULLETIN, eight more RUNNING frames. -/
def fullQueue : List TxFrame :=
  [⟨0, 2, .announce (announce .host 0 0)⟩, ⟨1, 0, .running { report1762 with service := 2140 }⟩,
    ⟨2, 0, .running { report1762 with service := 2151 }⟩,
    ⟨3, 0, .bulletin ⟨1, 1, .info, true, zeroInstant, zeroInstant, []⟩⟩] ++
  [1762, 1770, 1784, 1801, 1815, 1832, 1846, 1859].map (fun n => ⟨n, 0, .running { report1762 with service := n }⟩)

/-- The running station with a queue whose current frame is in BACKOFF. -/
def queued (q : List TxFrame) : State := { run with line := { run.line with queue := q, condition := .backoff 1, seqCounter := 412 } }

/-- A claim's fields. -/
def claim2140 : ClaimFields := ⟨2140, monday, .bike, 412⟩

theorem test_full_queue : (hand (.running { report1762 with service := 2151 }) (queued fullQueue)).line.queue.map (·.seq) =
      [0, 1, 412, 3, 1762, 1770, 1784, 1801, 1815, 1832, 1846, 1859] ∧
    (hand (.claim claim2140) (hand (.approach ⟨.up, 0, .slow, 1, 1, .a⟩) (queued fullQueue))).line.queue.map (·.seq) =
      [0, 1, 2, 3, 1762, 1770, 1784, 1801, 1815, 1832, 412, 413] ∧
    (handOver (.running { report1762 with service := 1860 }) (queued fullQueue)).1 = .dropped := by decide

/-- Two stations strapped alike: the latch, the emptied queue, the mute. -/
theorem test_clash : (after (.segReqReceived ⟨1, 0⟩ ⟨1, .fare, 1, 0⟩) (queued fullQueue)).notices.clash = ⟨true, 1⟩ ∧
    (after (.segReqReceived ⟨1, 0⟩ ⟨1, .fare, 1, 0⟩) (queued fullQueue)).line.queue = [] ∧
    (after (.segReqReceived ⟨1, 0⟩ ⟨1, .fare, 1, 0⟩) (queued fullQueue)).line.muted = true := by decide

/-- A host fare load whose last piece came twice: the fill is discarded at offset 640. -/
theorem test_out_of_sequence : (after (.loadSegment 0 1 576 [0]) { run with store := (run.store.setSlot .fare
      { resetSlot with loader := .hostFill, declared := some 1700, offset := 640, origin := some .host }) }).notices.queue =
    [⟨.loadRejected .fare .outOfSequence 640 .host, 500⟩] := by decide

/-- Two PRESENT peers offer timetable 42 to a station on 41: the lower number is the source. -/
theorem test_pull_source : (chooseSource .timetable { run with
      store := { run.store with timetable := { resetSlot with active := some [], activeEdition := 41 } }
      line := { run.line with peers := run.line.peers.map (fun p => { p with state := .present, timetable := 42 }) } }).map
    (·.station) = some 2 := by decide

/-- A fare image of edition 12: station 3105 of band 4, product 2 (SINGLE, eligible) at 740, concession 3 at 66 percent, the
off-peak rule and the group limit; its last two bytes are the integrity word. -/
def fareImage : List Byte :=
  ([1, 0, 7, 0, 12, 0, 76, 0, 0, 0] ++ [3, 4, 0x0C, 0x21, 17, 4] ++ [4, 3, 2, 0, 1] ++
    ([5, 36] ++ List.replicate 9 0 ++ [0, 2, 0xE4] ++ List.replicate 24 0) ++ [6, 2, 3, 66] ++
    [7, 6, 0x1F, 1, 0x86, 3, 0x0C, 80] ++ [8, 1, 6] ++ [0x8A, 0x46]).map (BitVec.ofNat 8)

theorem test_fare_image : checkImage .fare 7 11 fareImage = none ∧ checkImage .fare 7 12 fareImage = some (.notNewer, 0) := by
  decide

/-- The running station that sells from it, at coin step 10, on a Wednesday at 10:00:00. -/
def fares : State :=
  { run with
    setup := { run.setup with settings := { run.setup.settings with coinStep := 10 } }
    clock := { run.clock with date := ⟨2025, 3, 12⟩, weekday := 2, second := 25200 }
    store := { run.store with fare := { resetSlot with active := some fareImage, activeEdition := 12 } } }

/-- The answer's quote. -/
def quoteOf (s : State) : Option Nat :=
  match s.host.result.answer.data with
  | .quote q => some q.quote
  | _ => none

/-- An off-peak group with a concession: 790 within the window, 980 at 16:00:00. -/
theorem test_quote : quoteOf (after (.saleQuote 0 ⟨2, 3105, 3, 2, none⟩) fares) = some 790 ∧
    quoteOf (after (.saleQuote 0 ⟨2, 3105, 3, 2, none⟩) (atSecond 46800 fares)) = some 980 := by decide

theorem test_quote_refused : (after (.saleQuote 0 ⟨2, 3105, 3, 7, none⟩) fares).host.result.answer.reason = some .tooMany ∧
    (after (.saleQuote 0 ⟨2, 3105, 5, 2, none⟩) fares).host.result.answer.reason = some .notInTable ∧
    (after (.saleQuote 0 ⟨2, 3105, 3, 0, none⟩) fares).host.result.answer.reason = some .badPassengers := by decide

/-- Rounding and the cap, at coin step 50. -/
theorem test_rounding : roundedQuote (percentOf 125 50 * 3) 50 = 200 ∧ roundedQuote 125 50 = 150 ∧
    roundedQuote 120000 50 = 99999 ∧ roundedQuote 90000 50 = 90000 := by decide

/-- A ticket paid in coins: the last credit of 100 gives change 10 and serial 1,004,117. -/
theorem test_coins : (after (.saleCredit 0 100) (selling (sale790 .paying 700))).host.result.answer.data =
      .creditIssued 800 10 1004117 ∧
    (after (.saleCredit 0 100) (selling (sale790 .paying 700))).sales.serialCounter = 4118 ∧
    (after (.saleCredit 0 500) (selling (sale790 .paying 0))).host.result.answer.data = .credit 500 290 := by decide

/-- The jammed printer: the record is VOID with refund 800 and change 0. -/
theorem test_jam : ((after (.salePrinted 0 .failed) (after (.saleCredit 0 100) (selling (sale790 .paying 700)))).sales.journal.map
    (fun j => (j.void, j.refund, j.change))) = [(true, 800, 0)] := by decide

/-- The last wheelchair space: the own claim's completion at receive count 910 grants it. -/
def claiming : State :=
  { selling { sale790 .claiming 0 with space := some ⟨1762, monday, .chair⟩, claim := some 77, lifetime := none, payment := none } with
    line := { run.line with queue := [⟨77, 1, .claim ⟨1762, monday, .chair, 77⟩⟩], condition := .sending, rxCount := 909 }
    claims := [⟨1762, monday, .chair, 1, 77, none, .queued, none⟩] }

theorem test_grant : (after .completion claiming).claims = [⟨1762, monday, .chair, 1, 77, some 910, .granted, none⟩] ∧
    ((after .completion claiming).sales.sale.map (·.stage)) = some .paying := by decide

/-- A peer's CLAIM for the last space withdraws the own one and closes the sale. -/
theorem test_withdrawal : (after (.claimReceived ⟨2, 300⟩ ⟨1762, monday, .chair, 300⟩)
      { claiming with line := { claiming.line with condition := .backoff 1, rxCount := 614 } }).claims =
      [⟨1762, monday, .chair, 2, 300, some 615, .pending, some 5000⟩] ∧
    (after (.claimReceived ⟨2, 300⟩ ⟨1762, monday, .chair, 300⟩)
      { claiming with line := { claiming.line with condition := .backoff 1 } }).sales.sale = none := by decide

/-- A CLAIM emptied by muting closes the sale CLAIMING even when its queued claim left the list at a swap (R141, R150). -/
theorem test_claim_gone : (after (.segReqReceived ⟨1, 0⟩ ⟨1, .fare, 1, 0⟩) { claiming with claims := [] }).sales.sale = none := by
  decide

/-- A suspension's text in pieces of 24 characters. -/
theorem test_pieces : pieces 24 2 (txt "No trains beyond Vessby Replacement buses run") =
    [txt "No trains beyond Vessby ", txt "Replacement buses run   "] := by decide

/-- A board of 40 columns, filter 1: one row of the morning example, D = 15. -/
theorem test_row : callRow ⟨4, 40, 1, 0, 0, 3, 7⟩ 180 18600 [txt "Vessby"] { call1762 with
      state := .reported, estimates := some ⟨18900, 18900, 18930, 0⟩ } = txt "08:12 Vessby          Exp 08:16    5 min" := by decide

/-- A SALE_CREDIT frame cut short is answered BAD_LENGTH and reaches no block. -/
theorem test_cut_short : (after (.unknownCommandFrame [22, 23, 3, 0]) (selling (sale790 .paying 0))).host.result =
    ⟨22, 23, ⟨.badLength, none, .none⟩⟩ := by decide

/-- The stale acknowledgement of a clash, and the second one. -/
theorem test_stale_ack : (after (.noticeAck 0 16 1) { run with notices := { run.notices with clash := ⟨true, 2⟩ } }).host.result.answer =
      ⟨.refused, some .staleAck, .latchCount 2⟩ ∧
    (after (.noticeAck 0 16 2) { run with notices := { run.notices with clash := ⟨true, 2⟩ } }).notices.clash = ⟨false, 2⟩ := by
  decide

/-- A coalesced CALL_CHANGED, and a full queue's oldest notice dropped. -/
theorem test_notices : (raise (.callChanged 3) (raise (.callChanged 2) run)).notices.queue = [⟨.callChanged 3, 500⟩] ∧
    ((raise .journalFull { run with notices := { run.notices with
      queue := List.replicate 16 ⟨.peerChange 2 .unknown .present, 0⟩ } }).notices.drops = 1) := by decide

/-- A cabinet restarted by its host: coin step 7 gives 5, columns 12 give 16, the counter stays 4,120. -/
def restarted : ConfigParams :=
  ⟨0x2E41, 180, 30, 300, ⟨false, .up, 150, 1000, 30⟩, ⟨false, .down, 150, 1000, 30⟩, 4, 12, 0, 0, 0, 3, 7, 7, 4100⟩

theorem test_configure : (after (.configure 54 restarted) { ready with setup := { ready.setup with configured := false }
                                                                       sales := ⟨none, 4120, []⟩ }).setup.settings.coinStep = 5 ∧
    (after (.configure 54 restarted) { ready with setup := { ready.setup with configured := false }
                                                  sales := ⟨none, 4120, []⟩ }).board.config.columns = 16 ∧
    (after (.configure 54 restarted) { ready with setup := { ready.setup with configured := false }
                                                  sales := ⟨none, 4120, []⟩ }).sales.serialCounter = 4120 := by decide

/-- The bytes of one RUNNING frame, and a lateness of −120. -/
theorem test_running_bytes : frameBody ⟨1, 412⟩ (.running report1762) =
    [0x02, 0x01, 0x01, 0x9C, 0x0C, 0x06, 0xE2, 0x19, 0x03, 0x0A, 0x00, 0x01, 0x2C, 0x00, 0x48, 0x30, 0x00] ∧
    signed2 (-120) = [0xFF, 0x88] := by decide

/-- They are read back, and act as the frame does. -/
theorem test_running_read : readFrame (frameBytes ⟨2, 412⟩ (.running report1762)) = some (⟨2, 412⟩, .running report1762) ∧
    ((after (.malformedFrame ((frameBytes ⟨2, 412⟩ (.running report1762)).map (BitVec.ofNat 8))) run).calls.calls.map (·.state)) =
      [.reported] := by decide +kernel

/-! ### Hypotheses met: one theorem per statement, its clauses in order -/

/-- A claim about every value of an option that is present. -/
theorem forall_some {α : Type} {a : α} {p : α → Prop} (h : p a) : ∀ x, some a = some x → p x :=
  fun _ e => Option.some.inj e ▸ h

/-- The peer table of the running station is in order. -/
theorem run_peersOk : PeersOk run := ⟨by decide, by decide⟩

theorem run_serving : run.Serving := ⟨rfl, rfl⟩

theorem run_fromPresent : FromPresent ⟨2, 4095⟩ run := ⟨rfl, rfl, run_peersOk, by decide⟩

/-- The reset state meets the invariants that the statements about every step assume. -/
theorem reset_invariants : NoticesOk State.reset.notices ∧ LineOk State.reset.line ∧ SaleOk State.reset ∧ StoreOk State.reset ∧
    ClockOk State.reset.clock ∧ CapacitiesOk State.reset ∧ PeersOk State.reset ∧ OverlayOk State.reset.overlay ∧
    step State.reset = .next State.reset :=
  ⟨⟨by decide, by decide, by decide, by decide, by decide, by decide⟩,
    ⟨by decide, by decide, by decide, by decide, by decide, by simp [NoRepeats, State.reset, afterReset, resetLine]⟩,
    ⟨by decide, by decide, by simp [State.reset, afterReset], by decide⟩,
    ⟨⟨by simp [State.reset, afterReset, resetSlot], fun h => absurd h (by decide), by decide⟩,
      ⟨by simp [State.reset, afterReset, resetSlot], fun h => absurd h (by decide), by decide⟩⟩,
    ⟨by decide, by decide, by decide, by decide⟩,
    ⟨by decide, by decide, by decide, by simp [DistinctIds, State.reset, afterReset]⟩, ⟨by decide, by decide⟩,
    ⟨by decide, by decide⟩, rfl⟩

theorem wit_Resets : exec (.powerOnReset ⟨15, false, true⟩) run = .next (after (.powerOnReset ⟨15, false, true⟩) run) ∧
    run.host.ready = true := ⟨rfl, rfl⟩

theorem wit_CommandFrames :
    (hostFrame (.configure 0 restarted) = some (1, 0) ∧ State.reset.host.ready = false) ∧
    (hostFrame (.setTime 255 monday ⟨0, 0, 0⟩) = some (5, 255) ∧ Instr.wellFormed (.setTime 255 monday ⟨0, 0, 0⟩) = true ∧
      hostFrame (.loadBegin 0 0 0) = some (10, 0) ∧ hostFrame (.brightness 0 255) = some (31, 0) ∧
      Instr.wellFormed (.brightness 0 255) = true ∧ ready.host.ready = true ∧ ready.setup.running = false) ∧
    (hostFrame (.start 0) = some (2, 0) ∧ Instr.wellFormed (.start 0) = true ∧ run.setup.running = true) ∧
    (hostFrame (.saleQuote 0 ⟨1, 1, 0, 1, none⟩) = some (20, 0) ∧ hostFrame (.journalRelease 0 0) = some (27, 0) ∧
      hostFrame (.lampTest 0 0) = some (30, 0) ∧ Instr.wellFormed (.lampTest 0 0) = true) := by decide

theorem wit_RawCommandFrames :
    (∃ b ∈ ([4, 9, 1] : List Byte), b ≠ 0xFF#8) ∧ ([] : List Byte).length ≤ (1#8).toNat ∧
    (∃ b ∈ ([0, 0, 0xFE] : List Byte).drop ((1#8).toNat + 1), b ≠ 0xFF#8) ∧
    ([0xA5, 0xFF] : List Byte) = [] ++ 0xA5 :: List.replicate 1 0xFF#8 ∧ (0xA5#8).toNat ≠ crc8 (byteValues [4, 9, 0]) ∧
    (BitVec.ofNat 8 (crc8 [35, 9, 0])).toNat = crc8 (byteValues [35, 9, 0]) ∧ 34 < (35#8).toNat ∧
    (4#8 ≠ 0xFF#8 ∧ (9#8 ≠ 0xFF#8)) ∧
    ((BitVec.ofNat 8 (crc8 [22, 9, 2, 0, 1])).toNat = crc8 (byteValues [22, 9, 2, 0, 1]) ∧
      ([0, 1] : List Byte).length < (paramLengths 22).1 ∧ (paramLengths 22).2 < ([0, 1, 2, 3] : List Byte).length) ∧
    (∃ n, ([2, 1] : List Byte)[0]? = some n ∧ n.toNat + 1 ≠ 2) ∧
    (∃ n, (List.replicate 15 2#8)[13]? = some n ∧ n.toNat + 14 ≠ 15) := by
  decide +kernel

theorem wit_ReadCommands : run.Serving ∧ run.clock.grade = .host ∧ State.reset.clock.grade ≠ .host ∧
    run.calls.calls[0]? = some call1762 ∧ run.calls.calls.length ≤ 1 := ⟨run_serving, by decide, by decide, rfl, by decide⟩

theorem wit_Configure : ready.InSetup ∧ ready.setup.configured = true ∧
    ({ ready with setup := { ready.setup with configured := false } } : State).InSetup ∧ restarted.haltCode ≠ 0 ∧
    ({ restarted with haltCode := 0 } : ConfigParams).haltCode = 0 := ⟨⟨rfl, rfl⟩, rfl, ⟨rfl, rfl⟩, by decide, rfl⟩

theorem wit_Start : ready.InSetup ∧ ready.setup.configured = true ∧ ready.setup.straps.station ≠ 0 ∧ ready.line.queue = [] ∧
    ready.line.muted = false ∧ ready.sales.sale = none ∧ ready.claims = [] ∧ ready.store.timetable.active = none ∧
    ready.board.rotation = none ∧
    ({ ready with setup := { ready.setup with straps := ⟨0, true, true⟩ } } : State).InSetup ∧
    ({ ready with setup := { ready.setup with configured := false } } : State).InSetup :=
  ⟨⟨rfl, rfl⟩, rfl, by decide, rfl, rfl, rfl, rfl, rfl, rfl, ⟨rfl, rfl⟩, ⟨rfl, rfl⟩⟩

theorem wit_Overlay : ready.overlay.frozen = false ∧ OverlayOk ready.overlay ∧ (∀ m ∈ [15, 1, 15], m ∈ ready.overlay.ids) ∧
    (∀ j ∈ [16, 200], j ∉ ready.overlay.ids → 16 ≤ j) ∧ 16 ∉ ready.overlay.ids ∧
    ({ ready with overlay := ⟨[1], true⟩ } : State).overlay.frozen = true :=
  ⟨rfl, ⟨by decide, by decide⟩, by decide, by decide, by decide, rfl⟩

theorem wit_SetTime : run.Serving ∧ run.setup.settings.rolloverMinute ≤ 359 ∧
    (Date.valid ⟨2000, 1, 1⟩ = true ∧ 10799 < 60 * 180) ∧ Date.valid ⟨2025, 2, 29⟩ = false ∧
    (monday.valid = true ∧ (23 : Nat) ≤ 23 ∧ (59 : Nat) ≤ 59 ∧ monday ≠ ⟨2000, 1, 1⟩) ∧
    (⟨2000, 1, 1⟩ : Date).valid = true ∧ 60 * 180 ≤ 3 * 3600 :=
  ⟨run_serving, by decide, by decide, by decide, by decide, by decide, by decide⟩

theorem wit_Tenth : State.reset.clock.grade = .unset ∧ (run.clock.grade ≠ .unset ∧ 9 ≤ run.clock.tenths ∧
      run.clock.second < 86399) ∧ ({ run.clock with tenths := 8 } : Clock).tenths < 9 ∧
    (86399 ≤ (atSecond 86399 run).clock.second ∧ (atSecond 86399 run).clock.date ≠ ⟨2099, 12, 31⟩) ∧
    ({ run.clock with date := ⟨2099, 12, 31⟩, second := 86399 } : Clock).date = ⟨2099, 12, 31⟩ ∧
    (run.clock.hostSetTick + 216000 ≤ 220123 ∧ run.clock.tick < run.clock.hostSetTick + 216000) := by decide

/-- The bytes of a timetable header of edition 2 and an effective date, with an integrity word. -/
def stagedTimetable (month day : Nat) : List Byte := ([0, 0, 7, 0, 2, 0, 12, 25, month, day, 0, 0].map (BitVec.ofNat 8))

theorem callOk_1762 : CallOk 30 call1762 :=
  ⟨by decide, by simp [call1762], forall_some (by decide), forall_some (fun _ => by decide), forall_some (fun h => by cases h)⟩

theorem run_callsOk : CallsOk run :=
  ⟨by intro c h; rw [List.mem_singleton.mp h]; exact callOk_1762, by simp [run], rfl, by decide, fun h => by cases h⟩

theorem run_distinct : DistinctIds run.bulletins.list := by simp [DistinctIds, run, ready, State.reset, afterReset]

theorem wit_Seconds : (run.clock.grade ≠ .unset ∧ 9 ≤ run.clock.tenths ∧ DistinctIds run.bulletins.list) ∧
    run.clock.second < 86399 ∧ 86399 ≤ (atSecond 86399 run).clock.second ∧ run.clock.date ≠ ⟨2099, 12, 31⟩ ∧
    run.store.timetable.loader ≠ .staged ∧ (effectiveDateOf (stagedTimetable 3 11)).onOrBefore monday.next = true ∧
    (effectiveDateOf (stagedTimetable 3 12)).onOrBefore monday.next = false ∧
    run.clock.hostSetTick + 216000 ≤ ({ run.clock with tick := 220123 } : Clock).tick :=
  ⟨⟨by decide, by decide, run_distinct⟩, by decide, by decide, by decide, by decide, by decide, by decide, by decide⟩

/-- The running station before any time was set. -/
def timeless : State :=
  { withCalls [{ call1762 with estimates := none }] with clock := { run.clock with grade := .unset, second := 0 } }

/-- The running station at another clock grade. -/
def graded (g : ClockGrade) : State := { run with clock := { run.clock with grade := g } }

/-- An ANNOUNCE of a host's time 2.0 s ahead or behind, and one of another date, at grades ADOPTED and HOST_AGED. -/
theorem wit_LaterAdoption : (∀ g, g = .adopted ∨ g = .hostAged → CallsOk (graded g) ∧ FromPresent ⟨2, 4095⟩ (graded g) ∧
      (graded g).clock.grade = g) ∧
    (∃ p ∈ (graded .adopted).line.peers, p.station = 2 ∧ p.coverage = noCoverage) ∧ (announce .host 18492 9).coverage = noCoverage ∧
    18490 * 10 + 9 + 20 ≤ (announce .host 18492 9).second * 10 + (announce .host 18492 9).tenths ∧
    (announce .host 18488 9).second * 10 + (announce .host 18488 9).tenths + 20 ≤ 18490 * 10 + 9 ∧
    ({ announce .host 18490 9 with date := monday.next } : AnnounceFields).date ≠ (graded .hostAged).clock.date := by
  refine ⟨?_, by decide, rfl, by decide, by decide, by decide⟩
  rintro g (rfl | rfl) <;>
  exact ⟨⟨run_callsOk.calls, run_callsOk.services, rfl, by decide, fun h => by cases h⟩, ⟨rfl, rfl, ⟨by decide, by decide⟩, by decide⟩, rfl⟩

theorem wit_ClockSteps : CallsOk run ∧ CallsOk timeless ∧ run.Serving ∧ monday.valid = true ∧
    (∃ start : Call → Call, ∀ c, start c = { c with estimates := (some
      ⟨min 108000 c.schedArr, min 108000 c.schedArr, departureFrom 30 c (min 108000 c.schedArr), 0⟩) }) ∧
    FromPresent ⟨2, 4095⟩ timeless ∧ (announce .host 18492 9).fresh = false ∧ timeless.clock.date = monday ∧
    (∃ p ∈ timeless.line.peers, p.station = 2 ∧ p.coverage = (announce .host 18492 9).coverage) ∧
    (announce .host 18492 9).timetable = 0 ∧ (announce .host 18492 9).fare = 0 :=
  ⟨run_callsOk, ⟨by
      intro c h
      rw [List.mem_singleton.mp h]
      exact ⟨by decide, by simp [call1762], by simp, by simp, by simp⟩,
    by simp [timeless, withCalls], rfl, by decide, fun h => by cases h⟩, run_serving, by decide, ⟨_, fun _ => rfl⟩,
    ⟨rfl, rfl, ⟨by decide, by decide⟩, by decide⟩, rfl, rfl, by decide, rfl, rfl⟩

theorem wit_Notice : (∀ x ∈ run.notices.queue, ∀ b, x.content ≠ .callChanged b) ∧
    (List.replicate 15 (⟨.journalFull, 0⟩ : Notice)).length < 16 ∧ 16 ≤ (List.replicate 16 (⟨.journalFull, 0⟩ : Notice)).length ∧
    (∃ x ∈ [(⟨.journalFull, 0⟩ : Notice), ⟨.callChanged 2, 0⟩], x.content = .callChanged 2) :=
  ⟨(by intro x h; exact absurd h (List.not_mem_nil)), by decide, by decide, by decide⟩

/-- A pull of fare edition 12 from peer 2, waiting for segment 0. -/
def pulling : Slot :=
  { resetSlot with loader := .peerFill, origin := some (.peer 2), pull := some ⟨2, 12, 0, 3, some ⟨4990, 10⟩, some 77⟩ }

theorem wit_HandOver : run.line.seqCounter ≤ 4095 ∧ run.line.muted = false ∧
    (∃ f, fullQueue[2]? = some f ∧ (Payload.running { report1762 with service := 2151 }).supersedes f.payload = true ∧
      ∀ g ∈ fullQueue.take 2, (Payload.running { report1762 with service := 2151 }).supersedes g.payload = false) ∧
    (∀ g ∈ fullQueue, (Payload.claim claim2140).supersedes g.payload = false) ∧ 12 = fullQueue.length ∧
    (Payload.claim claim2140).kind.urgent = true ∧
    (∃ f, fullQueue[11]? = some f ∧ f.payload.kind.urgent = false ∧ f.payload.kind ≠ .segReq) ∧
    (Payload.segReq ⟨2, .fare, 1, 0⟩).kind.urgent = false ∧
    (∀ g ∈ List.replicate 12 (⟨0, 0, .claim claim2140⟩ : TxFrame), g.payload.kind.urgent = true) ∧ run.line.queue.length < 12 ∧
    ((fullQueue.take 11 ++ [⟨77, 0, .segReq ⟨2, .fare, 12, 0⟩⟩])[11]?.map (·.seq) = some 77 ∧ pulling.pull.map (·.request) = some (some 77)) := by
  refine ⟨by decide, by decide, ⟨_, rfl, ?_⟩, ?_, ?_, by decide, ⟨_, rfl, ?_⟩, by decide, by decide, by decide, by decide⟩ <;> decide

theorem wit_Composition : run.setup.straps.shows = true ∧ run.board.rotation ≠ none ∧ 2 ≤ run.board.config.rows ∧
    run.store.timetable.active = none ∧ fares.clock.grade ≠ .unset ∧ run.board.override = none ∧
    run.board.config.nightEnd = run.board.config.nightStart ∧ run.board.lamp = none ∧ run.board.sending = none := by decide

/-- A suspension of peer 2 that comes into force at service second 25,200. -/
def suspension : Bulletin := ⟨2, 7, .suspension, ⟨monday, 25200⟩, ⟨monday, 28800⟩, txt "No trains", false⟩

/-- The running station with a timetable and a board at work; `list` are its bulletins. -/
def board (list : List Bulletin) : State :=
  { run with store := { run.store with timetable := { resetSlot with active := some (stagedTimetable 3 10), activeEdition := 2 } }
             bulletins := ⟨list, 0⟩ }

theorem wit_Panel : ((board []).Composing ∧ compose (board []) = { board [] with board := (compose (board [])).board }) ∧
    (compose (board [])).board.mode = .normal ∧ IsListing (board []) [call1762] ∧
    (compose (board [])).board.page * 3 + 0 = 0 ∧ 3 + 1 = run.board.config.rows ∧
    call1762.estimates = some ⟨18720, 18720, 18750, 0⟩ ∧ call1762.platform ≤ 9 ∧
    (compose (board [{ suspension with inForce := true }])).board.mode = .suspended ∧
    LastInForce [{ suspension with inForce := true }] .suspension { suspension with inForce := true } ∧
    (compose run).board.mode = .noTimetable ∧ ({ run.board with phase := 1 } : Board).phase = 1 ∧
    ({ run.board with warnUp := some ⟨4990, 300⟩ } : Board).warnUp ≠ none :=
  ⟨⟨⟨rfl, by decide⟩, rfl⟩, by decide, ⟨by decide, by simp⟩, by decide, rfl, rfl, by decide, by decide,
    ⟨rfl, rfl, [], [], rfl, by simp⟩, by decide, rfl, by decide⟩

/-- The activation of a timetable composes before its build does (R165): an idle port sends the first image and keeps the other;
what it sends ends with the level. -/
theorem test_activation_composes :
    let s := { board [] with store := { run.store with timetable :=
      { resetSlot with loader := .staged, staging := stagedTimetable 3 10, origin := some .host } } }
    (activateStagedTimetable s).board.sending = (compose (activate .timetable s)).board.sending ∧
    (activateStagedTimetable s).board.waitingImage ≠ none ∧ (activateStagedTimetable s).calls.calls = [] ∧
    (portOutput (activateStagedTimetable s).board).getLast? = some (.level 7) ∧ portOutput s.board = [] := by decide

theorem wit_Pulses : (withPair timing).treadles.pairA.head .two = ⟨true, false⟩ ∧ run.treadles.pairB.config.enabled = false ∧
    (run.setup.running = true ∧ timing.config.enabled = true ∧ timing.state = .timing) ∧
    (({ timing with state := .quiet } : Pair).head .two = ⟨true, false⟩) ∧ timing.firstHead = .one ∧
    ({ timing with state := .passage, axles := 255, record := none } : Pair).record = none := by decide

theorem wit_Capture : timing.state = .timing ∧ HeadId.two ≠ timing.firstHead ∧
    (run.setup.settings.minSpeed ≤ 150 * 10000 / max 1 (min 65535 0)) ∧
    (150 * 10000 / max 1 (min 65535 65536) < run.setup.settings.minSpeed) ∧
    run.setup.settings.minSpeed ≤ 150 * 10000 / 5000 ∧ 150 * 10000 / 5001 < run.setup.settings.minSpeed ∧
    (⟨true, 65535, 300, true, 1, 18490, true⟩ : Measurement).count = 65535 ∧ run.treadles.pairB.state ≠ .timing := by decide

/-- An empty Call Table, the pair in TIMING: with room on the line; muted; and with 12 frames, the newest of them the SEG_REQ that a
pull waits for. -/
def emptyTable (l : Line) : State :=
  { pairAndCalls timing [] with line := l, store := (run.store.setSlot .fare pulling) }

/-- Twelve frames, the newest the request of the pull. -/
def fullWithRequest : Line := { run.line with queue := (fullQueue.take 11 ++ [⟨77, 0, .segReq ⟨2, .fare, 12, 0⟩⟩]), condition := .backoff 1 }

theorem wit_CaptureAlone : (emptyTable run.line).calls.calls = [] ∧ (emptyTable run.line).treadles.pairA.state = .timing ∧
    (emptyTable run.line).clock.grade ≠ .unset ∧ run.line.muted = false ∧ run.line.queue.length < 12 ∧
    (emptyTable { run.line with muted := true }).line.muted = true ∧ (emptyTable fullWithRequest).line.queue.length = 12 := by decide

/-- The APPROACH of an overflow displaces the request at a full queue, and the pull is abandoned; with room the pull goes on. -/
theorem test_displaced_request : (after (.overflow .a) (emptyTable fullWithRequest)).store.fare.loader = .empty ∧
    ((after (.overflow .a) (emptyTable fullWithRequest)).line.queue.map (·.payload.kind)).getLast? = some .approach ∧
    (after (.overflow .a) (emptyTable run.line)).store.fare.loader = .peerFill ∧
    ((after (.overflow .a) (emptyTable run.line)).line.queue.map (·.payload.kind)) = [.approach] := by decide

theorem wit_QuietTimer : (({ timing with state := .passage, quietTimer := some ⟨4920, 80⟩ } : Pair).state = .passage ∧
      4920 + 80 ≤ run.clock.tick ∧ 0 < (⟨true, 65535, 300, true, 1, 18490, true⟩ : Measurement).speed) ∧
    (({ timing with secondSeen := true } : Pair).secondSeen = true) ∧ ({ timing with voids := 2 } : Pair).secondSeen = false ∧
    run.clock.tick < 4921 + 80 ∧ timing.state ≠ .passage := by decide

/-- A change of the watch view: pair A's flags clear for a creeping call and an ARRIVED one, and set for a PENDING one. -/
theorem wit_Rewatched : (pairAndCalls thirdVoid [creeping]).clock.grade ≠ .unset ∧
    (pairAndCalls thirdVoid [creeping]).calls.watch = ⟨true, false, false, true⟩ ∧
    watchView { run.treadles with pairA := { thirdVoid with state := .faulty } } run.line.peers = noCoverage ∧
    creeping.estimates = some ⟨36000, 36430, 36490, 430⟩ ∧ creeping.state.awaited = true ∧ creeping.direction = .up ∧
    ({ creeping with state := .arrived, direction := .down } : Call).state.atHand = true ∧
    (⟨true, false, false, true⟩ : Coverage).departure .down = true ∧
    (withPair { timing with state := .faulty }).calls.watch = noCoverage ∧ (withPair timing).calls.watch.arrival .up = true ∧
    (withPair { timing with state := .faulty }).clock.grade ≠ .unset := by decide

theorem wit_TreadleCommands : run.Serving ∧ (withPair timing).treadles.pairA.config.enabled = true ∧
    (withPair timing).treadles.pairB.config.enabled = false ∧ PeersOk (withPair timing) ∧
    (withPair { timing with state := .faulty }).treadles.pairA.state = .faulty :=
  ⟨run_serving, rfl, rfl, ⟨by decide, by decide⟩, rfl⟩

theorem wit_Board : run.Serving ∧ run.setup.straps.shows = true ∧
    (run.board.rotation = some ⟨4900, 100⟩ ∧ 4900 + 100 ≤ run.clock.tick ∧ run.board.phase + 1 = 1) ∧
    (∀ x, some (⟨4900, 101⟩ : Timer) = some x → run.clock.tick < x.start + x.span) ∧
    ({ run.board with phase := 1 } : Board).phase + 0 = 1 ∧
    ({ run.board with warnUp := some ⟨4100, 900⟩ } : Board).warnUp = some ⟨4100, 900⟩ ∧ 4100 + 900 ≤ run.clock.tick ∧
    (∃ x y, ({ run.board with sending := some (blankImage 4 24 7), waitingImage := some (blankImage 4 24 0) } : Board).sending =
      some x ∧ ({ run.board with waitingImage := some (blankImage 4 24 0) } : Board).waitingImage = some y) ∧
    run.board.sending = none :=
  ⟨run_serving, rfl, by decide, forall_some (by decide), rfl, rfl, by decide, ⟨_, _, rfl, rfl⟩, rfl⟩

theorem wit_Notices : run.host.ready = true ∧ run.notices.mask.length = 14 ∧ run.notices.suspension.isSet = false ∧
    (⟨true, 255⟩ : Latch).isSet = true ∧ (⟨true, 255⟩ : Latch).count ≠ 254 := by decide

/-- The running station with one CLAIM as its current frame. -/
def current (condition : LineCondition) (attempts : Nat) : State :=
  { run with line := { run.line with queue := [⟨77, attempts, .claim ⟨1762, monday, .chair, 77⟩⟩], condition := condition }
             claims := [⟨1762, monday, .chair, 1, 77, none, .queued, none⟩] }

theorem wit_Attempts : (current (.waiting 4980) 0).line.condition = .waiting 4980 ∧
    (current .sending 9).line.condition = .sending ∧ 4980 + 20 ≤ run.clock.tick ∧ run.clock.tick < 4981 + 20 ∧ (8 : Nat) < 9 ∧
    (∃ b, (current (.backoff 63) 9).line.condition = .backoff b) ∧ (current .sending 9).line.rng = some ⟨1, 1000, 7⟩ ∧
    (∃ f q, (current .sending 9).line.queue = f :: q) :=
  ⟨rfl, rfl, by decide, by decide, by decide, ⟨_, rfl⟩, rfl, ⟨_, _, rfl⟩⟩

theorem wit_TenthFailure : ((current .sending 10).line.condition = .sending ∧ (10 : Nat) ≤ 10) ∧
    ((current (.waiting 4980) 9).line.condition = .waiting 4980 ∧ 4980 + 20 ≤ run.clock.tick) ∧
    (findClaim (current .sending 10).claims 1 77 = some ⟨1762, monday, .chair, 1, 77, none, .queued, none⟩) ∧
    (findClaim run.claims 1 77 = none) ∧
    (({ sale790 .claiming 0 with claim := some 77 } : SaleRecord).stage = .claiming) := by decide

theorem wit_PullRequestFails : (({ run.store with fare := pulling } : Store).slot .fare).pull =
      some ⟨2, 12, 0, 3, some ⟨4990, 10⟩, some 77⟩ ∧ (3 : Nat) < 4 ∧ (4 : Nat) ≤ 4 ∧ run.line.muted = false ∧
    ([] : List TxFrame).length < 12 := by decide

theorem wit_Completion : (current .sending 1).line.condition = .sending ∧ (current (.waiting 0) 1).line.condition ≠ .sending ∧
    (Payload.segReq ⟨2, .fare, 12, 0⟩).kind ≠ .claim ∧ (Payload.announce (announce .host 0 0)).kind = .announce := by decide

theorem wit_ClaimCompletion : claiming.line.condition = .sending ∧
    findClaim claiming.claims 1 77 = some ⟨1762, monday, .chair, 1, 77, none, .queued, none⟩ ∧
    (claiming.sales.sale.map (·.stage)) = some .claiming ∧ (claiming.sales.sale.map (·.claim)) = some (some 77) ∧
    claimsBefore claiming.claims 1762 monday .chair 910 < capacityOf claiming 1762 monday .chair ∧
    capacityOf claiming 1762 monday .chair ≤
      claimsBefore (claiming.claims ++ [⟨1762, monday, .chair, 2, 5, some 909, .pending, some 0⟩]) 1762 monday .chair 910 := by
  decide

theorem reset_moneyOk : MoneyOk State.reset := by
  constructor <;> simp [State.reset, afterReset]

theorem wit_Discarded : receivedFrame (.segReqReceived ⟨2, 4095⟩ ⟨1, .fare, 1, 0⟩) = some (⟨2, 4095⟩, true) ∧
    ready.setup.running = false ∧ (⟨0, 0⟩ : FrameHead).wellFormed = false ∧ (⟨1, 4096⟩ : FrameHead).wellFormed = false ∧
    receivedFrame (.segReqReceived ⟨2, 0⟩ ⟨16, .fare, 1, 0⟩) = some (⟨2, 0⟩, false) ∧
    (∃ p ∈ ({ run.line with peers := run.line.peers.map (fun p => { p with state := .foreign }) } : Line).peers,
      p.station = 2 ∧ p.state = .foreign) ∧
    (byteValues [2, 1, 1]).drop (3 - 2) ≠ num2 (crc16 ((byteValues [2, 1, 1]).take (3 - 2))) := by decide +kernel

theorem wit_Clash : receivedFrame (.segReqReceived ⟨1, 0⟩ ⟨1, .fare, 1, 0⟩) = some (⟨1, 0⟩, true) ∧
    (⟨1, 0⟩ : FrameHead).wellFormed = true ∧ run.setup.running = true ∧ run.setup.straps.station = 1 ∧ run.line.muted = false ∧
    (∀ f ∈ (queued fullQueue).line.queue, f.payload.kind ≠ .claim ∧ f.payload.kind ≠ .segReq) ∧
    (∃ f ∈ (current .sending 1).line.queue, f.payload.kind = .claim) := by decide

theorem wit_WrongHalt : run.setup.running = true ∧ (⟨2, 4095⟩ : FrameHead).wellFormed = true ∧
    ({ announce .host 86399 9 with haltCode := 8 } : AnnounceFields).wellFormed = true ∧ PeersOk run ∧
    (∃ p ∈ run.line.peers, p.station = 2 ∧ p.state = .present) ∧ (∃ p ∈ run.line.peers, p.station = 3 ∧ p.state = .unknown) ∧
    (8 : Nat) ≠ run.setup.settings.haltCode := ⟨rfl, by decide, by decide, run_peersOk, by decide, by decide, by decide⟩

theorem wit_AcceptedAnnounce : (announce .host 86399 9).wellFormed = true ∧
    (announce .host 0 0).haltCode = run.setup.settings.haltCode ∧ PeersOk run ∧
    (resetClock.grade = .unset ∧ (announce .adopted 0 0).grade ≠ .unset) ∧
    (18490 * 10 + 9 + 20 ≤ (announce .host 18492 9).second * 10 + (announce .host 18492 9).tenths ∧
      (announce .host 18488 9).second * 10 + (announce .host 18488 9).tenths + 20 ≤ 18490 * 10 + 9) ∧
    18490 * 10 + 9 < (announce .host 18488 10).second * 10 + (announce .host 18488 10).tenths + 20 ∧
    (run.clock.grade = .host ∧ (announce .host 0 0).timetable = 0 ∧ DistinctIds [{ suspension with inForce := true }] ∧
      ({ announce .host 0 0 with fresh := true } : AnnounceFields).fresh = true ∧
      [(⟨1762, monday, .bike, 1, 9, some 7, .taken, none⟩ : Claim), ⟨1762, monday, .bike, 1, 5, some 8, .taken, none⟩].Pairwise
        (fun a b => a.seq ≠ b.seq ∧ positionBefore (a.position.getD 0) (b.position.getD 0) = true) ∧
      ∀ q ∈ (queued (fullQueue.take 3)).line.queue, q.payload.kind ≠ .taken ∧ q.payload.kind ≠ .bulletin) :=
  ⟨by decide, rfl, run_peersOk, by decide, by decide, by decide, rfl, rfl, by simp [DistinctIds], rfl, by decide, by decide⟩

theorem wit_Offered : FromPresent ⟨2, 4095⟩ run ∧ run.clock.grade = .host ∧ (announce .host 0 0).fresh = false ∧
    (∃ p ∈ run.line.peers, p.station = 2 ∧ p.coverage = (announce .host 0 0).coverage) ∧ run.line.rng = some ⟨1, 1000, 7⟩ ∧
    (resetSlot.active = none ∧ resetSlot.loader = .empty ∧ resetSlot.pullWait = none ∧ (1 : Nat) ≠ resetSlot.refused) ∧
    pulling.loader = .peerFill ∧ (12 : Nat) ≤ editionOf fareImage ∧ editionOf fareImage < 13 :=
  ⟨run_fromPresent, rfl, rfl, by decide, rfl, by decide, rfl, by decide, by decide⟩

theorem wit_FramesReadBack : (⟨15, 4095⟩ : FrameHead).wellFormed = true ∧
    (Payload.bulletin ⟨15, 255, .info, false, ⟨monday, 0⟩, ⟨monday, 86399⟩, List.replicate 64 126⟩).wellFormed = true := by decide

theorem wit_LineTimers : run.calls.resend = some ⟨4400, 600⟩ ∧ 4400 + 600 ≤ run.clock.tick ∧ run.line.muted = false ∧
    run.line.queue.length + 1 ≤ 12 ∧ run.calls.calls.Pairwise (fun a b => a.service ≠ b.service) ∧
    (∀ x, some (⟨4400, 601⟩ : Timer) = some x → run.clock.tick < x.start + x.span) ∧
    (∃ p ∈ run.line.peers, p.station = 2 ∧ p.state = .present ∧ p.silence = some ⟨4650, 350⟩ ∧
      p.coverage = ⟨false, false, false, false⟩) ∧ 4650 + 350 ≤ run.clock.tick ∧
    run.line.announceTimer = some ⟨4900, 100⟩ ∧ 4900 + 100 ≤ run.clock.tick ∧ run.line.rng = some ⟨1, 1000, 7⟩ :=
  ⟨rfl, by decide, rfl, by decide, by simp [run], forall_some (by decide), by decide, by decide, rfl, by decide, rfl⟩

theorem wit_Pulls : (({ resetSlot with pullWait := some ⟨4980, 20⟩ } : Slot).pullWait = some ⟨4980, 20⟩ ∧
      4980 + 20 ≤ run.clock.tick) ∧ (∀ p ∈ run.line.peers, p.state = .present → p.edition .fare = 0) ∧
    (∃ p ∈ ({ run.line with peers := run.line.peers.map (fun p => { p with fare := 12 }) } : Line).peers,
      p.state = .present ∧ p.edition .fare = 12 ∧ p.station = 2) ∧
    pulling.pull = some ⟨2, 12, 0, 3, some ⟨4990, 10⟩, some 77⟩ ∧ 4990 + 10 ≤ run.clock.tick ∧
    (∀ x, some (⟨4990, 11⟩ : Timer) = some x → run.clock.tick < x.start + x.span) :=
  ⟨by decide, by decide, by decide, rfl, by decide, forall_some (by decide)⟩

theorem wit_Running : FromPresent ⟨2, 4095⟩ run ∧ report1762.wellFormed = true ∧
    (18549 < 18490 + 60 ∧ 18490 + 60 < 18551) ∧ callIndex run.calls.calls 1762 = some 0 ∧ run.calls.calls[0]? = some call1762 ∧
    run.clock.grade ≠ .unset ∧ report1762.date = run.clock.date ∧ call1762.report = none ∧
    ((18900 : Nat) : Int) = max 0 (min 108000 ((call1762.schedArr : Int) + max 0 (300 - 120))) ∧ run.clock.second + 30 < 18900 :=
  ⟨run_fromPresent, by decide, by decide, rfl, rfl, by decide, rfl, rfl, by decide, by decide⟩

/-- Station 3 unheard so far, and the same station SILENT with the coverage of its last ANNOUNCE. -/
def silentPeer : State :=
  { run with line := { run.line with peers := run.line.peers.map (fun p =>
      if p.station = 3 then { p with state := .silent, coverage := ⟨true, false, false, false⟩ } else p) } }

theorem wit_BecomesPresent : receivedFrame (.runningReceived ⟨3, 0⟩ report1762) = some (⟨3, 0⟩, true) ∧
    receivedFrame (.segReqReceived ⟨3, 0⟩ ⟨1, .fare, 1, 0⟩) = some (⟨3, 0⟩, true) ∧
    (⟨3, 0⟩ : FrameHead).wellFormed = true ∧ run.setup.running = true ∧ PeersOk run ∧ PeersOk silentPeer ∧
    (∃ p ∈ run.line.peers, p.station = 3 ∧ p.state = .unknown) ∧ (∃ p ∈ silentPeer.line.peers, p.station = 3 ∧ p.state = .silent) :=
  ⟨rfl, rfl, rfl, rfl, run_peersOk, ⟨by decide, by decide⟩, by decide, by decide⟩

/-- The first frame of a SILENT peer makes it PRESENT, its coverage joins the watch view, and the frame is counted once and acts. -/
theorem test_becomes_present : (after (.runningReceived ⟨3, 0⟩ report1762) silentPeer).notices.queue.map (·.content) =
      [.peerChange 3 .silent .present, .callChanged 3] ∧
    (after (.runningReceived ⟨3, 0⟩ report1762) silentPeer).calls.watch = ⟨true, false, false, false⟩ ∧
    (after (.runningReceived ⟨3, 0⟩ report1762) silentPeer).line.rxCount = 0 ∧
    ((after (.runningReceived ⟨3, 0⟩ report1762) silentPeer).calls.calls.map (·.state)) = [.reported] := by decide

theorem wit_ReportRunning : run.Serving ∧ (0 : Nat) < 1 ∧ 9999 < 10000 ∧ run.clock.second + 60 < 18551 ∧
    report1762.observed ≤ run.clock.second + 60 ∧ monday ≠ monday.next ∧ (∀ c ∈ run.calls.calls, c.service ≠ 1763) ∧
    (∃ x, ({ call1762 with report := some ⟨0, 0, 18480, 1, false⟩ } : Call).report = some x ∧ report1762.observed ≤ x.observed) :=
  ⟨run_serving, by decide, by decide, by decide, by decide, by decide, by decide, ⟨_, rfl, by decide⟩⟩

theorem wit_Approach : FromPresent ⟨2, 4095⟩ run ∧ (⟨.up, 17400, .slow, 120, 100, .a⟩ : ApproachFields).wellFormed = true ∧
    call1762.state.awaited = true ∧ call1762.direction = .up ∧ natDist 18720 (17400 + 120) ≤ 1200 ∧
    1200 < natDist 18720 (17399 + 120) ∧ run.clock.second < max (18600 + 120) (call1762.schedArr - 900) ∧ ¬ready.Composing ∧
    run.Composing ∧ (∀ c ∈ run.calls.calls, c.direction ≠ .down) ∧
    natDist (18600 + 120) (18300 + 120) ≤ 300 ∧ 300 < natDist (18600 + 120) (18299 + 120) :=
  ⟨run_fromPresent, by decide, by decide, rfl, by decide, by decide, by decide, fun h => h.2 rfl, ⟨rfl, by decide⟩, by decide,
    by decide, by decide⟩

theorem wit_Depart : FromPresent ⟨2, 4095⟩ run ∧ (⟨.up, 18832, .slow, .b⟩ : DepartFields).wellFormed = true ∧
    CallState.arrived.atHand = true ∧ natDist 18750 (18750 + 900) ≤ 900 ∧ 900 < natDist 18750 (18750 + 901) ∧
    run.board.warning .up = none ∧ run.sales.sale = none := ⟨run_fromPresent, by decide, rfl, by decide, by decide, rfl, rfl⟩

theorem wit_ClaimFrames : FromPresent ⟨2, 4095⟩ run ∧ claim2140.wellFormed = true ∧
    (∀ x ∈ run.claims, ¬(x.state = .queued ∧ x.origin = run.setup.straps.station)) ∧ findClaim run.claims 2 412 = none ∧
    (List.replicate 23 (⟨1762, monday, .bike, 2, 1, none, .taken, none⟩ : Claim)).length < 24 ∧
    (24 : Nat) ≤ (List.replicate 24 (⟨1762, monday, .bike, 2, 1, none, .taken, none⟩ : Claim)).length ∧
    run.calls.calls.find? (fun x => x.service = 1762) = some call1762 ∧ call1762.state.over = false ∧
    (∀ c ∈ run.calls.calls, c.service ≠ 2140) ∧
    findClaim [⟨1762, monday, .bike, 2, 412, some 9, .pending, some 3200⟩] 2 412 =
      some ⟨1762, monday, .bike, 2, 412, some 9, .pending, some 3200⟩ ∧
    3200 + 1800 ≤ run.clock.tick ∧ run.clock.tick < 3201 + 1800 :=
  ⟨run_fromPresent, by decide, (by intro x h; exact absurd h List.not_mem_nil), by decide, by decide, by decide, rfl, by decide,
    by decide, by decide, by decide, by decide⟩

theorem wit_FilledClass : FromPresent ⟨2, 300⟩ claiming ∧ findClaim claiming.claims 2 300 = none ∧ claiming.claims.length < 24 ∧
    claiming.calls.calls.find? (fun x => x.service = 1762) = some call1762 ∧
    claiming.claims.find? (fun x => x.state = .queued && x.origin = claiming.setup.straps.station) =
      some ⟨1762, monday, .chair, 1, 77, none, .queued, none⟩ ∧
    capacityOf claiming 1762 monday .chair ≤ occupancy claiming.claims 1762 monday .chair + 1 ∧
    (claiming.sales.sale.map (·.claim)) = some (some 77) ∧
    claiming.line.queue.findIdx? (fun x => x.seq = 77 && x.payload.kind = .claim) = some 0 :=
  ⟨⟨rfl, rfl, ⟨by decide, by decide⟩, by decide⟩, by decide, by decide, by decide, by decide, by decide, by decide, by decide⟩

theorem wit_SegReq : FromPresent ⟨2, 4095⟩ run ∧ (⟨1, .fare, 12, 1⟩ : SegReqFields).wellFormed = true ∧
    fares.store.fare.active = some fareImage ∧ fares.store.fare.activeEdition = 12 ∧ 64 * 1 < fareImage.length ∧
    fareImage.length ≤ 64 * 2 ∧ run.store.fare.active = none ∧ run.line.queue.length < 12 :=
  ⟨run_fromPresent, by decide, rfl, rfl, by decide, by decide, rfl, by decide⟩

theorem wit_Segment : FromPresent ⟨2, 4095⟩ run ∧
    (⟨1, .fare, 12, 0, false, fareImage.take 64⟩ : SegmentFields).wellFormed = true ∧ pulling.loader = .peerFill ∧
    pulling.pull = some ⟨2, 12, 0, 3, some ⟨4990, 10⟩, some 77⟩ ∧
    (∃ hd, headerOf (fareImage.take 64) = some hd ∧ hd.length = 76 ∧ hd.edition = 12 ∧ hd.kind = 1 ∧ imageMinimum ≤ 76 ∧
      76 ≤ imageLimit .fare) ∧ (fareImage.take 64).length = min 64 (76 - 64 * 0) ∧ pulling.offset + 64 ≠ 76 ∧
    (fareImage.drop 64).length = min 64 (76 - 64 * 1) ∧ 64 + (fareImage.drop 64).length = 76 ∧
    resetSlot.loader ≠ .peerFill :=
  ⟨run_fromPresent, by decide, rfl, rfl, by decide, by decide, by decide, by decide, by decide, by decide⟩

theorem wit_Loads : run.Serving ∧ (11 < imageMinimum ∧ imageMinimum ≤ 12) ∧ ((2048 : Nat) ≤ 2048 ∧ 2048 < 2049) ∧
    (({ resetSlot with loader := .hostFill, declared := some 76, offset := 64 } : Slot).loader = .hostFill) ∧
    resetSlot.loader ≠ .hostFill ∧ (64 : Nat) + 11 < 76 ∧ 64 + 12 = 76 ∧ 76 < 64 + 13 ∧
    (1 ≤ (fareImage.drop 64).length ∧ (fareImage.take 64).length ≤ 64) ∧ checkImage .fare 7 0 fareImage = none :=
  ⟨run_serving, by decide, by decide, rfl, by decide, by decide, by decide, by decide, by decide, by decide⟩

theorem wit_BulletinFrame : FromPresent ⟨2, 4095⟩ run ∧
    (⟨2, 7, .suspension, false, ⟨monday, 25200⟩, ⟨monday, 28800⟩, txt "No trains"⟩ : BulletinFields).wellFormed = true ∧
    DistinctIds [suspension] ∧ findBulletin [suspension] 2 7 = some suspension ∧ findBulletin [suspension] 2 8 = none ∧
    (⟨monday, 25200⟩ : Instant).before ⟨monday, 25201⟩ = true ∧ (⟨monday, 25200⟩ : Instant).before ⟨monday, 25200⟩ = false ∧
    suspension.expiredAt run.clock = false ∧ suspension.expiredAt (atSecond 28800 run).clock = true ∧
    ({ suspension with kind := .info, inForce := true } : Bulletin).kind = .info :=
  ⟨run_fromPresent, by decide, by simp [DistinctIds], by decide, by decide, by decide, by decide, by decide, by decide, rfl⟩

theorem wit_BulletinCommands : run.Serving ∧ (1 ≤ [32].length ∧ (∀ c ∈ [32, 126], 32 ≤ c ∧ c ≤ 126) ∧ (31 : Nat) < 32) ∧
    ((⟨monday, 25200⟩ : Instant).valid = true ∧ (⟨monday, 86400⟩ : Instant).valid = false) ∧
    (⟨run.clock.date, run.clock.second⟩ : Instant).before ⟨monday, 18491⟩ = true ∧
    (⟨run.clock.date, run.clock.second⟩ : Instant).before ⟨monday, 18490⟩ = false ∧ DistinctIds run.bulletins.list ∧
    findBulletin run.bulletins.list 1 1 = none ∧ run.bulletins.list.length < 4 ∧
    (∃ d ∈ [{ suspension with kind := .info }, suspension, { suspension with number := 8 }, { suspension with number := 9 }],
      d.kind = BulletinKind.info) ∧ (2 : Nat) ≠ run.setup.straps.station ∧ 255 < 256 :=
  ⟨run_serving, by decide, by decide, by decide, by decide, by simp [DistinctIds, run, ready, State.reset, afterReset], by decide,
    by decide, by decide, by decide, by decide⟩

theorem wit_SaleQuote : fares.Serving ∧ fares.setup.straps.sells = true ∧ fares.sales.sale = none ∧
    fares.store.fare.active = some fareImage ∧ 2 ∈ fares.overlay.ids ∧
    ((fareTableOf fareImage).productWith 2).map (·.1) = some ⟨2, .single, true⟩ ∧
    ((fareTableOf fareImage).concessions.find? (fun x => x.1 = 3)).map (·.2) = some 66 ∧
    (fareTableOf fareImage).stations.find? (fun x => x.code = 3105) = some ⟨3105, 17, 4⟩ ∧
    (fareTableOf fareImage).groupLimit = some 6 ∧ (fareTableOf fareImage).offPeak = some ⟨31, 390, 780, 80⟩ ∧
    (fareTableOf fareImage).productWith 3 = none ∧ run.store.fare.active = none ∧
    (sale790 .claiming 0).stage ≠ .quoted ∧ call1762.kind = .stop ∧ run.clock.second + 120 < 18750 ∧
    ¬(atSecond 18630 run).clock.second + 120 < 18750 :=
  ⟨⟨rfl, rfl⟩, rfl, rfl, rfl, by decide, by decide, by decide, by decide, by decide, by decide, by decide, rfl, by decide, rfl,
    by decide, by decide⟩

/-- A QUOTED sale of a wheelchair space. -/
def quotedSpace : SaleRecord := { sale790 .quoted 0 with space := some ⟨1762, monday, .chair⟩ }

theorem wit_SaleAccept : (selling (sale790 .quoted 0)).Serving ∧ (sale790 .quoted 0).stage = .quoted ∧
    (selling (sale790 .quoted 0)).sales.journal.length < 64 ∧ 4117 < 999999 ∧ (0 : Nat) < 790 ∧
    ({ items790 with quote := 0 } : QuoteItems).quote ≤ 0 ∧ quotedSpace.space = some ⟨1762, monday, .chair⟩ ∧
    occupancy (selling quotedSpace).claims 1762 monday .chair < capacityOf (selling quotedSpace) 1762 monday .chair ∧
    capacityOf (selling quotedSpace) 1762 monday .chair ≤
      occupancy [⟨1762, monday, .chair, 2, 5, none, .taken, none⟩] 1762 monday .chair ∧
    (selling quotedSpace).line.muted = false ∧ (selling quotedSpace).line.queue.length < 12 :=
  ⟨⟨rfl, rfl⟩, rfl, by decide, by decide, by decide, by decide, rfl, by decide, by decide, rfl, by decide⟩

theorem wit_Paying : (selling (sale790 .paying 700)).Serving ∧ run.setup.straps.sells = true ∧ (sale790 .paying 700).stage = .paying ∧
    (700 + 89 < items790.quote ∧ items790.quote ≤ 700 + 90) ∧ (600 < 601 ∧ (600 : Nat) ≤ 600) ∧
    ((sale790 .quoted 0).lifetime = some ⟨4400, 600⟩ ∧ 4400 + 600 ≤ run.clock.tick) ∧
    ((sale790 .paying 0).payment = some ⟨3800, 1200⟩ ∧ 3800 + 1200 ≤ run.clock.tick) ∧
    (∀ x, some (⟨3801, 1200⟩ : Timer) = some x → run.clock.tick < x.start + x.span) ∧ run.sales.sale = none ∧
    (sale790 .issuing 800).stage = .issuing :=
  ⟨⟨rfl, rfl⟩, rfl, rfl, by decide, by decide, by decide, by decide, forall_some (by decide), rfl, rfl⟩

/-- One journal record. -/
def record (n : Nat) : JournalRecord := ⟨n, 2, 3105, 3, 2, 790, 10, 0, 12, monday, 18490, none, false⟩

theorem wit_Journal : run.Serving ∧ run.setup.straps.sells = true ∧ run.sales.journal.length < 1 ∧
    [record 1, record 2] = [record 1] ++ [record 2] ∧ [record 2] ≠ [] ∧
    (∃ r, (selling (sale790 .issuing 800)).sales.sale = some r ∧ r.stage = .issuing) :=
  ⟨run_serving, rfl, by decide, rfl, by decide, ⟨_, rfl, rfl⟩⟩

theorem wit_Steps : step (selling (sale790 .paying 0)) = .next (selling (sale790 .paying 0)) ∧
    (selling (sale790 .paying 0)).sales.sale ≠ none ∧
    ({ run with pending := [.attemptStart] } : State).pending = [.attemptStart] ∧
    step { run with pending := [.attemptStart] } = .next run ∧
    ({ State.reset with overlay := ⟨[3], true⟩ } : State).overlay.frozen = true := ⟨rfl, by decide, rfl, rfl, rfl⟩

/-- A station with an own claim on a call of its table, whose sale is CLAIMING. -/
theorem wit_ClaimsStep : CallsOk claiming ∧ ClaimsOk claiming ∧
    (∀ x ∈ claiming.claims, x.origin = claiming.setup.straps.station → x.seq ≠ claiming.line.seqCounter) ∧
    step { claiming with pending := [.completion] } = .next (after .completion claiming) := by
  have live : OnLiveCall claiming 1762 monday := ⟨rfl, call1762, by decide⟩
  refine ⟨⟨run_callsOk.calls, run_callsOk.services, rfl, run_callsOk.timed, fun h => by cases h⟩,
    ⟨by simp [claiming], ?_, ?_⟩, by decide, rfl⟩
  · intro x h
    rw [List.mem_singleton.mp h]
    exact live
  · intro r x h _ space
    cases h
    cases space
    exact live
end Sys2Proof.Tests
end

