-- ==== Sys2Proof/Proofs/LoadAbandon.lean ====
section
/-! SUPPORT. LOAD_ABANDON (R106): the kinds a number names, what the Edition Store answers, and the settled statement. -/

namespace Sys2Proof.Machine

/-! ### The kind a number names (R188) -/

@[simp] theorem tableKindOf_code (kind : TableKind) : tableKindOf kind.code = some kind := by
  cases kind <;> rfl

theorem tableKindOf_eq_none {k : Nat} (h : 1 < k) : tableKindOf k = none := by
  match k, h with
  | _ + 2, _ => rfl

/-! ### The Edition Store's part of LOAD_ABANDON -/

/-- Neither TIMETABLE nor FARE: BAD_KIND, before the loader's state is looked at. -/
theorem abandonLoad_badKind {k : Nat} (h : 1 < k) (s : State) : abandonLoad k s = (.refused .badKind, s) := by
  rw [abandonLoad, tableKindOf_eq_none h]

/-- In HOST_FILL the kind's slot is cleared; the slot update raises no notice. -/
theorem abandonLoad_hostFill {kind : TableKind} {s : State} (h : (slotOf s kind).loader = .hostFill) :
    abandonLoad kind.code s = (.ok .none, setSlot kind (slotOf s kind).cleared s) := by
  rw [abandonLoad, tableKindOf_code]
  exact if_pos h

/-- A peer pull or a staged image is out of LOAD_ABANDON's reach. -/
theorem abandonLoad_noLoad {kind : TableKind} {s : State} (h : (slotOf s kind).loader ≠ .hostFill) :
    abandonLoad kind.code s = (.refused .noLoad, s) := by
  rw [abandonLoad, tableKindOf_code]
  exact if_neg h

/-! ### The command -/

/-- In RUN the Edition Store's answer to LOAD_ABANDON is the command's result. -/
theorem exec_loadAbandon_of_serving {s : State} (serving : s.Serving) (tag : Nat) {k : Nat} {a : Answer} {t : State}
    (h : abandonLoad k s = (a, t)) : exec (.loadAbandon tag k) s = .next (t.answered 12 tag a) := by
  have taken := hostCommand_taken (gate_run (c := .loadAbandon) serving (by decide) rfl) tag (abandonLoad k)
  rw [h] at taken
  exact congrArg Host.Outcome.next taken

/-- Settles O41: the three answers of R106, each carried through the Host Link. -/
theorem loadAbandonDiscardsTheFill : Obligations.LoadAbandonDiscardsTheFill := by
  intro tag k kind s serving
  refine ⟨fun badKind => exec_loadAbandon_of_serving serving tag (abandonLoad_badKind badKind s), fun named => ?_⟩
  obtain rfl : k = kind.code := named
  constructor
  · intro notFilling
    exact exec_loadAbandon_of_serving serving tag (abandonLoad_noLoad notFilling)
  · intro filling
    exact exec_loadAbandon_of_serving serving tag (abandonLoad_hostFill filling)

end Sys2Proof.Machine
end

