-- ==== Sys2Proof/Proofs/SaleCreditAndJournal.lean ====
section
/-! SUPPORT. SALE_CREDIT (R138) with the entry to ISSUING (R139), and the journal commands (R146): what the Sale Unit answers
case by case, and the settled statements. -/

namespace Sys2Proof.Machine

/-! ### A sale or journal command on a SELLS station in RUN -/

/-- What a block answers is the command's result, once the station's role and start-up state let the command through. -/
theorem hostCommand_of_selling {c : Command} {s : State} (serving : s.Serving) (sells : s.setup.straps.sells = true)
    (inRun : c.acceptance ≠ .setupOnly) (role : c.role = .sells) (tag : Nat) {body : State → Answer × State} {a : Answer}
    {t : State} (h : body s = (a, t)) : hostCommand c tag true body s = t.answered c.code tag a := by
  rw [hostCommand_taken (gate_sells serving inRun role sells), h]

section selling
variable {s t : State} {a : Answer} (serving : s.Serving) (sells : s.setup.straps.sells = true) (tag : Nat) {n : Nat}
include serving sells

theorem exec_saleCredit_of_selling (h : saleCredit n s = (a, t)) :
    exec (.saleCredit tag n) s = .next (t.answered 22 tag a) :=
  congrArg Host.Outcome.next (hostCommand_of_selling (c := .saleCredit) serving sells (by decide) rfl tag h)

theorem exec_journalRead_of_selling (h : journalRead n s = (a, t)) :
    exec (.journalRead tag n) s = .next (t.answered 26 tag a) :=
  congrArg Host.Outcome.next (hostCommand_of_selling (c := .journalRead) serving sells (by decide) rfl tag h)

theorem exec_journalRelease_of_selling (h : journalRelease n s = (a, t)) :
    exec (.journalRelease tag n) s = .next (t.answered 27 tag a) :=
  congrArg Host.Outcome.next (hostCommand_of_selling (c := .journalRelease) serving sells (by decide) rfl tag h)

end selling

/-! ### Entry to ISSUING (R139) -/

/-- The notices of the entry leave the Sale Unit alone, JOURNAL_FULL or not. -/
theorem enterIssuing_sales (r : SaleRecord) (s : State) : (enterIssuing r s).sales =
    { sale := some { r with stage := .issuing, change := r.credit - r.quote.quote, refund := 0
                            serial := some (own s * 1000000 + s.sales.serialCounter), lifetime := none, payment := none }
      serialCounter := s.sales.serialCounter + 1
      journal := s.sales.journal ++ [journalRecordOf r (own s * 1000000 + s.sales.serialCounter) s.clock] } := by
  simp only [enterIssuing]
  split <;> rfl

/-- Short of the 64th record, TICKET_READY is the one notice. -/
theorem enterIssuing_of_roomLeft (r : SaleRecord) {s : State} (h : s.sales.journal.length ≠ 63) :
    enterIssuing r s = raise (.ticketReady (own s * 1000000 + s.sales.serialCounter) r.quote.product r.quote.quote r.credit
      (r.credit - r.quote.quote)) (s.withSales (enterIssuing r s).sales) := by
  rw [enterIssuing_sales]
  exact if_neg (by simpa [Config.journalCapacity] using h)

/-- With the 64th record JOURNAL_FULL follows. -/
theorem enterIssuing_of_lastRoom (r : SaleRecord) {s : State} (h : s.sales.journal.length = 63) :
    enterIssuing r s = raise .journalFull (raise (.ticketReady (own s * 1000000 + s.sales.serialCounter) r.quote.product
      r.quote.quote r.credit (r.credit - r.quote.quote)) (s.withSales (enterIssuing r s).sales)) := by
  rw [enterIssuing_sales]
  exact if_pos (by simp [Config.journalCapacity, h])

/-- The model's entry to ISSUING, with the hold ended, is the one the statements describe. -/
theorem enterIssuing_issued (r : SaleRecord) (credit : Nat) (s : State) :
    Issued s (enterIssuing { r with credit := credit, hold := .none } s) r credit (own s * 1000000 + s.sales.serialCounter)
      (credit - r.quote.quote) where
  numbered := rfl
  returned := rfl
  sales := enterIssuing_sales _ s
  ready := enterIssuing_of_roomLeft _
  full := enterIssuing_of_lastRoom _

/-! ### SALE_CREDIT (R138) -/

theorem payingSale_eq_none {s : State} (h : ∀ r, s.sales.sale = some r → r.stage ≠ .paying) : payingSale s = none := by
  unfold payingSale
  split
  next r sale => exact if_neg (h r sale)
  next => rfl

theorem payingSale_eq_some {s : State} {r : SaleRecord} (sale : s.sales.sale = some r) (paying : r.stage = .paying) :
    payingSale s = some r := by
  rw [payingSale, sale]
  exact if_pos paying

theorem saleCredit_notPaying {s : State} (h : payingSale s = none) (n : Nat) :
    saleCredit n s = (.refused .notPaying, s) := by
  rw [saleCredit, h]

theorem saleCredit_badAmount {s : State} {r : SaleRecord} (h : payingSale s = some r) {n : Nat} (bad : n = 0 ∨ 99999 < n) :
    saleCredit n s = (.refused .badAmount, s) := by
  rw [saleCredit, h]
  exact if_pos (by simpa using bad)

theorem saleCredit_taken {s : State} {r : SaleRecord} (h : payingSale s = some r) {n : Nat} (low : 1 ≤ n) (high : n ≤ 99999) :
    saleCredit n s = takeCredit r n s := by
  rw [saleCredit, h]
  exact if_neg (by simp; omega)

/-- Below the quote the payment timer starts again with 120 s. -/
theorem takeCredit_below {r : SaleRecord} {n : Nat} (h : r.credit + n < r.quote.quote) (s : State) :
    takeCredit r n s = (.ok (.credit (r.credit + n) (r.quote.quote - (r.credit + n))),
      setSale (some { r with credit := r.credit + n, hold := .none, payment := some ⟨s.clock.tick, 1200⟩ }) s) :=
  if_pos h

/-- A met quote issues at once, with the serial the counter stood at before the issue. -/
theorem takeCredit_meets {r : SaleRecord} {n : Nat} (h : r.quote.quote ≤ r.credit + n) (s : State) :
    takeCredit r n s = (.ok (.creditIssued (r.credit + n) (r.credit + n - r.quote.quote)
      (own s * 1000000 + s.sales.serialCounter)), enterIssuing { r with credit := r.credit + n, hold := .none } s) :=
  if_neg (Nat.not_lt.mpr h)

/-- Settles O46: the refusals in the order of R138, then the credit taken below the quote or at it. -/
theorem saleCreditPaysTheQuote : Obligations.SaleCreditPaysTheQuote := by
  intro tag n s serving sells
  have result {a t} (h : saleCredit n s = (a, t)) := exec_saleCredit_of_selling serving sells tag h
  refine ⟨fun notPaying => result (saleCredit_notPaying (payingSale_eq_none notPaying) n), fun r sale paying => ?_⟩
  have isPaying : payingSale s = some r := payingSale_eq_some sale paying
  refine ⟨fun bad => result (saleCredit_badAmount isPaying bad), fun low high => ?_⟩
  have taken : saleCredit n s = takeCredit r n s := saleCredit_taken isPaying low high
  constructor
  · intro below
    exact result (taken.trans (takeCredit_below below s))
  · intro meets
    exact ⟨_, _, _, enterIssuing_issued r (r.credit + n) s, result (taken.trans (takeCredit_meets meets s))⟩

/-! ### The journal (R146) -/

theorem issuing_iff {s : State} : issuing s = true ↔ ∃ r, s.sales.sale = some r ∧ r.stage = .issuing := by
  unfold issuing
  cases s.sales.sale <;> simp

theorem journalRelease_badCount {s : State} {n : Nat} (h : s.sales.journal.length < n) :
    journalRelease n s = (.refused .badCount, s) :=
  if_pos h

/-- The newest record is the one of the sale being issued, so it is the whole journal's release that is refused. -/
theorem journalRelease_inIssue {s : State} (h : issuing s = true) :
    journalRelease s.sales.journal.length s = (.refused .inIssue, s) := by
  simp [journalRelease, h]

/-- The records before a cut go, and those after it stay, when some stay or no sale is being issued. -/
theorem journalRelease_removes {s : State} {old rest : List JournalRecord} (cut : s.sales.journal = old ++ rest)
    (free : rest ≠ [] ∨ ¬ issuing s = true) : journalRelease old.length s =
      (.ok (.journalCount rest.length), s.withSales { s.sales with journal := rest }) := by
  have inCount : ¬ s.sales.journal.length < old.length := by simp [cut]
  have notInIssue : ¬ (issuing s && decide (old.length = s.sales.journal.length)) = true := by
    rw [Bool.and_eq_true, decide_eq_true_iff, cut, List.length_append, Nat.left_eq_add, List.length_eq_zero_iff]
    exact fun ⟨sale, empty⟩ => free.elim (· empty) (· sale)
  rw [journalRelease, if_neg inCount, if_neg notInIssue, cut, List.length_append, Nat.add_sub_cancel_left,
    List.drop_left]

/-- Settles O49: the read's window by the lemmas on drop and take, the release by its two refusals and the cut. -/
theorem journalReadAndRelease : Obligations.JournalReadAndRelease := by
  intro tag n s serving sells
  have release {a t} (h : journalRelease n s = (a, t)) := exec_journalRelease_of_selling serving sells tag h
  refine ⟨⟨(s.sales.journal.drop n).take 4, exec_journalRead_of_selling serving sells tag rfl, ?_, ?_⟩,
    fun tooMany => release (journalRelease_badCount tooMany), ?_, ?_⟩
  · rw [List.length_take, List.length_drop]
  · intro k j read
    rw [List.getElem?_take, List.getElem?_drop] at read
    exact (Option.ite_none_right_eq_some.mp read).2
  · rintro rfl inIssue
    exact release (journalRelease_inIssue (issuing_iff.mpr inIssue))
  · rintro old rest cut rfl free
    have noIssue : (∀ r, s.sales.sale = some r → r.stage ≠ .issuing) → ¬ issuing s = true := fun idle issued =>
      let ⟨r, sale, stage⟩ := issuing_iff.mp issued
      idle r sale stage
    exact release (journalRelease_removes cut (free.imp_right noIssue))

end Sys2Proof.Machine
end

