-- ==== Sys2Proof/Proofs/Keeping.lean ====
section
/-! SUPPORT. Beyond `Moves` and `Inner`: which operations keep the Call Table, the Claim List, the peer table with the watch view,
and the money of the Sale Unit. `Keeps` is said of the inner blocks' operations, `Lawful` of every shared operation. -/

namespace Sys2Proof.Machine

/-! ### The two relations -/

/-- What an operation of the inner blocks keeps beyond `Inner`: the watch view, the Call Table and the Claim List. -/
structure Keeps (s t : State) : Prop extends Inner s t where
  watch : t.calls.watch = s.calls.watch
  table : CallsOk s → CallsOk t
  live : CallsOk s → ClaimsOk s → ClaimsOk t

/-- What every shared operation keeps beyond `Moves`. -/
structure Lawful (s t : State) : Prop extends Moves s t where
  peers : PeersOk s → PeersOk t
  money : MoneyOk s → MoneyOk t
  table : CallsOk s → CallsOk t
  live : CallsOk s → ClaimsOk s → ClaimsOk t

theorem Keeps.refl (s : State) : Keeps s s := { Inner.refl s with watch := rfl, table := id, live := fun _ => id }

theorem Keeps.trans {s t u : State} (a : Keeps s t) (b : Keeps t u) : Keeps s u :=
  { a.toInner.trans b.toInner with
    watch := b.watch.trans a.watch, table := b.table ∘ a.table, live := fun c h => b.live (a.table c) (a.live c h) }

theorem Keeps.ite {s t u : State} {c : Prop} [Decidable c] (a : c → Keeps s t) (b : ¬c → Keeps s u) :
    Keeps s (if c then t else u) := by
  split
  · exact a ‹_›
  · exact b ‹_›

theorem Keeps.foldl {α : Type} {f : State → α → State} (h : ∀ s a, Keeps s (f s a)) (xs : List α) (s : State) :
    Keeps s (xs.foldl f s) := by
  induction xs generalizing s with
  | nil => exact .refl s
  | cons x xs ih => exact (h s x).trans (ih (f s x))

theorem Lawful.refl (s : State) : Lawful s s :=
  { Moves.refl s with peers := id, money := id, table := id, live := fun _ => id }

theorem Lawful.trans {s t u : State} (a : Lawful s t) (b : Lawful t u) : Lawful s u :=
  { a.toMoves.trans b.toMoves with
    peers := b.peers ∘ a.peers, money := b.money ∘ a.money, table := b.table ∘ a.table
    live := fun c h => b.live (a.table c) (a.live c h) }

theorem Lawful.ite {s t u : State} {c : Prop} [Decidable c] (a : c → Lawful s t) (b : ¬c → Lawful s u) :
    Lawful s (if c then t else u) := by
  split
  · exact a ‹_›
  · exact b ‹_›

/-! ### What the four laws read -/

theorem PeersOk.congr {s t : State} (h : PeersOk s) (setup : t.setup = s.setup) (treadles : t.treadles = s.treadles)
    (peers : t.line.peers = s.line.peers) (watch : t.calls.watch = s.calls.watch) : PeersOk t :=
  ⟨by rw [peers, setup]; exact h.entries, by rw [setup, watch, treadles, peers]; exact h.watch⟩

theorem CallsOk.congr {s t : State} (h : CallsOk s) (setup : t.setup = s.setup) (clock : t.clock = s.clock)
    (calls : t.calls.calls = s.calls.calls) (date : t.calls.date = s.calls.date) : CallsOk t :=
  ⟨by rw [calls, setup]; exact h.calls, by rw [calls]; exact h.services, by rw [date, clock]; exact h.date,
    by rw [calls, clock]; exact h.timed, by rw [setup, calls, clock]; exact h.setup⟩

/-- The money laws hold of a Sale Unit left as it is, or with its sale closed. -/
theorem MoneyOk.closed {s t : State} (h : MoneyOk s) (setup : t.setup = s.setup)
    (sales : t.sales = s.sales ∨ t.sales = { s.sales with sale := none }) : MoneyOk t := by
  rcases sales with e | e
  · exact ⟨by rw [e]; exact h.before, by rw [e]; exact h.paying, by rw [e]; exact h.issuing, by rw [e]; exact h.rising,
      by rw [e, setup]; exact h.numbered, by rw [e]; exact h.void⟩
  · exact ⟨by simp [e], by simp [e], by simp [e], by rw [e]; exact h.rising, by rw [e, setup]; exact h.numbered,
      by rw [e]; exact h.void⟩

/-- What the Claim List's laws read of a claim: its key and its call. -/
def Claim.tag (c : Claim) : (Nat × Nat) × (Nat × Date) := ((c.origin, c.seq), (c.service, c.date))

/-- No claim is new: of the claims' keys and calls some may have gone. -/
def Thins (s t : State) : Prop := (t.claims.map Claim.tag).Sublist (s.claims.map Claim.tag)

theorem Thins.trans {s t u : State} (a : Thins s t) (b : Thins t u) : Thins s u := List.Sublist.trans b a

theorem Thins.of_eq {s t : State} (e : t.claims = s.claims) : Thins s t := by rw [Thins, e]

theorem Thins.ite {s t u : State} {c : Prop} [Decidable c] (a : Thins s t) (b : Thins s u) : Thins s (if c then t else u) := by
  split
  · exact a
  · exact b

theorem OnLive_congr {s t : State} (calls : t.calls.calls = s.calls.calls) (date : t.calls.date = s.calls.date) {n : Nat}
    {d : Date} : OnLiveCall t n d ↔ OnLiveCall s n d := by rw [OnLiveCall, OnLiveCall, calls, date]

theorem keys_iff (l : List Claim) : l.Pairwise (fun a b => ¬(a.origin = b.origin ∧ a.seq = b.seq)) ↔
    (l.map Claim.tag).Pairwise (fun a b => a.1 ≠ b.1) := by
  simp [List.pairwise_map, Claim.tag]

theorem Thins.mem {s t : State} (h : Thins s t) {x : Claim} (hx : x ∈ t.claims) :
    ∃ y ∈ s.claims, y.service = x.service ∧ y.date = x.date := by
  obtain ⟨y, hy, e⟩ := List.mem_map.1 (h.subset (List.mem_map_of_mem hx))
  simp only [Claim.tag, Prod.mk.injEq] at e
  exact ⟨y, hy, e.2⟩

/-- Claims thinned out and a sale that stays or is closed keep the Claim List's laws, the Call Table standing. -/
theorem ClaimsOk.thinned {s t : State} (h : ClaimsOk s) (calls : t.calls.calls = s.calls.calls)
    (date : t.calls.date = s.calls.date) (thin : Thins s t)
    (sales : t.sales = s.sales ∨ t.sales = { s.sales with sale := none }) : ClaimsOk t where
  keys := (keys_iff _).2 (((keys_iff _).1 h.keys).sublist thin)
  live x hx := by
    obtain ⟨y, hy, hs, hd⟩ := thin.mem hx
    exact hs ▸ hd ▸ (OnLive_congr calls date).2 (h.live y hy)
  sale r x hr hst hx := by
    rcases sales with e | e
    · exact (OnLive_congr calls date).2 (h.sale r x (e ▸ hr) hst hx)
    · simp [e] at hr

theorem Inner.money {s t : State} (m : Inner s t) (h : MoneyOk s) : MoneyOk t := h.closed m.setup m.sales

theorem Keeps.lawful {s t : State} (k : Keeps s t) : Lawful s t :=
  { k.toMoves with
    peers := fun h => h.congr k.setup k.treadles k.peers k.watch
    money := k.money, table := k.table, live := k.live }

/-! ### Operations that leave the Call Table alone -/

/-- An inner operation that leaves the Call Table alone and thins the Claim List out. -/
theorem Inner.keeps {s t : State} (m : Inner s t) (calls : t.calls = s.calls) (thin : Thins s t) : Keeps s t :=
  { m with
    watch := by rw [calls]
    table := fun h => h.congr m.setup m.clock (by rw [calls]) (by rw [calls])
    live := fun _ h => h.thinned (by rw [calls]) (by rw [calls]) thin m.sales }

theorem OnBoard.keeps {s t : State} (o : OnBoard s t) (m : Inner s t) : Keeps s t := by
  obtain ⟨_, _, _, rfl⟩ := o
  exact m.keeps rfl (.of_eq rfl)

theorem OnLine.keeps {s t : State} (o : OnLine s t) (m : Inner s t) : Keeps s t := by
  obtain ⟨_, _, rfl⟩ := o
  exact m.keeps rfl (.of_eq rfl)

theorem OnSale.keeps {s t : State} (o : OnSale s t) (m : Inner s t) (thin : Thins s t) : Keeps s t := by
  obtain ⟨_, _, _, _, _, rfl⟩ := o
  exact m.keeps rfl thin

/-- A shared operation that touches none of what the four laws read. -/
theorem Moves.lawful {s t : State} (m : Moves s t) (calls : t.calls = s.calls) (claims : t.claims = s.claims)
    (sales : t.sales = s.sales) (treadles : t.treadles = s.treadles) (peers : t.line.peers = s.line.peers) : Lawful s t :=
  { m with
    peers := fun h => h.congr m.setup treadles peers (by rw [calls])
    money := fun h => h.closed m.setup (.inl sales)
    table := fun h => h.congr m.setup m.clock (by rw [calls]) (by rw [calls])
    live := fun _ h => h.thinned (by rw [calls]) (by rw [calls]) (.of_eq claims) (.inl sales) }

theorem OnBoard.lawful {s t : State} (o : OnBoard s t) (m : Moves s t) : Lawful s t := by
  obtain ⟨_, _, _, rfl⟩ := o
  exact m.lawful rfl rfl rfl rfl rfl

theorem OnLine.lawful {s t : State} (o : OnLine s t) (m : Moves s t) (peers : t.line.peers = s.line.peers) : Lawful s t := by
  obtain ⟨_, _, rfl⟩ := o
  exact m.lawful rfl rfl rfl rfl peers

/-! ### The board, the bulletins and the notices -/

theorem raise_keeps (c : NoticeContent) (s : State) : Keeps s (raise c s) := OnBoard.keeps ⟨_, _, _, rfl⟩ (raise_inner c s)

theorem compose_keeps (s : State) : Keeps s (compose s) := (compose_onBoard s).keeps (compose_inner s)

theorem raiseWarning_keeps (d : Direction) (s : State) : Keeps s (raiseWarning d s) := by
  refine OnBoard.keeps ?_ (raiseWarning_inner d s)
  unfold raiseWarning
  split
  · exact OnBoard.trans ⟨_, _, _, rfl⟩ (compose_onBoard _)
  · exact .refl s

theorem clearWarning_keeps (d : Direction) (s : State) : Keeps s (clearWarning d s) := by
  refine OnBoard.keeps ?_ (clearWarning_inner d s)
  unfold clearWarning
  split
  · exact OnBoard.trans ⟨_, _, _, rfl⟩ (compose_onBoard _)
  · exact .refl s

theorem secondsToLists_keeps (s : State) : Keeps s (secondsToLists s) := (secondsToLists_onBoard s).keeps (secondsToLists_inner s)

theorem takeBulletin_keeps (origin : Nat) (f : BulletinFields) (s : State) : Keeps s (takeBulletin origin f s) :=
  (takeBulletin_onBoard origin f s).keeps (takeBulletin_inner origin f s)

/-! ### The line and the store -/

theorem hand_keeps (p : Payload) (s : State) : Keeps s (hand p s) := (hand_onLine p s).keeps (hand_inner p s)

theorem handOver_keeps (p : Payload) (s : State) : Keeps s (handOver p s).2 := (handOver_onLine p s).keeps (handOver_inner p s)

theorem segReqLost_keeps (k : TableKind) (n : Nat) (s : State) : Keeps s (segReqLost k n s) :=
  (segReqLost_onLine k n s).keeps (segReqLost_inner k n s)

theorem requestExpired_keeps (k : TableKind) (s : State) : Keeps s (requestExpired k s) :=
  (requestExpired_onLine k s).keeps (requestExpired_inner k s)

theorem requestSegment_keeps (n : Nat) (k : TableKind) (p : Pull) (s : State) : Keeps s (requestSegment n k p s) :=
  (requestSegment_onLine n k p s).keeps (requestSegment_inner n k p s)

theorem resendReports_keeps (s : State) : Keeps s (resendReports s) := (handAll_onLine _ s).keeps (resendReports_inner s)

theorem abandonPull_keeps (k : TableKind) (s : State) : Keeps s (abandonPull k s) :=
  (setSlot_onLine k _ s).keeps (abandonPull_inner k s)

theorem abandonPullsFrom_keeps (n : Nat) (s : State) : Keeps s (abandonPullsFrom n s) := by
  have one : ∀ k t, Keeps t (abandonPullFrom n k t) := fun k t => by
    unfold abandonPullFrom
    split
    · exact Keeps.ite (fun _ => abandonPull_keeps k t) (fun _ => .refl t)
    · exact .refl t
  exact (one .timetable s).trans (one .fare _)

theorem segReqCompleted_keeps (k : TableKind) (n : Nat) (s : State) : Keeps s (segReqCompleted k n s) := by
  refine OnLine.keeps ?_ (segReqCompleted_inner k n s)
  unfold segReqCompleted
  split
  · exact OnLine.ite (setSlot_onLine _ _ s) (.refl s)
  · exact .refl s

theorem startPullWait_onLine (k : TableKind) (s : State) : OnLine s (startPullWait k s) :=
  (draw_onLine 21 s).trans (setSlot_onLine k _ _)

theorem considerOffer_keeps (k : TableKind) (e : Nat) (s : State) : Keeps s (considerOffer k e s) := by
  refine OnLine.keeps ?_ (considerOffer_inner k e s)
  simp only [considerOffer]
  refine OnLine.ite ?_ (.refl s)
  split
  · exact OnLine.ite (startPullWait_onLine k s) (.refl s)
  · exact OnLine.ite ((setSlot_onLine k _ s).trans (startPullWait_onLine k _)) (.refl s)
  · exact .refl s
  · exact .refl s

theorem beginPull_keeps (k : TableKind) (s : State) : Keeps s (beginPull k s) := by
  refine OnLine.keeps ?_ (beginPull_inner k s)
  simp only [beginPull]
  split
  · exact setSlot_onLine k _ s
  · exact (setSlot_onLine k _ s).trans ((setSlot_onLine k _ _).trans (requestSegment_onLine _ _ _ _))

/-! ### Claims and the sale -/

theorem filterClaims_thins (f : Claim → Bool) (s : State) : Thins s (s.withClaims (s.claims.filter f)) :=
  List.filter_sublist.map _

theorem removeClaim_thins (origin seq : Nat) (s : State) : Thins s (removeClaim origin seq s) := filterClaims_thins _ s

theorem updateClaim_thins (origin seq : Nat) {f : Claim → Claim} (h : ∀ c, (f c).tag = c.tag) (s : State) :
    Thins s (updateClaim origin seq f s) := by
  have e : (updateClaim origin seq f s).claims.map Claim.tag = s.claims.map Claim.tag := by
    simp only [updateClaim, State.withClaims_claims, List.map_map]
    refine List.map_congr_left fun c _ => ?_
    simp only [Function.comp]
    split
    · exact h c
    · rfl
  rw [Thins, e]

theorem OnLine.thins {s t : State} (o : OnLine s t) : Thins s t := by
  obtain ⟨_, _, rfl⟩ := o
  exact .of_eq rfl

theorem closeClaim_thins (issued : Bool) (seq : Nat) (s : State) : Thins s (closeClaim issued seq s) := by
  unfold closeClaim
  split
  · exact .of_eq rfl
  · split
    · exact (updateClaim_thins _ _ (f := fun x => { x with state := .taken }) (fun _ => rfl) s).trans (hand_onLine _ _).thins
    · exact (removeClaim_thins _ _ s).trans (hand_onLine _ _).thins
    · exact (withdrawClaim_onLine _ s).thins.trans (removeClaim_thins _ _ _)
    · exact .of_eq rfl

theorem activateFare_claims (s : State) : (activateFare s).claims = s.claims := by
  unfold activateFare
  split <;> rfl

theorem closeSale_thins (reason : Reason) (issued : Bool) (r : SaleRecord) (s : State) : Thins s (closeSale reason issued r s) := by
  have rest : ∀ (c : NoticeContent) (t : State), Thins s t → Thins s (activateFare (setSale none (raise c t))) :=
    fun c t h => h.trans (.of_eq (activateFare_claims _))
  unfold closeSale
  cases r.claim with
  | none => exact rest _ s (.of_eq rfl)
  | some seq => exact rest _ _ (closeClaim_thins issued seq s)

theorem abortSale_thins (reason : Reason) (s : State) : Thins s (abortSale reason s) := by
  unfold abortSale
  split
  · exact Thins.ite (.of_eq rfl) (closeSale_thins _ _ _ _)
  · exact .of_eq rfl

theorem dropQueued_thins (seq : Nat) (s : State) : Thins s (dropQueued seq s) := by
  unfold dropQueued
  split
  · exact Thins.ite (removeClaim_thins _ _ s) (.of_eq rfl)
  · exact .of_eq rfl

theorem failClaim_thins (reason : Reason) (seq : Nat) (s : State) : Thins s (failClaim reason seq s) := by
  unfold failClaim
  split
  · exact (dropQueued_thins _ s).trans (abortSale_thins _ _)
  · exact dropQueued_thins _ s

theorem withdrawalTest_thins (s : State) : Thins s (withdrawalTest s) := by
  unfold withdrawalTest
  split
  · exact Thins.ite (Thins.ite ((withdrawClaim_onLine _ s).thins.trans (failClaim_thins _ _ _)) (.of_eq rfl)) (.of_eq rfl)
  · exact .of_eq rfl

theorem saleCallEnded_thins (n : Nat) (s : State) : Thins s (saleCallEnded n s) := Thins.ite (abortSale_thins _ s) (.of_eq rfl)

theorem removeCallClaims_thins (n : Nat) (releases : Bool) (s : State) : Thins s (removeCallClaims n releases s) := by
  simp only [removeCallClaims]
  exact Thins.ite ((filterClaims_thins _ s).trans (releaseOwn_onLine _ _).thins) (filterClaims_thins _ s)

theorem callEnded_thins (c : Call) (s : State) : Thins s (callEnded c s) :=
  (saleCallEnded_thins _ s).trans (removeCallClaims_thins _ _ _)

theorem saleAfterBuild_thins (s : State) : Thins s (saleAfterBuild s) := by
  unfold saleAfterBuild
  split
  · split
    · split
      · exact abortSale_thins _ s
      · exact Thins.ite (.of_eq rfl) (abortSale_thins _ s)
    · exact .of_eq rfl
  · exact .of_eq rfl

theorem removeClaim_keeps (origin seq : Nat) (s : State) : Keeps s (removeClaim origin seq s) :=
  (removeClaim_inner origin seq s).keeps rfl (removeClaim_thins origin seq s)

theorem updateClaim_keeps (origin seq : Nat) {f : Claim → Claim} (h : ∀ c, (f c).tag = c.tag) (s : State) :
    Keeps s (updateClaim origin seq f s) := (updateClaim_inner origin seq f s).keeps rfl (updateClaim_thins origin seq h s)

theorem activateFare_keeps (s : State) : Keeps s (activateFare s) :=
  (activateFare_onSale s).keeps (activateFare_inner s) (.of_eq (activateFare_claims s))

theorem closeSale_keeps (reason : Reason) (issued : Bool) (r : SaleRecord) (s : State) : Keeps s (closeSale reason issued r s) :=
  (closeSale_onSale _ _ _ s).keeps (closeSale_inner _ _ _ s) (closeSale_thins _ _ _ s)

theorem abortSale_keeps (reason : Reason) (s : State) : Keeps s (abortSale reason s) :=
  (abortSale_onSale _ s).keeps (abortSale_inner _ s) (abortSale_thins _ s)

theorem failClaim_keeps (reason : Reason) (seq : Nat) (s : State) : Keeps s (failClaim reason seq s) :=
  (failClaim_onSale _ _ s).keeps (failClaim_inner _ _ s) (failClaim_thins _ _ s)

theorem withdrawalTest_keeps (s : State) : Keeps s (withdrawalTest s) :=
  (withdrawalTest_onSale s).keeps (withdrawalTest_inner s) (withdrawalTest_thins s)

theorem tellAbandoned_keeps (f : TxFrame) (s : State) : Keeps s (tellAbandoned f s) := by
  unfold tellAbandoned
  split
  · exact failClaim_keeps _ _ s
  · exact segReqLost_keeps _ _ s
  · exact .refl s

/-! ### The current frame -/

theorem dropCurrent_keeps (s : State) : Keeps s (dropCurrent s) := OnLine.keeps ⟨_, _, rfl⟩ (dropCurrent_inner s)

theorem startAttempt_keeps (s : State) : Keeps s (startAttempt s) := by
  refine OnLine.keeps ?_ (startAttempt_inner s)
  unfold startAttempt
  split
  · exact ⟨_, _, rfl⟩
  · exact .refl s

theorem endBackoff_keeps (s : State) : Keeps s (endBackoff s) := by
  refine OnLine.keeps ?_ (endBackoff_inner s)
  unfold endBackoff
  split
  · exact ⟨_, _, rfl⟩
  · exact .refl s

theorem attemptFailed_keeps {f g : TxFrame} {q : List TxFrame} (why : LineFailure) (s : State) (h : s.line.queue = f :: q)
    (k : g.payload.key = f.payload.key) : Keeps s (attemptFailed g why s) := by
  refine Keeps.ite (fun _ => ?_) (fun _ => ?_)
  · exact OnLine.keeps ((draw_onLine _ s).trans ⟨_, _, rfl⟩) (backOff_inner s h k)
  · exact (dropCurrent_keeps s).trans ((raise_keeps _ _).trans (tellAbandoned_keeps _ _))

theorem collide_keeps (s : State) : Keeps s (collide s) := by
  unfold collide
  split
  · rename_i h
    exact attemptFailed_keeps _ s h rfl
  · exact .refl s

theorem busyFail_keeps (s : State) : Keeps s (busyFail s) := by
  unfold busyFail
  split
  · rename_i h
    exact Keeps.ite (fun _ => attemptFailed_keeps _ s h rfl) (fun _ => .refl s)
  · exact .refl s

end Sys2Proof.Machine
end

