-- ==== Sys2Proof/Proofs/CallChanges.lean ====
section
/-! SUPPORT. The bounds of a call's times through the prediction arithmetic (R43 to R48), and the Call Table and Claim List through
the changes of a call (R22 to R29, R31, R42, R49 to R52) and of the watch view (R21). -/

namespace Sys2Proof.Machine

/-! ### The bounds of a call's times -/

theorem CallOk.congr {m : Nat} {c d : Call} (h : CallOk m c) (a : d.schedArr = c.schedArr) (b : d.schedDep = c.schedDep)
    (k : d.kind = c.kind) (r : d.report = c.report) (e : d.estimates = c.estimates) : CallOk m d :=
  ⟨by rw [a, b]; exact h.scheduled, by rw [r]; exact h.report, by rw [a, e]; exact h.base,
    by rw [a, b, k, e]; exact h.stop, by rw [k, e]; exact h.pass⟩

/-- A call given an E_a not before S_a − 900 keeps its bounds, E_d being computed from it (R47). -/
theorem CallOk.setArrival {m : Nat} {c : Call} (sched : c.schedArr ≤ c.schedDep ∧ c.schedArr ≤ 86399)
    (report : ∀ r, c.report = some r → -900 ≤ r.lateness ∧ r.lateness ≤ 21600) {e : Estimates} {arr : Nat} (creep : Nat)
    (base : c.schedArr ≤ e.base + 900) (bound : c.schedArr ≤ arr + 900) : CallOk m (c.setArrival m e arr creep) := by
  refine ⟨sched, report, fun x hx => ?_, fun x hx k => ?_, fun x hx k => ?_⟩
  all_goals simp only [Call.setArrival, Option.some.injEq] at hx ⊢; subst hx
  · exact ⟨base, bound⟩
  · have stop : c.kind = .stop := k
    simp only [expectedDeparture, stop]
    exact ⟨le_max_left _ _, le_max_right _ _⟩
  · have pass : c.kind = .pass := k
    simp only [expectedDeparture, pass]

theorem le_clampArrival {a x : Nat} (h : a ≤ 86399) (bound : a ≤ x + 900) : a ≤ clampNat 0 108000 x + 900 := by
  unfold clampNat
  split <;> [omega; split <;> omega]

theorem le_propagatedLateness {l : Int} (h : -900 ≤ l) (allowance : Nat) : -900 ≤ propagatedLateness l allowance := by
  unfold propagatedLateness
  split <;> [omega; split <;> omega]

/-- E_base never lies more than 900 s before S_a (R38, R43, R44). -/
theorem le_baseArrival {a : Nat} (h : a ≤ 86399) (points : List UpstreamPoint) (report : Option BestReport)
    (late : ∀ r, report = some r → -900 ≤ r.lateness ∧ r.lateness ≤ 21600) : a ≤ baseArrival a points report + 900 := by
  unfold baseArrival
  cases report with
  | none => exact le_clampArrival h (by omega)
  | some r =>
    have l := le_propagatedLateness (late r rfl).1 (pointAllowance points r.point)
    exact le_clampArrival h (by omega)

/-- A call fresh from an E_base keeps its bounds (R48). -/
theorem CallOk.fromBase {m : Nat} {c : Call} (sched : c.schedArr ≤ c.schedDep ∧ c.schedArr ≤ 86399)
    (report : ∀ r, c.report = some r → -900 ≤ r.lateness ∧ r.lateness ≤ 21600) {base : Nat} (bound : c.schedArr ≤ base + 900) :
    CallOk m (c.fromBase m base) :=
  (CallOk.setArrival sched report (e := ⟨base, base, base, 0⟩) 0 bound bound).congr rfl rfl rfl rfl rfl

/-- The value a call takes next: of the same service, timed when it was, its bounds kept. -/
structure Follows (m : Nat) (c d : Call) : Prop where
  service : d.service = c.service
  timed : d.estimates = none ↔ c.estimates = none
  ok : CallOk m c → CallOk m d

theorem Follows.refl (m : Nat) (c : Call) : Follows m c c := ⟨rfl, Iff.rfl, id⟩

theorem Follows.trans {m : Nat} {c d e : Call} (a : Follows m c d) (b : Follows m d e) : Follows m c e :=
  ⟨b.service.trans a.service, b.timed.trans a.timed, b.ok ∘ a.ok⟩

theorem Follows.ite {m : Nat} {c d e : Call} {p : Prop} [Decidable p] (a : p → Follows m c d) (b : ¬p → Follows m c e) :
    Follows m c (if p then d else e) := by
  split
  · exact a ‹_›
  · exact b ‹_›

/-- A change of state, delayed mark, source, approach record or sensed mark alone. -/
theorem Follows.of_times {m : Nat} {c d : Call} (n : d.service = c.service) (a : d.schedArr = c.schedArr)
    (b : d.schedDep = c.schedDep) (k : d.kind = c.kind) (r : d.report = c.report) (e : d.estimates = c.estimates) :
    Follows m c d := ⟨n, by rw [e], fun h => h.congr a b k r e⟩

theorem follows_setState (m : Nat) (c : Call) (x : CallState) : Follows m c { c with state := x } :=
  .of_times rfl rfl rfl rfl rfl rfl

/-- A timed call given an E_a not before its E_base. -/
theorem follows_setArrival {m : Nat} {c : Call} {e : Estimates} (timed : c.estimates = some e) {arr : Nat} (creep : Nat)
    (bound : c.schedArr ≤ e.base + 900 → c.schedArr ≤ arr + 900) : Follows m c (c.setArrival m e arr creep) :=
  ⟨rfl, by simp [Call.setArrival, timed],
    fun h => .setArrival h.scheduled h.report creep (h.base e timed).1 (bound (h.base e timed).1)⟩

/-- Stage 4 lies between E_base and E_base + 1200 (R45). -/
theorem follows_creepTo {m : Nat} (second : Nat) {c : Call} {e : Estimates} (timed : c.estimates = some e) :
    Follows m c (c.creepTo m second e) := by
  unfold Call.creepTo
  refine Follows.ite (fun _ => follows_setArrival timed _ (by omega)) (fun _ =>
    Follows.ite (fun _ => follows_setArrival timed _ id) (fun ahead =>
    Follows.ite (fun _ => follows_setArrival timed _ (by omega)) (fun _ => ?_)))
  exact (follows_setArrival timed (arr := e.base + 1200) 1200 (by omega)).trans (.of_times rfl rfl rfl rfl rfl rfl)

theorem follows_creepPhase (x : EvalContext) (c : Call) : Follows x.minDwell c (creepPhase x c) := by
  unfold creepPhase
  split
  · exact Follows.ite (fun _ => follows_creepTo _ ‹_›) (fun _ => .refl _ c)
  · exact .refl _ c

theorem follows_lapsePhase (x : EvalContext) (c : Call) : Follows x.minDwell c (lapsePhase x c) := by
  unfold lapsePhase
  split
  · exact Follows.ite (fun _ => follows_setState _ c _) (fun _ => .refl _ c)
  · exact .refl _ c

theorem follows_arrivePhase (x : EvalContext) (c : Call) : Follows x.minDwell c (arrivePhase x c) := by
  unfold arrivePhase
  split
  · exact Follows.ite (fun _ => follows_setState _ c _) (fun _ => .refl _ c)
  · exact .refl _ c

theorem follows_departPhase (x : EvalContext) (c : Call) : Follows x.minDwell c (departPhase x c) := by
  unfold departPhase
  split
  · exact Follows.ite (fun _ => follows_setState _ c _) (fun _ => .refl _ c)
  · exact .refl _ c

theorem follows_evaluated (x : EvalContext) (c : Call) : Follows x.minDwell c (evaluated x c) :=
  (((follows_creepPhase x c).trans (follows_lapsePhase x _)).trans (follows_arrivePhase x _)).trans (follows_departPhase x _)

theorem follows_unwatched (m : Nat) (c : Call) : Follows m c (c.unwatched m) := by
  unfold Call.unwatched
  split
  · next e timed =>
    exact ⟨rfl, by simp [Call.fromBase, Call.setArrival, timed],
      fun h => .fromBase h.scheduled h.report (h.base e timed).1⟩
  · exact .of_times rfl rfl rfl rfl rfl rfl

/-- A report of a lateness within its clamp keeps the bounds; a call it reaches is timed (R23 to R26). -/
theorem follows_withReport {m : Nat} {c : Call} {r : BestReport} (late : -900 ≤ r.lateness ∧ r.lateness ≤ 21600)
    (timed : c.estimates ≠ none) : Follows m c (c.withReport m r) := by
  have stored : ∀ d : Call, d.service = c.service → d.schedArr = c.schedArr → d.schedDep = c.schedDep → d.kind = c.kind →
      d.report = some r → d.estimates = c.estimates → Follows m c d := fun d n a b k e f =>
    ⟨n, by rw [f], fun h => ⟨by rw [a, b]; exact h.scheduled, by rw [e]; rintro _ ⟨⟩; exact late, by rw [a, f]; exact h.base,
      by rw [a, b, k, f]; exact h.stop, by rw [k, f]; exact h.pass⟩⟩
  have based : ∀ d : Call, d.service = c.service → d.schedArr = c.schedArr → d.schedDep = c.schedDep → d.report = some r →
      Follows m c (d.fromBase m (baseArrival c.schedArr c.points (some r))) := fun d n a b e =>
    ⟨n, by simp [Call.fromBase, Call.setArrival, timed], fun h => by
      have sched : d.schedArr ≤ d.schedDep ∧ d.schedArr ≤ 86399 := by rw [a, b]; exact h.scheduled
      have report : ∀ x, d.report = some x → -900 ≤ x.lateness ∧ x.lateness ≤ 21600 := by rw [e]; rintro _ ⟨⟩; exact late
      exact .fromBase sched report (a ▸ le_baseArrival h.scheduled.2 _ _ (by rintro _ ⟨⟩; exact late))⟩
  unfold Call.withReport
  split
  case h_1 | h_2 | h_3 =>
    exact Follows.ite (fun _ => stored _ rfl rfl rfl rfl rfl rfl) (fun _ => based _ rfl rfl rfl rfl)
  case h_4 | h_5 => exact stored _ rfl rfl rfl rfl rfl rfl
  case h_6 | h_7 => exact .refl m c

theorem bestReportOf_late (f : RunningFields) (origin : Nat) :
    -900 ≤ (bestReportOf f origin).lateness ∧ (bestReportOf f origin).lateness ≤ 21600 := by
  simp only [bestReportOf, clampLateness]
  split <;> [omega; split <;> omega]

theorem follows_withApproach (m : Nat) (c : Call) (a : ApproachRecord) : Follows m c (c.withApproach m a) := by
  unfold Call.withApproach
  split
  · refine (follows_setArrival ‹_› 0 (fun _ => ?_)).trans (.of_times rfl rfl rfl rfl rfl rfl)
    unfold approachArrival
    omega
  · exact .of_times rfl rfl rfl rfl rfl rfl

theorem follows_matched (m : Nat) (c : Call) (a : ApproachRecord) : Follows m c (c.matched m a) :=
  (follows_withApproach m c a).trans (follows_setState m _ _)

/-! ### Live calls -/

theorem CallState.over_iff (x : CallState) : x.over = false ↔ x ≠ .departed ∧ x ≠ .lapsed ∧ x ≠ .cancelled := by
  cases x <;> simp [CallState.over]

theorem onLiveCall_iff (s : State) (n : Nat) (d : Date) :
    OnLiveCall s n d ↔ d = s.calls.date ∧ ∃ c ∈ s.calls.calls, c.service = n ∧ c.state.over = false := by
  simp only [OnLiveCall, CallState.over_iff]

/-- A live call stays one when another call changes, and when it changes itself without ending. -/
theorem OnLiveCall.set {s t : State} {n : Nat} {d : Date} (h : OnLiveCall s n d) {i : Nat} {old new : Call}
    (calls : t.calls.calls = s.calls.calls.set i new) (date : t.calls.date = s.calls.date)
    (at_i : s.calls.calls[i]? = some old) (service : new.service = old.service)
    (ends : new.state.over = true → old.state.over = false → ¬(n = new.service ∧ d = s.calls.date)) : OnLiveCall t n d := by
  rw [onLiveCall_iff] at h ⊢
  obtain ⟨hd, c, hc, hn, hl⟩ := h
  rw [calls, date]
  refine ⟨hd, ?_⟩
  obtain ⟨j, hj⟩ := List.getElem?_of_mem hc
  by_cases e : i = j
  · subst e
    rw [at_i, Option.some.injEq] at hj
    subst hj
    refine ⟨new, List.mem_set (List.getElem?_eq_some_iff.1 at_i).1 new, service.trans hn, ?_⟩
    cases ended : new.state.over
    · rfl
    · exact absurd ⟨hn ▸ service.symm, hd⟩ (ends ended hl)
  · exact ⟨c, List.mem_of_getElem? (by rw [List.getElem?_set_ne e]; exact hj), hn, hl⟩

/-! ### The end of a call -/

@[simp] theorem activateFare_sales (s : State) : (activateFare s).sales = s.sales := by
  unfold activateFare
  split <;> rfl

@[simp] theorem closeSale_sale (reason : Reason) (issued : Bool) (r : SaleRecord) (s : State) :
    (closeSale reason issued r s).sales.sale = none := by
  unfold closeSale
  simp [setSale]

theorem abortSale_sale {s : State} {r : SaleRecord} (sale : s.sales.sale = some r) (stage : r.stage ≠ .issuing)
    (reason : Reason) : (abortSale reason s).sales.sale = none := by
  simp [abortSale, sale, stage]

theorem OnLine.sales {s t : State} (o : OnLine s t) : t.sales = s.sales := by
  obtain ⟨_, _, rfl⟩ := o
  rfl

theorem OnLine.claims {s t : State} (o : OnLine s t) : t.claims = s.claims := by
  obtain ⟨_, _, rfl⟩ := o
  rfl

theorem OnSale.calls {s t : State} (o : OnSale s t) : t.calls = s.calls := by
  obtain ⟨_, _, _, _, _, rfl⟩ := o
  rfl

theorem removeCallClaims_sales (n : Nat) (releases : Bool) (s : State) : (removeCallClaims n releases s).sales = s.sales := by
  simp only [removeCallClaims]
  split
  · exact (releaseOwn_onLine _ _).sales
  · rfl

/-- No claim on the call remains. -/
theorem removeCallClaims_claims (n : Nat) (releases : Bool) (s : State) : (removeCallClaims n releases s).claims =
    s.claims.filter (fun c => !(c.service = n && c.date = s.calls.date)) := by
  simp only [removeCallClaims]
  split
  · exact (releaseOwn_onLine _ _).claims
  · rfl

/-- A sale on the call that ended, unless it is ISSUING, is closed (R143). -/
theorem saleCallEnded_sale {n : Nat} {s : State} {r : SaleRecord} {x : SpaceCall}
    (sale : (saleCallEnded n s).sales.sale = some r) (stage : r.stage ≠ .issuing) (space : r.space = some x) :
    ¬(x.service = n ∧ x.date = s.calls.date) := by
  rintro ⟨hn, hd⟩
  unfold saleCallEnded at sale
  split at sale
  · next on =>
    unfold saleOnCall at on
    cases h : s.sales.sale with
    | none => simp [h] at on
    | some q =>
      by_cases st : q.stage = .issuing
      · simp only [abortSale, h, st, if_true, Option.some.injEq] at sale
        exact stage (sale ▸ st)
      · simp [abortSale_sale h st] at sale
  · next off => exact off (by simp [saleOnCall, sale, space, hn, hd])

theorem callEnded_sale {c : Call} {s : State} {r : SaleRecord} {x : SpaceCall} (sale : (callEnded c s).sales.sale = some r)
    (stage : r.stage ≠ .issuing) (space : r.space = some x) : ¬(x.service = c.service ∧ x.date = s.calls.date) :=
  saleCallEnded_sale (by rwa [callEnded, removeCallClaims_sales] at sale) stage space

theorem callEnded_claims {c : Call} {s : State} {x : Claim} (h : x ∈ (callEnded c s).claims) :
    ¬(x.service = c.service ∧ x.date = s.calls.date) := by
  rw [callEnded, removeCallClaims_claims, (saleCallEnded_onSale _ s).calls, List.mem_filter] at h
  rintro ⟨service, date⟩
  simp [service, date] at h

/-! ### A change of a call -/

theorem notifyCall_onBoard (old new : Call) (s : State) : OnBoard s (notifyCall old new s) := by
  have m : OnBoard s (if boardChange old new then compose s else s) := by
    split
    · exact compose_onBoard s
    · exact .refl s
  simp only [notifyCall]
  split
  · exact m.trans ⟨_, _, _, rfl⟩
  · exact m

theorem OnBoard.claims {s t : State} (o : OnBoard s t) : t.claims = s.claims := by
  obtain ⟨_, _, _, rfl⟩ := o
  rfl

theorem OnBoard.sales {s t : State} (o : OnBoard s t) : t.sales = s.sales := by
  obtain ⟨_, _, _, rfl⟩ := o
  rfl

/-- A call that keeps its service takes a new value: the claims on it and a sale on it go when it ends. -/
theorem commitCall_live {i : Nat} {new : Call} {s : State} (h : ClaimsOk s)
    (service : ∀ old, s.calls.calls[i]? = some old → new.service = old.service) : ClaimsOk (commitCall i new s) := by
  cases at_i : s.calls.calls[i]? with
  | none => simpa [commitCall, at_i] using h
  | some old =>
    have calls : (commitCall i new s).calls.calls = s.calls.calls.set i new := by rw [commitCall_calls]
    have date : (commitCall i new s).calls.date = s.calls.date := by rw [commitCall_calls]
    have same : Inner s (commitCall i new s) := commitCall_inner i new s
    have parts : Thins s (commitCall i new s) ∧ (new.state.over = true → old.state.over = false →
        (∀ x ∈ (commitCall i new s).claims, ¬(x.service = new.service ∧ x.date = s.calls.date)) ∧
        ∀ r x, (commitCall i new s).sales.sale = some r → r.stage ≠ .issuing → r.space = some x →
          ¬(x.service = new.service ∧ x.date = s.calls.date)) := by
      simp only [commitCall, at_i]
      rw [Thins, (notifyCall_onBoard old new _).claims, (notifyCall_onBoard old new _).sales]
      split
      · exact ⟨callEnded_thins new (setCall i new s), fun _ _ => ⟨fun x hx => callEnded_claims (s := setCall i new s) hx,
          fun r x hr hst hx => callEnded_sale (s := setCall i new s) hr hst hx⟩⟩
      · next stays => exact ⟨.refl _, fun a b => absurd (by simp [a, b]) stays⟩
    obtain ⟨thin, gone⟩ := parts
    refine ⟨(keys_iff _).2 (((keys_iff _).1 h.keys).sublist thin), fun x hx => ?_, fun r x hr hst hx => ?_⟩
    · obtain ⟨y, hy, hs, hd⟩ := thin.mem hx
      exact hs ▸ hd ▸ (h.live y hy).set calls date at_i (service old at_i)
        (fun a b => by rw [hs, hd]; exact (gone a b).1 x hx)
    · have sale : s.sales.sale = some r := by
        rcases same.sales with e | e
        · exact e ▸ hr
        · simp [e] at hr
      exact (h.sale r x sale hst hx).set calls date at_i (service old at_i) (fun a b => (gone a b).2 r x hr hst hx)

/-- Each call of a table with one call replaced stands in the old table or is the new one. -/
theorem CallsOk.set {s t : State} {i : Nat} {new : Call} (h : CallsOk s) (setup : t.setup = s.setup) (clock : t.clock = s.clock)
    (calls : t.calls = { s.calls with calls := s.calls.calls.set i new })
    (next : ∀ old, s.calls.calls[i]? = some old → Follows s.setup.settings.minDwell old new) : CallsOk t := by
  by_cases inside : i < s.calls.calls.length
  · have at_i : s.calls.calls[i]? = some s.calls.calls[i] := List.getElem?_eq_getElem inside
    have mem : s.calls.calls[i] ∈ s.calls.calls := List.getElem_mem inside
    have f := next _ at_i
    have each : ∀ c ∈ t.calls.calls, c ∈ s.calls.calls ∨ c = new := by
      rw [calls]
      exact fun c hc => List.mem_or_eq_of_mem_set hc
    refine ⟨fun c hc => ?_, ?_, by rw [calls, clock]; exact h.date, fun c hc => ?_, fun r => ?_⟩
    · rw [setup]
      rcases each c hc with k | rfl
      · exact h.calls c k
      · exact f.ok (h.calls _ mem)
    · have e : t.calls.calls.map (·.service) = s.calls.calls.map (·.service) := by
        rw [calls, List.map_set, f.service]
        refine List.ext_getElem? fun j => ?_
        rw [List.getElem?_set]
        split
        · next e => subst e; simp [inside]
        · rfl
      have p := h.services
      rw [← List.pairwise_map (f := Call.service) (R := (· ≠ ·))] at p ⊢
      rwa [e]
    · rw [clock]
      rcases each c hc with k | rfl
      · exact h.timed c k
      · rw [Ne, f.timed]
        exact h.timed _ mem
    · have e := (h.setup (setup ▸ r)).1
      simp [e] at inside
  · have e : t.calls = s.calls := by rw [calls, List.set_eq_of_length_le (by omega)]
    exact h.congr setup clock (by rw [e]) (by rw [e])

theorem commitCall_keeps {i : Nat} {new : Call} {s : State} (next : CallsOk s → ∀ old, s.calls.calls[i]? = some old →
    Follows s.setup.settings.minDwell old new) : Keeps s (commitCall i new s) := by
  have m := commitCall_inner i new s
  exact { m with
    watch := by rw [commitCall_calls]
    table := fun h => h.set m.setup m.clock (commitCall_calls i new s) (next h)
    live := fun c h => commitCall_live h fun old at_i => (next c old at_i).service }

/-! ### Evaluation, reports and observations -/

theorem evalPhase_keeps {f : EvalContext → Call → Call} (follows : ∀ x c, Follows x.minDwell c (f x c)) (i : Nat) (s : State) :
    Keeps s (evalPhase f i s) := by
  unfold evalPhase
  split
  · next c at_i =>
    refine Keeps.ite (fun _ => commitCall_keeps fun _ old h => ?_) (fun _ => .refl s)
    rw [at_i, Option.some.injEq] at h
    exact h ▸ follows (evalContext s) c
  · exact .refl s

theorem evalCall_keeps (i : Nat) (s : State) : Keeps s (evalCall i s) :=
  (((evalPhase_keeps follows_creepPhase i s).trans (evalPhase_keeps follows_lapsePhase i _)).trans
    (evalPhase_keeps follows_arrivePhase i _)).trans (evalPhase_keeps follows_departPhase i _)

theorem evalAll_keeps (s : State) : Keeps s (evalAll s) := Keeps.foldl (fun t i => evalCall_keeps i t) _ s

/-- A call of a table in order, at a grade above 0, is timed. -/
theorem CallsOk.timed_at {s : State} (h : CallsOk s) (grade : s.clock.grade ≠ .unset) {i : Nat} {c : Call}
    (at_i : s.calls.calls[i]? = some c) : c.estimates ≠ none := (h.timed c (List.mem_of_getElem? at_i)).2 grade

theorem acceptReport_keeps (i : Nat) {r : BestReport} (s : State) (grade : s.clock.grade ≠ .unset)
    (late : -900 ≤ r.lateness ∧ r.lateness ≤ 21600) : Keeps s (acceptReport i r s) := by
  unfold acceptReport
  split
  · exact .refl s
  · next c at_i =>
    have f : CallsOk s → Follows s.setup.settings.minDwell c (c.withReport s.setup.settings.minDwell r) := fun h =>
      follows_withReport late (h.timed_at grade at_i)
    refine Keeps.ite (fun _ => (commitCall_keeps fun h old e => ?_).trans (evalCall_keeps i _))
      (fun _ => commitCall_keeps fun h old e => ?_)
    all_goals rw [at_i, Option.some.injEq] at e
    · exact e ▸ (f h).trans (follows_creepPhase (evalContext s) _)
    · exact e ▸ f h

theorem warnIfPass_keeps (c : Call) (d : Direction) (s : State) : Keeps s (warnIfPass c d s) :=
  Keeps.ite (fun _ => raiseWarning_keeps d s) (fun _ => .refl s)

theorem takeApproach_keeps {i : Nat} {c new : Call} {s : State} (at_i : s.calls.calls[i]? = some c)
    (next : Follows s.setup.settings.minDwell c new) : Keeps s (takeApproach i new s) := by
  refine (commitCall_keeps fun _ old e => ?_).trans (evalCall_keeps i _)
  rw [at_i, Option.some.injEq] at e
  exact e ▸ next

theorem approachObserved_keeps (o : ApproachObs) (s : State) : Keeps s (approachObserved o s).2 := by
  unfold approachObserved
  split
  · exact raiseWarning_keeps _ s
  · split
    · split
      · next c at_i =>
        refine Keeps.trans ?_ (warnIfPass_keeps _ _ _)
        exact Keeps.ite (fun _ => takeApproach_keeps at_i (follows_withApproach _ c _)) (fun _ => .refl s)
      · exact .refl s
    · split
      · split
        · next c at_i => exact (takeApproach_keeps at_i (follows_matched _ c _)).trans (warnIfPass_keeps _ _ _)
        · exact .refl s
      · exact raiseWarning_keeps _ s

theorem departureObserved_keeps (d : Direction) (second : Nat) (s : State) : Keeps s (departureObserved d second s).2 := by
  unfold departureObserved
  split
  · exact clearWarning_keeps d s
  · split
    · split
      · next c at_i =>
        refine (commitCall_keeps fun _ old e => ?_).trans (clearWarning_keeps d _)
        rw [at_i, Option.some.injEq] at e
        exact e ▸ .of_times rfl rfl rfl rfl rfl rfl
      · exact clearWarning_keeps d s
    · exact clearWarning_keeps d s

/-! ### The watch view -/

theorem rewatchCall_keeps (old new : Coverage) (s : State) (i : Nat) : Keeps s (rewatchCall old new s i) := by
  unfold rewatchCall
  split
  · next c at_i =>
    refine Keeps.ite (fun _ => Keeps.trans ?_ (evalCall_keeps i _)) (fun _ => .refl s)
    refine Keeps.ite (fun _ => commitCall_keeps fun _ old e => ?_) (fun _ => .refl s)
    rw [at_i, Option.some.injEq] at e
    exact e ▸ follows_unwatched _ c
  · exact .refl s

/-- Whatever it was, the watch view is afterwards the one formed from the own pairs and the peers (R20, R21). -/
theorem updateWatch_watch (s : State) : (updateWatch s).calls.watch = watchView s.treadles s.line.peers := by
  simp only [updateWatch]
  split
  · next same => exact same.symm
  · split
    · rfl
    · exact (Keeps.foldl (fun t i => rewatchCall_keeps _ _ t i) _ _).watch

theorem updateWatch_table (s : State) :
    (CallsOk s → CallsOk (updateWatch s)) ∧ (CallsOk s → ClaimsOk s → ClaimsOk (updateWatch s)) := by
  have same : ∀ w, CallsOk s → CallsOk (s.withCalls { s.calls with watch := w }) := fun w h => h.congr rfl rfl rfl rfl
  have live : ∀ w, ClaimsOk s → ClaimsOk (s.withCalls { s.calls with watch := w }) := fun w h =>
    h.thinned rfl rfl (.of_eq rfl) (.inl rfl)
  simp only [updateWatch]
  split
  · exact ⟨id, fun _ => id⟩
  · split
    · exact ⟨same _, fun _ => live _⟩
    · have k := Keeps.foldl (fun t i => rewatchCall_keeps s.calls.watch (watchView s.treadles s.line.peers) t i)
        (List.range s.calls.calls.length) (s.withCalls { s.calls with watch := watchView s.treadles s.line.peers })
      exact ⟨fun h => k.table (same _ h), fun c h => k.live (same _ c) (live _ h)⟩

/-- The peer table, and after it the watch view, are in order once the watch view is formed again. -/
theorem updateWatch_peers {s : State} (entries : s.line.peers.map (·.station) =
    (List.range' 1 15).filter (· != s.setup.straps.station)) : PeersOk (updateWatch s) := by
  have m := updateWatch_inner s
  exact ⟨by rw [m.peers, m.setup]; exact entries, fun _ => by rw [updateWatch_watch, m.treadles, m.peers]⟩

theorem updateWatch_lawful (s : State) : Lawful s (updateWatch s) :=
  { (updateWatch_inner s).toMoves with
    peers := fun h => updateWatch_peers h.entries
    money := (updateWatch_inner s).money
    table := (updateWatch_table s).1
    live := (updateWatch_table s).2 }

end Sys2Proof.Machine
end

