-- ==== Sys2Proof/Proofs/Builds.lean ====
section
/-! SUPPORT. Builds of the Call Table (R17 to R19, R33, R34): what a timetable image grants its entries, the calls a build makes of
them, and the Claim List and the sale after the hand-offs. -/

namespace Sys2Proof.Machine

/-! ### What a timetable grants its entries (R108) -/

/-- An entry's times are in range. -/
def CallEntry.Timely (e : CallEntry) : Prop := e.arrival ≤ 1439 ∧ e.arrival ≤ e.departure

/-- The entries of a timetable that was read from an image: their times in range, no two of one service on one weekday. -/
structure Timetable.Sorted (t : Timetable) : Prop where
  timely : ∀ e ∈ t.entries, e.Timely
  apart : t.entries.Pairwise (fun a b => ¬(a.service = b.service ∧ (a.dayMask &&& b.dayMask) ≠ 0))

theorem CallEntry.timely_of_inRange {e : CallEntry} {n : Nat} (h : e.inRange n = true) : e.Timely := by
  simp only [CallEntry.inRange, Bool.and_eq_true, decide_eq_true_eq] at h
  obtain ⟨⟨⟨⟨⟨⟨⟨-, arrival⟩, order⟩, -⟩, -⟩, -⟩, -⟩, -⟩ := h
  exact ⟨arrival, order⟩

theorem Timetable.Sorted.addRecord {t u : Timetable} {k : Nat} {body : List Nat} (h : t.Sorted)
    (add : t.addRecord k body = some u) : u.Sorted := by
  unfold Timetable.addRecord at add
  split at add
  · split at add
    · split at add
      · cases add
        exact ⟨h.timely, h.apart⟩
      · cases add
    · cases add
  · split at add
    · next e _ =>
      split at add
      · next ok =>
        simp only [Bool.and_eq_true, Bool.not_eq_true', CallEntry.clashes, List.any_eq_false, decide_eq_true_eq] at ok
        cases add
        refine ⟨fun x hx => ?_, List.pairwise_append.2 ⟨h.apart, List.pairwise_singleton _ _, fun a ha b hb => ?_⟩⟩
        · rcases List.mem_append.1 hx with k | k
          · exact h.timely x k
          · exact List.mem_singleton.1 k ▸ CallEntry.timely_of_inRange ok.1
        · rw [List.mem_singleton.1 hb]
          exact ok.2 a ha
      · cases add
    · cases add
  · cases add

theorem walkTimetable_sorted {fuel off : Nat} {bs : List Nat} {t u : Timetable} (h : t.Sorted)
    (walk : walkTimetable fuel off bs t = .ok u) : u.Sorted := by
  induction fuel generalizing off bs t with
  | zero =>
    cases bs with
    | nil =>
      simp only [walkTimetable] at walk
      split at walk <;> cases walk
      exact h
    | cons k rest => cases rest <;> simp [walkTimetable] at walk
  | succ fuel ih =>
    match bs with
    | [] =>
      simp only [walkTimetable] at walk
      split at walk <;> cases walk
      exact h
    | [k] => simp [walkTimetable] at walk
    | k :: l :: rest =>
      simp only [walkTimetable] at walk
      split at walk
      · cases walk
      · split at walk
        · next add => exact ih (h.addRecord add) walk
        · cases walk

theorem timetableOf_sorted (bs : List Byte) : (timetableOf bs).Sorted := by
  have empty : (⟨[], []⟩ : Timetable).Sorted := ⟨by simp, by simp⟩
  unfold timetableOf
  split
  · next h => exact walkTimetable_sorted empty h
  · exact empty

theorem activeTimetable_sorted (s : State) : (activeTimetable s).Sorted := by
  unfold activeTimetable
  split
  · exact timetableOf_sorted _
  · exact ⟨by simp, by simp⟩

/-- Of the entries a weekday selects no two bear one service number (R15, R108). -/
theorem entriesOn_apart {t : Timetable} (h : t.Sorted) (weekday : Nat) :
    (entriesOn t weekday).Pairwise (fun a b => a.service ≠ b.service) := by
  refine (List.pairwise_filter.2 (h.apart.imp fun {a b} k ha hb e => k ⟨e, fun z => ?_⟩))
  have bit : (a.dayMask &&& b.dayMask).testBit weekday = true := by rw [Nat.testBit_and, ha, hb]; rfl
  simp [z] at bit

/-! ### New and kept calls -/

theorem callOf_service (grade : ClockGrade) (m : Nat) (e : CallEntry) : (callOf grade m e).service = e.service := by
  unfold callOf
  simp only
  split <;> rfl

theorem callOf_state (grade : ClockGrade) (m : Nat) (e : CallEntry) : (callOf grade m e).state = .pending := by
  unfold callOf
  simp only
  split <;> rfl

theorem callOf_timed (grade : ClockGrade) (m : Nat) (e : CallEntry) : (callOf grade m e).estimates ≠ none ↔ grade ≠ .unset := by
  unfold callOf
  simp only
  split
  · next u => simp [u]
  · next t => simp [t, Call.withBuildEstimates, Call.setArrival]

/-- The build estimates of a call in its bounds (R16, R18). -/
theorem CallOk.withBuildEstimates {m : Nat} {c : Call} (sched : c.schedArr ≤ c.schedDep ∧ c.schedArr ≤ 86399)
    (report : ∀ r, c.report = some r → -900 ≤ r.lateness ∧ r.lateness ≤ 21600) : CallOk m (c.withBuildEstimates m) :=
  have bound := le_baseArrival sched.2 c.points none (by simp)
  .setArrival sched report 0 bound bound

theorem callOf_ok {e : CallEntry} (h : e.Timely) (grade : ClockGrade) (m : Nat) : CallOk m (callOf grade m e) := by
  obtain ⟨arrival, order⟩ := h
  have sched : 60 * e.arrival ≤ (if e.kind = .pass then 60 * e.arrival else 60 * e.departure) ∧ 60 * e.arrival ≤ 86399 := by
    split <;> omega
  unfold callOf
  simp only
  split
  · exact ⟨sched, by simp, by simp, by simp, by simp⟩
  · exact .withBuildEstimates sched (by simp)

theorem mem_newCalls {grade : ClockGrade} {m weekday : Nat} {t : Timetable} {c : Call} (h : c ∈ newCalls grade m weekday t) :
    ∃ e ∈ t.entries, callOf grade m e = c := by
  obtain ⟨e, he, rfl⟩ := List.mem_map.1 h
  exact ⟨e, (List.mem_filter.1 (List.take_subset _ _ he)).1, rfl⟩

theorem newCalls_apart {t : Timetable} (h : t.Sorted) (grade : ClockGrade) (m weekday : Nat) :
    (newCalls grade m weekday t).Pairwise (fun a b => a.service ≠ b.service) := by
  rw [newCalls, List.pairwise_map]
  simp only [callOf_service]
  exact (entriesOn_apart h weekday).sublist (List.take_sublist _ _)

theorem recomputed_fixed (m : Nat) (c : Call) : (c.recomputed m).service = c.service ∧ (c.recomputed m).direction = c.direction ∧
    (c.recomputed m).state = c.state ∧ ((c.recomputed m).estimates = none ↔ c.estimates = none) := by
  unfold Call.recomputed
  cases h : c.estimates with
  | none => simp [h]
  | some e => cases c.approach <;> simp [Call.setArrival]

theorem recomputed_ok {m : Nat} {c : Call} (sched : c.schedArr ≤ c.schedDep ∧ c.schedArr ≤ 86399)
    (report : ∀ r, c.report = some r → -900 ≤ r.lateness ∧ r.lateness ≤ 21600) : CallOk m (c.recomputed m) := by
  have bound := le_baseArrival sched.2 c.points c.report report
  unfold Call.recomputed
  cases h : c.estimates with
  | none => exact ⟨sched, report, by simp [h], by simp [h], by simp [h]⟩
  | some e =>
    cases c.approach with
    | some a => exact .setArrival sched report _ bound (by unfold approachArrival; omega)
    | none => exact .setArrival sched report _ bound (by split <;> omega)

/-- A swapped call is the new one, or carries the running state of the old call of its service and direction (R33). -/
theorem swapped_cases (m : Nat) (old : List Call) (c : Call) : (keptFrom old c = none ∧ swapped m old c = c) ∨
    ∃ o ∈ old, keptFrom old c = some o ∧ o.service = c.service ∧ o.direction = c.direction ∧ swapped m old c = carried m c o := by
  unfold swapped
  cases h : keptFrom old c with
  | none => exact .inl ⟨rfl, rfl⟩
  | some o =>
    have found := List.find?_some h
    simp only [Bool.and_eq_true, decide_eq_true_eq] at found
    exact .inr ⟨o, List.mem_of_find?_eq_some h, rfl, found.1, found.2, rfl⟩

theorem carried_fixed (m : Nat) (c o : Call) : (carried m c o).service = c.service ∧ (carried m c o).direction = c.direction ∧
    (carried m c o).state = o.state ∧ ((carried m c o).estimates = none ↔ o.estimates = none) :=
  recomputed_fixed m _

theorem swapped_fixed (m : Nat) (old : List Call) (c : Call) : (swapped m old c).service = c.service ∧
    (swapped m old c).direction = c.direction := by
  rcases swapped_cases m old c with ⟨-, e⟩ | ⟨o, -, -, -, -, e⟩ <;> rw [e]
  · exact ⟨rfl, rfl⟩
  · exact ⟨(carried_fixed m c o).1, (carried_fixed m c o).2.1⟩

/-! ### The calls of a build -/

/-- The calls a build may put into a state's table: in their bounds, apart by service, timed as the grade has it. -/
structure Buildable (s : State) (cs : List Call) : Prop where
  ok : ∀ c ∈ cs, CallOk s.setup.settings.minDwell c
  apart : cs.Pairwise (fun a b => a.service ≠ b.service)
  timed : ∀ c ∈ cs, c.estimates ≠ none ↔ s.clock.grade ≠ .unset

theorem newCalls_buildable (s : State) :
    Buildable s (newCalls s.clock.grade s.setup.settings.minDwell s.clock.weekday (activeTimetable s)) where
  ok c hc := by
    obtain ⟨e, he, rfl⟩ := mem_newCalls hc
    exact callOf_ok ((activeTimetable_sorted s).timely e he) _ _
  apart := newCalls_apart (activeTimetable_sorted s) _ _ _
  timed c hc := by
    obtain ⟨e, -, rfl⟩ := mem_newCalls hc
    exact callOf_timed _ _ e

/-- A swap's calls, the old table being in order. -/
theorem swap_buildable {s : State} (h : CallsOk s) : Buildable s (builtCalls .swap s) := by
  have new := newCalls_buildable s
  refine ⟨fun c hc => ?_, ?_, fun c hc => ?_⟩
  · obtain ⟨n, hn, rfl⟩ := List.mem_map.1 hc
    rcases swapped_cases s.setup.settings.minDwell s.calls.calls n with ⟨-, e⟩ | ⟨o, ho, -, -, -, e⟩ <;> rw [e]
    · exact new.ok n hn
    · exact recomputed_ok (new.ok n hn).scheduled (h.calls o ho).report
  · rw [builtCalls, List.pairwise_map]
    exact new.apart.imp fun {a b} k => by rw [(swapped_fixed _ _ a).1, (swapped_fixed _ _ b).1]; exact k
  · obtain ⟨n, hn, rfl⟩ := List.mem_map.1 hc
    rcases swapped_cases s.setup.settings.minDwell s.calls.calls n with ⟨-, e⟩ | ⟨o, ho, -, -, -, e⟩ <;> rw [e]
    · exact new.timed n hn
    · rw [Ne, (carried_fixed _ n o).2.2.2]
      exact h.timed o ho

/-- What the evaluation of a build makes of one call. -/
def evaluatedIn (s : State) (c : Call) : Call := if evaluable s.clock.grade c then evaluated (evalContext s) c else c

theorem evaluatedCalls_eq (s : State) (cs : List Call) : evaluatedCalls s cs = cs.map (evaluatedIn s) := rfl

theorem follows_evaluatedIn (s : State) (c : Call) : Follows s.setup.settings.minDwell c (evaluatedIn s c) :=
  Follows.ite (fun _ => follows_evaluated (evalContext s) c) (fun _ => .refl _ c)

theorem Buildable.evaluatedCalls {s : State} {cs : List Call} (h : Buildable s cs) : Buildable s (evaluatedCalls s cs) := by
  rw [evaluatedCalls_eq]
  refine ⟨fun c hc => ?_, ?_, fun c hc => ?_⟩
  · obtain ⟨b, hb, rfl⟩ := List.mem_map.1 hc
    exact (follows_evaluatedIn s b).ok (h.ok b hb)
  · rw [List.pairwise_map]
    exact h.apart.imp fun {a b} k => by rw [(follows_evaluatedIn s a).service, (follows_evaluatedIn s b).service]; exact k
  · obtain ⟨b, hb, rfl⟩ := List.mem_map.1 hc
    rw [Ne, (follows_evaluatedIn s b).timed]
    exact h.timed b hb

/-- An evaluation never cancels a call. -/
theorem evaluated_cancelled {x : EvalContext} {c : Call} (h : (evaluated x c).state = .cancelled) : c.state = .cancelled := by
  have creep : (creepPhase x c).state = c.state := by
    unfold creepPhase Call.creepTo Call.setArrival
    repeat' split
    all_goals rfl
  have lapse : ∀ d, (lapsePhase x d).state = .cancelled → d.state = .cancelled := fun d h => by
    unfold lapsePhase at h
    split at h
    · split at h
      · cases h
      · exact h
    · exact h
  have arrive : ∀ d, (arrivePhase x d).state = .cancelled → d.state = .cancelled := fun d h => by
    unfold arrivePhase at h
    split at h
    · split at h
      · cases h
      · exact h
    · exact h
  have depart : ∀ d, (departPhase x d).state = .cancelled → d.state = .cancelled := fun d h => by
    unfold departPhase at h
    split at h
    · split at h
      · cases h
      · exact h
    · exact h
  exact creep ▸ lapse _ (arrive _ (depart _ h))

theorem evaluatedIn_cancelled {s : State} {c : Call} (h : (evaluatedIn s c).state = .cancelled) : c.state = .cancelled := by
  unfold evaluatedIn at h
  split at h
  · exact evaluated_cancelled h
  · exact h

/-- The calls whose end a build hands on: those its evaluation ended (R19). -/
theorem endedByEvaluation_eq (s : State) (cs : List Call) : endedByEvaluation cs (evaluatedCalls s cs) =
    (cs.filter (fun c => !c.state.over && (evaluatedIn s c).state.over)).map (evaluatedIn s) := by
  rw [evaluatedCalls_eq, endedByEvaluation]
  induction cs with
  | nil => rfl
  | cons c cs ih =>
    simp only [List.map_cons, List.zip_cons_cons, List.filter_cons]
    split
    · rw [List.map_cons, List.map_cons, ih]
    · exact ih

/-! ### Operations that thin the Claim List out, one call after another -/

/-- Operations that leave the Call Table and each take the claims of one service, done one after another. -/
theorem foldl_claims_gone {α : Type} {f : State → α → State} {n : α → Nat} (calls : ∀ s a, (f s a).calls = s.calls)
    (thin : ∀ s a, Thins s (f s a)) (gone : ∀ s a, ∀ x ∈ (f s a).claims, ¬(x.service = n a ∧ x.date = s.calls.date))
    (xs : List α) (s : State) : (xs.foldl f s).calls = s.calls ∧ Thins s (xs.foldl f s) ∧
      ∀ a ∈ xs, ∀ x ∈ (xs.foldl f s).claims, ¬(x.service = n a ∧ x.date = s.calls.date) := by
  induction xs generalizing s with
  | nil => exact ⟨rfl, .of_eq rfl, by simp⟩
  | cons b bs ih =>
    obtain ⟨hc, ht, hg⟩ := ih (f s b)
    rw [List.foldl_cons]
    refine ⟨hc.trans (calls s b), (thin s b).trans ht, fun a ha x hx => ?_⟩
    rcases List.mem_cons.1 ha with rfl | ha
    · obtain ⟨y, hy, hs, hd⟩ := ht.mem hx
      exact hs ▸ hd ▸ gone s a y hy
    · exact calls s b ▸ hg a ha x hx

theorem OnBoard.calls {s t : State} (o : OnBoard s t) : t.calls = s.calls := by
  obtain ⟨_, _, _, rfl⟩ := o
  rfl

theorem endAfterBuild_onBoard (s : State) (c : Call) : OnBoard (callEnded c s) (endAfterBuild s c) :=
  (compose_onBoard _).trans ⟨_, _, _, rfl⟩

theorem endAfterBuild_calls (s : State) (c : Call) : (endAfterBuild s c).calls = s.calls :=
  (endAfterBuild_onBoard s c).calls.trans (callEnded_onSale c s).calls

theorem endAfterBuild_thins (s : State) (c : Call) : Thins s (endAfterBuild s c) :=
  (callEnded_thins c s).trans (.of_eq (endAfterBuild_onBoard s c).claims)

theorem endAfterBuild_gone (s : State) (c : Call) : ∀ x ∈ (endAfterBuild s c).claims,
    ¬(x.service = c.service ∧ x.date = s.calls.date) := fun x hx => by
  rw [(endAfterBuild_onBoard s c).claims] at hx
  exact callEnded_claims hx

theorem removeCallClaims_gone (s : State) (n : Nat) : ∀ x ∈ (removeCallClaims n true s).claims,
    ¬(x.service = n ∧ x.date = s.calls.date) := fun x hx => by
  rw [removeCallClaims_claims, List.mem_filter] at hx
  rintro ⟨service, date⟩
  simp [service, date] at hx

/-- A sale that a build leaves, unless it is ISSUING, is on a call present and live (R19, R143). -/
theorem saleAfterBuild_sale {s : State} {r : SaleRecord} {x : SpaceCall} (sale : (saleAfterBuild s).sales.sale = some r)
    (stage : r.stage ≠ .issuing) (space : r.space = some x) : ∃ c, callFor s x.service x.date = some c ∧ c.state.live = true := by
  have kept := (saleAfterBuild_inner s).sales
  have before : s.sales.sale = some r := by
    rcases kept with e | e
    · exact e ▸ sale
    · simp [e] at sale
  simp only [saleAfterBuild, before, space] at sale
  split at sale
  · simp [abortSale_sale before stage] at sale
  · next c at_c =>
    split at sale
    · next live => exact ⟨c, at_c, live⟩
    · simp [abortSale_sale before stage] at sale

theorem callFor_some {s : State} {n : Nat} {d : Date} {c : Call} (h : callFor s n d = some c) :
    d = s.calls.date ∧ c ∈ s.calls.calls ∧ c.service = n := by
  unfold callFor at h
  split at h
  · next date => exact ⟨date.symm, List.mem_of_find?_eq_some h, by simpa using List.find?_some h⟩
  · cases h

/-! ### The build -/

/-- The table as a build puts it, before its hand-offs. -/
def rebuilt (k : BuildKind) (s : State) : State :=
  s.withCalls { s.calls with calls := evaluatedCalls s (builtCalls k s), date := s.clock.date }

/-- The hand-offs of a build up to the board and the host: the sale, the claims, the ended calls (R19). -/
def handedOff (k : BuildKind) (s : State) : State :=
  (endedByEvaluation (builtCalls k s) (evaluatedCalls s (builtCalls k s))).foldl endAfterBuild
    (claimsAfterBuild k (droppedBy s.calls.calls (builtCalls k s)) (saleAfterBuild (rebuilt k s)))

theorem buildTable_eq (k : BuildKind) (s : State) : buildTable k s = callChanged (compose ((handedOff k s).withCalls
    { (handedOff k s).calls with buildCount := ((handedOff k s).calls.buildCount + 1) % 256 })) := rfl

theorem claimsAfterBuild_gone (k : BuildKind) (dropped : List Nat) (s : State) :
    (claimsAfterBuild k dropped s).calls = s.calls ∧ Thins s (claimsAfterBuild k dropped s) ∧
      (∀ n ∈ dropped, ∀ x ∈ (claimsAfterBuild k dropped s).claims, ¬(x.service = n ∧ x.date = s.calls.date)) ∧
      (k = .fresh → (claimsAfterBuild k dropped s).claims = []) := by
  cases k with
  | fresh => exact ⟨rfl, List.nil_sublist _, by simp [claimsAfterBuild], fun _ => rfl⟩
  | swap =>
    obtain ⟨a, b, c⟩ := foldl_claims_gone (f := fun t n => removeCallClaims n true t) (n := id)
      (fun t n => (removeCallClaims_onSale n true t).calls) (fun t n => removeCallClaims_thins n true t)
      (fun t n => removeCallClaims_gone t n) dropped s
    exact ⟨a, b, c, by simp⟩

theorem handedOff_inner (k : BuildKind) (s : State) : Inner (saleAfterBuild (rebuilt k s)) (handedOff k s) :=
  (claimsAfterBuild_inner k _ _).trans (Inner.foldl endAfterBuild_inner _ _)

theorem handedOff_calls (k : BuildKind) (s : State) : (handedOff k s).calls = (rebuilt k s).calls := by
  rw [handedOff, (foldl_claims_gone endAfterBuild_calls endAfterBuild_thins endAfterBuild_gone _ _).1,
    (claimsAfterBuild_gone k _ _).1, (saleAfterBuild_onSale _).calls]

theorem buildTable_onBoard (k : BuildKind) (s : State) : OnBoard ((handedOff k s).withCalls
    { (handedOff k s).calls with buildCount := ((handedOff k s).calls.buildCount + 1) % 256 }) (buildTable k s) :=
  (compose_onBoard _).trans ⟨_, _, _, rfl⟩

/-- The table a build leaves (R17, R18). -/
theorem buildTable_calls (k : BuildKind) (s : State) : (buildTable k s).calls =
    { s.calls with calls := evaluatedCalls s (builtCalls k s), date := s.clock.date, buildCount := (s.calls.buildCount + 1) % 256 } := by
  rw [(buildTable_onBoard k s).calls, State.withCalls_calls, handedOff_calls]
  rfl

/-- In RUN a build of buildable calls leaves the Call Table in order. -/
theorem buildTable_table {k : BuildKind} {s : State} (run : s.setup.running = true) (h : Buildable s (builtCalls k s)) :
    CallsOk (buildTable k s) := by
  have m := buildTable_inner k s
  have b := h.evaluatedCalls
  have calls := buildTable_calls k s
  refine ⟨by rw [m.setup, calls]; exact b.ok, by rw [calls]; exact b.apart, by rw [m.clock, calls],
    by rw [m.clock, calls]; exact b.timed, fun r => ?_⟩
  rw [m.setup, run] at r
  cases r

/-- What a build's calls owe to the table before it: each is new, or has its state from the old call of its service. -/
theorem builtCalls_state {k : BuildKind} {s : State} {b : Call} (h : b ∈ builtCalls k s) :
    b.state = .pending ∨ (k = .swap ∧ ∃ o ∈ s.calls.calls, o.service = b.service ∧ b.state = o.state) := by
  cases k with
  | fresh =>
    obtain ⟨e, -, rfl⟩ := mem_newCalls h
    exact .inl (callOf_state _ _ e)
  | swap =>
    obtain ⟨n, hn, rfl⟩ := List.mem_map.1 h
    rcases swapped_cases s.setup.settings.minDwell s.calls.calls n with ⟨-, e⟩ | ⟨o, ho, -, hs, -, e⟩ <;> rw [e]
    · obtain ⟨entry, -, rfl⟩ := mem_newCalls hn
      exact .inl (callOf_state _ _ entry)
    · exact .inr ⟨rfl, o, ho, hs.trans (carried_fixed _ n o).1.symm, (carried_fixed _ n o).2.2.1⟩

/-- Calls apart by service are one when they share it. -/
theorem CallsOk.unique {s : State} (h : CallsOk s) {a b : Call} (ha : a ∈ s.calls.calls) (hb : b ∈ s.calls.calls)
    (e : a.service = b.service) : a = b := by
  have : Std.Symm (fun a b : Call => a.service ≠ b.service) := ⟨fun _ _ => Ne.symm⟩
  by_contra ne
  exact h.services.forall ha hb ne e

/-- The sale a build leaves is on a live call, if before a swap it was. -/
theorem buildTable_sale {k : BuildKind} {s : State} (swap : k = .swap → CallsOk s ∧ ClaimsOk s) {r : SaleRecord} {x : SpaceCall}
    (sale : (buildTable k s).sales.sale = some r) (stage : r.stage ≠ .issuing) (space : r.space = some x) :
    OnLiveCall (buildTable k s) x.service x.date := by
  rw [(buildTable_onBoard k s).sales] at sale
  have after : (saleAfterBuild (rebuilt k s)).sales.sale = some r := by
    rcases (handedOff_inner k s).sales with e | e
    · exact e ▸ sale
    · simp [e] at sale
  have before : s.sales.sale = some r := by
    rcases (saleAfterBuild_inner (rebuilt k s)).sales with e | e
    · exact e ▸ after
    · simp [e] at after
  obtain ⟨c, at_c, live⟩ := saleAfterBuild_sale after stage space
  obtain ⟨date, hc, service⟩ := callFor_some at_c
  rw [onLiveCall_iff, buildTable_calls]
  refine ⟨date, c, hc, service, ?_⟩
  have uncancelled : c.state ≠ .cancelled := fun cancelled => by
    obtain ⟨b, hb, e⟩ := List.mem_map.1 hc
    have became : evaluatedIn s b = c := e
    have state := evaluatedIn_cancelled (became ▸ cancelled)
    rcases builtCalls_state hb with e | ⟨rfl, o, ho, hs, e⟩
    · simp [e] at state
    · obtain ⟨calls, claims⟩ := swap rfl
      obtain ⟨-, q, hq, hqs, hql⟩ := (onLiveCall_iff s _ _).1 (claims.sale r x before stage space)
      have same : q = o := calls.unique hq ho (by rw [hqs, hs, ← (follows_evaluatedIn s b).service, became, service])
      rw [same, ← e, state] at hql
      cases hql
  revert live uncancelled
  cases c.state <;> simp [CallState.live, CallState.over]

/-- A claim that a swap leaves is on a call of its service, kept with its state and not ended by the evaluation. -/
theorem buildTable_swap_claim {s : State} (calls : CallsOk s) (claims : ClaimsOk s) {x : Claim}
    (h : x ∈ (handedOff .swap s).claims) : OnLiveCall (buildTable .swap s) x.service x.date := by
  obtain ⟨-, thinE, goneE⟩ := foldl_claims_gone endAfterBuild_calls endAfterBuild_thins endAfterBuild_gone
    (endedByEvaluation (builtCalls .swap s) (evaluatedCalls s (builtCalls .swap s)))
    (claimsAfterBuild .swap (droppedBy s.calls.calls (builtCalls .swap s)) (saleAfterBuild (rebuilt .swap s)))
  obtain ⟨callsC, thinC, goneC, -⟩ := claimsAfterBuild_gone .swap (droppedBy s.calls.calls (builtCalls .swap s))
    (saleAfterBuild (rebuilt .swap s))
  have callsS : (saleAfterBuild (rebuilt .swap s)).calls = (rebuilt .swap s).calls := (saleAfterBuild_onSale _).calls
  obtain ⟨y, hy, ys, yd⟩ := Thins.mem thinE h
  obtain ⟨z, hz, zs, zd⟩ := ((saleAfterBuild_thins (rebuilt .swap s)).trans thinC).mem hy
  obtain ⟨date, o, ho, os, ol⟩ := (onLiveCall_iff s _ _).1 (claims.live z hz)
  have at_date : x.date = s.clock.date := by rw [← yd, ← zd, date, calls.date]
  have kept : ∃ b ∈ builtCalls .swap s, b.service = o.service ∧ b.direction = o.direction := by
    by_contra none
    refine goneC o.service ?_ y hy ⟨by rw [← zs, os], by rw [callsS, yd, at_date]; rfl⟩
    refine List.mem_map.2 ⟨o, List.mem_filter.2 ⟨ho, ?_⟩, rfl⟩
    simpa using none
  obtain ⟨b, hb, bs, bd⟩ := kept
  have state : b.state = o.state := by
    obtain ⟨n, hn, rfl⟩ := List.mem_map.1 hb
    rw [(swapped_fixed _ _ n).1] at bs
    rw [(swapped_fixed _ _ n).2] at bd
    rcases swapped_cases s.setup.settings.minDwell s.calls.calls n with ⟨none, -⟩ | ⟨p, hp, -, ps, -, e⟩
    · have := List.find?_eq_none.1 none o ho
      simp [bs, bd] at this
    · rw [e, (carried_fixed _ n p).2.2.1, calls.unique hp ho (ps.trans bs)]
  rw [onLiveCall_iff, buildTable_calls]
  refine ⟨at_date, evaluatedIn s b, List.mem_map_of_mem hb, ?_, ?_⟩
  · rw [(follows_evaluatedIn s b).service, bs, os, zs, ys]
  · cases ended : (evaluatedIn s b).state.over
    · rfl
    · have handed : evaluatedIn s b ∈ endedByEvaluation (builtCalls .swap s) (evaluatedCalls s (builtCalls .swap s)) := by
        rw [endedByEvaluation_eq]
        exact List.mem_map_of_mem (List.mem_filter.2 ⟨hb, by rw [state, ol, ended]; rfl⟩)
      refine absurd ⟨?_, ?_⟩ (goneE (evaluatedIn s b) handed x h)
      · rw [(follows_evaluatedIn s b).service, bs, os, zs, ys]
      · rw [callsC, callsS, at_date]
        rfl

theorem buildTable_claims (k : BuildKind) (s : State) : (buildTable k s).claims = (handedOff k s).claims :=
  (buildTable_onBoard k s).claims

theorem handedOff_thins (k : BuildKind) (s : State) : Thins s (handedOff k s) :=
  (saleAfterBuild_thins (rebuilt k s)).trans ((claimsAfterBuild_gone k _ _).2.1.trans
    (foldl_claims_gone endAfterBuild_calls endAfterBuild_thins endAfterBuild_gone _ _).2.1)

/-- A fresh build empties the Claim List (R19). -/
theorem buildTable_fresh_claims (s : State) : (buildTable .fresh s).claims = [] := by
  rw [buildTable_claims]
  have none : (claimsAfterBuild .fresh (droppedBy s.calls.calls (builtCalls .fresh s)) (saleAfterBuild (rebuilt .fresh s))).claims = [] := rfl
  have thin := (foldl_claims_gone endAfterBuild_calls endAfterBuild_thins endAfterBuild_gone
    (endedByEvaluation (builtCalls .fresh s) (evaluatedCalls s (builtCalls .fresh s)))
    (claimsAfterBuild .fresh (droppedBy s.calls.calls (builtCalls .fresh s)) (saleAfterBuild (rebuilt .fresh s)))).2.1
  rw [Thins, none, List.map_nil, List.sublist_nil, List.map_eq_nil_iff] at thin
  exact thin

/-- A fresh build in RUN leaves the Call Table and the Claim List in order, whatever stood before. -/
theorem buildTable_fresh_ok {s : State} (run : s.setup.running = true) :
    CallsOk (buildTable .fresh s) ∧ ClaimsOk (buildTable .fresh s) := by
  refine ⟨buildTable_table run (newCalls_buildable s), ?_, ?_, fun r x hr hst hx => buildTable_sale (by simp) hr hst hx⟩
  all_goals simp [buildTable_fresh_claims]

theorem buildTable_swap_keeps {s : State} (run : s.setup.running = true) : Keeps s (buildTable .swap s) :=
  { buildTable_inner .swap s with
    watch := by rw [buildTable_calls]
    table := fun h => buildTable_table run (swap_buildable h)
    live := fun c h =>
      ⟨(keys_iff _).2 (((keys_iff _).1 h.keys).sublist (by rw [buildTable_claims]; exact handedOff_thins .swap s)),
        fun x hx => buildTable_swap_claim c h (by rwa [buildTable_claims] at hx),
        fun r x hr hst hx => buildTable_sale (fun _ => ⟨c, h⟩) hr hst hx⟩ }

end Sys2Proof.Machine
end

