-- ==== Sys2Proof/Proofs/StoreAndClock.lean ====
section
/-! SUPPORT. The Call Table and the Claim List through the Edition Store's operations (R104 to R117) and the events of the Halt Clock
(R2 to R11). -/

namespace Sys2Proof.Machine

/-! ### The Edition Store -/

theorem activate_keeps (k : TableKind) {s : State} (m : Inner s (activate k s)) : Keeps s (activate k s) := by
  cases k <;> exact m.keeps rfl (.of_eq rfl)

theorem activateTimetable_keeps {s : State} (staged : s.store.timetable.loader = .staged) : Keeps s (activateTimetable s) :=
  (activate_keeps .timetable (activate_timetable_inner s staged)).trans (compose_keeps _)

theorem activateStagedTimetable_keeps {s : State} (run : s.setup.running = true) : Keeps s (activateStagedTimetable s) := by
  refine Keeps.ite (fun ready => ?_) (fun _ => .refl s)
  have m := activateTimetable_keeps (timetableReady_staged ready)
  exact m.trans (buildTable_swap_keeps (m.setup ▸ run))

theorem rolloverCheck_keeps (s : State) : Keeps s (rolloverCheck s) :=
  Keeps.ite (fun ready => activateTimetable_keeps (timetableReady_staged ready)) (fun _ => .refl s)

theorem testActivation_keeps (k : TableKind) {s : State} (run : s.setup.running = true) : Keeps s (testActivation k s) := by
  cases k
  · exact activateStagedTimetable_keeps run
  · exact activateFare_keeps s

theorem setSlot_keeps {k : TableKind} {x : Slot} {s : State} (m : Inner s (setSlot k x s)) : Keeps s (setSlot k x s) :=
  (setSlot_onLine k x s).keeps m

theorem stage_keeps (k : TableKind) {s : State} (run : s.setup.running = true) (ok : stagingFault k s = none) :
    Keeps s (stage k s) := by
  have sound : SlotOk s.setup.running s.setup.settings.haltCode (slotOf s k) →
      SlotOk s.setup.running s.setup.settings.haltCode { slotOf s k with loader := .staged, pull := none } := fun h =>
    ⟨h.active, fun _ => checkImage_sound ok, fun e => by rw [run] at e; cases e⟩
  exact (setSlot_keeps (setSlot_inner k _ s sound rfl rfl)).trans ((raise_keeps _ _).trans (testActivation_keeps k run))

theorem reject_keeps (k : TableKind) (r : Reason) (o : Nat) (s : State) : Keeps s (reject k r o s) := by
  have m : Inner s (setSlot k { (slotOf s k).cleared with refused := (slotOf s k).refusedAfter } s) :=
    setSlot_inner k _ s (fun h => h.filling rfl (by simp [Slot.cleared])) rfl rfl
  exact (setSlot_keeps m).trans (raise_keeps _ _)

theorem checkFill_keeps (k : TableKind) {s : State} (run : s.setup.running = true) : Keeps s (checkFill k s) := by
  unfold checkFill
  split
  · exact stage_keeps k run ‹_›
  · exact reject_keeps _ _ _ s

theorem acceptSegment_keeps (k : TableKind) (p : Pull) (n : Nat) (data : List Byte) {s : State} (run : s.setup.running = true)
    (fill : (slotOf s k).loader ≠ .staged) : Keeps s (acceptSegment k p n data s) := by
  have m : Keeps s (setSlot k { slotOf s k with
      staging := (slotOf s k).staging ++ data, offset := (slotOf s k).offset + data.length, declared := some n,
      pull := some { p with replyTimer := none, request := none } } s) :=
    setSlot_keeps (setSlot_inner k _ s (fun h => h.filling rfl fill) rfl rfl)
  simp only [acceptSegment]
  exact Keeps.ite (fun _ => m.trans (checkFill_keeps k (m.setup ▸ run))) (fun _ => m.trans (requestSegment_keeps _ _ _ _))

theorem segmentForPull_keeps (k : TableKind) (p : Pull) (f : SegmentFields) {s : State} (run : s.setup.running = true)
    (fill : (slotOf s k).loader ≠ .staged) : Keeps s (segmentForPull k p f s) := by
  unfold segmentForPull
  refine Keeps.ite (fun _ => abandonPull_keeps k s) (fun _ => Keeps.ite (fun _ => .refl s) (fun _ =>
    Keeps.ite (fun _ => ?_) (fun _ => abandonPull_keeps k s)))
  split
  · exact Keeps.ite (fun _ => acceptSegment_keeps k p _ _ run fill) (fun _ => abandonPull_keeps k s)
  · exact abandonPull_keeps k s

theorem segmentArrived_keeps (origin : Nat) (f : SegmentFields) {s : State} (run : s.setup.running = true) :
    Keeps s (segmentArrived origin f s) := by
  simp only [segmentArrived]
  split
  · refine Keeps.ite (fun filling => segmentForPull_keeps _ _ f run ?_) (fun _ => .refl s)
    simp only [Bool.and_eq_true, decide_eq_true_eq] at filling
    simp [filling.1.1]
  · exact .refl s

theorem beginLoad_keeps (kind n : Nat) (s : State) : Keeps s (beginLoad kind n s).2 := by
  refine OnLine.keeps ?_ (beginLoad_inner kind n s)
  unfold beginLoad
  split
  · exact .refl s
  · split
    · exact setSlot_onLine _ _ s
    · exact .refl s

theorem abandonLoad_keeps (kind : Nat) (s : State) : Keeps s (abandonLoad kind s).2 := by
  refine OnLine.keeps ?_ (abandonLoad_inner kind s)
  unfold abandonLoad
  split
  · exact .refl s
  · split
    · exact setSlot_onLine _ _ s
    · exact .refl s

theorem loadData_keeps (kind o : Nat) (data : List Byte) {s : State} (run : s.setup.running = true) :
    Keeps s (loadData kind o data s).2 := by
  unfold loadData
  split
  · exact .refl s
  · next k _ =>
    split
    · next fill =>
      split
      · have m : Keeps s (setSlot k ((slotOf s k).append data) s) :=
          setSlot_keeps (setSlot_inner k _ s (fun h => h.filling rfl (by simp [Slot.append, fill])) rfl rfl)
        simp only [takeLoadSegment]
        split
        · exact m.trans (checkFill_keeps k (m.setup ▸ run))
        · exact m
      · exact (abandonPull_keeps k s).trans (raise_keeps _ _)
    · exact .refl s

/-! ### One call after another -/

/-- Operations on one call each, done at the indices 0..n−1, change the first n calls of the table, each by the same function. -/
theorem foldl_range_calls {op : State → Nat → State} {g : Call → Call} {P : State → Prop} (keep : ∀ t i, P t → P (op t i))
    (calls : ∀ t i, P t → (op t i).calls.calls = t.calls.calls.modify i g) (n : Nat) {s : State} (h : P s) :
    P ((List.range n).foldl op s) ∧ ∀ j, ((List.range n).foldl op s).calls.calls[j]? =
      if j < n then s.calls.calls[j]?.map g else s.calls.calls[j]? := by
  induction n with
  | zero => exact ⟨h, by simp⟩
  | succ n ih =>
    obtain ⟨hp, hc⟩ := ih
    rw [List.range_succ, List.foldl_append, List.foldl_cons, List.foldl_nil]
    refine ⟨keep _ n hp, fun j => ?_⟩
    rw [calls _ n hp, List.getElem?_modify, hc j]
    by_cases at_n : n = j
    · subst at_n
      simp
    · have below : j < n ↔ j < n + 1 := by omega
      simp only [at_n, if_false, below, Option.map_eq_map, Option.map_id']

theorem foldl_range_map {op : State → Nat → State} {g : Call → Call} {P : State → Prop} (keep : ∀ t i, P t → P (op t i))
    (calls : ∀ t i, P t → (op t i).calls.calls = t.calls.calls.modify i g) {s : State} (h : P s) :
    ((List.range s.calls.calls.length).foldl op s).calls.calls = s.calls.calls.map g := by
  refine List.ext_getElem? fun j => ?_
  rw [(foldl_range_calls keep calls _ h).2 j, List.getElem?_map]
  split
  · rfl
  · next out => simp [List.getElem?_eq_none (Nat.le_of_not_lt out)]

/-- The call at an index given its build estimates, as the first step from grade 0 does (R16). -/
def estimateCall (t : State) (i : Nat) : State :=
  match t.calls.calls[i]? with
  | some c => commitCall i (c.withBuildEstimates t.setup.settings.minDwell) t
  | none => t

theorem estimateCalls_eq (s : State) : estimateCalls s = (List.range s.calls.calls.length).foldl estimateCall s := rfl

theorem estimateCall_inner (t : State) (i : Nat) : Inner t (estimateCall t i) := by
  unfold estimateCall
  split
  · exact commitCall_inner _ _ t
  · exact .refl t

theorem estimateCall_calls (t : State) (i : Nat) : (estimateCall t i).calls =
    { t.calls with calls := t.calls.calls.modify i (·.withBuildEstimates t.setup.settings.minDwell) } := by
  unfold estimateCall
  split
  · next c at_i =>
    rw [commitCall_calls, List.modify_eq_set_getElem?, at_i]
    rfl
  · next none => rw [List.modify_eq_set_getElem?, none]; rfl

theorem estimateCall_live {t : State} (h : ClaimsOk t) (i : Nat) : ClaimsOk (estimateCall t i) := by
  unfold estimateCall
  split
  · next c at_i =>
    refine commitCall_live h fun old e => ?_
    rw [at_i, Option.some.injEq] at e
    exact e ▸ rfl
  · exact h

/-- The calls after the first step from grade 0, and what that step leaves of the table. -/
theorem estimateCalls_calls (s : State) : (estimateCalls s).calls.calls =
      s.calls.calls.map (·.withBuildEstimates s.setup.settings.minDwell) ∧
    (estimateCalls s).calls.date = s.calls.date ∧ (estimateCalls s).calls.watch = s.calls.watch := by
  rw [estimateCalls_eq]
  constructor
  · refine foldl_range_map (P := fun t => t.setup = s.setup) (fun t i h => (estimateCall_inner t i).setup.trans h)
      (fun t i h => ?_) rfl
    rw [estimateCall_calls, h]
  · refine (List.foldlRecOn _ _ (motive := fun t : State => t.calls.date = s.calls.date ∧ t.calls.watch = s.calls.watch)
      ⟨rfl, rfl⟩ ?_)
    intro t h i _
    rw [estimateCall_calls]
    exact h

theorem estimateCalls_live {s : State} (h : ClaimsOk s) : ClaimsOk (estimateCalls s) :=
  List.foldlRecOn _ _ h fun _ k i _ => estimateCall_live k i

/-- A table whose calls are given build estimates is in order at a grade above 0. -/
theorem estimateCalls_table {s : State} {c : Clock} (h : CallsOk s) (date : c.date = s.clock.date) (grade : c.grade ≠ .unset)
    (run : s.setup.running = true) : CallsOk (estimateCalls (s.withClock c)) := by
  obtain ⟨calls, same, -⟩ := estimateCalls_calls (s.withClock c)
  have m := estimateCalls_inner (s.withClock c)
  refine ⟨fun d hd => ?_, ?_, ?_, fun d hd => ?_, fun r => ?_⟩
  · rw [m.setup]
    rw [calls] at hd
    obtain ⟨b, hb, rfl⟩ := List.mem_map.1 hd
    exact .withBuildEstimates (h.calls b hb).scheduled (h.calls b hb).report
  · rw [calls, List.pairwise_map]
    exact h.services
  · rw [same, m.clock]
    exact h.date.trans date.symm
  · rw [calls] at hd
    obtain ⟨b, -, rfl⟩ := List.mem_map.1 hd
    rw [m.clock]
    exact iff_of_true (by simp [Call.withBuildEstimates, Call.setArrival]) grade
  · rw [m.setup] at r
    exact absurd (run.symm.trans r) (by decide)

/-! ### Events of the clock -/

/-- What an event that sets the clock keeps. -/
structure Clocked (c : Clock) (s t : State) : Prop where
  inner : Inner (s.withClock c) t
  watch : t.calls.watch = s.calls.watch
  table : CallsOk s → CallsOk t
  live : CallsOk s → ClaimsOk s → ClaimsOk t

theorem Clocked.then {c : Clock} {s t u : State} (a : Clocked c s t) (b : Keeps t u) : Clocked c s u :=
  ⟨a.inner.trans b.toInner, b.watch.trans a.watch, b.table ∘ a.table, fun k h => b.live (a.table k) (a.live k h)⟩

theorem Keeps.clocked {s t : State} (k : Keeps s t) : Clocked s.clock s t := ⟨k.toInner, k.watch, k.table, k.live⟩

/-- A clock of the same date, with a grade above 0 when the one before had, and only then. -/
theorem Clocked.same {c : Clock} {s : State} (date : c.date = s.clock.date) (grade : c.grade = .unset ↔ s.clock.grade = .unset) :
    Clocked c s (s.withClock c) where
  inner := .refl _
  watch := rfl
  table h := ⟨h.calls, h.services, h.date.trans date.symm, fun d hd => (h.timed d hd).trans (not_congr grade.symm),
    fun r => ⟨(h.setup r).1, grade.2 (h.setup r).2⟩⟩
  live _ h := h.thinned rfl rfl (.of_eq rfl) (.inl rfl)

/-- A fresh build for the date of a clock, the Edition Store having activated a timetable or not. -/
theorem Clocked.fresh {c : Clock} {s t : State} (k : Keeps (s.withClock c) t)
    (run : CallsOk s → s.setup.running = true) : Clocked c s (buildTable .fresh t) where
  inner := k.toInner.trans (buildTable_inner .fresh t)
  watch := by rw [buildTable_calls]; exact k.watch
  table h := (buildTable_fresh_ok (k.setup ▸ run h)).1
  live h _ := (buildTable_fresh_ok (k.setup ▸ run h)).2

theorem CallsOk.running {s : State} (h : CallsOk s) (grade : s.clock.grade ≠ .unset) : s.setup.running = true := by
  by_contra off
  exact grade (h.setup (by simpa using off)).2

theorem clockTenth_clocked (s : State) : Clocked s.clock.afterTenth s (clockTenth s) := by
  have g : s.clock.tickOn.grade = s.clock.grade := rfl
  have t : s.clock.tickOn.tenths = s.clock.tenths := rfl
  have e : s.clock.tickOn.second = s.clock.second := rfl
  unfold Clock.afterTenth
  simp only [clockTenth, g, t, e]
  split
  · exact .same rfl Iff.rfl
  · next grade =>
    split
    · exact .same rfl Iff.rfl
    · split
      · have start : Clocked _ s (s.withClock { s.clock.tickOn with second := s.clock.second + 1, tenths := 0 }) := .same rfl Iff.rfl
        exact start.then ((evalAll_keeps _).trans (secondsToLists_keeps _))
      · exact (Clocked.fresh (rolloverCheck_keeps _) fun h => h.running grade).then (secondsToLists_keeps _)

theorem age_clocked (s : State) : Clocked s.clock.aged s (age s) := by
  unfold Clock.aged age
  split
  · next due =>
    simp only [Clock.ageDue, Bool.and_eq_true, decide_eq_true_eq] at due
    have start : Clocked _ s (s.withClock { s.clock with grade := .hostAged }) := .same rfl (by simp [due.1])
    exact start.then (secondsToLists_keeps _)
  · exact .same rfl Iff.rfl

theorem stepClock_clocked {c : Clock} {s : State} (grade : c.grade ≠ .unset) (run : s.setup.running = true) :
    Clocked c s (stepClock c s) := by
  unfold stepClock stepTaken
  split
  · next date =>
    have start : Clocked c s (if s.clock.grade = .unset then estimateCalls (s.withClock c) else s.withClock c) := by
      split
      · exact ⟨estimateCalls_inner _, (estimateCalls_calls _).2.2, fun h => estimateCalls_table h date.symm grade run,
          fun _ h => estimateCalls_live (h.thinned rfl rfl (.of_eq rfl) (.inl rfl))⟩
      · next before => exact .same date.symm (by simp [grade, before])
    exact start.then ((evalAll_keeps _).trans (secondsToLists_keeps _))
  · exact (Clocked.fresh (.refl _) fun _ => run).then (secondsToLists_keeps _)

theorem considerAdoption_clocked (station : Nat) (f : AnnounceFields) {s : State} (run : s.setup.running = true) :
    Clocked (s.clock.considering f) s (considerAdoption station f s) := by
  unfold Clock.considering considerAdoption
  split
  · exact (stepClock_clocked (by simp [adoptedClock]) run).then (raise_keeps _ _)
  · exact .same rfl Iff.rfl

end Sys2Proof.Machine
end

