-- ==== Sys2Proof/Proofs/SharedOperations.lean ====
section
/-! SUPPORT. The four laws through the Line Controller's events (R81 to R99), the Treadle Unit (R63 to R76), and the commands of the
sale, the board, the bulletins and the notices. -/

namespace Sys2Proof.Machine

/-! ### The sale -/

/-- A sale record replaced, or a sale issued: what the money laws and the Claim List ask of the Sale Unit after it. -/
theorem saleUnit_lawful {s t : State} {r r' : SaleRecord} (m : Moves s t) (o : OnSale s t) (claims : t.claims = s.claims)
    (peers : t.line.peers = s.line.peers) (sale : s.sales.sale = some r) (after : t.sales.sale = some r')
    (space : r'.stage = .issuing ∨ (r.stage ≠ .issuing ∧ r'.space = r.space)) (money : MoneyOk s → MoneyOk t) : Lawful s t := by
  obtain ⟨_, _, _, _, _, rfl⟩ := o
  refine { m with
    peers := fun h => h.congr rfl rfl peers rfl
    money := money
    table := fun h => h.congr rfl rfl rfl rfl
    live := fun _ h => ⟨by rw [claims]; exact h.keys, by rw [claims]; exact h.live, fun q x hq hst hx => ?_⟩ }
  rw [after, Option.some.injEq] at hq
  subst hq
  rcases space with e | ⟨st, e⟩
  · exact absurd e hst
  · exact h.sale r x sale st (e ▸ hx)

/-- The money laws with another record of a sale that is not in ISSUING. -/
theorem MoneyOk.setSale {s : State} (h : MoneyOk s) {r : SaleRecord} (open' : r.stage ≠ .issuing)
    (before : r.stage = .quoted ∨ r.stage = .claiming → r.credit = 0)
    (paying : r.stage = .paying → r.credit < r.quote.quote) : MoneyOk (setSale (some r) s) :=
  ⟨by rintro _ ⟨⟩; exact before, by rintro _ ⟨⟩; exact paying, by rintro _ ⟨⟩ e; exact absurd e open', h.rising, h.numbered,
    h.void⟩

/-- Entry to ISSUING with the quote met: the new record closes the journal under the highest serial (R139, R144). -/
theorem MoneyOk.enterIssuing {s : State} (h : MoneyOk s) {r : SaleRecord} (met : r.quote.quote ≤ r.credit) :
    MoneyOk (enterIssuing r s) := by
  have sales := enterIssuing_sales r s
  have setup : (Machine.enterIssuing r s).setup = s.setup := by
    obtain ⟨_, _, _, _, _, e⟩ := enterIssuing_onSale r s
    rw [e]
  refine ⟨?_, ?_, ?_, ?_, ?_, ?_⟩
  all_goals rw [sales]; simp only
  · rintro _ ⟨⟩ e
    simp at e
  · rintro _ ⟨⟩ ⟨⟩
  · rintro _ ⟨⟩ -
    exact ⟨by simp only; omega, rfl, _, List.getLast?_concat .., rfl, rfl, rfl, rfl⟩
  · refine List.pairwise_append.2 ⟨h.rising, List.pairwise_singleton _ _, fun a ha b hb => ?_⟩
    rw [List.mem_singleton.1 hb]
    exact (h.numbered a ha).2
  · intro j hj
    rw [setup]
    rcases List.mem_append.1 hj with k | k
    · exact ⟨(h.numbered j k).1, (h.numbered j k).2.trans (by omega)⟩
    · rw [List.mem_singleton.1 k]
      simp only [journalRecordOf, own]
      omega
  · intro j hj v
    rcases List.mem_append.1 hj with k | k
    · exact h.void j k v
    · rw [List.mem_singleton.1 k] at v
      cases v

theorem enterIssuing_peers (r : SaleRecord) (s : State) : (enterIssuing r s).line.peers = s.line.peers := by
  simp only [enterIssuing]
  split <;> rfl

theorem enterIssuing_claims (r : SaleRecord) (s : State) : (enterIssuing r s).claims = s.claims := by
  simp only [enterIssuing]
  split <;> rfl

/-- An accepted sale's room for its record and its serial (R136). -/
def RoomToIssue (s : State) : Prop := SaleOk s →
  s.sales.journal.length < Config.journalCapacity ∧ s.sales.serialCounter < Config.maxSerial

theorem enterIssuing_lawful {r r₀ : SaleRecord} {s : State} (sale : s.sales.sale = some r₀) (room : RoomToIssue s)
    (met : r.quote.quote ≤ r.credit) : Lawful s (enterIssuing r s) :=
  saleUnit_lawful (enterIssuing_moves r s (by simp [sale]) room) (enterIssuing_onSale r s) (enterIssuing_claims r s)
    (enterIssuing_peers r s) sale (by rw [enterIssuing_sales]) (.inl rfl) (fun h => h.enterIssuing met)

theorem setSale_lawful {r r₀ : SaleRecord} {s : State} (sale : s.sales.sale = some r₀) (stage : r₀.stage ≠ .issuing)
    (room : RoomToIssue s) (space : r.space = r₀.space) (open' : r.stage ≠ .issuing)
    (before : r.stage = .quoted ∨ r.stage = .claiming → r.credit = 0)
    (paying : r.stage = .paying → r.credit < r.quote.quote) : Lawful s (setSale (some r) s) :=
  saleUnit_lawful (setSale_moves r s (by simp [sale]) fun o _ => room o) (setSale_onSale _ s) rfl rfl sale rfl
    (.inr ⟨stage, space⟩) (fun h => h.setSale open' before paying)

theorem enterPaying_lawful {r r₀ : SaleRecord} {s : State} (sale : s.sales.sale = some r₀) (stage : r₀.stage ≠ .issuing)
    (room : RoomToIssue s) (space : r.space = r₀.space) : Lawful s (enterPaying r s) := by
  refine Lawful.ite (fun met => enterIssuing_lawful sale room met) (fun unmet => ?_)
  exact setSale_lawful sale stage room space (by simp) (by simp) (fun _ => by simpa using unmet)

/-- A CLAIMING or PAYING sale has kept its room and a serial (R136). -/
theorem roomToIssue_of_unissued {s : State} {r : SaleRecord} (sale : s.sales.sale = some r) (h : r.unissued) : RoomToIssue s :=
  fun o => o.room r sale h

theorem decideGrant_lawful (seq position : Nat) (s : State) : Lawful s (decideGrant seq position s) := by
  have granted : Keeps s (updateClaim (own s) seq (fun x => { x with state := .granted, position := some position }) s) :=
    updateClaim_keeps _ _ (f := fun x => { x with state := .granted, position := some position }) (fun _ => rfl) s
  unfold decideGrant
  split
  · refine Lawful.ite (fun _ => Lawful.ite (fun _ => ?_) (fun _ => ?_)) (fun _ => .refl s)
    · split
      · next r claiming =>
        obtain ⟨sale, stage⟩ := claimingWith_some claiming
        exact granted.lawful.trans (enterPaying_lawful (r₀ := r) sale (by simp [stage])
          (roomToIssue_of_unissued (s := updateClaim _ _ _ s) sale (.inl stage)) rfl)
      · exact granted.lawful
    · split
      · exact (((removeClaim_keeps _ _ s).trans (hand_keeps _ _)).trans (abortSale_keeps _ _)).lawful
      · exact ((removeClaim_keeps _ _ s).trans (hand_keeps _ _)).lawful
  · exact .refl s

theorem payingSale_some {s : State} {r : SaleRecord} (h : payingSale s = some r) :
    s.sales.sale = some r ∧ r.stage = .paying := by
  unfold payingSale at h
  split at h
  · split at h
    · next sale paying => cases h; exact ⟨sale, paying⟩
    · cases h
  · cases h

theorem saleCredit_lawful (n : Nat) (s : State) : Lawful s (saleCredit n s).2 := by
  unfold saleCredit
  split
  · exact .refl s
  · next r paying =>
    obtain ⟨sale, stage⟩ := payingSale_some paying
    have room := roomToIssue_of_unissued sale (.inr stage)
    split
    · exact .refl s
    · simp only [takeCredit]
      split
      · next below => exact setSale_lawful sale (by simp [stage]) room rfl (by simp [stage]) (by simp [stage]) (fun _ => below)
      · next met => exact enterIssuing_lawful sale room (by simpa using met)

theorem saleHold_lawful (n : Nat) (s : State) : Lawful s (saleHold n s).2 := by
  unfold saleHold
  split
  · exact .refl s
  · next r paying =>
    obtain ⟨sale, stage⟩ := payingSale_some paying
    have held : (r.held n s.clock.tick).stage = .paying ∧ (r.held n s.clock.tick).space = r.space ∧
        (r.held n s.clock.tick).credit = r.credit ∧ (r.held n s.clock.tick).quote = r.quote := by
      unfold SaleRecord.held
      split <;> simp [stage]
    obtain ⟨hst, hsp, hcr, hq⟩ := held
    split
    · exact .refl s
    · have room := roomToIssue_of_unissued sale (.inr stage)
      refine saleUnit_lawful (setSale_moves _ s (by simp [sale]) fun o _ => room o) (setSale_onSale _ s) rfl rfl sale rfl
        (.inr ⟨by simp [stage], hsp⟩) fun h => h.setSale (by simp [hst]) (by simp [hst]) fun _ => ?_
      rw [hcr, hq]
      exact h.paying r sale stage

theorem saleCancel_keeps (s : State) : Keeps s (saleCancel s).2 := by
  unfold saleCancel
  split
  · exact .refl s
  · split
    · exact .refl s
    · exact abortSale_keeps _ s

theorem voidRecord_serial (n : Option Nat) (credit : Nat) (j : JournalRecord) : (voidRecord n credit j).serial = j.serial := by
  unfold voidRecord
  split <;> rfl

/-- A failed print makes a journal record VOID, without change, and closes the sale (R140). -/
theorem printFailed_lawful {r : SaleRecord} {s : State} (sale : s.sales.sale = some r) : Lawful s (printFailed r s) := by
  have voided : Moves s (voidJournal r s) :=
    Moves.sales' (fun o => ⟨by simpa using o.journal, o.serial, by simpa using o.room, o.setup⟩) (Nat.le_refl _) id
  have close := closeSale_keeps .void false { r with refund := r.credit, change := 0 } (voidJournal r s)
  have sales : (printFailed r s).sales = { (voidJournal r s).sales with sale := none } := by
    rcases close.sales with e | e
    · have : (printFailed r s).sales.sale = some r := by rw [printFailed, e]; exact sale
      rw [printFailed, closeSale_sale] at this
      cases this
    · exact e
  refine { voided.trans close.toMoves with
    peers := close.lawful.peers ∘ fun h => h.congr rfl rfl rfl rfl
    table := close.table ∘ fun h => h.congr rfl rfl rfl rfl
    money := fun h => ⟨by simp [sales], by simp [sales], by simp [sales], ?_, ?_, ?_⟩
    live := fun c h => ?_ }
  · rw [sales]
    simp only [voidJournal, State.withSales_sales, List.pairwise_map, voidRecord_serial]
    exact h.rising
  · rw [sales, printFailed, close.setup]
    simp only [voidJournal, State.withSales_sales, List.mem_map, State.withSales_setup, forall_exists_index, and_imp]
    rintro _ j hj rfl
    rw [voidRecord_serial]
    exact h.numbered j hj
  · rw [sales]
    simp only [voidJournal, State.withSales_sales, List.mem_map, forall_exists_index, and_imp]
    rintro _ j hj rfl
    unfold voidRecord
    split
    · exact fun _ => rfl
    · exact h.void j hj
  · refine close.live (c.congr rfl rfl rfl rfl) ⟨h.keys, h.live, fun q x hq hst hx => h.sale q x hq hst hx⟩

theorem salePrinted_lawful (ok : Bool) (s : State) : Lawful s (salePrinted ok s).2 := by
  unfold salePrinted
  split
  · exact .refl s
  · next r sale =>
    split
    · exact .refl s
    · exact Lawful.ite (fun _ => (closeSale_keeps _ _ r s).lawful) (fun _ => printFailed_lawful sale)

/-- Records released from the old end: the newest stays while a sale is in ISSUING (R146). -/
theorem journalRelease_lawful (n : Nat) (s : State) : Lawful s (journalRelease n s).2 := by
  unfold journalRelease
  split
  · exact .refl s
  · next count =>
    split
    · exact .refl s
    · next open' =>
      have moved : Moves s (s.withSales { s.sales with journal := s.sales.journal.drop n }) :=
        Moves.sales' (fun o => ⟨by have := o.journal; simp; omega, o.serial,
          fun r e u => by have := o.room r e u; simp; omega, o.setup⟩) (Nat.le_refl _) id
      refine { moved with
        peers := fun h => h.congr rfl rfl rfl rfl
        table := fun h => h.congr rfl rfl rfl rfl
        live := fun _ h => ⟨h.keys, h.live, h.sale⟩
        money := fun h => ⟨h.before, h.paying, fun r sale stage => ?_, h.rising.sublist (List.drop_sublist _ _),
          fun j hj => h.numbered j (List.mem_of_mem_drop hj), fun j hj => h.void j (List.mem_of_mem_drop hj)⟩ }
      obtain ⟨money, refund, j, last, rest⟩ := h.issuing r sale stage
      have remains : n < s.sales.journal.length := by
        have inSale : issuing s = true := issuing_iff.2 ⟨r, sale, stage⟩
        simp only [inSale, Bool.true_and, decide_eq_true_eq] at open'
        omega
      refine ⟨money, refund, j, ?_, rest⟩
      rw [← last, State.withSales_sales, List.getLast?_drop, if_neg (by omega)]

theorem quoteExpired_keeps (s : State) : Keeps s (quoteExpired s) := by
  unfold quoteExpired
  split
  · exact Keeps.ite (fun _ => abortSale_keeps _ s) (fun _ => .refl s)
  · exact .refl s

theorem paymentExpired_keeps (s : State) : Keeps s (paymentExpired s) := by
  unfold paymentExpired
  split
  · exact Keeps.ite (fun _ => abortSale_keeps _ s) (fun _ => .refl s)
  · exact .refl s

theorem claimExpired_keeps (origin seq : Nat) (s : State) : Keeps s (claimExpired origin seq s) := by
  unfold claimExpired
  split
  · exact Keeps.ite (fun _ => removeClaim_keeps _ _ s) (fun _ => .refl s)
  · exact .refl s

/-! ### Sending -/

theorem countFrame_lawful (s : State) : Lawful s (countFrame s) := OnLine.lawful ⟨_, _, rfl⟩ (countFrame_moves s) rfl

theorem lowerFresh_lawful (s : State) : Lawful s (lowerFresh s) := OnLine.lawful ⟨_, _, rfl⟩ (lowerFresh_moves s) rfl

theorem announce_lawful (s : State) : Lawful s (announce s) :=
  (announce_onLine s).lawful (announce_moves s) (((hand_inner _ s).trans (draw_inner 11 _)).peers)

theorem tellCompleted_lawful (f : TxFrame) (s : State) : Lawful s (tellCompleted f s) := by
  unfold tellCompleted
  split
  · exact decideGrant_lawful _ _ s
  · exact (segReqCompleted_keeps _ _ s).lawful
  · exact lowerFresh_lawful s
  · exact .refl s

theorem complete_lawful (s : State) : Lawful s (complete s) := by
  unfold complete
  split
  · exact (countFrame_lawful s).trans ((dropCurrent_keeps _).lawful.trans (tellCompleted_lawful _ _))
  · exact .refl s

/-! ### The peer table and the watch view -/

/-- The watch view formed again after a change of the sensors or the peers that keeps the stations of the peer table. -/
theorem updateWatch_after {s u : State} (m : Moves s u) (calls : u.calls = s.calls) (claims : u.claims = s.claims)
    (sales : u.sales = s.sales) (stations : u.line.peers.map (·.station) = s.line.peers.map (·.station)) :
    Lawful s (updateWatch u) := by
  have w := updateWatch_lawful u
  have table : CallsOk s → CallsOk u := fun h => h.congr m.setup m.clock (by rw [calls]) (by rw [calls])
  exact { m.trans w.toMoves with
    peers := fun h => updateWatch_peers (by rw [stations, m.setup]; exact h.entries)
    money := fun h => w.money (h.closed m.setup (.inl sales))
    table := w.table ∘ table
    live := fun c h => w.live (table c) (h.thinned (by rw [calls]) (by rw [calls]) (.of_eq claims) (.inl sales)) }

theorem updatePeer_stations {n : Nat} {f : Peer → Peer} (h : ∀ p, p.station = n → (f p).station = p.station) (s : State) :
    (updatePeer n f s).line.peers.map (·.station) = s.line.peers.map (·.station) := by
  simp only [updatePeer, State.withLine_line, List.map_map]
  refine List.map_congr_left fun p _ => ?_
  simp only [Function.comp]
  split
  · next here => exact h p here
  · rfl

theorem movePeer_lawful {old new : Peer} (same : new.station = old.station) (s : State) : Lawful s (movePeer old new s) := by
  have stations := updatePeer_stations (n := old.station) (f := fun _ => new) (fun p e => same.trans e.symm) s
  have m : Lawful s (updateWatch (if old.state = new.state then updatePeer old.station (fun _ => new) s
      else raise (.peerChange old.station old.state new.state) (updatePeer old.station (fun _ => new) s))) := by
    split
    · exact updateWatch_after (updatePeer_moves _ _ s) rfl rfl rfl stations
    · exact updateWatch_after ((updatePeer_moves _ _ s).trans (raise_moves _ _)) rfl rfl rfl stations
  simp only [movePeer]
  exact Lawful.ite (fun _ => m.trans (abandonPullsFrom_keeps _ _).lawful) (fun _ => m)

/-- A peer's entry changed in nothing that the watch view reads. -/
theorem updatePeer_lawful {n : Nat} {f : Peer → Peer}
    (h : ∀ p, (f p).station = p.station ∧ (f p).contribution = p.contribution) (s : State) : Lawful s (updatePeer n f s) := by
  have watch : watchView s.treadles (updatePeer n f s).line.peers = watchView s.treadles s.line.peers := by
    simp only [updatePeer, State.withLine_line, watchView, List.foldl_map]
    congr 1
    funext acc p
    split
    · rw [(h p).2]
    · rfl
  exact { updatePeer_moves n f s with
    peers := fun o => ⟨by rw [updatePeer_stations fun p _ => (h p).1]; exact o.entries,
      fun r => (o.watch r).trans watch.symm⟩
    money := fun o => o.closed rfl (.inl rfl)
    table := fun o => o.congr rfl rfl rfl rfl
    live := fun _ o => o.thinned rfl rfl (.of_eq rfl) (.inl rfl) }

/-! ### Receiving -/

theorem tellEmptied_keeps (q : List TxFrame) (s : State) : Keeps s (tellEmptied q s) :=
  Keeps.foldl (fun t f => tellAbandoned_keeps f t) q s

theorem clash_lawful (s : State) : Lawful s (clash s) := by
  have raised : Lawful s (raiseClash s) := OnBoard.lawful ⟨_, _, _, rfl⟩ (raiseClash_moves s)
  have emptied : ∀ t : State, Lawful t (t.withLine { t.line with queue := [], condition := .noFrame, muted := true }) := fun t =>
    OnLine.lawful ⟨_, _, rfl⟩ (Moves.line' (fun ok => ⟨by simp, by simp, by simp, ok.seq, ok.received, .nil⟩) fun _ => rfl) rfl
  simp only [clash]
  exact Lawful.ite (fun _ => raised) (fun _ => raised.trans ((emptied _).trans (tellEmptied_keeps _ _).lawful))

theorem findPeer_station {s : State} {n : Nat} {p : Peer} (h : findPeer s n = some p) : p.station = n := by
  simpa using List.find?_some h

theorem takeFrame_lawful (h : FrameHead) (handOn : State → State) (s : State)
    (m : ∀ t, t.setup = s.setup → Lawful t (handOn t)) : Lawful s (takeFrame h handOn s) := by
  unfold takeFrame
  refine Lawful.ite (fun _ => clash_lawful s) (fun _ => ?_)
  split
  · exact .refl s
  · next p _ =>
    refine Lawful.ite (fun _ => updatePeer_lawful (f := fun x => { x with lastHeard := s.clock.tick }) (fun _ => ⟨rfl, rfl⟩) s)
      (fun _ => ?_)
    have moved : Lawful s (movePeer p (p.accepted s.clock.tick) s) :=
      movePeer_lawful (old := p) (new := p.accepted s.clock.tick) rfl s
    exact moved.trans (m _ moved.setup)

theorem receive_lawful (h : FrameHead) (wf : Bool) (handOn : State → State) (s : State)
    (m : ∀ t, t.setup.running = true → Lawful t (handOn t)) : Lawful s (receive h wf handOn s) := by
  unfold receive
  refine Lawful.ite (fun c => ?_) (fun _ => .refl s)
  simp only [Bool.and_eq_true] at c
  exact (countFrame_lawful s).trans (takeFrame_lawful h handOn _ fun t e => m t (by rw [e, (countFrame_lawful s).setup]; exact c.1.1))

theorem handUnlessQueued_keeps (s : State) (p : Payload) : Keeps s (handUnlessQueued s p) :=
  Keeps.ite (fun _ => .refl s) (fun _ => hand_keeps p s)

theorem freshResends_keeps (s : State) : Keeps s (freshResends s) :=
  (resendReports_keeps s).trans ((Keeps.foldl handUnlessQueued_keeps _ _).trans (Keeps.foldl handUnlessQueued_keeps _ _))

theorem announceHandOn_clocked (station : Nat) (f : AnnounceFields) {s : State} (run : s.setup.running = true) :
    Clocked (s.clock.considering f) s (announceHandOn station f s) := by
  have m := (considerAdoption_clocked station f run).then
    ((considerOffer_keeps .timetable f.timetable _).trans (considerOffer_keeps .fare f.fare _))
  simp only [announceHandOn]
  split
  · exact m.then (freshResends_keeps _)
  · exact m

/-- An ANNOUNCE does what a shared operation may, and then, in RUN and well-formed, sets the clock as R7 has it. -/
theorem receiveAnnounce_cases (h : FrameHead) (f : AnnounceFields) (s : State) : Lawful s (receiveAnnounce h f s) ∨
    (f.wellFormed = true ∧ ∃ u, Lawful s u ∧ Clocked (u.clock.considering f) u (receiveAnnounce h f s)) := by
  unfold receiveAnnounce
  split
  · next c =>
    simp only [Bool.and_eq_true] at c
    have counted := countFrame_lawful s
    unfold takeAnnounce
    split
    · exact .inl (counted.trans (clash_lawful _))
    · split
      · exact .inl counted
      · next p _ =>
        split
        · exact .inl (counted.trans (movePeer_lawful (by simp [Peer.foreign]) _))
        · have moved : Lawful (countFrame s) (movePeer p ((p.announced f).accepted (countFrame s).clock.tick) (countFrame s)) :=
            movePeer_lawful (by simp [Peer.accepted, Peer.announced]) _
          refine .inr ⟨c.2, _, counted.trans moved, announceHandOn_clocked _ f ?_⟩
          rw [moved.setup, counted.setup]
          exact c.1.1
  · exact .inl (.refl s)

theorem runningHandOn_keeps (origin : Nat) (f : RunningFields) (s : State) : Keeps s (runningHandOn origin f s) := by
  unfold runningHandOn
  split
  · next i accepted =>
    refine acceptReport_keeps i s (fun unset => ?_) (bestReportOf_late f origin)
    simp [acceptedFor, unset] at accepted
  · exact .refl s

theorem claimCallHeld_live {f : ClaimFields} {s : State} (h : claimCallHeld f s = true) : OnLiveCall s f.service f.date := by
  unfold claimCallHeld at h
  simp only [Bool.and_eq_true, decide_eq_true_eq] at h
  obtain ⟨-, held⟩ := h
  split at held
  · next c at_c =>
    obtain ⟨date, mem, service⟩ := callFor_some at_c
    exact (onLiveCall_iff _ _ _).2 ⟨date, c, mem, service, by simpa using held⟩
  · cases held

/-- A claim of a new key on a live call joins the list. -/
theorem ClaimsOk.append {s : State} (h : ClaimsOk s) {c : Claim} (new : findClaim s.claims c.origin c.seq = none)
    (live : OnLiveCall s c.service c.date) : ClaimsOk (s.withClaims (s.claims ++ [c])) := by
  refine ⟨List.pairwise_append.2 ⟨h.keys, List.pairwise_singleton _ _, fun a ha b hb => ?_⟩, fun x hx => ?_, h.sale⟩
  · rw [List.mem_singleton.1 hb]
    have := List.find?_eq_none.1 new a ha
    simpa [Claim.hasKey] using this
  · rcases List.mem_append.1 hx with k | k
    · exact h.live x k
    · rw [List.mem_singleton.1 k]
      exact live

theorem takeIn_keeps {c : Claim} {s : State} (new : findClaim s.claims c.origin c.seq = none)
    (live : OnLiveCall s c.service c.date) : Keeps s (takeIn c s) := by
  refine Keeps.ite (fun room => Keeps.trans ?_ (withdrawalTest_keeps _)) (fun _ => .refl s)
  have m : Inner s (s.withClaims (s.claims ++ [c])) := Inner.claims' fun _ => by simpa using room
  exact { m with watch := rfl, table := fun h => h.congr rfl rfl rfl rfl, live := fun _ h => h.append new live }

theorem claimHandOn_keeps (origin : Nat) (f : ClaimFields) (s : State) : Keeps s (claimHandOn origin f s) := by
  unfold claimHandOn
  split
  · exact .refl s
  · next new => exact Keeps.ite (fun held => takeIn_keeps new (claimCallHeld_live held)) (fun _ => .refl s)

theorem takenHandOn_keeps (origin : Nat) (f : ClaimFields) (s : State) : Keeps s (takenHandOn origin f s) := by
  unfold takenHandOn
  split
  · exact Keeps.ite (fun _ => updateClaim_keeps _ _ (f := fun x => { x with state := .taken, heard := none }) (fun _ => rfl) s)
      (fun _ => .refl s)
  · next new => exact Keeps.ite (fun held => takeIn_keeps new (claimCallHeld_live held)) (fun _ => .refl s)

theorem segReqHandOn_keeps (origin : Nat) (f : SegReqFields) (s : State) : Keeps s (segReqHandOn origin f s) :=
  Keeps.ite (fun _ => hand_keeps _ s) (fun _ => .refl s)

theorem segmentHandOn_keeps (origin : Nat) (f : SegmentFields) {s : State} (run : s.setup.running = true) :
    Keeps s (segmentHandOn origin f s) := Keeps.ite (fun _ => segmentArrived_keeps origin f run) (fun _ => .refl s)

theorem peerSilent_lawful (n : Nat) (s : State) : Lawful s (peerSilent n s) := by
  unfold peerSilent
  split
  · next p _ => exact Lawful.ite (fun _ => movePeer_lawful (old := p) (new := p.silenced) rfl s) (fun _ => .refl s)
  · exact .refl s

theorem announceDue_lawful (s : State) : Lawful s (announceDue s) := Lawful.ite (fun _ => announce_lawful s) (fun _ => .refl s)

theorem resendDue_lawful (s : State) : Lawful s (resendDue s) := by
  refine Lawful.ite (fun _ => Lawful.trans ?_ (resendReports_keeps _).lawful) (fun _ => .refl s)
  exact { Moves.calls' (x := { s.calls with resend := some (timerFrom s.clock.tick 60) }) id with
    peers := fun h => h.congr rfl rfl rfl rfl, money := fun h => h.closed rfl (.inl rfl)
    table := fun h => h.congr rfl rfl rfl rfl, live := fun _ h => h.thinned rfl rfl (.of_eq rfl) (.inl rfl) }

theorem pullWaitDue_keeps (k : TableKind) (s : State) : Keeps s (pullWaitDue k s) :=
  Keeps.ite (fun _ => beginPull_keeps k s) (fun _ => .refl s)

theorem replyDue_keeps (k : TableKind) (s : State) : Keeps s (replyDue k s) :=
  Keeps.ite (fun _ => requestExpired_keeps k s) (fun _ => .refl s)

/-! ### The Treadle Unit -/

/-- A pair covers by its configuration and by not being FAULTY (R62). -/
theorem Pair.coverage_congr {x y : Pair} (config : x.config = y.config) (faulty : x.state = .faulty ↔ y.state = .faulty) :
    x.coverage = y.coverage := by
  simp [Pair.coverage, Pair.covers, config, faulty, bne_iff_ne]

theorem setPair_lawful {p : PairId} {x : Pair} {s : State} (config : x.config = (pairAt s p).config)
    (faulty : x.state = .faulty ↔ (pairAt s p).state = .faulty) : Lawful s (setPair p x s) := by
  have cover := Pair.coverage_congr config faulty
  have watch : watchView (setPair p x s).treadles s.line.peers = watchView s.treadles s.line.peers := by
    have own : ownCoverage (setPair p x s).treadles = ownCoverage s.treadles := by
      cases p
      · exact congrArg (·.or s.treadles.pairB.coverage) cover
      · exact congrArg s.treadles.pairA.coverage.or cover
    rw [watchView, watchView, own]
  exact { setPair_moves p x s config with
    peers := fun h => ⟨h.entries, fun r => (h.watch r).trans watch.symm⟩
    money := fun h => h.closed rfl (.inl rfl)
    table := fun h => h.congr rfl rfl rfl rfl
    live := fun _ h => h.thinned rfl rfl (.of_eq rfl) (.inl rfl) }

@[simp] theorem pairAt_setPair (p : PairId) (x : Pair) (s : State) : pairAt (setPair p x s) p = x := by cases p <;> rfl

@[simp] theorem Pair.setHead_state (x : Pair) (h : HeadId) (v : HeadInput) : (x.setHead h v).state = x.state := by
  cases h <;> rfl

theorem setInput_lawful (p : PairId) (h : HeadId) (active : Bool) (s : State) : Lawful s (setInput p h active s) :=
  setPair_lawful (by simp) (by simp)

theorem settle_lawful (p : PairId) (h : HeadId) (active : Bool) (s : State) : Lawful s (settle p h active s) :=
  setPair_lawful (by simp) (by simp)

theorem observe_keeps (p : PairId) (c : PairConfig) (m : Measurement) (s : State) : Keeps s (observe p c m s).2 := by
  unfold observe
  split
  · exact approachObserved_keeps _ s
  · exact departureObserved_keeps _ _ s

theorem raiseObservation_lawful (p : PairId) (c : PairConfig) (m : Measurement) (s : State) :
    Lawful s (raiseObservation p c m s) := by
  have kept : Lawful s (keepMatch p (observe p c m s).1 (observe p c m s).2) :=
    (observe_keeps p c m s).lawful.trans (setPair_lawful rfl Iff.rfl)
  simp only [raiseObservation]
  exact Lawful.ite (fun _ => kept) (fun _ => kept.trans (hand_keeps _ _).lawful)

theorem enterPassage_lawful {p : PairId} {x : Pair} {m : Measurement} {s : State} (config : x.config = (pairAt s p).config)
    (timing : (pairAt s p).state = .timing) : Lawful s (enterPassage p x m s) := by
  unfold enterPassage
  exact (setPair_lawful (by exact config) (by simp [timing])).trans (raiseObservation_lawful _ _ _ _)

theorem passagePulse_lawful (p : PairId) (h : HeadId) (count : Nat) (s : State) : Lawful s (passagePulse p h count s) := by
  simp only [passagePulse]
  split
  · next quiet => exact setPair_lawful rfl (by simp [Pair.startPassage, quiet])
  · next timing => exact Lawful.ite (fun _ => setPair_lawful rfl Iff.rfl) (fun _ => enterPassage_lawful rfl timing)
  · exact setPair_lawful rfl Iff.rfl
  · exact .refl s

theorem headPulse_lawful (p : PairId) (h : HeadId) (count : Nat) (s : State) : Lawful s (headPulse p h count s) := by
  simp only [headPulse]
  refine Lawful.ite (fun _ => ?_) (fun _ => .refl s)
  exact Lawful.ite (fun _ => (settle_lawful p h true s).trans (passagePulse_lawful _ _ _ _)) (fun _ => settle_lawful p h true s)

theorem headReturn_lawful (p : PairId) (h : HeadId) (s : State) : Lawful s (headReturn p h s) :=
  Lawful.ite (fun _ => settle_lawful p h false s) (fun _ => .refl s)

theorem counterOverflow_lawful (p : PairId) (s : State) : Lawful s (counterOverflow p s) :=
  Lawful.ite (fun timing => enterPassage_lawful rfl timing) (fun _ => .refl s)

theorem raisePassage_keeps (p : PairId) (x : Pair) (s : State) : Keeps s (raisePassage p x s) := by
  unfold raisePassage
  split
  · exact raise_keeps _ s
  · exact .refl s

theorem raisePassage_onBoard (p : PairId) (x : Pair) (s : State) : OnBoard s (raisePassage p x s) := by
  unfold raisePassage
  split
  · exact ⟨_, _, _, rfl⟩
  · exact .refl s

/-- At the end of a passage the pair covers on, or the watch view is formed again without it (R67, R68). -/
theorem quietExpired_lawful (p : PairId) (s : State) : Lawful s (quietExpired p s) := by
  refine Lawful.ite (fun due => ?_) (fun _ => .refl s)
  simp only [Bool.and_eq_true, decide_eq_true_eq] at due
  have ended : Moves s (setPair p (pairAt s p).ended s) := setPair_moves p (pairAt s p).ended s rfl
  have told := ended.trans (raisePassage_moves p (pairAt s p) (setPair p (pairAt s p).ended s))
  have board := raisePassage_onBoard p (pairAt s p) (setPair p (pairAt s p).ended s)
  simp only [endPassage]
  refine Lawful.ite (fun _ => ?_) (fun covers => ?_)
  · refine updateWatch_after (told.trans (raise_moves _ _)) board.calls board.claims board.sales ?_
    obtain ⟨_, _, _, e⟩ := board
    rw [e]
    rfl
  · have same : Lawful s (setPair p (pairAt s p).ended s) := setPair_lawful rfl (by simp [covers, due.1])
    exact same.trans (raisePassage_keeps _ _ _).lawful

theorem enablePair_lawful (pair : Nat) (s : State) : Lawful s (enablePair pair s).2 := by
  unfold enablePair
  split
  · exact .refl s
  · next p _ =>
    split
    · exact updateWatch_after (setPair_moves p (pairAt s p).restored s rfl) rfl rfl rfl rfl
    · exact .refl s

theorem readPair_lawful (pair : Nat) (s : State) : Lawful s (readPair pair s).2 := by
  unfold readPair
  split
  · exact .refl s
  · exact setPair_lawful rfl Iff.rfl

/-! ### Reports, bulletins, the board and the notices -/

theorem reportRunning_keeps (f : RunningFields) (s : State) : Keeps s (reportRunning f s).2 := by
  unfold reportRunning
  split
  · exact .refl s
  · next i ok =>
    have grade : s.clock.grade ≠ .unset := fun unset => by simp [reportCheck, unset] at ok
    refine Keeps.trans (acceptReport_keeps i s grade (bestReportOf_late f (own s))) ?_
    simp only [sendReport]
    split
    · exact hand_keeps _ _
    · exact .refl _

theorem postToList_inner (b : Bulletin) (s : State) : Inner s (postToList b s).2 := by
  unfold postToList
  split
  · next old found => exact replaceBulletin_inner old b s (findBulletin_id found).1.symm (findBulletin_id found).2.symm
  · next new => exact addBulletin_inner b s new

theorem postToList_onBoard (b : Bulletin) (s : State) : OnBoard s (postToList b s).2 := by
  unfold postToList
  split
  · exact replaceBulletin_onBoard _ b s
  · exact addBulletin_onBoard b s

theorem postBulletin_lawful (kind : Nat) (a b : Instant) (text : Text) (s : State) : Lawful s (postBulletin kind a b text s).2 := by
  unfold postBulletin
  split
  · exact .refl s
  · split
    · exact .refl s
    · split
      · simp only [postAccepted]
        refine Lawful.trans ?_ (hand_keeps _ _).lawful
        have counted : Lawful s (s.withBulletins { s.bulletins with counter := nextNumber s.bulletins.counter }) :=
          OnBoard.lawful ⟨_, _, _, rfl⟩ (Moves.bulletins' id)
        exact counted.trans ((postToList_onBoard _ _).keeps (postToList_inner _ _)).lawful
      · exact .refl s

theorem withdrawBulletin_keeps (origin n : Nat) (s : State) : Keeps s (withdrawBulletin origin n s).2 := by
  unfold withdrawBulletin
  split
  · exact .refl s
  · split
    · exact .refl s
    · refine Keeps.trans ?_ (hand_keeps _ _)
      unfold withdrawHeld
      split
      · exact (removeBulletin_onBoard _ _ s).keeps (removeBulletin_inner _ _ s)
      · exact .refl s

/-- The board replaced by one of the same configuration. -/
theorem withBoard_lawful {s : State} {b : Board} (h : b.config = s.board.config) : Lawful s (s.withBoard b) :=
  OnBoard.lawful ⟨_, _, _, rfl⟩ (Moves.board h)

theorem recompose_lawful {s : State} {b : Board} (h : b.config = s.board.config) : Lawful s (compose (s.withBoard b)) :=
  (withBoard_lawful h).trans (compose_keeps _).lawful

theorem lampTest_lawful (n : Nat) (s : State) : Lawful s (lampTest n s).2 := by
  unfold lampTest
  split
  · exact .refl s
  · exact withBoard_lawful rfl

theorem brightness_lawful (n : Nat) (s : State) : Lawful s (brightness n s).2 := by
  unfold brightness
  split
  · exact .refl s
  · exact recompose_lawful rfl

theorem rotate_lawful (s : State) : Lawful s (rotate s) := Lawful.ite (fun _ => recompose_lawful rfl) (fun _ => .refl s)

theorem warningExpired_lawful (d : Direction) (s : State) : Lawful s (warningExpired d s) :=
  Lawful.ite (fun _ => recompose_lawful (setWarning_rest _ _ _).1) (fun _ => .refl s)

theorem lampExpired_lawful (s : State) : Lawful s (lampExpired s) :=
  Lawful.ite (fun _ => recompose_lawful rfl) (fun _ => .refl s)

theorem endSend_lawful (s : State) : Lawful s (endSend s) := Lawful.ite (fun _ => withBoard_lawful rfl) (fun _ => .refl s)

/-- The notices replaced by ones in order. -/
theorem withNotices_lawful {s : State} {n : Notices} (h : NoticesOk s.notices → NoticesOk n) : Lawful s (s.withNotices n) :=
  OnBoard.lawful ⟨_, _, _, rfl⟩ (Moves.notices' h)

theorem noticeRead_lawful (s : State) : Lawful s (noticeRead s).2 :=
  withNotices_lawful fun h => .refresh (by have := h.queue; simp; omega) (by simp) h.mask h.suspension h.clash

theorem noticeMask_lawful {flags : List Bool} (h : maskLengthOk flags = true) (s : State) : Lawful s (noticeMask flags s).2 :=
  withNotices_lawful fun o => .refresh o.queue o.drops (by simpa [maskLengthOk] using h) o.suspension o.clash

theorem noticeAck_lawful (kind n : Nat) (s : State) : Lawful s (noticeAck kind n s).2 := by
  unfold noticeAck
  split
  · simp only [ackLatch]
    split
    · exact .refl s
    · split
      · next c _ _ _ =>
        cases c
        all_goals exact withNotices_lawful fun h => .refresh h.queue h.drops h.mask h.suspension h.clash
      · exact .refl s
  · exact .refl s

end Sys2Proof.Machine
end

