-- ==== Sys2Proof/Proofs/StepEffects.lean ====
section
/-! SUPPORT. What a step can do, said once: `Effect c s t` lists what the command c may make of a state. -/

namespace Sys2Proof

/-! ### The list -/

/-- A command that carries SET_TIME: itself, or the raw bytes of a transaction. -/
def Instr.MaySetTime (c : Instr) : Prop := (∃ tag d h, c = .setTime tag d h) ∨ ∃ bs, c = .unknownCommandFrame bs

/-- A command that carries an ANNOUNCE: itself, or the raw bytes of a frame. -/
def Instr.MayAnnounce (c : Instr) : Prop := (∃ h f, c = .announceReceived h f) ∨ ∃ bs, c = .malformedFrame bs

/-- A command that resets the part but for serial counter and overlay (R184). -/
def Instr.MayReset (c : Instr) : Prop := (∃ x, c = .pinReset x) ∨ (∃ tag x, c = .reset tag x) ∨ ∃ bs, c = .unknownCommandFrame bs

end Sys2Proof

namespace Sys2Proof.Machine

/-- How a command moves the clock (R2 to R7). -/
inductive ClockMove (c : Instr) (old : Clock) : Clock → Prop
  | tenth : ClockMove c old old.afterTenth
  | aged : ClockMove c old old.aged
  | set {rm : Nat} {date : Date} {time : ClockTime} (valid : setTimeValid rm date time = true) (by' : c.MaySetTime) :
      ClockMove c old (hostClock rm date time old)
  | considered {f : AnnounceFields} (wf : f.wellFormed = true) (by' : c.MayAnnounce) : ClockMove c old (old.considering f)

/-- What a command may make of a state. -/
inductive Effect (c : Instr) (s : State) : State → Prop
  | lawful {t : State} (h : Lawful s t) : Effect c s t
  | answered {t : State} (h : Effect c s t) (code tag : Nat) (a : Answer) : Effect c s (t.answered code tag a)
  | ready : Effect c s (s.withHost { s.host with ready := true })
  | cold (straps : Straps) (by' : c = .powerOnReset straps) : Effect c s (coldReset straps s)
  | warm (straps : Straps) (result : HostResult) (by' : c.MayReset) : Effect c s (warmReset straps result s)
  | configured (p : ConfigParams) (setup : s.setup.running = false) : Effect c s (storeConfiguration p s)
  | started (setup : s.setup.running = false) : Effect c s (startRun s)
  | overlaid {o : Overlay} (thawed : s.overlay.frozen = false) (ok : OverlayOk s.overlay → OverlayOk o) :
      Effect c s (s.withOverlay o)
  | quoted {r : SaleRecord} (run : s.setup.running = true) (free : saleBusy s = false) (stage : r.stage = .quoted)
      (credit : r.credit = 0) (live : ∀ x, r.space = some x → OnLiveCall s x.service x.date) : Effect c s (setSale (some r) s)
  | claiming {r : SaleRecord} {x : SpaceCall} {u : State} (sale : s.sales.sale = some r) (stage : r.stage = .quoted)
      (space : r.space = some x) (room : RoomToIssue s) (fits : s.claims.length < Config.claimCapacity) (hand : Keeps s u)
      (line : OnLine s u) : Effect c s (claimQueued r x s.line.seqCounter u)
  | clocked {u t : State} {k : Clock} (first : Lawful s u) (then' : Clocked k u t) (move : ClockMove c u.clock k) : Effect c s t

theorem Effect.refl (c : Instr) (s : State) : Effect c s s := .lawful (.refl s)

theorem Effect.keeps {c : Instr} {s t : State} (k : Keeps s t) : Effect c s t := .lawful k.lawful

/-! ### Through the Host Link -/

/-- What the tests of R173 grant a command that reaches its block. -/
theorem gate_none {c : Command} {ok : Bool} {s : State} (h : gate c ok s = none) : ok = true ∧
    (c.acceptance = .runOnly → s.setup.running = true) ∧ (c.acceptance = .setupOnly → s.setup.running = false) := by
  unfold gate at h
  split at h
  · cases h
  · split at h
    · cases h
    · next long =>
      refine ⟨by simpa using long, fun a => ?_, fun a => ?_⟩ <;> rw [a] at h
      · cases run : s.setup.running with
        | true => rfl
        | false => simp [run] at h
      · cases run : s.setup.running with
        | true => simp [run] at h
        | false => rfl

/-- A host command does what its block does, and the result buffer takes the answer. -/
theorem hostCommand_effect {c : Instr} {k : Command} {tag : Nat} {ok : Bool} {body : State → Answer × State} {s : State}
    (h : gate k ok s = none → Effect c s (body s).2) : Effect c s (hostCommand k tag ok body s) := by
  rcases hostCommand_cases k tag ok body s with ⟨a, e⟩ | ⟨g, e⟩ <;> rw [e]
  · exact (Effect.refl c s).answered _ _ _
  · exact (h g).answered _ _ _

theorem hostCommand_lawful {c : Instr} {k : Command} {tag : Nat} {ok : Bool} {body : State → Answer × State} {s : State}
    (h : gate k ok s = none → Lawful s (body s).2) : Effect c s (hostCommand k tag ok body s) :=
  hostCommand_effect fun g => .lawful (h g)

/-! ### The commands that are not shared operations -/

theorem runReset_effect {c : Instr} (by' : c.MayReset) (tag : Nat) (straps : Straps) (s : State) :
    Effect c s (runReset tag straps s) := by
  unfold runReset
  split
  · exact (Effect.refl c s).answered _ _ _
  · exact .warm straps _ by'

theorem configure_effect (c : Instr) (p : ConfigParams) {s : State} (setup : s.setup.running = false) :
    Effect c s (configure p s).2 := by
  unfold configure
  split
  · exact .refl c s
  · split
    · exact .refl c s
    · exact .configured p setup

theorem start_effect (c : Instr) {s : State} (setup : s.setup.running = false) : Effect c s (start s).2 := by
  unfold start
  split
  · exact .refl c s
  · split
    · exact .refl c s
    · exact .started setup

theorem idSet_ok {ids : List Nat} {o : Overlay} (h : OverlayOk o) (within : missingId o.ids ids = none) (some : ids ≠ [])
    (frozen : Bool) : OverlayOk ⟨idSet ids, frozen⟩ := by
  refine ⟨List.filter_sublist, fun none => ?_⟩
  have all : ∀ i ∈ ids, i ∈ o.ids := by
    unfold missingId at within
    cases e : ids.filter (fun i => !o.ids.contains i) with
    | nil => simpa using e
    | cons x xs => rw [e] at within; cases within
  obtain ⟨i, rest, rfl⟩ := List.exists_cons_of_ne_nil some
  have listed : i ∈ List.range' 1 15 := h.ids.subset (all i (by simp))
  have mem : i ∈ idSet (i :: rest) := List.mem_filter.2 ⟨listed, by simp⟩
  simp only at none
  simp [none] at mem

theorem overlaySet_effect (c : Instr) (ids : List Nat) (s : State) : Effect c s (overlaySet ids s).2 := by
  unfold overlaySet
  split
  · exact .refl c s
  · next thawed =>
    split
    · exact .refl c s
    · next within =>
      split
      · exact .refl c s
      · next some => exact .overlaid (by simpa using thawed) fun h => idSet_ok h within (by simpa using some) _

theorem allIds_ok (frozen : Bool) : OverlayOk ⟨allIds, frozen⟩ := ⟨List.Sublist.refl _, by simp [allIds]⟩

theorem overlayRestore_effect (c : Instr) (s : State) : Effect c s (overlayRestore s).2 := by
  unfold overlayRestore
  split
  · exact .refl c s
  · next thawed => exact .overlaid (by simpa using thawed) fun _ => allIds_ok _

theorem overlayFreeze_effect (c : Instr) (s : State) : Effect c s (overlayFreeze s).2 := by
  unfold overlayFreeze
  split
  · exact .refl c s
  · next thawed => exact .overlaid (by simpa using thawed) fun h => ⟨h.ids, h.some⟩

theorem setTime_effect {c : Instr} (by' : c.MaySetTime) (date : Date) (time : ClockTime) {s : State}
    (run : s.setup.running = true) : Effect c s (setTime date time s).2 := by
  simp only [setTime]
  split
  · next valid => exact .clocked (.refl s) (stepClock_clocked (by simp [hostClock]) run) (.set valid by')
  · exact .refl c s

/-- The call a request names stands in the table, awaited, so a space quoted on it is on a live call (R134, R135). -/
theorem spaceCheck_live {q : QuoteRequest} {s : State} (h : spaceCheck q.call s = true) :
    OnLiveCall s (q.call.getD 0) s.clock.date := by
  unfold spaceCheck at h
  split at h
  · cases h
  · next n named =>
    split at h
    · next call at_call =>
      obtain ⟨date, mem, service⟩ := callFor_some at_call
      simp only [spaceCallOk, Bool.and_eq_true] at h
      obtain ⟨⟨⟨-, awaited⟩, -⟩, -⟩ := h
      refine (onLiveCall_iff _ _ _).2 ⟨date, call, mem, by simpa [named] using service, ?_⟩
      revert awaited
      cases call.state <;> simp [CallState.awaited, CallState.over]
    · cases h

theorem saleQuote_effect (c : Instr) (q : QuoteRequest) {s : State} (run : s.setup.running = true) :
    Effect c s (saleQuote q s).2 := by
  unfold saleQuote
  split
  · exact .refl c s
  · next free =>
    split
    · exact .refl c s
    · next items _ =>
      split
      · exact .refl c s
      · next checked =>
        refine .quoted run (by simpa using free) rfl rfl fun x hx => ?_
        simp only [quotedRecord, spaceCallOf] at hx
        split at hx
        · next cls space =>
          simp only [Option.some.injEq] at hx
          subst hx
          exact spaceCheck_live (by simpa [space] using checked)
        · cases hx

/-- A frame taken into the queue has the sequence the counter stood at (R80). -/
theorem Line.hand_queued {l : Line} {tick : Tick} {p : Payload} {n : Nat} (h : (l.hand tick p).1 = .queued n) :
    n = l.seqCounter := by
  unfold Line.hand at h
  split at h
  · cases h
  · split at h
    · cases h; rfl
    · split at h
      · cases h; rfl
      · split at h
        · split at h
          · cases h; rfl
          · cases h
        · cases h

theorem handOver_fate (p : Payload) (s : State) : (handOver p s).1 = (s.line.hand s.clock.tick p).1 := by
  simp only [handOver]
  split <;> rfl

theorem saleAccept_effect (c : Instr) (s : State) : Effect c s (saleAccept s).2 := by
  unfold saleAccept
  split
  · exact .refl c s
  · next r sale =>
    split
    · exact .refl c s
    · next quoted =>
      have stage : r.stage = .quoted := by simpa using quoted
      split
      · exact .refl c s
      · next journal =>
        split
        · exact .refl c s
        · next serial =>
          have room : RoomToIssue s := fun _ => ⟨by omega, by omega⟩
          unfold acceptQuoted
          split
          · next x space =>
            unfold acceptSpace
            split
            · exact .keeps (abortSale_keeps _ s)
            · split
              · exact .keeps (abortSale_keeps _ s)
              · next fits =>
                have handed := handOver_keeps (.claim ⟨x.service, x.date, x.cls, s.line.seqCounter⟩) s
                simp only [sendClaim]
                split
                · next n queued =>
                  rw [Line.hand_queued ((handOver_fate _ s).symm.trans queued)]
                  exact .claiming sale stage space room (by omega) handed (handOver_onLine _ s)
                all_goals exact .keeps (handed.trans (abortSale_keeps _ _))
          · exact .lawful (enterPaying_lawful sale (by simp [stage]) room rfl)

theorem receiveAnnounce_effect {c : Instr} (by' : c.MayAnnounce) (h : FrameHead) (f : AnnounceFields) (s : State) :
    Effect c s (receiveAnnounce h f s) := by
  rcases receiveAnnounce_cases h f s with law | ⟨wf, u, law, clocked⟩
  · exact .lawful law
  · exact .clocked law clocked (.considered wf by')

/-! ### Commands by their bytes -/

theorem runFirst_effect {c : Instr} (reset : c.MayReset) (time : c.MaySetTime) {code tag : Nat} {ps : List Nat} {s t : State}
    (h : runFirst code tag ps s = some t) : Effect c s t := by
  unfold runFirst at h
  split at h
  case h_1 =>
    obtain ⟨p, -, rfl⟩ := Option.map_eq_some_iff.1 h
    exact hostCommand_effect fun g => configure_effect c p ((gate_none g).2.2 rfl)
  case h_6 =>
    split at h
    · cases h; exact hostCommand_effect fun _ => overlaySet_effect c _ s
    · cases h
  case h_10 => cases h
  all_goals cases h
  case h_2 => exact hostCommand_effect fun g => start_effect c ((gate_none g).2.2 rfl)
  case h_3 => exact runReset_effect reset _ _ s
  case h_4 => exact hostCommand_lawful fun _ => .refl s
  case h_5 => exact hostCommand_effect fun g => setTime_effect time _ _ ((gate_none g).2.1 rfl)
  case h_7 => exact hostCommand_effect fun _ => overlayRestore_effect c s
  case h_8 => exact hostCommand_effect fun _ => overlayFreeze_effect c s
  case h_9 => exact hostCommand_lawful fun _ => .refl s

theorem readCall_lawful (n : Nat) (s : State) : Lawful s (readCall n s).2 := by
  unfold readCall
  split <;> exact .refl s

theorem runSecond_effect {c : Instr} {code tag : Nat} {ps : List Nat} {s t : State} (h : runSecond code tag ps s = some t) :
    Effect c s t := by
  unfold runSecond at h
  split at h
  case h_2 =>
    split at h
    · cases h; exact hostCommand_lawful fun g => (loadData_keeps _ _ _ ((gate_none g).2.1 rfl)).lawful
    · cases h
  case h_4 =>
    split at h
    · obtain ⟨f, -, rfl⟩ := Option.map_eq_some_iff.1 h
      exact hostCommand_lawful fun _ => (reportRunning_keeps f s).lawful
    · cases h
  case h_5 =>
    split at h
    · cases h; exact hostCommand_lawful fun _ => postBulletin_lawful _ _ _ _ s
    · cases h
  all_goals cases h
  case h_1 => exact hostCommand_lawful fun _ => (beginLoad_keeps _ _ s).lawful
  case h_3 => exact hostCommand_lawful fun _ => (abandonLoad_keeps _ s).lawful
  case h_6 => exact hostCommand_lawful fun _ => (withdrawBulletin_keeps _ _ s).lawful
  case h_7 => exact hostCommand_lawful fun _ => .refl s
  case h_8 => exact hostCommand_lawful fun _ => readCall_lawful _ s
  case h_9 => exact hostCommand_lawful fun _ => .refl s
  case h_10 => exact hostCommand_lawful fun _ => .refl s

theorem runThird_effect {c : Instr} {code tag : Nat} {ps : List Nat} {s t : State} (h : runThird code tag ps s = some t) :
    Effect c s t := by
  unfold runThird at h
  split at h
  all_goals cases h
  case h_1 => exact hostCommand_effect fun g => saleQuote_effect c _ ((gate_none g).2.1 rfl)
  case h_2 => exact hostCommand_effect fun _ => saleAccept_effect c s
  case h_3 => exact hostCommand_lawful fun _ => saleCredit_lawful _ s
  case h_4 => exact hostCommand_lawful fun _ => saleHold_lawful _ s
  case h_5 => exact hostCommand_lawful fun _ => (saleCancel_keeps s).lawful
  case h_6 => exact hostCommand_lawful fun _ => salePrinted_lawful _ s
  case h_7 => exact hostCommand_lawful fun _ => .refl s
  case h_8 => exact hostCommand_lawful fun _ => journalRelease_lawful _ s

theorem runFourth_effect {c : Instr} {code tag : Nat} {ps : List Nat} {s t : State} (h : runFourth code tag ps s = some t) :
    Effect c s t := by
  unfold runFourth at h
  split at h
  case h_6 =>
    split at h
    · cases h; exact hostCommand_lawful fun g => noticeMask_lawful (gate_none g).1 s
    · cases h
  all_goals cases h
  case h_1 => exact hostCommand_lawful fun _ => readPair_lawful _ s
  case h_2 => exact hostCommand_lawful fun _ => enablePair_lawful _ s
  case h_3 => exact hostCommand_lawful fun _ => lampTest_lawful _ s
  case h_4 => exact hostCommand_lawful fun _ => brightness_lawful _ s
  case h_5 => exact hostCommand_lawful fun _ => noticeRead_lawful s
  case h_7 => exact hostCommand_lawful fun _ => noticeAck_lawful _ _ s

theorem runCommand_effect {c : Instr} (reset : c.MayReset) (time : c.MaySetTime) {code tag : Nat} {ps : List Nat} {s t : State}
    (h : runCommand code tag ps s = some t) : Effect c s t := by
  unfold runCommand at h
  split at h
  · exact runFirst_effect reset time h
  · split at h
    · exact runSecond_effect h
    · split at h
      · exact runThird_effect h
      · exact runFourth_effect h

theorem echo_effect (c : Instr) (code tag : Nat) (st : Status) (s : State) : Effect c s (echo code tag st s) :=
  (Effect.refl c s).answered code tag _

theorem takeTransaction_effect {c : Instr} (reset : c.MayReset) (time : c.MaySetTime) (bs : List Nat) (s : State) :
    Effect c s (takeTransaction bs s) := by
  unfold takeTransaction
  split
  · exact .refl c s
  · split
    · exact echo_effect c _ _ _ s
    · split
      · unfold examine
        split
        · exact echo_effect c _ _ _ s
        · split
          · exact echo_effect c _ _ _ s
          · split
            · exact echo_effect c _ _ _ s
            · cases run : runCommand _ _ _ s with
              | none => exact echo_effect c _ _ _ s
              | some t => exact runCommand_effect reset time run
      · exact echo_effect c _ _ _ s

theorem takeRead_effect {c : Instr} (by' : c.MayAnnounce) (h : FrameHead) (p : Payload) (s : State) :
    Effect c s (takeRead h p s) := by
  cases p with
  | announce f => exact receiveAnnounce_effect by' h f s
  | running f => exact .lawful (receive_lawful h _ _ s fun t _ => (runningHandOn_keeps _ f t).lawful)
  | approach f => exact .lawful (receive_lawful h _ _ s fun t _ => (approachObserved_keeps _ t).lawful)
  | depart f => exact .lawful (receive_lawful h _ _ s fun t _ => (departureObserved_keeps _ _ t).lawful)
  | claim f => exact .lawful (receive_lawful h _ _ s fun t _ => (claimHandOn_keeps _ f t).lawful)
  | taken f => exact .lawful (receive_lawful h _ _ s fun t _ => (takenHandOn_keeps _ f t).lawful)
  | release f => exact .lawful (receive_lawful h _ _ s fun t _ => (removeClaim_keeps _ _ t).lawful)
  | segReq f => exact .lawful (receive_lawful h _ _ s fun t _ => (segReqHandOn_keeps _ f t).lawful)
  | segment f => exact .lawful (receive_lawful h _ _ s fun t run => (segmentHandOn_keeps _ f run).lawful)
  | bulletin f => exact .lawful (receive_lawful h _ _ s fun t _ => (takeBulletin_keeps _ f t).lawful)

/-! ### The inversion -/

/-- What any command may make of a state. -/
theorem exec_effect {c : Instr} {s t : State} (h : exec c s = .next t) : Effect c s t := by
  cases c
  all_goals cases h
  case powerOnReset x => exact .cold x rfl
  case pinReset x => exact .warm x _ (.inl ⟨x, rfl⟩)
  case initialisationComplete => exact .ready
  case unknownCommandFrame bs => exact takeTransaction_effect (.inr (.inr ⟨bs, rfl⟩)) (.inr ⟨bs, rfl⟩) _ s
  case configure p => exact hostCommand_effect fun g => configure_effect _ p ((gate_none g).2.2 rfl)
  case start => exact hostCommand_effect fun g => start_effect _ ((gate_none g).2.2 rfl)
  case reset tag x => exact runReset_effect (.inr (.inl ⟨tag, x, rfl⟩)) tag x s
  case getStatus | overlayRead | readCalls | readPeers | readClaims | journalRead => exact hostCommand_lawful fun _ => .refl s
  case setTime tag d h => exact hostCommand_effect fun g => setTime_effect (.inl ⟨tag, d, h, rfl⟩) d h ((gate_none g).2.1 rfl)
  case overlaySet => exact hostCommand_effect fun _ => overlaySet_effect _ _ s
  case overlayRestore => exact hostCommand_effect fun _ => overlayRestore_effect _ s
  case overlayFreeze => exact hostCommand_effect fun _ => overlayFreeze_effect _ s
  case loadBegin => exact hostCommand_lawful fun _ => (beginLoad_keeps _ _ s).lawful
  case loadSegment => exact hostCommand_lawful fun g => (loadData_keeps _ _ _ ((gate_none g).2.1 rfl)).lawful
  case loadAbandon => exact hostCommand_lawful fun _ => (abandonLoad_keeps _ s).lawful
  case reportRunning => exact hostCommand_lawful fun _ => (reportRunning_keeps _ s).lawful
  case postBulletin => exact hostCommand_lawful fun _ => postBulletin_lawful _ _ _ _ s
  case withdrawBulletin => exact hostCommand_lawful fun _ => (withdrawBulletin_keeps _ _ s).lawful
  case readCall => exact hostCommand_lawful fun _ => readCall_lawful _ s
  case saleQuote => exact hostCommand_effect fun g => saleQuote_effect _ _ ((gate_none g).2.1 rfl)
  case saleAccept => exact hostCommand_effect fun _ => saleAccept_effect _ s
  case saleCredit => exact hostCommand_lawful fun _ => saleCredit_lawful _ s
  case saleHold => exact hostCommand_lawful fun _ => saleHold_lawful _ s
  case saleCancel => exact hostCommand_lawful fun _ => (saleCancel_keeps s).lawful
  case salePrinted => exact hostCommand_lawful fun _ => salePrinted_lawful _ s
  case journalRelease => exact hostCommand_lawful fun _ => journalRelease_lawful _ s
  case treadleRead => exact hostCommand_lawful fun _ => readPair_lawful _ s
  case treadleEnable => exact hostCommand_lawful fun _ => enablePair_lawful _ s
  case lampTest => exact hostCommand_lawful fun _ => lampTest_lawful _ s
  case brightness => exact hostCommand_lawful fun _ => brightness_lawful _ s
  case noticeRead => exact hostCommand_lawful fun _ => noticeRead_lawful s
  case noticeMask => exact hostCommand_lawful fun g => noticeMask_lawful (gate_none g).1 s
  case noticeAck => exact hostCommand_lawful fun _ => noticeAck_lawful _ _ s
  case referenceClockTenth => exact .clocked (.refl s) (clockTenth_clocked s) .tenth
  case clockGradeAgeing => exact .clocked (.refl s) (age_clocked s) .aged
  case reSendTimerExpiry => exact .lawful (resendDue_lawful s)
  case headInputChange => exact .lawful (setInput_lawful _ _ _ s)
  case pulse => exact .lawful (headPulse_lawful _ _ _ s)
  case overflow => exact .lawful (counterOverflow_lawful _ s)
  case quietTimerExpiry => exact .lawful (quietExpired_lawful _ s)
  case attemptStart => exact .keeps (startAttempt_keeps s)
  case busyFailure => exact .keeps (busyFail_keeps s)
  case collision => exact .keeps (collide_keeps s)
  case backoffEnd => exact .keeps (endBackoff_keeps s)
  case completion => exact .lawful (complete_lawful s)
  case malformedFrame bs =>
    unfold takeBytes
    split
    · exact takeRead_effect (.inr ⟨bs, rfl⟩) _ _ s
    · exact .refl _ s
  case announceReceived h f => exact receiveAnnounce_effect (.inl ⟨h, f, rfl⟩) h f s
  case runningReceived h f => exact .lawful (receive_lawful h _ _ s fun t _ => (runningHandOn_keeps _ f t).lawful)
  case approachReceived h f => exact .lawful (receive_lawful h _ _ s fun t _ => (approachObserved_keeps _ t).lawful)
  case departReceived h f => exact .lawful (receive_lawful h _ _ s fun t _ => (departureObserved_keeps _ _ t).lawful)
  case claimReceived h f => exact .lawful (receive_lawful h _ _ s fun t _ => (claimHandOn_keeps _ f t).lawful)
  case takenReceived h f => exact .lawful (receive_lawful h _ _ s fun t _ => (takenHandOn_keeps _ f t).lawful)
  case releaseReceived h f => exact .lawful (receive_lawful h _ _ s fun t _ => (removeClaim_keeps _ _ t).lawful)
  case segReqReceived h f => exact .lawful (receive_lawful h _ _ s fun t _ => (segReqHandOn_keeps _ f t).lawful)
  case segmentReceived h f => exact .lawful (receive_lawful h _ _ s fun t run => (segmentHandOn_keeps _ f run).lawful)
  case bulletinReceived h f => exact .lawful (receive_lawful h _ _ s fun t _ => (takeBulletin_keeps _ f t).lawful)
  case peerSilenceTimerExpiry => exact .lawful (peerSilent_lawful _ s)
  case announceTimerExpiry => exact .lawful (announceDue_lawful s)
  case pullWaitTimerExpiry => exact .keeps (pullWaitDue_keeps _ s)
  case replyTimerExpiry => exact .keeps (replyDue_keeps _ s)
  case quoteLifetimeExpiry => exact .keeps (quoteExpired_keeps s)
  case paymentTimerExpiry => exact .keeps (paymentExpired_keeps s)
  case claimLifetimeExpiry => exact .keeps (claimExpired_keeps _ _ s)
  case rotationTimerExpiry => exact .lawful (rotate_lawful s)
  case warningTimerExpiry => exact .lawful (warningExpired_lawful _ s)
  case lampTestTimerExpiry => exact .lawful (lampExpired_lawful s)
  case panelSendEnd => exact .lawful (endSend_lawful s)
  case returnToInactive => exact .lawful (headReturn_lawful _ _ s)

/-- A step idles, or takes the front command on the state with the queue's rest. -/
theorem step_effect {s t : State} (h : step s = .next t) :
    t = s ∨ ∃ c rest, s.pending = c :: rest ∧ Effect c (s.withPending rest) t := by
  unfold step at h
  split at h
  · cases h; exact .inl rfl
  · next c rest pending => exact .inr ⟨c, rest, pending, exec_effect h⟩

end Sys2Proof.Machine
end

