-- ==== Sys2Proof/Proofs/StartsAndResets.lean ====
section
/-! SUPPORT. What the laws are after a reset (R184), CONFIGURE (R185), START (R186), the queuing of an own claim (R148), and on the
service dates a clock can be set to (R1 to R7). -/

namespace Sys2Proof.Machine

/-! ### Resets (R184) -/

section afterReset
variable (straps : Straps) (overlay : Overlay) (n : Nat) (result : HostResult) (pins : (Bool × Bool) × (Bool × Bool))
  (pending : List Instr)

theorem resetNotices_ok : NoticesOk resetNotices := ⟨by decide, by decide, rfl, by decide, by decide, rfl⟩

theorem resetLine_ok (station : Nat) : LineOk (resetLine station) :=
  ⟨by simp [resetLine], fun _ => rfl, by simp [resetLine], by simp [resetLine], by simp [resetLine], by simp [resetLine, NoRepeats]⟩

theorem resetClock_ok : ClockOk resetClock := ⟨by decide, by decide, by decide, by decide⟩

theorem afterReset_capacities : CapacitiesOk (afterReset straps overlay n result pins pending) :=
  ⟨Nat.zero_le _, Nat.zero_le _, ⟨Nat.zero_le _, List.Pairwise.nil⟩⟩

theorem afterReset_sale (h : n ≤ Config.maxSerial) : SaleOk (afterReset straps overlay n result pins pending) :=
  ⟨Nat.zero_le _, h, by simp [afterReset], fun _ => rfl⟩

theorem afterReset_money : MoneyOk (afterReset straps overlay n result pins pending) := by
  refine ⟨?_, ?_, ?_, ?_, ?_, ?_⟩ <;> simp [afterReset]

theorem resetSlot_ok (code : Nat) : SlotOk false code resetSlot := ⟨by simp [resetSlot], by simp [resetSlot], by simp [resetSlot]⟩

theorem afterReset_store : StoreOk (afterReset straps overlay n result pins pending) := ⟨resetSlot_ok _, resetSlot_ok _⟩

theorem afterReset_table : CallsOk (afterReset straps overlay n result pins pending) := by
  refine ⟨?_, ?_, rfl, ?_, fun _ => ⟨rfl, rfl⟩⟩ <;> simp [afterReset, resetCalls]

theorem afterReset_claims : ClaimsOk (afterReset straps overlay n result pins pending) := by
  refine ⟨?_, ?_, ?_⟩ <;> simp [afterReset]

theorem afterReset_peers : PeersOk (afterReset straps overlay n result pins pending) := by
  refine ⟨?_, fun running => by cases running⟩
  simp only [afterReset, resetLine, List.map_map]
  exact List.map_id' _

end afterReset

/-! ### CONFIGURE (R185) -/

/-- Outside RUN a slot holds no image that a halt code could contradict. -/
theorem SlotOk.of_setup {code : Nat} {x : Slot} (h : SlotOk false code x) (running : Bool) (code' : Nat) :
    SlotOk running code' x := by
  obtain ⟨active, loader⟩ := h.setup rfl
  exact ⟨by simp [active], fun e => absurd e loader, fun _ => ⟨active, loader⟩⟩

section configured
variable (p : ConfigParams) {s : State} (setup : s.setup.running = false)
include setup

theorem storeConfiguration_store (h : StoreOk s) : StoreOk (storeConfiguration p s) := by
  rw [StoreOk, setup] at h
  exact ⟨h.1.of_setup _ _, h.2.of_setup _ _⟩

theorem storeConfiguration_peers (h : PeersOk s) : PeersOk (storeConfiguration p s) :=
  ⟨h.entries, fun running => absurd (setup.symm.trans running) (by decide)⟩

theorem storeConfiguration_table (h : CallsOk s) : CallsOk (storeConfiguration p s) := by
  obtain ⟨calls, grade⟩ := h.setup setup
  refine ⟨?_, h.services, h.date, h.timed, h.setup⟩
  simp [storeConfiguration, calls]

end configured

theorem storeConfiguration_sale (p : ConfigParams) {s : State} (setup : s.setup.running = false) (h : SaleOk s) :
    SaleOk (storeConfiguration p s) := by
  have resume : p.settings.resume ≤ Config.maxSerial := by
    simp only [ConfigParams.settings, clampNat, Config.maxSerial]
    split <;> [omega; split <;> omega]
  refine ⟨h.journal, max_le h.serial resume, fun r sale => ?_, h.setup⟩
  rw [show (storeConfiguration p s).sales.sale = s.sales.sale from rfl, h.setup setup] at sale
  cases sale

theorem storeConfiguration_money (p : ConfigParams) {s : State} (h : MoneyOk s) : MoneyOk (storeConfiguration p s) :=
  ⟨h.before, h.paying, h.issuing, h.rising,
    fun j hj => ⟨(h.numbered j hj).1, (h.numbered j hj).2.trans_le (Nat.add_le_add_left (Nat.le_max_left ..) _)⟩, h.void⟩

theorem storeConfiguration_claims (p : ConfigParams) {s : State} (h : ClaimsOk s) : ClaimsOk (storeConfiguration p s) :=
  ⟨h.keys, h.live, h.sale⟩

/-! ### START (R186) -/

/-- The state that START's steps act on. -/
def State.inRun (s : State) : State := s.withSetup { s.setup with running := true }

theorem inRun_store {s : State} (setup : s.setup.running = false) (h : StoreOk s) : StoreOk s.inRun := by
  rw [StoreOk, setup] at h
  exact ⟨⟨h.1.active, h.1.staged, by simp [State.inRun]⟩, ⟨h.2.active, h.2.staged, by simp [State.inRun]⟩⟩

theorem inRun_sale {s : State} (h : SaleOk s) : SaleOk s.inRun := ⟨h.journal, h.serial, h.room, by simp [State.inRun]⟩

theorem inRun_money {s : State} (h : MoneyOk s) : MoneyOk s.inRun := ⟨h.before, h.paying, h.issuing, h.rising, h.numbered, h.void⟩

theorem startLine_moves (s : State) : Moves s (startLine s) := by
  have seeded : Moves s (s.withLine { s.line with rng := some ⟨own s, s.clock.tick, 0⟩, freshCount := 3 }) :=
    Moves.line' (fun h => ⟨h.queue, h.muted, h.current, h.seq, h.received, h.repeats⟩) id
  exact seeded.trans (announce_moves _)

theorem startLine_onLine (s : State) : OnLine s (startLine s) := OnLine.trans ⟨_, _, rfl⟩ (announce_onLine _)

theorem startLine_peers (s : State) : (startLine s).line.peers = s.line.peers :=
  ((hand_inner _ _).trans (draw_inner 11 _)).peers

/-- The Call Table's own timer and watch view are not among what the build and the laws of its calls read. -/
theorem withResend_lawful (t : Option Timer) (s : State) : Lawful s (s.withCalls { s.calls with resend := t }) :=
  { Moves.calls' (x := { s.calls with resend := t }) id with
    peers := fun h => h.congr rfl rfl rfl rfl, money := fun h => h.closed rfl (.inl rfl)
    table := fun h => h.congr rfl rfl rfl rfl, live := fun _ h => h.thinned rfl rfl (.of_eq rfl) (.inl rfl) }

theorem startBoard_lawful (s : State) : Lawful s (startBoard s) :=
  Lawful.ite (fun _ => recompose_lawful rfl) (fun _ => .refl s)

/-- The state in which START has the Call Table built. -/
def State.started (s : State) : State :=
  (startLine s.inRun).withCalls { (startLine s.inRun).calls with
    watch := watchView (startLine s.inRun).treadles (startLine s.inRun).line.peers }

theorem started_moves (s : State) : Moves s.inRun s.started := (startLine_moves _).trans (Moves.calls' id)

theorem started_running (s : State) : s.started.setup.running = true := by
  rw [(started_moves s).setup]
  rfl

/-- START's last steps, from the table it builds. -/
theorem startRun_lawful (s : State) : Lawful (buildTable .fresh s.started) (startRun s) :=
  (withResend_lawful _ _).trans (startBoard_lawful _)

theorem startRun_moves (s : State) : Moves s.inRun (startRun s) :=
  (started_moves s).trans ((buildTable_inner .fresh _).toMoves.trans (startRun_lawful s).toMoves)

theorem startRun_table (s : State) : CallsOk (startRun s) := (startRun_lawful s).table (buildTable_fresh_ok (started_running s)).1

theorem startRun_claims (s : State) : ClaimsOk (startRun s) :=
  (startRun_lawful s).live (buildTable_fresh_ok (started_running s)).1 (buildTable_fresh_ok (started_running s)).2

theorem started_peers {s : State} (h : PeersOk s) : PeersOk s.started := by
  obtain ⟨_, _, e⟩ := startLine_onLine s.inRun
  refine ⟨?_, fun _ => rfl⟩
  rw [(started_moves s).setup, State.started, State.withCalls_line, startLine_peers]
  exact h.entries

theorem startRun_peers {s : State} (h : PeersOk s) : PeersOk (startRun s) := by
  have m := buildTable_inner .fresh s.started
  exact (startRun_lawful s).peers ((started_peers h).congr m.setup m.treadles m.peers (by rw [buildTable_calls]))

theorem startRun_money {s : State} (h : MoneyOk s) : MoneyOk (startRun s) := by
  have line : MoneyOk s.started := (inRun_money h).closed (started_moves s).setup (.inl (startLine_onLine s.inRun).sales)
  exact (startRun_lawful s).money ((buildTable_inner .fresh _).money line)

/-! ### The queued CLAIM (R148) -/

section claimQueued
variable {r : SaleRecord} {x : SpaceCall} {n : Nat} {u : State}

theorem claimQueued_claims : (claimQueued r x n u).claims =
    u.claims ++ [⟨x.service, x.date, x.cls, own u, n, none, .queued, none⟩] := rfl

theorem claimQueued_sale (h : SaleOk u) (run : u.sales.sale ≠ none) (room : u.sales.journal.length < Config.journalCapacity ∧
    u.sales.serialCounter < Config.maxSerial) : SaleOk (claimQueued r x n u) := by
  refine ⟨h.journal, h.serial, fun _ _ _ => room, fun setup => absurd (h.setup setup) run⟩

theorem claimQueued_money (h : MoneyOk u) (credit : r.credit = 0) : MoneyOk (claimQueued r x n u) := by
  have listed : MoneyOk (u.withClaims (u.claims ++ [⟨x.service, x.date, x.cls, own u, n, none, .queued, none⟩])) :=
    ⟨h.before, h.paying, h.issuing, h.rising, h.numbered, h.void⟩
  exact listed.setSale (by simp) (fun _ => credit) (by simp)

theorem claimQueued_live (h : ClaimsOk u) (live : OnLiveCall u x.service x.date) (space : r.space = some x)
    (new : ∀ y ∈ u.claims, y.origin = own u → y.seq ≠ n) : ClaimsOk (claimQueued r x n u) := by
  have fresh : findClaim u.claims (own u) n = none :=
    List.find?_eq_none.2 fun y hy => by simpa [Claim.hasKey] using new y hy
  have listed := h.append (c := ⟨x.service, x.date, x.cls, own u, n, none, .queued, none⟩) fresh live
  refine ⟨listed.keys, listed.live, ?_⟩
  rintro _ y ⟨⟩ - space'
  cases space.symm.trans space'
  exact live

end claimQueued

end Sys2Proof.Machine

/-! ### Service dates (R1, R3, R4, R6) -/

namespace Sys2Proof

theorem Date.valid_iff (d : Date) : d.valid = true ↔ 2000 ≤ d.year ∧ d.year ≤ 2099 ∧ 1 ≤ d.month ∧ d.month ≤ 12 ∧ 1 ≤ d.day ∧
    d.day ≤ monthLength d.year d.month := by
  simp [Date.valid, and_assoc]

theorem monthLength_pos (year : Nat) {month : Nat} (low : 1 ≤ month) (high : month ≤ 12) : 28 ≤ monthLength year month := by
  unfold monthLength
  interval_cases month <;> simp
  split <;> omega

/-- The day after is a date of the part, but for the last one (R1, R4). -/
theorem Date.next_valid {d : Date} (h : d.valid = true) (last : d ≠ Machine.lastDate) : d.next.valid = true := by
  obtain ⟨y, m, n⟩ := d
  obtain ⟨y0, y1, m0, m1, d0, d1⟩ := (valid_iff _).1 h
  simp only at y0 y1 m0 m1 d0 d1
  unfold Date.next
  split
  · next day => exact (valid_iff _).2 ⟨y0, y1, m0, m1, by simp, by simpa using day⟩
  · next day =>
    split
    · next month =>
      exact (valid_iff _).2 ⟨y0, y1, by simp, by simpa using month, by simp, by
        have := monthLength_pos y (month := m + 1) (by omega) (by simpa using month)
        simpa using by omega⟩
    · next month =>
      have december : m = 12 := by simp only [not_lt] at month; omega
      subst december
      have thirtyFirst : n = 31 := by
        have : monthLength y 12 = 31 := rfl
        simp only [not_lt] at day
        omega
      have before : y ≠ 2099 := fun e => last (by rw [e, thirtyFirst]; rfl)
      exact (valid_iff _).2 ⟨by simp; omega, by simp; omega, by simp, by simp, by simp, by simp [monthLength]⟩

/-- The day before is a date of the part, but for the first one (R1, R6). -/
theorem Date.previous_valid {d : Date} (h : d.valid = true) (first : Machine.resetDate.key < d.key) : d.previous.valid = true := by
  obtain ⟨y, m, n⟩ := d
  obtain ⟨y0, y1, m0, m1, d0, d1⟩ := (valid_iff _).1 h
  simp only at y0 y1 m0 m1 d0 d1
  simp only [Date.key, Machine.resetDate] at first
  unfold Date.previous
  split
  · next day =>
    simp only at day
    exact (valid_iff _).2 ⟨y0, y1, m0, m1, by simp; omega, by simp; omega⟩
  · next day =>
    split
    · next month =>
      simp only at month
      have long := monthLength_pos y (month := m - 1) (by omega) (by omega)
      exact (valid_iff _).2 ⟨y0, y1, by simp; omega, by simp; omega, by simp; omega, by simp⟩
    · next month =>
      simp only [not_lt] at day month
      exact (valid_iff _).2 ⟨by simp; omega, by simp; omega, by simp, by simp, by simp, by simp [monthLength]⟩

end Sys2Proof

namespace Sys2Proof.Machine

theorem Clock.rolled_ok {c : Clock} (h : ClockOk c) : ClockOk c.rolled := by
  unfold Clock.rolled
  split
  · exact ⟨resetClock_ok.date, resetClock_ok.weekday, resetClock_ok.second, resetClock_ok.tenths⟩
  · next last => exact ⟨Date.next_valid h.date last, rfl, by simp, by simp⟩

theorem Clock.afterTenth_ok {c : Clock} (h : ClockOk c) : ClockOk c.afterTenth := by
  unfold Clock.afterTenth
  split
  · exact ⟨h.date, h.weekday, h.second, h.tenths⟩
  · split
    · exact ⟨h.date, h.weekday, h.second, by simp only; omega⟩
    · split
      · exact ⟨h.date, h.weekday, by simp only; omega, Nat.zero_le _⟩
      · exact Clock.rolled_ok ⟨h.date, h.weekday, h.second, h.tenths⟩

theorem hostClock_ok {rm : Nat} {date : Date} {time : ClockTime} (valid : setTimeValid rm date time = true) (c : Clock) :
    ClockOk (hostClock rm date time c) := by
  simp only [setTimeValid, Bool.and_eq_true, Bool.or_eq_true, decide_eq_true_eq] at valid
  obtain ⟨⟨⟨⟨ok, -⟩, -⟩, -⟩, day⟩ := valid
  refine ⟨?_, rfl, ?_, Nat.zero_le _⟩
  · simp only [hostClock, serviceDateOf]
    split
    · exact ok
    · next before => exact Date.previous_valid ok (day.resolve_left before)
  · simp only [hostClock, serviceSecondOf]
    omega

theorem Clock.considering_ok {c : Clock} {f : AnnounceFields} (wf : f.wellFormed = true) (h : ClockOk c) :
    ClockOk (c.considering f) := by
  unfold Clock.considering
  split
  · next adopt =>
    simp only [AnnounceFields.wellFormed, Bool.and_eq_true, Bool.or_eq_true, decide_eq_true_eq, validSecond] at wf
    obtain ⟨⟨⟨-, second⟩, tenths⟩, date⟩ := wf
    refine ⟨date.resolve_right fun zero => ?_, rfl, second, tenths⟩
    have unset := zero.1.1.1
    unfold adopts at adopt
    split at adopt <;> simp [unset] at adopt
  · exact h

theorem ClockMove.ok {i : Instr} {old new : Clock} (m : ClockMove i old new) (h : ClockOk old) : ClockOk new := by
  cases m with
  | tenth => exact Clock.afterTenth_ok h
  | aged =>
    unfold Clock.aged
    split
    · exact ⟨h.date, h.weekday, h.second, h.tenths⟩
    · exact h
  | set valid => exact hostClock_ok valid old
  | considered wf => exact Clock.considering_ok wf h

/-- The grade rises by SET_TIME, to HOST, or by an ANNOUNCE, to ADOPTED (R5 to R7). -/
theorem ClockMove.rise {i : Instr} {old new : Clock} (m : ClockMove i old new) (rise : old.grade.code < new.grade.code) :
    (new.grade = .host ∧ i.MaySetTime) ∨ (new.grade = .adopted ∧ i.MayAnnounce) := by
  cases m with
  | tenth =>
    refine absurd rise ?_
    unfold Clock.afterTenth Clock.rolled
    split_ifs <;> simp [Clock.tickOn, resetClock, ClockGrade.code]
  | aged =>
    unfold Clock.aged at rise
    split at rise
    · next due =>
      simp only [Clock.ageDue, Bool.and_eq_true, decide_eq_true_eq] at due
      simp [due.1, ClockGrade.code] at rise
    · exact absurd rise (Nat.lt_irrefl _)
  | set _ by' => exact .inl ⟨rfl, by'⟩
  | considered _ by' =>
    unfold Clock.considering at rise ⊢
    split
    · exact .inr ⟨rfl, by'⟩
    · next keeps => simp [keeps] at rise

end Sys2Proof.Machine
end

