-- ==== Sys2Proof/Proofs/StepInvariants.lean ====
section
/-! SUPPORT. What every step keeps: each law by the cases of `Effect`. -/

namespace Sys2Proof.Machine

section laws
variable {c : Instr} {s t : State}

/-! ### The laws of one block -/

theorem noticesOk_effect (e : Effect c s t) (h : NoticesOk s.notices) : NoticesOk t.notices := by
  induction e with
  | lawful law => exact law.notices h
  | answered _ _ _ _ ih => exact ih
  | ready | configured | overlaid | quoted => exact h
  | cold | warm => exact resetNotices_ok
  | started => exact (startRun_moves s).notices h
  | claiming _ _ _ _ _ hand => exact hand.notices h
  | clocked first then' => exact then'.inner.notices (first.notices h)

theorem lineOk_effect (e : Effect c s t) (h : LineOk s.line) : LineOk t.line := by
  induction e with
  | lawful law => exact law.line h
  | answered _ _ _ _ ih => exact ih
  | ready | configured | overlaid | quoted => exact h
  | cold | warm => exact resetLine_ok _
  | started => exact (startRun_moves s).line h
  | claiming _ _ _ _ _ hand => exact hand.line h
  | clocked first then' => exact then'.inner.line (first.line h)

theorem clockOk_effect (e : Effect c s t) (h : ClockOk s.clock) : ClockOk t.clock := by
  induction e with
  | lawful law => rw [law.clock]; exact h
  | answered _ _ _ _ ih => exact ih
  | ready | configured | overlaid | quoted => exact h
  | cold | warm => exact resetClock_ok
  | started => rw [(startRun_moves s).clock]; exact h
  | claiming _ _ _ _ _ hand => exact hand.clock.symm ▸ h
  | clocked first then' move =>
    rw [then'.inner.clock]
    exact move.ok (first.clock.symm ▸ h)

theorem capacitiesOk_effect (e : Effect c s t) (h : CapacitiesOk s) : CapacitiesOk t := by
  have moved {a b : State} (m : Moves a b) (o : CapacitiesOk a) : CapacitiesOk b :=
    ⟨m.calls o.calls, m.claims o.claims, m.bulletins o.bulletins⟩
  induction e with
  | lawful law => exact moved law.toMoves h
  | answered _ _ _ _ ih => exact ⟨ih.calls, ih.claims, ih.bulletins⟩
  | ready | configured | overlaid | quoted => exact ⟨h.calls, h.claims, h.bulletins⟩
  | cold | warm => exact afterReset_capacities _ _ _ _ _ _
  | started => exact moved (startRun_moves s) ⟨h.calls, h.claims, h.bulletins⟩
  | claiming _ _ _ _ fits hand line =>
    refine ⟨hand.calls h.calls, ?_, hand.bulletins h.bulletins⟩
    rw [claimQueued_claims, line.claims, List.length_append]
    exact fits
  | @clocked u _ _ first then' =>
    have o := moved first.toMoves h
    exact moved then'.inner.toMoves ⟨o.calls, o.claims, o.bulletins⟩

theorem storeOk_effect (e : Effect c s t) (h : StoreOk s) : StoreOk t := by
  induction e with
  | lawful law => exact law.store h
  | answered _ _ _ _ ih => exact ih
  | ready | overlaid | quoted => exact h
  | configured p setup => exact storeConfiguration_store p setup h
  | cold | warm => exact afterReset_store _ _ _ _ _ _
  | started setup => exact (startRun_moves s).store (inRun_store setup h)
  | claiming _ _ _ _ _ hand => exact hand.store h
  | clocked first then' => exact then'.inner.store (first.store h)

/-! ### The laws of several blocks -/

theorem saleOk_effect (e : Effect c s t) (h : SaleOk s) : SaleOk t := by
  induction e with
  | lawful law => exact law.sale h
  | answered _ _ _ _ ih => exact ⟨ih.journal, ih.serial, ih.room, ih.setup⟩
  | ready | overlaid => exact ⟨h.journal, h.serial, h.room, h.setup⟩
  | configured p setup => exact storeConfiguration_sale p setup h
  | cold => exact afterReset_sale _ _ _ _ _ _ (Nat.zero_le _)
  | warm => exact afterReset_sale _ _ _ _ _ _ h.serial
  | started => exact (startRun_moves s).sale (inRun_sale h)
  | quoted run _ stage =>
    refine ⟨h.journal, h.serial, ?_, fun setup => absurd (run.symm.trans setup) (by decide)⟩
    rintro _ ⟨⟩ unissued
    simp [SaleRecord.unissued, stage] at unissued
  | claiming sale _ _ room _ hand line =>
    exact claimQueued_sale (hand.sale h) (by rw [line.sales, sale]; simp) (by rw [line.sales]; exact room h)
  | clocked first then' =>
    exact then'.inner.sale ⟨(first.sale h).journal, (first.sale h).serial, (first.sale h).room, (first.sale h).setup⟩

theorem moneyOk_effect (e : Effect c s t) (h : MoneyOk s) : MoneyOk t := by
  induction e with
  | lawful law => exact law.money h
  | answered _ _ _ _ ih => exact ih.closed rfl (.inl rfl)
  | ready | overlaid => exact h.closed rfl (.inl rfl)
  | configured p => exact storeConfiguration_money p h
  | cold | warm => exact afterReset_money _ _ _ _ _ _
  | started => exact startRun_money h
  | quoted _ _ stage credit => exact h.setSale (by simp [stage]) (fun _ => credit) (by simp [stage])
  | claiming sale stage _ _ _ hand => exact claimQueued_money (hand.money h) (h.before _ sale (.inl stage))
  | clocked first then' => exact then'.inner.money ((first.money h).closed rfl (.inl rfl))

theorem peersOk_effect (e : Effect c s t) (h : PeersOk s) : PeersOk t := by
  induction e with
  | lawful law => exact law.peers h
  | answered _ _ _ _ ih => exact ih.congr rfl rfl rfl rfl
  | ready | overlaid | quoted => exact h.congr rfl rfl rfl rfl
  | configured p setup => exact storeConfiguration_peers p setup h
  | cold | warm => exact afterReset_peers _ _ _ _ _ _
  | started => exact startRun_peers h
  | claiming _ _ _ _ _ hand => exact (hand.lawful.peers h).congr rfl rfl rfl rfl
  | clocked first then' => exact (first.peers h).congr then'.inner.setup then'.inner.treadles then'.inner.peers then'.watch

theorem callsOk_effect (e : Effect c s t) (h : CallsOk s) : CallsOk t := by
  induction e with
  | lawful law => exact law.table h
  | answered _ _ _ _ ih => exact ih.congr rfl rfl rfl rfl
  | ready | overlaid | quoted => exact h.congr rfl rfl rfl rfl
  | configured p setup => exact storeConfiguration_table p setup h
  | cold | warm => exact afterReset_table _ _ _ _ _ _
  | started => exact startRun_table s
  | claiming _ _ _ _ _ hand => exact (hand.table h).congr rfl rfl rfl rfl
  | clocked first then' => exact then'.table (first.table h)

/-- The premise tells the own claims apart from the one that a sale queues (log entry 29). -/
theorem claimsOk_effect (e : Effect c s t) (table : CallsOk s) (h : ClaimsOk s)
    (new : ∀ x ∈ s.claims, x.origin = s.setup.straps.station → x.seq ≠ s.line.seqCounter) : ClaimsOk t := by
  induction e with
  | lawful law => exact law.live table h
  | answered _ _ _ _ ih => exact ⟨ih.keys, ih.live, ih.sale⟩
  | ready | overlaid => exact ⟨h.keys, h.live, h.sale⟩
  | configured p => exact storeConfiguration_claims p h
  | cold | warm => exact afterReset_claims _ _ _ _ _ _
  | started => exact startRun_claims s
  | quoted _ _ _ _ live =>
    refine ⟨h.keys, h.live, ?_⟩
    rintro _ x ⟨⟩ - space
    exact live x space
  | claiming sale stage space _ _ hand line =>
    have same : OnLiveCall _ _ _ := hand.live table h |>.sale _ _ (line.sales ▸ sale) (by simp [stage]) space
    refine claimQueued_live (hand.live table h) same space fun y hy => ?_
    rw [own, hand.setup]
    exact new y (line.claims ▸ hy)
  | clocked first then' => exact then'.live (first.table table) (first.live table h)

/-! ### The overlay, the fare edition, serials, mute and grade -/

theorem overlayOk_effect (e : Effect c s t) (h : OverlayOk s.overlay) : OverlayOk t.overlay := by
  induction e with
  | lawful law => rw [law.overlay]; exact h
  | answered _ _ _ _ ih => exact ih
  | ready | configured | quoted | warm => exact h
  | cold => exact allIds_ok _
  | started => rw [(startRun_moves s).overlay]; exact h
  | overlaid _ ok => exact ok h
  | claiming _ _ _ _ _ hand => exact hand.overlay.symm ▸ h
  | clocked first then' => rw [then'.inner.overlay]; exact first.overlay.symm ▸ h

theorem frozen_effect (e : Effect c s t) (frozen : s.overlay.frozen = true) (cold : ∀ x, c ≠ .powerOnReset x) :
    t.overlay = s.overlay := by
  induction e with
  | lawful law => exact law.overlay
  | answered _ _ _ _ ih => exact ih
  | ready | configured | quoted | warm => rfl
  | cold x by' => exact absurd by' (cold x)
  | started => exact (startRun_moves s).overlay
  | overlaid thawed => exact absurd (frozen.symm.trans thawed) (by decide)
  | claiming _ _ _ _ _ hand => exact hand.overlay
  | clocked first then' => exact then'.inner.overlay.trans first.overlay

theorem fare_effect (e : Effect c s t) (after : t.sales.sale ≠ none) :
    t.store.fare.active = s.store.fare.active ∧ t.store.fare.activeEdition = s.store.fare.activeEdition := by
  have some {u : State} (h : u.sales.sale ≠ none) : u.sales.sale.isSome = true := Option.isSome_iff_ne_none.2 h
  induction e with
  | lawful law => exact (law.fare (some after)).2
  | answered _ _ _ _ ih => exact ih after
  | ready | configured | quoted | overlaid => exact ⟨rfl, rfl⟩
  | cold | warm => exact absurd rfl after
  | started => exact ((startRun_moves s).fare (some after)).2
  | claiming sale _ _ _ _ hand line =>
    exact (hand.fare (by rw [line.sales, sale]; rfl)).2
  | clocked first then' =>
    obtain ⟨mid, active, edition⟩ := then'.inner.fare (some after)
    obtain ⟨-, active', edition'⟩ := first.fare mid
    exact ⟨active.trans active', edition.trans edition'⟩

theorem serial_effect (e : Effect c s t) (cold : ∀ x, c ≠ .powerOnReset x) : s.sales.serialCounter ≤ t.sales.serialCounter := by
  induction e with
  | lawful law => exact law.serial
  | answered _ _ _ _ ih => exact ih
  | ready | quoted | overlaid | warm => exact Nat.le_refl _
  | configured => exact Nat.le_max_left ..
  | cold x by' => exact absurd by' (cold x)
  | started => exact (startRun_moves s).serial
  | claiming _ _ _ _ _ hand => exact hand.serial
  | clocked first then' => exact first.serial.trans then'.inner.serial

theorem muted_effect (e : Effect c s t) (muted : s.line.muted = true) : t.line.muted = true ∨
    (t.setup.running = false ∧ t.setup.configured = false ∧ t.host.ready = false ∧ ((∃ x, c = .powerOnReset x) ∨ c.MayReset)) := by
  induction e with
  | lawful law => exact .inl (law.muted muted)
  | answered _ _ _ _ ih => exact ih
  | ready | configured | quoted | overlaid => exact .inl muted
  | cold x by' => exact .inr ⟨rfl, rfl, rfl, .inl ⟨x, by'⟩⟩
  | warm _ _ by' => exact .inr ⟨rfl, rfl, rfl, .inr by'⟩
  | started => exact .inl ((startRun_moves s).muted muted)
  | claiming _ _ _ _ _ hand => exact .inl (hand.muted muted)
  | clocked first then' => exact .inl (then'.inner.muted (first.muted muted))

theorem grade_effect (e : Effect c s t) (rise : s.clock.grade.code < t.clock.grade.code) :
    (t.clock.grade = .host ∧ c.MaySetTime) ∨ (t.clock.grade = .adopted ∧ c.MayAnnounce) := by
  induction e with
  | lawful law => exact absurd (law.clock ▸ rise) (Nat.lt_irrefl _)
  | answered _ _ _ _ ih => exact ih rise
  | ready | configured | quoted | overlaid => exact absurd rise (Nat.lt_irrefl _)
  | cold | warm => exact absurd rise (Nat.not_lt_zero _)
  | started => exact absurd ((startRun_moves s).clock ▸ rise) (Nat.lt_irrefl _)
  | claiming _ _ _ _ _ hand =>
    exact absurd (show s.clock.grade.code < s.clock.grade.code from hand.clock ▸ rise) (Nat.lt_irrefl _)
  | clocked first then' move =>
    rw [then'.inner.clock] at rise ⊢
    exact move.rise (first.clock.symm ▸ rise)

end laws

/-! ### The statements -/

/-- Settles O50: by the effects a command can have. -/
theorem everyStepKeepsTheNoticeUnit : Obligations.EveryStepKeepsTheNoticeUnit := by
  intro s t step h
  rcases step_effect step with rfl | ⟨c, rest, -, e⟩
  · exact h
  · exact noticesOk_effect e h

/-- Settles O51: by the effects a command can have. -/
theorem everyStepKeepsTheTransmitQueue : Obligations.EveryStepKeepsTheTransmitQueue := by
  intro s t step h
  rcases step_effect step with rfl | ⟨c, rest, -, e⟩
  · exact h
  · exact lineOk_effect e h

/-- Settles O52: the clock by the moves a command can give it, the lists by the effects. -/
theorem everyStepKeepsClockAndCapacities : Obligations.EveryStepKeepsClockAndCapacities := by
  intro s t step clock h
  rcases step_effect step with rfl | ⟨c, rest, -, e⟩
  · exact ⟨clock, h⟩
  · exact ⟨clockOk_effect e clock, capacitiesOk_effect e ⟨h.calls, h.claims, h.bulletins⟩⟩

/-- Settles O53: by the effects a command can have; the queue of commands is not among what the law reads. -/
theorem everyStepKeepsTheCallTable : Obligations.EveryStepKeepsTheCallTable := by
  intro s t step h
  rcases step_effect step with rfl | ⟨c, rest, -, e⟩
  · exact h
  · exact callsOk_effect e (h.congr rfl rfl rfl rfl)

/-- Settles O54: by the effects a command can have, the one new own claim told apart by the premise. -/
theorem everyStepKeepsClaimsOnLiveCalls : Obligations.EveryStepKeepsClaimsOnLiveCalls := by
  intro s t step table h new
  rcases step_effect step with rfl | ⟨c, rest, -, e⟩
  · exact h
  · exact claimsOk_effect e (table.congr rfl rfl rfl rfl) ⟨h.keys, h.live, h.sale⟩ new

/-- Settles O55: by the effects a command can have. -/
theorem everyStepKeepsTheSaleUnit : Obligations.EveryStepKeepsTheSaleUnit := by
  intro s t step h money
  rcases step_effect step with rfl | ⟨c, rest, -, e⟩
  · exact ⟨h, money⟩
  · exact ⟨saleOk_effect e (h.congr rfl rfl), moneyOk_effect e (money.closed rfl (.inl rfl))⟩

/-- Settles O56: by the effects a command can have. -/
theorem everyStepKeepsTheStoredEditionsSound : Obligations.EveryStepKeepsTheStoredEditionsSound := by
  intro s t step h
  rcases step_effect step with rfl | ⟨c, rest, -, e⟩
  · exact h
  · exact storeOk_effect e h

/-- Settles O57: by the effects a command can have. -/
theorem everyStepKeepsThePeerTable : Obligations.EveryStepKeepsThePeerTable := by
  intro s t step h
  rcases step_effect step with rfl | ⟨c, rest, -, e⟩
  · exact h
  · exact peersOk_effect e (h.congr rfl rfl rfl rfl)

/-- Settles O58: by the effects a command can have; the overlay commands act on a thawed overlay alone. -/
theorem everyStepKeepsTheOverlay : Obligations.EveryStepKeepsTheOverlay := by
  intro s t step h
  rcases step_effect step with rfl | ⟨c, rest, front, e⟩
  · exact ⟨h, fun _ _ => rfl⟩
  · refine ⟨overlayOk_effect e h, fun frozen cold => frozen_effect (s := s.withPending rest) e frozen fun x power => cold x ?_⟩
    rw [front, power]
    rfl

/-- Settles O59: by the effects a command can have. -/
theorem fareEditionStandsDuringASale : Obligations.FareEditionStandsDuringASale := by
  intro s t step _ after
  rcases step_effect step with rfl | ⟨c, rest, -, e⟩
  · exact ⟨rfl, rfl⟩
  · exact fare_effect (s := s.withPending rest) e after

/-- Settles O60: by the effects of the command at the front. -/
theorem serialsMutingAndGradesMoveByRule : Obligations.SerialsMutingAndGradesMoveByRule := by
  intro s t c rest front step
  have e : Effect c (s.withPending rest) t := by
    refine exec_effect ?_
    simpa [Machine.step, front] using step
  exact ⟨serial_effect (s := s.withPending rest) e, muted_effect (s := s.withPending rest) e, grade_effect (s := s.withPending rest) e⟩

end Sys2Proof.Machine
end

