-- ==== Sys2Proof/Proofs/NoticesAndResets.lean ====
section
/-! SUPPORT. The step, the resets (R184), and the Notice Unit: a raised notice (R178), the commands of R179 to R181. -/

namespace Sys2Proof.Machine

/-! ### A command that reaches its block -/

/-- What the block answers and leaves is the command's outcome, the result buffer taking the answer (R172). -/
theorem exec_taken {i : Instr} {c : Command} {tag : Nat} {ok : Bool} {body : State → Answer × State} {s t : State} {a : Answer}
    (e : exec i s = .next (hostCommand c tag ok body s)) (g : gate c ok s = none) (h : body s = (a, t)) :
    exec i s = .next (t.answered c.code tag a) := by
  rw [e, hostCommand_taken g, h]

/-! ### The step and the resets -/

/-- Settles O1: the step is defined so. -/
theorem stepTakesTheFrontCommand : Obligations.StepTakesTheFrontCommand := ⟨fun _ _ _ => rfl, fun _ => rfl⟩

/-- Settles O2: each reset is `afterReset` of what it keeps. -/
theorem resetsLeaveTheResetValues : Obligations.ResetsLeaveTheResetValues := by
  refine ⟨fun _ _ => rfl, fun straps tag s r cold => ?_⟩
  obtain rfl : coldReset straps s = r := Host.Outcome.next.inj cold
  refine ⟨rfl, fun ready => ?_⟩
  have reaches : gate .reset true s = none := gate_both ready rfl rfl
  change Host.Outcome.next (runReset tag straps s) = _
  rw [runReset, reaches]
  rfl

/-- Settles O3: by the laws of a state after a reset. -/
theorem resetStateMeetsTheInvariants : Obligations.ResetStateMeetsTheInvariants :=
  ⟨⟨resetNotices_ok, resetLine_ok _, afterReset_sale _ _ _ _ _ _ (Nat.zero_le _), afterReset_store _ _ _ _ _ _, resetClock_ok,
      afterReset_capacities _ _ _ _ _ _⟩,
    afterReset_money _ _ _ _ _ _, afterReset_peers _ _ _ _ _ _, allIds_ok _, afterReset_table _ _ _ _ _ _,
    afterReset_claims _ _ _ _ _ _⟩

/-! ### The notice line (R179) -/

theorem Notices.lineWanted_iff (n : Notices) : n.lineWanted = true ↔ n.suspension.isSet = true ∨ n.clash.isSet = true ∨
    ∃ x ∈ n.queue, n.mask.getD x.content.maskIndex false = false := by
  simp only [Notices.lineWanted, Notices.masked, Bool.or_eq_true, List.any_eq_true, Bool.not_eq_true']
  rw [or_assoc, or_comm]
  exact or_assoc

theorem Notices.refresh_line (n : Notices) : n.refresh.line = true ↔ n.suspension.isSet = true ∨ n.clash.isSet = true ∨
    ∃ x ∈ n.queue, n.mask.getD x.content.maskIndex false = false := n.lineWanted_iff

/-! ### A raised notice (R178) -/

theorem NoticeContent.isCallChanged_iff (c : NoticeContent) : c.isCallChanged = true ↔ ∃ b, c = .callChanged b := by
  cases c <;> simp [NoticeContent.isCallChanged]

/-- A notice joins, unless it is a CALL_CHANGED that finds another queued. -/
theorem Notices.add_join {n : Notices} {c : NoticeContent}
    (h : (∀ b, c ≠ .callChanged b) ∨ ∀ x ∈ n.queue, ∀ b, x.content ≠ .callChanged b) (seconds : Nat) :
    n.add c seconds = n.join ⟨c, seconds⟩ := by
  unfold Notices.add
  split
  · next b =>
    have none : ¬ (n.queue.any fun x => x.content.isCallChanged) = true := by
      simp only [List.any_eq_true, NoticeContent.isCallChanged_iff, not_exists, not_and]
      exact h.resolve_left fun k => k b rfl
    exact if_neg none
  · rfl

theorem Notices.add_coalesced {n : Notices} (h : ∃ x ∈ n.queue, ∃ b, x.content = .callChanged b) (b seconds : Nat) :
    n.add (.callChanged b) seconds = { n with queue := n.queue.map (coalesced b) } := by
  have some : (n.queue.any fun x => x.content.isCallChanged) = true := by
    simpa only [List.any_eq_true, NoticeContent.isCallChanged_iff] using h
  exact if_pos some

theorem Notices.add_latches (n : Notices) (c : NoticeContent) (seconds : Nat) : (n.add c seconds).mask = n.mask ∧
    (n.add c seconds).suspension = n.suspension ∧ (n.add c seconds).clash = n.clash := by
  unfold Notices.add Notices.join
  split <;> split_ifs <;> exact ⟨rfl, rfl, rfl⟩

/-- Settles O12: by the two ways a notice joins, the line following what then stands. -/
theorem noticeJoinsTheQueue : Obligations.NoticeJoinsTheQueue := by
  intro c s
  obtain ⟨mask, suspension, clash⟩ := s.notices.add_latches c (s.clock.tick / 10)
  refine ⟨_, rfl, mask, suspension, clash, Notices.refresh_line _, fun h => ?_, ?_⟩
  · rw [Notices.add_join h]
    constructor
    · intro room
      rw [Notices.join, if_pos (show _ < Config.noticeCapacity from room)]
      exact ⟨rfl, rfl, rfl⟩
    · intro full
      rw [Notices.join, if_neg (show ¬_ < Config.noticeCapacity from Nat.not_lt.2 full), List.drop_one]
      exact ⟨rfl, rfl, rfl⟩
  · rintro b rfl queued
    rw [Notices.add_coalesced queued]
    refine ⟨rfl, rfl, List.length_map .., fun k x at_k => ⟨fun changed => ?_, fun other => ?_⟩⟩
    all_goals simp only [Notices.refresh, List.getElem?_map, at_k, Option.map_some, coalesced]
    · rw [if_pos (x.content.isCallChanged_iff.2 changed)]
    · rw [if_neg fun k => (x.content.isCallChanged_iff.1 k).elim other]

/-! ### The notice commands (R179 to R181) -/

section notices
variable {tag k n : Nat} {s t : State} {a : Answer} (ready : s.host.ready = true)
include ready

theorem exec_noticeAck_of_ready (h : noticeAck k n s = (a, t)) : exec (.noticeAck tag k n) s = .next (t.answered 34 tag a) :=
  exec_taken rfl (gate_both (c := .noticeAck) ready rfl rfl) h

theorem exec_noticeMask_of_ready {flags : List Bool} (length : flags.length = 14) :
    exec (.noticeMask tag flags) s =
      .next ((s.withNotices { s.notices with mask := flags }.refresh).answered 33 tag ⟨.ok, none, .mask flags⟩) := by
  have whole : gate .noticeMask (maskLengthOk flags) s = none := by
    rw [show maskLengthOk flags = true from decide_eq_true length]
    exact gate_both ready rfl rfl
  exact exec_taken (i := .noticeMask tag flags) (body := noticeMask flags) rfl whole rfl

end notices

theorem criticalOf_none {k : Nat} (suspension : k ≠ 15) (clash : k ≠ 16) : criticalOf k = none := by
  unfold criticalOf
  split <;> first | contradiction | rfl

/-- NOTICE_ACK of a latch: the three cases of R180. -/
theorem ackLatch_cases (c : Critical) (n : Nat) (s : State) :
    ((s.notices.latch c).isSet = false → ackLatch c n s = (.ok .none, s)) ∧
    ((s.notices.latch c).isSet = true → (s.notices.latch c).count ≠ n →
      ackLatch c n s = (⟨.refused, some .staleAck, .latchCount (s.notices.latch c).count⟩, s)) ∧
    (s.notices.latch c = ⟨true, n⟩ → ackLatch c n s = (.ok .none, s.withNotices (s.notices.clearLatch c).refresh)) := by
  refine ⟨fun clear => ?_, fun set stale => ?_, fun present => ?_⟩ <;> simp only [ackLatch]
  · simp [clear]
  · simp [set, stale]
  · simp [present]

/-- Settles O21: each command's answer and Notice Unit, the line by what then stands. -/
theorem noticesAreReadMaskedAndAcknowledged : Obligations.NoticesAreReadMaskedAndAcknowledged := by
  refine ⟨fun tag s ready => ?_, fun tag k n flags s ready => ⟨fun length => ?_, fun suspension clash => ?_, ?_, ?_⟩⟩
  · exact ⟨s.notices.queue.take 4, s.notices.queue.drop 4, s.notices.readOut.line, (List.take_append_drop ..).symm,
      List.length_take, Notices.refresh_line _, exec_taken rfl (gate_both (c := .noticeRead) ready rfl rfl) rfl⟩
  · exact ⟨_, Notices.refresh_line { s.notices with mask := flags }, exec_noticeMask_of_ready ready length⟩
  · refine exec_noticeAck_of_ready ready ?_
    rw [noticeAck, criticalOf_none suspension clash]
    rfl
  · rintro rfl
    obtain ⟨clear, stale, present⟩ := ackLatch_cases .suspension n s
    refine ⟨fun h => exec_noticeAck_of_ready ready (clear h), fun h m => exec_noticeAck_of_ready ready (stale h m), fun h => ?_⟩
    refine ⟨(s.notices.clearLatch .suspension).refresh.line, (Notices.refresh_line _).trans (by simp [Notices.clearLatch]), ?_⟩
    refine (exec_noticeAck_of_ready (k := 15) ready (present h)).trans ?_
    simp only [Notices.clearLatch, h]
    rfl
  · rintro rfl
    obtain ⟨clear, stale, present⟩ := ackLatch_cases .clash n s
    refine ⟨fun h => exec_noticeAck_of_ready ready (clear h), fun h m => exec_noticeAck_of_ready ready (stale h m), fun h => ?_⟩
    refine ⟨(s.notices.clearLatch .clash).refresh.line, (Notices.refresh_line _).trans (by simp [Notices.clearLatch]), ?_⟩
    refine (exec_noticeAck_of_ready (k := 16) ready (present h)).trans ?_
    simp only [Notices.clearLatch, h]
    rfl

end Sys2Proof.Machine
end

