-- ==== Sys2Proof/Proofs/ClockAndBoardCommands.lean ====
section
/-! SUPPORT. The overlay commands (R187), the Halt Clock's own commands (R1 to R6), and the board's commands and timers (R161 to R167). -/

namespace Sys2Proof.Machine

/-! ### The overlay (R187) -/

theorem lowest_eq {ids : List Nat} {m : Nat} (mem : m ∈ ids) (least : ∀ j ∈ ids, m ≤ j) : lowest ids = some m := by
  have min : lowest ids = ids.min? := by
    cases ids <;> rfl
  rw [min, List.min?_eq_some_iff]
  exact ⟨mem, least⟩

theorem missingId_some {overlay ids : List Nat} {m : Nat} (mem : m ∈ ids) (missing : m ∉ overlay)
    (least : ∀ j ∈ ids, j ∉ overlay → m ≤ j) : missingId overlay ids = some m :=
  lowest_eq (by simp [mem, missing]) (by simpa using least)

theorem missingId_none {overlay ids : List Nat} (held : ∀ m ∈ ids, m ∈ overlay) : missingId overlay ids = none := by
  have none : ids.filter (fun i => !overlay.contains i) = [] := by simpa using held
  rw [missingId, none]
  rfl

theorem overlaySet_frozen {s : State} (h : s.overlay.frozen = true) (ids : List Nat) : overlaySet ids s = (.refused .frozen, s) :=
  if_pos h

theorem overlaySet_missing {s : State} (h : s.overlay.frozen = false) {ids : List Nat} {m : Nat}
    (missing : missingId s.overlay.ids ids = some m) : overlaySet ids s = (⟨.refused, some .cannotAdd, .lowestId m⟩, s) := by
  simp [overlaySet, h, missing]

theorem overlaySet_empty {s : State} (h : s.overlay.frozen = false) : overlaySet [] s = (.refused .empty, s) := by
  simp [overlaySet, h, missingId, lowest]

theorem overlaySet_held {s : State} (h : s.overlay.frozen = false) {ids : List Nat} (some : ids ≠ [])
    (held : ∀ m ∈ ids, m ∈ s.overlay.ids) : overlaySet ids s = (.ok (.overlay (idSet ids)), setOverlay (idSet ids) s) := by
  simp [overlaySet, h, missingId_none held, some]

theorem mem_idSet {overlay ids : List Nat} (inRange : overlay.Sublist (List.range' 1 15)) (held : ∀ m ∈ ids, m ∈ overlay) (n : Nat) :
    n ∈ idSet ids ↔ n ∈ ids := by
  rw [idSet, List.mem_filter, List.contains_iff_mem, and_iff_right_iff_imp]
  exact fun mem => inRange.subset (held n mem)

section overlay
variable {tag : Nat} {s t : State} {a : Answer} (ready : s.host.ready = true)
include ready

theorem exec_overlaySet_of_ready {ids : List Nat} (length : ids.length ≤ 15) (h : overlaySet ids s = (a, t)) :
    exec (.overlaySet tag ids) s = .next (t.answered 6 tag a) := by
  have whole : gate .overlaySet (overlayLengthOk ids) s = none := by
    rw [show overlayLengthOk ids = true from decide_eq_true length]
    exact gate_both ready rfl rfl
  exact exec_taken (i := .overlaySet tag ids) rfl whole h

theorem exec_overlayRestore_of_ready (h : overlayRestore s = (a, t)) :
    exec (.overlayRestore tag) s = .next (t.answered 7 tag a) :=
  exec_taken rfl (gate_both (c := .overlayRestore) ready rfl rfl) h

theorem exec_overlayFreeze_of_ready (h : overlayFreeze s = (a, t)) :
    exec (.overlayFreeze tag) s = .next (t.answered 8 tag a) :=
  exec_taken rfl (gate_both (c := .overlayFreeze) ready rfl rfl) h

end overlay

/-- Settles O7: the frozen flag first, then the ids that OVERLAY_SET lists. -/
theorem overlayCommandsFollowTheFrozenFlag : Obligations.OverlayCommandsFollowTheFrozenFlag := by
  intro tag ids s ready length
  have set {a t} (h : overlaySet ids s = (a, t)) := exec_overlaySet_of_ready (tag := tag) ready length h
  refine ⟨fun frozen => ⟨set (overlaySet_frozen frozen ids), ?_, ?_⟩, fun thawed => ⟨?_, ?_, ?_, ?_, ?_⟩⟩
  · exact exec_overlayRestore_of_ready ready (if_pos frozen)
  · exact exec_overlayFreeze_of_ready ready (if_pos frozen)
  · exact fun m mem missing least => set (overlaySet_missing thawed (missingId_some mem missing least))
  · rintro rfl
    exact set (overlaySet_empty thawed)
  · intro ok some held
    exact ⟨idSet ids, set (overlaySet_held thawed some held), List.filter_sublist, mem_idSet ok.ids held⟩
  · exact exec_overlayRestore_of_ready ready (if_neg (by simp [thawed]))
  · exact exec_overlayFreeze_of_ready ready (if_neg (by simp [thawed]))

/-! ### SET_TIME (R6) -/

theorem setTimeValid_iff (rm : Nat) (d : Date) (h : ClockTime) : setTimeValid rm d h = true ↔
    d.valid = true ∧ h.hours ≤ 23 ∧ h.minutes ≤ 59 ∧ h.seconds ≤ 59 ∧ (60 * rm ≤ h.toSeconds ∨ resetDate.key < d.key) := by
  simp [setTimeValid, and_assoc]

theorem resetDate_key_lt {d : Date} (valid : d.valid = true) : resetDate.key < d.key ↔ d ≠ resetDate := by
  obtain ⟨y, m, n⟩ := d
  obtain ⟨y0, y1, m0, m1, d0, d1⟩ := (Date.valid_iff _).1 valid
  simp only [Date.key, resetDate, ne_eq, Date.mk.injEq] at *
  omega

/-- The day before, gone on from, is the day (R3, R4). -/
theorem Date.next_previous {d : Date} (valid : d.valid = true) (first : d ≠ resetDate) : d.previous.next = d := by
  obtain ⟨y, m, n⟩ := d
  obtain ⟨y0, y1, m0, m1, d0, d1⟩ := (Date.valid_iff _).1 valid
  simp only at y0 y1 m0 m1 d0 d1
  unfold Date.previous
  simp only
  split
  · next day =>
    have within : n - 1 < monthLength y m := by omega
    simp only [Date.next, within, if_true, Date.mk.injEq, true_and]
    omega
  · next day =>
    split
    · next month =>
      have within : m - 1 < 12 := by omega
      simp only [Date.next, lt_irrefl, within, if_false, if_true, Date.mk.injEq, true_and]
      omega
    · next month =>
      have thirtyOne : ∀ year, ¬31 < monthLength year 12 := fun _ => by simp [monthLength]
      simp only [Date.next, thirtyOne, lt_irrefl, if_false, Date.mk.injEq]
      have : y ≠ 2000 := fun e => first (by simp only [resetDate, Date.mk.injEq]; omega)
      omega

theorem Inner.journal {s t : State} (m : Inner s t) : t.sales.journal = s.sales.journal ∧
    t.sales.serialCounter = s.sales.serialCounter := by
  rcases m.sales with e | e <;> rw [e] <;> exact ⟨rfl, rfl⟩

theorem exec_setTime_of_serving {s t : State} {d : Date} {h : ClockTime} {a : Answer} (serving : s.Serving) (tag : Nat)
    (e : setTime d h s = (a, t)) : exec (.setTime tag d h) s = .next (t.answered 5 tag a) :=
  exec_taken rfl (gate_run (c := .setTime) serving (by decide) rfl) e

theorem setTime_valid {s : State} {d : Date} {h : ClockTime} (valid : setTimeValid s.setup.settings.rolloverMinute d h = true) :
    setTime d h s = (.ok .none, stepClock (hostClock s.setup.settings.rolloverMinute d h s.clock) s) := if_pos valid

/-- Settles O8: the check of R6, then the step to the clock that the host sets. -/
theorem setTimeSetsTheServiceClock : Obligations.SetTimeSetsTheServiceClock := by
  rintro tag d h s c rm serving rfl rfl low
  constructor
  · intro bad
    refine exec_setTime_of_serving serving tag (if_neg fun valid => ?_)
    obtain ⟨date, hours, minutes, seconds, start⟩ := (setTimeValid_iff _ _ _).1 valid
    rw [resetDate_key_lt date, ClockTime.toSeconds] at start
    rcases bad with e | e | e | e | ⟨rfl, e⟩
    · simp [date] at e
    · omega
    · omega
    · omega
    · exact start.elim (by omega) (· rfl)
  · intro date hours minutes seconds start
    have valid : setTimeValid s.setup.settings.rolloverMinute d h = true := by
      rw [setTimeValid_iff, resetDate_key_lt date]
      exact ⟨date, hours, minutes, seconds, start.symm⟩
    have m := stepClock_inner (hostClock s.setup.settings.rolloverMinute d h s.clock) s
    have clock := m.clock
    rw [State.withClock_clock] at clock
    refine ⟨_, exec_setTime_of_serving serving tag (setTime_valid valid), ?_⟩
    simp only [State.answered]
    rw [clock]
    refine ⟨?_, ?_, ?_, ?_, rfl, rfl, rfl, rfl, rfl, ?_, m.setup, m.overlay, m.treadles, m.peers, m.muteFlag, m.rxCount,
      m.journal.1, m.journal.2, m.mask, m.pending⟩
    · simp only [hostClock, serviceSecondOf, ClockTime.toSeconds]
      omega
    · simp only [hostClock, serviceSecondOf]
      omega
    · intro after
      exact if_pos after
    · intro before
      have first : d ≠ resetDate := start.resolve_right (Nat.not_le.2 before)
      have previous : (hostClock s.setup.settings.rolloverMinute d h s.clock).date = d.previous := if_neg (Nat.not_le.2 before)
      rw [previous]
      exact Date.next_previous date first
    · rw [m.host]
      rfl

/-! ### The reference clock and ageing (R2 to R5) -/

theorem clockTenth_unset {s : State} (h : s.clock.grade = .unset) : clockTenth s = s.withClock s.clock.tickOn := if_pos h

theorem clockTenth_tenth {s : State} (h : s.clock.grade ≠ .unset) (tenth : s.clock.tenths < 9) :
    clockTenth s = s.withClock { s.clock.tickOn with tenths := s.clock.tenths + 1 } := (if_neg h).trans (if_pos tenth)

theorem clockTenth_second {s : State} (h : s.clock.grade ≠ .unset) (tenth : 9 ≤ s.clock.tenths) (second : s.clock.second < 86399) :
    clockTenth s = secondsEvent (s.withClock { s.clock.tickOn with second := s.clock.second + 1, tenths := 0 }) :=
  (if_neg h).trans ((if_neg (Nat.not_lt.2 tenth)).trans (if_pos second))

theorem clockTenth_rollover {s : State} (h : s.clock.grade ≠ .unset) (tenth : 9 ≤ s.clock.tenths) (second : 86399 ≤ s.clock.second) :
    clockTenth s = rollover (s.withClock s.clock.tickOn) :=
  (if_neg h).trans ((if_neg (Nat.not_lt.2 tenth)).trans (if_neg (Nat.not_lt.2 second)))

/-- The table is the one it was but for its calls: date, build count, watch view and re-send timer stand. -/
def SameTable (s t : State) : Prop := t.calls = { s.calls with calls := t.calls.calls }

theorem SameTable.refl (s : State) : SameTable s s := rfl

theorem SameTable.of_eq {s t : State} (e : t.calls = s.calls) : SameTable s t := by rw [SameTable, e]

theorem SameTable.trans {s t u : State} (a : SameTable s t) (b : SameTable t u) : SameTable s u := by
  rw [SameTable] at a b ⊢
  rw [b, a]

theorem SameTable.foldl {α : Type} {f : State → α → State} (h : ∀ s a, SameTable s (f s a)) (xs : List α) (s : State) :
    SameTable s (xs.foldl f s) := by
  induction xs generalizing s with
  | nil => exact .refl s
  | cons x xs ih => exact (h s x).trans (ih (f s x))

theorem commitCall_sameTable (i : Nat) (new : Call) (s : State) : SameTable s (commitCall i new s) := by
  rw [SameTable, commitCall_calls]

theorem evalPhase_sameTable (f : EvalContext → Call → Call) (i : Nat) (s : State) : SameTable s (evalPhase f i s) := by
  unfold evalPhase
  split
  · split
    · exact commitCall_sameTable _ _ s
    · exact .refl s
  · exact .refl s

theorem evalCall_sameTable (i : Nat) (s : State) : SameTable s (evalCall i s) :=
  (evalPhase_sameTable _ i s).trans ((evalPhase_sameTable _ i _).trans ((evalPhase_sameTable _ i _).trans (evalPhase_sameTable _ i _)))

theorem evalAll_sameTable (s : State) : SameTable s (evalAll s) := SameTable.foldl (fun t i => evalCall_sameTable i t) _ s

theorem SameTable.date {s t : State} (h : SameTable s t) : t.calls.date = s.calls.date := by
  rw [SameTable] at h
  rw [h]

theorem secondsEvent_date (s : State) : (secondsEvent s).calls.date = s.calls.date := by
  rw [secondsEvent, (secondsToLists_onBoard _).calls, (evalAll_sameTable s).date]

/-- After a rollover the table is that of the clock's new date (R4, R17). -/
theorem rollover_date (s : State) : (rollover s).calls.date = s.clock.rolled.date := by
  rw [rollover, (secondsToLists_onBoard _).calls, buildTable_calls]
  exact congrArg Clock.date (rolloverCheck_inner _).clock

theorem Clock.ageDue_iff (c : Clock) : c.ageDue = true ↔ c.grade = .host ∧ c.hostSetTick + 216000 ≤ c.tick := by
  simp only [Clock.ageDue, Bool.and_eq_true, decide_eq_true_eq]
  rfl

theorem age_due {s : State} (grade : s.clock.grade = .host) (due : s.clock.hostSetTick + 216000 ≤ s.clock.tick) :
    age s = secondsToLists (s.withClock { s.clock with grade := .hostAged }) := if_pos (s.clock.ageDue_iff.2 ⟨grade, due⟩)

theorem age_notDue {s : State} (h : s.clock.grade ≠ .host ∨ s.clock.tick < s.clock.hostSetTick + 216000) : age s = s := by
  refine if_neg fun due => ?_
  obtain ⟨grade, late⟩ := s.clock.ageDue_iff.1 due
  exact h.elim (· grade) (fun e => absurd late (Nat.not_le.2 e))

/-- Settles O9: the branches of a tenth, and the ageing test; what else changes is bounded by the law of each event. -/
theorem referenceTenthAndAgeing : Obligations.ReferenceTenthAndAgeing := by
  constructor
  · rintro s k rfl
    refine ⟨fun h => congrArg Host.Outcome.next (clockTenth_unset h),
      fun h tenth => congrArg Host.Outcome.next (clockTenth_tenth h tenth), fun h tenth => ⟨_, rfl, ?_, ?_, ?_, ?_⟩⟩
    · intro second
      rw [clockTenth_second h tenth second]
      exact ⟨(secondsEvent_inner _).clock, secondsEvent_date _⟩
    · intro second last
      have clock : (clockTenth s).clock = s.clock.tickOn.rolled := by
        rw [(clockTenth_inner s).clock, State.withClock_clock, Clock.afterTenth, if_neg h, if_neg (Nat.not_lt.2 tenth),
          if_neg (Nat.not_lt.2 second)]
      have rolled : s.clock.tickOn.rolled = { s.clock.tickOn with date := s.clock.date.next, weekday := s.clock.date.next.weekday,
                                                                  second := 0, tenths := 0 } := if_neg last
      refine ⟨clock.trans rolled, ?_⟩
      rw [clockTenth_rollover h tenth second, rollover_date, State.withClock_clock, rolled]
    · intro second last
      have clock : (clockTenth s).clock = s.clock.tickOn.rolled := by
        rw [(clockTenth_inner s).clock, State.withClock_clock, Clock.afterTenth, if_neg h, if_neg (Nat.not_lt.2 tenth),
          if_neg (Nat.not_lt.2 second)]
      have rolled : s.clock.tickOn.rolled = { resetClock with tick := s.clock.tickOn.tick } := if_pos last
      refine ⟨clock.trans rolled, ?_⟩
      rw [clockTenth_rollover h tenth second, rollover_date, State.withClock_clock, rolled]
      rfl
    · have m := clockTenth_inner s
      exact ⟨m.setup, m.overlay, m.treadles, m.peers, m.muteFlag, m.rxCount, m.journal.1, m.journal.2, m.host, m.pending⟩
  · intro s
    refine ⟨fun grade due => ⟨_, congrArg Host.Outcome.next (age_due grade due), ?_⟩,
      fun h => congrArg Host.Outcome.next (age_notDue h)⟩
    obtain ⟨_, _, _, e⟩ := secondsToLists_onBoard (s.withClock { s.clock with grade := .hostAged })
    rw [e]
    exact ⟨rfl, rfl, rfl, rfl, rfl, rfl, rfl, rfl, rfl, rfl, rfl⟩

/-! ### The board's commands and timers (R161, R164 to R167) -/

theorem timerDue_false {t : Option Timer} {tick : Tick} (h : ∀ x, t = some x → tick < x.start + x.span) :
    timerDue t tick = false := by
  cases t with
  | none => rfl
  | some x => exact decide_eq_false (Nat.not_le.2 (h x rfl))

theorem timerDue_true {t : Option Timer} {tick : Tick} {x : Timer} (e : t = some x) (h : x.start + x.span ≤ tick) :
    timerDue t tick = true := by
  rw [e]
  exact decide_eq_true h

section board
variable {tag n : Nat} {s t : State} {a : Answer} (serving : s.Serving) (shows : s.setup.straps.shows = true)
include serving shows

theorem exec_lampTest_of_showing (h : lampTest n s = (a, t)) : exec (.lampTest tag n) s = .next (t.answered 30 tag a) :=
  exec_taken rfl (gate_shows (c := .lampTest) serving (by decide) rfl shows) h

theorem exec_brightness_of_showing (h : brightness n s = (a, t)) : exec (.brightness tag n) s = .next (t.answered 31 tag a) :=
  exec_taken rfl (gate_shows (c := .brightness) serving (by decide) rfl shows) h

end board

theorem brightness_level {n : Nat} (h : n ≤ 8) (s : State) :
    brightness n s = (.ok .none, compose (s.withBoard { s.board with override := overrideOf n })) := if_neg (Nat.not_lt.2 h)

/-- Settles O20: each command and timer by the test it makes. -/
theorem boardCommandsAndTimers : Obligations.BoardCommandsAndTimers := by
  refine ⟨fun tag n s serving shows => ⟨?_, ?_, ?_, ?_, ?_⟩, fun s => ⟨?_, ?_, ?_, ?_, ?_, ?_, ?_, ?_⟩, fun s => ⟨?_, ?_, ?_⟩⟩
  · intro bad
    exact exec_lampTest_of_showing serving shows (if_pos (by simpa using bad))
  · intro low high
    refine exec_lampTest_of_showing serving shows ((if_neg (by simp; omega)).trans ?_)
    rw [timerFrom, Nat.mul_comm]
    rfl
  · exact fun high => exec_brightness_of_showing serving shows (if_pos high)
  · rintro rfl
    exact exec_brightness_of_showing serving shows (brightness_level (Nat.le_refl _) s)
  · intro low
    refine exec_brightness_of_showing serving shows ((brightness_level (Nat.le_succ_of_le low) s).trans ?_)
    rw [overrideOf, if_neg (by omega)]
    rfl
  · exact fun h => congrArg Host.Outcome.next (if_neg (by simp [timerDue_false h]))
  · intro x k timer due phase
    refine congrArg Host.Outcome.next ((if_pos (timerDue_true timer due)).trans ?_)
    rw [show 1 - s.board.phase = k by omega]
    rfl
  · exact fun h => congrArg Host.Outcome.next (if_neg (by simp [Board.warning, timerDue_false h]))
  · exact fun x timer due => congrArg Host.Outcome.next (if_pos (timerDue_true (t := s.board.warnUp) timer due))
  · exact fun h => congrArg Host.Outcome.next (if_neg (by simp [Board.warning, timerDue_false h]))
  · exact fun x timer due => congrArg Host.Outcome.next (if_pos (timerDue_true (t := s.board.warnDown) timer due))
  · exact fun h => congrArg Host.Outcome.next (if_neg (by simp [timerDue_false h]))
  · exact fun x timer due => congrArg Host.Outcome.next (if_pos (timerDue_true timer due))
  · exact fun idle => congrArg Host.Outcome.next (if_neg (by simp [idle]))
  · intro x y sending waiting
    refine congrArg Host.Outcome.next ((if_pos (by simp [sending])).trans ?_)
    rw [waiting]
    rfl
  · intro x sending waiting
    refine congrArg Host.Outcome.next ((if_pos (by simp [sending])).trans ?_)
    rw [waiting]
    exact congrArg (fun w => s.withBoard { s.board with sending := none, waitingImage := w }) waiting.symm

end Sys2Proof.Machine
end

