-- ==== Sys2Proof/Proofs/HandingOver.lean ====
section
/-! SUPPORT. What handing a frame over does, case by case (R86 to R90), and what a hand-over can do to the Edition Store. -/

namespace Sys2Proof.Machine

/-! ### The queue's own cases (R86 to R88, R92) -/

section lineHand
variable {l : Line} {tick : Tick} {p : Payload}

theorem findIdx?_supersedes_none (new : ∀ g ∈ l.queue, p.supersedes g.payload = false) :
    l.queue.findIdx? (fun f => p.supersedes f.payload) = none := by
  simpa using new

theorem Line.hand_of_muted (m : l.muted = true) : l.hand tick p = (.muted, l, none) := if_pos m

theorem Line.hand_of_superseded (m : l.muted = false) {i : Nat} {f : TxFrame} (at_i : l.queue[i]? = some f)
    (old : p.supersedes f.payload = true) (first : ∀ j < i, ∀ g, l.queue[j]? = some g → p.supersedes g.payload = false) :
    l.hand tick p = (.queued l.seqCounter, l.supersede tick i p, none) := by
  obtain ⟨lt, rfl⟩ := List.getElem?_eq_some_iff.1 at_i
  have found : l.queue.findIdx? (fun f => p.supersedes f.payload) = some i := by
    refine List.findIdx?_eq_some_iff_getElem.2 ⟨lt, old, fun j hj => ?_⟩
    simp [first j hj _ (List.getElem?_eq_getElem (hj.trans lt))]
  simp only [Line.hand, m, found]
  rfl

variable (m : l.muted = false) (new : ∀ g ∈ l.queue, p.supersedes g.payload = false)
include m new

theorem Line.hand_of_room (room : l.queue.length < 12) : l.hand tick p = (.queued l.seqCounter, l.push tick p, none) := by
  simp only [Line.hand, m, findIdx?_supersedes_none new, Config.queueCapacity, room]
  rfl

theorem Line.hand_of_routine (full : 12 ≤ l.queue.length) (routine : p.kind.urgent = false) : l.hand tick p = (.dropped, l, none) := by
  simp only [Line.hand, m, findIdx?_supersedes_none new, Config.queueCapacity, Nat.not_lt.2 full, routine]
  rfl

theorem Line.hand_of_urgent (full : 12 ≤ l.queue.length) (urgent : p.kind.urgent = true) (all : l.newestRoutine = none) :
    l.hand tick p = (.refused, l, none) := by
  simp only [Line.hand, m, findIdx?_supersedes_none new, Config.queueCapacity, Nat.not_lt.2 full, urgent, all]
  rfl

theorem Line.hand_of_displaced (full : 12 ≤ l.queue.length) (urgent : p.kind.urgent = true) {i : Nat}
    (newest : l.newestRoutine = some i) :
    l.hand tick p = (.queued l.seqCounter, (l.remove tick i).push tick p, l.queue[i]?) := by
  simp only [Line.hand, m, findIdx?_supersedes_none new, Config.queueCapacity, Nat.not_lt.2 full, urgent, newest]
  rfl

end lineHand

/-- The places of the routine frames are those of the queue that hold one. -/
theorem mem_routine {q : List TxFrame} {f : TxFrame} {i : Nat} :
    (f, i) ∈ q.zipIdx.filter (fun p => !p.1.payload.kind.urgent) ↔ q[i]? = some f ∧ f.payload.kind.urgent = false := by
  simp [List.mem_filter, List.mem_zipIdx_iff_getElem?]

theorem Line.newestRoutine_none {l : Line} (urgent : ∀ g ∈ l.queue, g.payload.kind.urgent = true) : l.newestRoutine = none := by
  have none : l.queue.zipIdx.filter (fun p => !p.1.payload.kind.urgent) = [] := by
    refine List.filter_eq_nil_iff.2 fun p hp => ?_
    simp [urgent p.1 (List.fst_mem_of_mem_zipIdx hp)]
  rw [Line.newestRoutine, none]
  rfl

/-- Positions rise along a queue, so the last routine frame listed is the newest. -/
theorem Line.newestRoutine_some {l : Line} {i : Nat} {f : TxFrame} (at_i : l.queue[i]? = some f)
    (routine : f.payload.kind.urgent = false)
    (after : ∀ j, i < j → ∀ g, l.queue[j]? = some g → g.payload.kind.urgent = true) : l.newestRoutine = some i := by
  have mem := mem_routine.2 ⟨at_i, routine⟩
  obtain ⟨last, isLast⟩ := Option.ne_none_iff_exists'.1 (mt List.getLast?_eq_none_iff.1 (List.ne_nil_of_mem mem))
  obtain ⟨before, cut⟩ := List.getLast?_eq_some_iff.1 isLast
  have rising : (l.queue.zipIdx.filter (fun p => !p.1.payload.kind.urgent)).Pairwise (fun a b => a.2 < b.2) := by
    have all : l.queue.zipIdx.Pairwise (fun a b => a.2 < b.2) := by
      have indices : (l.queue.zipIdx.map Prod.snd).Pairwise (· < ·) := by
        rw [List.zipIdx_map_snd, List.range'_eq_map_range]
        simpa using List.pairwise_lt_range
      exact List.pairwise_map.1 indices
    exact all.filter _
  have lastMem := mem_routine.1 (cut ▸ List.mem_append_right before (List.mem_singleton.2 rfl) :
    (last.1, last.2) ∈ l.queue.zipIdx.filter (fun p => !p.1.payload.kind.urgent))
  have notAfter : ¬i < last.2 := fun lt => by
    have := after last.2 lt last.1 lastMem.1
    simp [lastMem.2] at this
  have same : last.2 = i := by
    rw [cut, List.mem_append, List.mem_singleton] at mem
    rcases mem with earlier | same
    · rw [cut] at rising
      exact absurd ((List.pairwise_append.1 rising).2.2 _ earlier _ (List.mem_singleton.2 rfl)) notAfter
    · exact congrArg Prod.snd same.symm
  rw [Line.newestRoutine, isLast, Option.map_some, same]

/-! ### Handing over -/

section handOver
variable {p : Payload} {s : State}

theorem handOver_of_none {a : Handed} {l : Line} (h : s.line.hand s.clock.tick p = (a, l, none)) :
    handOver p s = (a, s.withLine l) := by
  simp only [handOver, handToLine, h]

theorem handOver_of_displaced {a : Handed} {l : Line} {f : TxFrame} (h : s.line.hand s.clock.tick p = (a, l, some f)) :
    handOver p s = (a, reportUnsent f (s.withLine l)) := by
  simp only [handOver, handToLine, h]

theorem handOver_of_muted (m : s.line.muted = true) : handOver p s = (.muted, s) := handOver_of_none (Line.hand_of_muted m)

theorem handOver_of_room (m : s.line.muted = false) (new : ∀ g ∈ s.line.queue, p.supersedes g.payload = false)
    (room : s.line.queue.length < 12) :
    handOver p s = (.queued s.line.seqCounter, s.withLine (s.line.push s.clock.tick p)) :=
  handOver_of_none (Line.hand_of_room m new room)

theorem hand_of_muted (m : s.line.muted = true) : hand p s = s := by rw [hand, handOver_of_muted m]

theorem hand_of_room (m : s.line.muted = false) (new : ∀ g ∈ s.line.queue, p.supersedes g.payload = false)
    (room : s.line.queue.length < 12) : hand p s = s.withLine (s.line.push s.clock.tick p) := by
  rw [hand, handOver_of_room m new room]

end handOver

/-- Only an ANNOUNCE or a RUNNING supersedes a frame (R87). -/
theorem supersedes_of_key {p : Payload} (h : p.key = none) (q : Payload) : p.supersedes q = false :=
  (Payload.supersedes_false p q).2 fun k => k.2 h

theorem queue_isEmpty {q : List TxFrame} {α : Type} (a b : α) : (if q.isEmpty then a else b) = if q = [] then a else b := by
  cases q <;> rfl

theorem Line.push_eq (l : Line) (tick : Tick) (p : Payload) : l.push tick p = { l with
    queue := l.queue ++ [⟨l.seqCounter, 0, p⟩], seqCounter := (l.seqCounter + 1) % 4096
    condition := if l.queue = [] then .waiting tick else l.condition } := by
  rw [Line.push, queue_isEmpty]
  rfl

/-! ### A pull's request that finds no room (R112) -/

/-- A routine frame that finds a full queue is dropped, and again at each try, until the pull is abandoned. -/
theorem requestSegment_dropped {k : TableKind} {s : State} (m : s.line.muted = false) (full : 12 ≤ s.line.queue.length) (n : Nat)
    (p : Pull) : requestSegment n k p s = abandonPull k s := by
  induction n generalizing p with
  | zero => rfl
  | succ n ih =>
    have dropped : handToLine (segReqOf k p) s = (.dropped, s, none) := by
      rw [handToLine, Line.hand_of_routine m (fun g _ => supersedes_of_key rfl g.payload) full rfl]
      rfl
    simp only [requestSegment, dropped]
    rw [ih, ite_self]

theorem requestExpired_dropped {k : TableKind} {s : State} (m : s.line.muted = false) (full : 12 ≤ s.line.queue.length)
    (pull : (slotOf s k).pull ≠ none) : requestExpired k s = abandonPull k s := by
  unfold requestExpired
  split
  · next none => exact absurd none pull
  · rw [requestSegment_dropped m full, ite_self]

theorem segReqLost_other {k : TableKind} {n : Nat} {s : State} (h : ∀ x, (slotOf s k).pull = some x → x.request ≠ some n) :
    segReqLost k n s = s := by
  unfold segReqLost
  split
  · next x pull => exact if_neg (h x pull)
  · rfl

theorem segReqLost_own {k : TableKind} {n : Nat} {s : State} {x : Pull} (pull : (slotOf s k).pull = some x)
    (request : x.request = some n) : segReqLost k n s = requestExpired k s := by
  simp only [segReqLost, pull, request, if_true]

theorem reportUnsent_other {f : TxFrame} (h : f.payload.kind ≠ .segReq) (s : State) : reportUnsent f s = s := by
  unfold reportUnsent
  split
  · next g payload => exact absurd (by rw [payload]; rfl) h
  · rfl

theorem reportUnsent_segReq {f : TxFrame} {g : SegReqFields} (h : f.payload = .segReq g) (s : State) :
    reportUnsent f s = segReqLost g.kind f.seq s := by
  rw [reportUnsent, h]

/-- Settles O13: by the cases of the queue, and a displaced request that finds no room again. -/
theorem frameHandedToTheQueue : Obligations.FrameHandedToTheQueue := by
  intro p s _
  refine ⟨handOver_of_muted, fun m => ⟨fun i f at_i old first => ?_, fun new => ⟨fun room => ?_, fun full routine => ?_,
    fun full urgent all => ?_, fun i f u full urgent at_i routine after hu => ?_⟩⟩⟩
  · exact handOver_of_none (Line.hand_of_superseded m at_i old first)
  · rw [handOver_of_room m new room, Line.push_eq]
    rfl
  · exact handOver_of_none (Line.hand_of_routine m new full routine)
  · exact handOver_of_none (Line.hand_of_urgent m new full urgent (Line.newestRoutine_none all))
  · have newest := Line.newestRoutine_some at_i routine after
    have lt : i < s.line.queue.length := (List.getElem?_eq_some_iff.1 at_i).1
    have long : (s.line.queue.eraseIdx i).length = 11 := by
      rw [List.length_eraseIdx_of_lt lt]
      omega
    have some : s.line.queue.eraseIdx i ≠ [] := fun none => by simp [none] at long
    have line : s.withLine ((s.line.remove s.clock.tick i).push s.clock.tick p) = u := by
      rw [hu, Line.push_eq]
      simp only [Line.remove, some, if_false, freshCondition, List.isEmpty_eq_false_iff.2 some]
      rfl
    have handed := handOver_of_displaced ((Line.hand_of_displaced m new full.le urgent newest).trans (by rw [at_i]))
    rw [line] at handed
    have mu : u.line.muted = false := by rw [hu]; exact m
    have fullU : 12 ≤ u.line.queue.length := by
      rw [hu]
      simp [long]
    have store : ∀ k, slotOf u k = s.store.slot k := fun k => by rw [hu]; rfl
    refine ⟨fun other => by rw [handed, reportUnsent_other other], fun g payload => ⟨fun other => ?_, fun x pull request => ?_⟩⟩
    · rw [handed, reportUnsent_segReq payload, segReqLost_other (by rw [store]; exact other)]
    · rw [handed, reportUnsent_segReq payload, segReqLost_own (by rw [store]; exact pull) request,
        requestExpired_dropped mu fullU (by rw [store, pull]; simp), abandonPull, store, setSlot]
      rw [hu]
      rfl

/-! ### What a hand-over can do to the Edition Store -/

/-- A slot after the line's events: its pull may have been asked for again or abandoned, and nothing else. -/
structure PullOnly (x y : Slot) : Prop where
  active : y.active = x.active
  edition : y.activeEdition = x.activeEdition
  refused : y.refused = x.refused
  wait : y.pullWait = x.pullWait
  idle : x.pull = none → y = x
  staged : y.loader = .staged → x.loader = .staged

theorem PullOnly.refl (x : Slot) : PullOnly x x := ⟨rfl, rfl, rfl, rfl, fun _ => rfl, id⟩

theorem PullOnly.trans {x y z : Slot} (a : PullOnly x y) (b : PullOnly y z) : PullOnly x z where
  active := b.active.trans a.active
  edition := b.edition.trans a.edition
  refused := b.refused.trans a.refused
  wait := b.wait.trans a.wait
  idle none := (b.idle (a.idle none ▸ none)).trans (a.idle none)
  staged := a.staged ∘ b.staged

/-- Both kinds' slots. -/
def PullsOnly (s t : State) : Prop := ∀ k, PullOnly (slotOf s k) (slotOf t k)

theorem PullsOnly.refl (s : State) : PullsOnly s s := fun _ => .refl _

theorem PullsOnly.of_eq {s t : State} (e : t.store = s.store) : PullsOnly s t := fun k => by
  rw [slotOf, slotOf, e]
  exact .refl _

theorem PullsOnly.trans {s t u : State} (a : PullsOnly s t) (b : PullsOnly t u) : PullsOnly s u := fun k => (a k).trans (b k)

theorem slotOf_setSlot (k j : TableKind) (x : Slot) (s : State) :
    slotOf (setSlot k x s) j = if j = k then x else slotOf s j := by
  cases k <;> cases j <;> rfl

theorem setSlot_pullsOnly {k : TableKind} {x : Slot} {s : State} (h : PullOnly (slotOf s k) x) : PullsOnly s (setSlot k x s) := by
  intro j
  rw [slotOf_setSlot]
  split
  · next e => exact e ▸ h
  · exact .refl _

section requests
variable {k : TableKind} {s : State} (pull : (slotOf s k).pull ≠ none)
include pull

theorem abandonPull_pullsOnly : PullsOnly s (abandonPull k s) :=
  setSlot_pullsOnly ⟨rfl, rfl, rfl, rfl, fun none => absurd none pull, fun e => by cases e⟩

theorem setPull_pullsOnly (p : Pull) : PullsOnly s (setPull k p s) :=
  setSlot_pullsOnly ⟨rfl, rfl, rfl, rfl, fun none => absurd none pull, id⟩

end requests

theorem requestSegment_pullsOnly (n : Nat) {k : TableKind} (p : Pull) {s : State} (pull : (slotOf s k).pull ≠ none) :
    PullsOnly s (requestSegment n k p s) := by
  induction n generalizing p s with
  | zero => exact abandonPull_pullsOnly pull
  | succ n ih =>
    have handed : PullsOnly s (handToLine (segReqOf k p) s).2.1 := .of_eq rfl
    have still : (slotOf (handToLine (segReqOf k p) s).2.1 k).pull ≠ none := pull
    simp only [requestSegment]
    split
    · exact handed.trans (setPull_pullsOnly still _)
    · split
      · exact handed.trans (ih _ still)
      · exact handed.trans (abandonPull_pullsOnly still)

theorem requestExpired_pullsOnly (k : TableKind) (s : State) : PullsOnly s (requestExpired k s) := by
  unfold requestExpired
  split
  · exact .refl s
  · next p pull =>
    have some : (slotOf s k).pull ≠ none := by simp [pull]
    split
    · exact requestSegment_pullsOnly _ _ some
    · exact abandonPull_pullsOnly some

theorem segReqLost_pullsOnly (k : TableKind) (n : Nat) (s : State) : PullsOnly s (segReqLost k n s) := by
  unfold segReqLost
  split
  · split
    · exact requestExpired_pullsOnly k s
    · exact .refl s
  · exact .refl s

theorem reportUnsent_pullsOnly (f : TxFrame) (s : State) : PullsOnly s (reportUnsent f s) := by
  unfold reportUnsent
  split
  · exact segReqLost_pullsOnly _ _ s
  · exact .refl s

theorem handOver_pullsOnly (p : Payload) (s : State) : PullsOnly s (handOver p s).2 := by
  have handed : PullsOnly s (handToLine p s).2.1 := .of_eq rfl
  simp only [handOver]
  split
  · exact handed.trans (reportUnsent_pullsOnly _ _)
  · exact handed

theorem hand_pullsOnly (p : Payload) (s : State) : PullsOnly s (hand p s) := handOver_pullsOnly p s

end Sys2Proof.Machine
end

