-- ==== Sys2Proof/Proofs/SaleCommands.lean ====
section
/-! SUPPORT. The close of a sale (R142, R153), SALE_ACCEPT (R136, R148), SALE_HOLD (R137), the aborts (R141), SALE_PRINTED (R140). -/

namespace Sys2Proof.Machine

/-! ### The activation of a staged fare edition (R117) -/

theorem activateFare_waits {s : State} (h : s.store.fare.loader ≠ .staged) : activateFare s = s := if_neg (by simp [h])

theorem activateFare_staged {s : State} (h : s.store.fare.loader = .staged) (idle : s.sales.sale = none) :
    activateFare s = activate .fare s := if_pos (by simp [h, idle])

theorem activateFare_rest (s : State) : (activateFare s).line = s.line ∧ (activateFare s).sales = s.sales ∧
    (activateFare s).claims = s.claims := by
  unfold activateFare
  split <;> exact ⟨rfl, rfl, rfl⟩

/-! ### The close of an own claim (R153) -/

section closeClaim
variable {q : Nat} {c : Claim} {s : State} (found : findClaim s.claims (own s) q = some c)
include found

theorem closeClaim_taken (granted : c.state = .granted) : closeClaim true q s =
    hand (.taken c.fields) (updateClaim (own s) q (fun x => { x with state := .taken }) s) := by
  simp only [closeClaim, found, granted]

theorem closeClaim_released (granted : c.state = .granted) : closeClaim false q s =
    hand (.release c.fields) (removeClaim (own s) q s) := by
  simp only [closeClaim, found, granted]

theorem closeClaim_withdrawn (queued : c.state = .queued) : closeClaim false q s =
    removeClaim (own s) q (withdrawClaim q s).2 := by
  simp only [closeClaim, found, queued]

end closeClaim

theorem closeClaim_none {q : Nat} {s : State} (h : findClaim s.claims (own s) q = none) (issued : Bool) :
    closeClaim issued q s = s := by
  simp only [closeClaim, h]

theorem withdrawClaim_store (q : Nat) (s : State) : (withdrawClaim q s).2.store = s.store := by
  unfold withdrawClaim
  split <;> rfl

theorem hand_withClaims_pullsOnly (p : Payload) (c : List Claim) (s : State) : PullsOnly s (hand p (s.withClaims c)) :=
  fun k => hand_pullsOnly p (s.withClaims c) k

/-- A claim's close leaves the Sale Unit alone, and can reach the Edition Store by a displaced request alone. -/
theorem closeClaim_rest (issued : Bool) (q : Nat) (s : State) : (closeClaim issued q s).sales = s.sales ∧
    PullsOnly s (closeClaim issued q s) := by
  unfold closeClaim
  split
  · exact ⟨rfl, .refl s⟩
  · split
    · exact ⟨(hand_onLine _ _).sales, hand_withClaims_pullsOnly _ _ s⟩
    · exact ⟨(hand_onLine _ _).sales, hand_withClaims_pullsOnly _ _ s⟩
    · exact ⟨(withdrawClaim_onLine q s).sales, .of_eq (withdrawClaim_store q s)⟩
    · exact ⟨rfl, .refl s⟩

theorem updateClaim_claims (origin seq : Nat) (f : Claim → Claim) (s : State) : (updateClaim origin seq f s).claims =
    s.claims.map (fun x => if x.origin = origin ∧ x.seq = seq then f x else x) := by
  simp [updateClaim, Claim.hasKey]

theorem hand_claimFrame {p : Payload} {s : State} (key : p.key = none) (m : s.line.muted = false) (room : s.line.queue.length < 12) :
    (hand p s).line.queue = s.line.queue ++ [⟨s.line.seqCounter, 0, p⟩] := by
  rw [hand_of_room m (fun g _ => supersedes_of_key key g.payload) room]
  rfl

/-! ### The close of a sale (R142) -/

/-- What the close has done when it comes to the notice: the own claim, if any, closed. -/
def claimClosed (issued : Bool) (r : SaleRecord) (s : State) : State :=
  match r.claim with
  | some seq => closeClaim issued seq s
  | none => s

theorem claimClosed_some {issued : Bool} {r : SaleRecord} {q : Nat} (h : r.claim = some q) (s : State) :
    claimClosed issued r s = closeClaim issued q s := by rw [claimClosed, h]

theorem claimClosed_none {issued : Bool} {r : SaleRecord} {s : State}
    (h : ∀ q, r.claim = some q → findClaim s.claims (own s) q = none) : claimClosed issued r s = s := by
  unfold claimClosed
  split
  · next q e => exact closeClaim_none (h q e) issued
  · rfl

theorem claimClosed_rest (issued : Bool) (r : SaleRecord) (s : State) : (claimClosed issued r s).sales = s.sales ∧
    PullsOnly s (claimClosed issued r s) := by
  unfold claimClosed
  split
  · exact closeClaim_rest issued _ s
  · exact ⟨rfl, .refl s⟩

/-- The serial that a SALE_STATE carries (R142): of an issued or void sale. -/
def serialTold (reason : Reason) (r : SaleRecord) : Option Nat := if reason = .issued || reason = .void then r.serial else none

theorem closeSale_eq (reason : Reason) (issued : Bool) (r : SaleRecord) (s : State) : closeSale reason issued r s =
    activateFare (setSale none (raise (.saleState reason r.quote.product r.quote.quote r.credit r.change r.refund
      (serialTold reason r)) (claimClosed issued r s))) := rfl

theorem closeSale_rest (reason : Reason) (issued : Bool) (r : SaleRecord) (s : State) :
    (closeSale reason issued r s).line = (claimClosed issued r s).line ∧
    (closeSale reason issued r s).claims = (claimClosed issued r s).claims := by
  rw [closeSale_eq]
  exact ⟨(activateFare_rest _).1, (activateFare_rest _).2.2⟩

/-- The close as the statements describe it, of a record that keeps the quote, the credit and the claim of r. -/
theorem closeSale_closed (reason : Reason) (issued : Bool) {r r' : SaleRecord} (quote : r'.quote = r.quote)
    (credit : r'.credit = r.credit) (claim : r'.claim = r.claim) (s : State) :
    Closed s (closeSale reason issued r' s) r reason issued r'.change r'.refund (serialTold reason r') := by
  obtain ⟨sales, pulls⟩ := claimClosed_rest issued r' s
  obtain ⟨line, claims⟩ := closeSale_rest reason issued r' s
  have closed : ∀ {q}, r.claim = some q → claimClosed issued r' s = closeClaim issued q s :=
    fun h => claimClosed_some (claim.trans h) s
  have waits : s.store.fare.loader ≠ .staged → (claimClosed issued r' s).store.fare.loader ≠ .staged :=
    fun h staged => h ((pulls .fare).staged staged)
  refine ⟨?_, ?_, fun none loader => ?_, fun staged pull => ?_, fun loader => ?_, fun q c hq found => ⟨?_, ?_, ?_, ?_⟩⟩
  · rw [closeSale_eq, (activateFare_rest _).2.1]
    exact congrArg (fun u : SaleUnit => { u with sale := none }) sales
  · obtain ⟨_, _, _, _, _, e⟩ := closeSale_onSale reason issued r' s
    rw [e]
  · have same : claimClosed issued r' s = s := claimClosed_none fun q h => none q (claim ▸ h)
    rw [closeSale_eq, same, activateFare_waits (s := setSale Option.none (raise _ s)) loader, quote, credit]
    rfl
  · have fare : (claimClosed issued r' s).store.fare = s.store.fare := (pulls .fare).idle pull
    rw [closeSale_eq, activateFare_staged (s := setSale none (raise _ (claimClosed issued r' s)))
      (show (claimClosed issued r' s).store.fare.loader = .staged by rw [fare, staged]) rfl]
    change { (claimClosed issued r' s).store.fare.cleared with
      active := some (claimClosed issued r' s).store.fare.staging
      activeEdition := editionOf (claimClosed issued r' s).store.fare.staging } = _
    rw [fare]
    rfl
  · rw [closeSale_eq, activateFare_waits (s := setSale none (raise _ (claimClosed issued r' s))) (waits loader)]
    exact ⟨(pulls .fare).active, (pulls .fare).edition⟩
  · rintro granted rfl
    rw [claims, closed hq, closeClaim_taken found granted, (hand_onLine _ _).claims, updateClaim_claims]
    rfl
  · rintro (granted | queued) rfl
    · rw [claims, closed hq, closeClaim_released found granted, (hand_onLine _ _).claims]
      rfl
    · rw [claims, closed hq, closeClaim_withdrawn found queued]
      exact congrArg _ (withdrawClaim_onLine q s).claims
  · intro granted m room
    rw [line, closed hq]
    cases issued with
    | true =>
      rw [closeClaim_taken found granted]
      exact hand_claimFrame rfl m room
    | false =>
      rw [closeClaim_released found granted]
      exact hand_claimFrame rfl m room
  · rintro queued rfl i at_i
    rw [line, closed hq, closeClaim_withdrawn found queued, withdrawClaim, at_i]
    rfl

/-- An abort closes a sale that is not in ISSUING with its credit as the refund (R141). -/
theorem abortSale_closed {reason : Reason} (issued : reason ≠ .issued) (void : reason ≠ .void) {r : SaleRecord} {s : State}
    (sale : s.sales.sale = some r) (stage : r.stage ≠ .issuing) :
    Closed s (abortSale reason s) r reason false 0 r.credit none := by
  have told : serialTold reason { r with refund := r.credit, change := 0 } = none := by simp [serialTold, issued, void]
  have closed := closeSale_closed reason false (r' := { r with refund := r.credit, change := 0 }) (r := r) rfl rfl rfl s
  rw [told] at closed
  rw [abortSale, sale]
  simpa only [stage, if_false] using closed

/-! ### SALE_HOLD (R137) -/

section selling
variable {s t : State} {a : Answer} (serving : s.Serving) (sells : s.setup.straps.sells = true) (tag : Nat)
include serving sells

theorem exec_saleHold_of_selling {n : Nat} (h : saleHold n s = (a, t)) : exec (.saleHold tag n) s = .next (t.answered 23 tag a) :=
  exec_taken rfl (gate_sells (c := .saleHold) serving (by decide) rfl sells) h

theorem exec_saleCancel_of_selling (h : saleCancel s = (a, t)) : exec (.saleCancel tag) s = .next (t.answered 24 tag a) :=
  exec_taken rfl (gate_sells (c := .saleCancel) serving (by decide) rfl sells) h

theorem exec_salePrinted_of_selling {x : PrintResult} (h : salePrinted (x = .ok) s = (a, t)) :
    exec (.salePrinted tag x) s = .next (t.answered 25 tag a) :=
  exec_taken rfl (gate_sells (c := .salePrinted) serving (by decide) rfl sells) h

theorem exec_saleAccept_of_selling (h : saleAccept s = (a, t)) : exec (.saleAccept tag) s = .next (t.answered 21 tag a) :=
  exec_taken rfl (gate_sells (c := .saleAccept) serving (by decide) rfl sells) h

theorem exec_saleQuote_of_selling {q : QuoteRequest} (h : saleQuote q s = (a, t)) :
    exec (.saleQuote tag q) s = .next (t.answered 20 tag a) :=
  exec_taken rfl (gate_sells (c := .saleQuote) serving (by decide) rfl sells) h

end selling

theorem saleHold_paying {r : SaleRecord} {s : State} (paying : payingSale s = some r) {n : Nat} (h : n ≤ 600) :
    saleHold n s = (.ok .none, setSale (some (r.held n s.clock.tick)) s) := by
  simp only [saleHold, paying, Nat.not_lt.2 h, if_false]

/-! ### The aborts by the host and by a timer (R141) -/

theorem saleCancel_aborts {r : SaleRecord} {s : State} (sale : s.sales.sale = some r) (stage : r.stage ≠ .issuing) :
    saleCancel s = (.ok (.refund r.credit), abortSale .hostCancel s) := by
  simp only [saleCancel, sale, stage, if_false]

theorem quoteExpired_waits {r : SaleRecord} {s : State} (sale : s.sales.sale = some r)
    (h : r.stage ≠ .quoted ∨ ∀ x, r.lifetime = some x → s.clock.tick < x.start + x.span) : quoteExpired s = s := by
  simp only [quoteExpired, sale]
  refine if_neg fun due => ?_
  simp only [Bool.and_eq_true, decide_eq_true_eq] at due
  exact h.elim (· due.1) fun early => absurd due.2 (by simp [timerDue_false early])

theorem quoteExpired_aborts {r : SaleRecord} {s : State} (sale : s.sales.sale = some r) (stage : r.stage = .quoted)
    (due : timerDue r.lifetime s.clock.tick = true) : quoteExpired s = abortSale .quoteExpired s := by
  simp only [quoteExpired, sale]
  exact if_pos (by simp [stage, due])

theorem paymentExpired_waits {r : SaleRecord} {s : State} (sale : s.sales.sale = some r)
    (h : r.stage ≠ .paying ∨ ∀ x, r.payment = some x → s.clock.tick < x.start + x.span) : paymentExpired s = s := by
  unfold paymentExpired
  split
  · next r' paying =>
    obtain ⟨sale', stage⟩ := payingSale_some paying
    cases sale.symm.trans sale'
    exact if_neg (by simp [timerDue_false (h.resolve_left (· stage))])
  · rfl

theorem paymentExpired_aborts {r : SaleRecord} {s : State} (paying : payingSale s = some r)
    (due : timerDue r.payment s.clock.tick = true) : paymentExpired s = abortSale .payTimeout s := by
  simp only [paymentExpired, paying, due, if_true]

/-- Settles O47: each command and timer by its test; what is closed is closed as every abort. -/
theorem holdsAndAbortsOfASale : Obligations.HoldsAndAbortsOfASale := by
  refine ⟨fun tag n s serving sells => ⟨fun none => ?_, fun r sale stage => ⟨fun high => ?_, ?_, fun low high => ?_⟩⟩,
    fun tag s serving sells => ⟨fun none => ⟨?_, ?_, ?_⟩, fun r sale => ⟨fun stage => ?_, fun stage => ?_, fun h => ?_,
      fun x stage timer due => ?_, fun h => ?_, fun x stage timer due => ?_⟩⟩⟩
  · refine exec_saleHold_of_selling serving sells tag ?_
    rw [saleHold, payingSale_eq_none none]
    rfl
  · refine exec_saleHold_of_selling serving sells tag ?_
    simp only [saleHold, payingSale_eq_some sale stage, high, if_true]
    rfl
  · rintro rfl
    exact exec_saleHold_of_selling serving sells tag (saleHold_paying (payingSale_eq_some sale stage) (Nat.zero_le _))
  · refine exec_saleHold_of_selling serving sells tag ((saleHold_paying (payingSale_eq_some sale stage) high).trans ?_)
    rw [SaleRecord.held, if_neg (by omega), timerFrom, Nat.mul_comm]
    rfl
  · refine exec_saleCancel_of_selling serving sells tag ?_
    rw [saleCancel, none]
    rfl
  · refine congrArg Host.Outcome.next ?_
    rw [quoteExpired, none]
  · refine congrArg Host.Outcome.next ?_
    rw [paymentExpired, payingSale_eq_none (by simp [none])]
  · refine exec_saleCancel_of_selling serving sells tag ?_
    simp only [saleCancel, sale, stage, if_true]
    rfl
  · exact ⟨_, abortSale_closed (by decide) (by decide) sale stage,
      exec_saleCancel_of_selling serving sells tag (saleCancel_aborts sale stage)⟩
  · exact congrArg Host.Outcome.next (quoteExpired_waits sale h)
  · exact ⟨_, congrArg Host.Outcome.next (quoteExpired_aborts sale stage (timerDue_true timer due)),
      abortSale_closed (by decide) (by decide) sale (by simp [stage])⟩
  · exact congrArg Host.Outcome.next (paymentExpired_waits sale h)
  · exact ⟨_, congrArg Host.Outcome.next (paymentExpired_aborts (payingSale_eq_some sale stage) (timerDue_true timer due)),
      abortSale_closed (by decide) (by decide) sale (by simp [stage])⟩

/-! ### SALE_PRINTED (R140) -/

theorem salePrinted_issuing {r : SaleRecord} {s : State} (sale : s.sales.sale = some r) (stage : r.stage = .issuing) (ok : Bool) :
    salePrinted ok s = (.ok .none, if ok then closeSale .issued true r s else printFailed r s) := by
  simp only [salePrinted, sale, stage, ne_eq, not_true_eq_false, if_false]

theorem salePrinted_refused {s : State} (h : ∀ r, s.sales.sale = some r → r.stage ≠ .issuing) (ok : Bool) :
    salePrinted ok s = (.refused .notIssuing, s) := by
  unfold salePrinted
  split
  · rfl
  · next r sale => exact if_pos (h r sale)

/-- Settles O48: the two closes of an issue. -/
theorem salePrintedClosesTheIssue : Obligations.SalePrintedClosesTheIssue := by
  intro tag s serving sells
  refine ⟨fun x none => exec_salePrinted_of_selling serving sells tag (salePrinted_refused none _), fun r sale stage => ⟨?_, ?_⟩⟩
  · exact ⟨_, closeSale_closed .issued true rfl rfl rfl s,
      exec_salePrinted_of_selling serving sells tag (x := .ok) (salePrinted_issuing sale stage _)⟩
  · exact ⟨_, closeSale_closed .void false (r' := { r with refund := r.credit, change := 0 }) (r := r) rfl rfl rfl
        (voidJournal r s),
      exec_salePrinted_of_selling serving sells tag (x := .failed) (salePrinted_issuing sale stage _)⟩

/-! ### SALE_ACCEPT (R136, R148) -/

section accept
variable {r : SaleRecord} {s : State} (sale : s.sales.sale = some r)
include sale

theorem saleAccept_busy (stage : r.stage ≠ .quoted) : saleAccept s = (.refused .saleBusy, s) := by
  simp only [saleAccept, sale]
  exact if_pos stage

variable (stage : r.stage = .quoted)
include stage

theorem saleAccept_journalFull (full : 64 ≤ s.sales.journal.length) : saleAccept s = (.refused .journalFull, s) := by
  simp only [saleAccept, sale, stage, ne_eq, not_true_eq_false, if_false]
  exact if_pos full

variable (room : s.sales.journal.length < 64)
include room

theorem saleAccept_exhausted (spent : 999999 ≤ s.sales.serialCounter) : saleAccept s = (.refused .serialsExhausted, s) := by
  simp only [saleAccept, sale, stage, ne_eq, not_true_eq_false, if_false]
  exact (if_neg (Nat.not_le.2 room)).trans (if_pos spent)

theorem saleAccept_quoted (serial : s.sales.serialCounter < 999999) : saleAccept s = acceptQuoted r s := by
  simp only [saleAccept, sale, stage, ne_eq, not_true_eq_false, if_false]
  exact (if_neg (Nat.not_le.2 room)).trans (if_neg (Nat.not_le.2 serial))

end accept

theorem acceptQuoted_space {r : SaleRecord} {x : SpaceCall} (space : r.space = some x) (s : State) :
    acceptQuoted r s = acceptSpace r x s := by rw [acceptQuoted, space]

theorem acceptQuoted_paying {r : SaleRecord} (space : r.space = none) (below : r.credit < r.quote.quote) (s : State) :
    acceptQuoted r s = (.ok (.saleStage .paying), setSale (some { r with
      stage := .paying, hold := .none, lifetime := none, payment := some ⟨s.clock.tick, 1200⟩ }) s) := by
  unfold acceptQuoted
  split
  · next x some => cases space.symm.trans some
  · rw [enterPaying, if_neg (Nat.not_le.2 below)]
    rfl

theorem acceptQuoted_issuing {r : SaleRecord} (space : r.space = none) (met : r.quote.quote ≤ r.credit) (s : State) :
    acceptQuoted r s = (.ok (.saleStage .issuing), enterIssuing { r with hold := .none } s) := by
  simp only [acceptQuoted, space, enterPaying, met, if_true, stageNow, enterIssuing_sales]

section space
variable {r : SaleRecord} {x : SpaceCall} {s : State}

theorem acceptSpace_full (full : capacityOf s x.service x.date x.cls ≤ occupancy s.claims x.service x.date x.cls) :
    acceptSpace r x s = (.refused .noSpace, abortSale .noSpace s) := if_pos full

variable (places : occupancy s.claims x.service x.date x.cls < capacityOf s x.service x.date x.cls)
include places

theorem acceptSpace_noRoom (full : 24 ≤ s.claims.length) : acceptSpace r x s = (.refused .noRoom, abortSale .noRoom s) :=
  (if_neg (Nat.not_le.2 places)).trans (if_pos full)

theorem acceptSpace_sends (room : s.claims.length < 24) : acceptSpace r x s = sendClaim r x s :=
  (if_neg (Nat.not_le.2 places)).trans (if_neg (Nat.not_le.2 room))

end space

theorem sendClaim_muted {s : State} (m : s.line.muted = true) (r : SaleRecord) (x : SpaceCall) :
    sendClaim r x s = (.refused .lineFault, abortSale .lineFault s) := by
  simp only [sendClaim, handOver_of_muted m]

theorem sendClaim_busy {s : State} (m : s.line.muted = false) (full : 12 ≤ s.line.queue.length)
    (urgent : ∀ g ∈ s.line.queue, g.payload.kind.urgent = true) (r : SaleRecord) (x : SpaceCall) :
    sendClaim r x s = (.refused .lineBusy, abortSale .lineBusy s) := by
  have refused := handOver_of_none (Line.hand_of_urgent (tick := s.clock.tick)
    (p := .claim ⟨x.service, x.date, x.cls, s.line.seqCounter⟩) m (fun g _ => supersedes_of_key rfl g.payload) full rfl
    (Line.newestRoutine_none urgent))
  simp only [sendClaim, refused]
  rfl

theorem sendClaim_queued {s : State} (m : s.line.muted = false) (room : s.line.queue.length < 12) (r : SaleRecord) (x : SpaceCall) :
    sendClaim r x s = (.ok (.saleStage .claiming), claimQueued r x s.line.seqCounter (s.withLine
      (s.line.push s.clock.tick (.claim ⟨x.service, x.date, x.cls, s.line.seqCounter⟩)))) := by
  have queued := handOver_of_room (p := .claim ⟨x.service, x.date, x.cls, s.line.seqCounter⟩) m
    (fun g _ => supersedes_of_key rfl g.payload) room
  simp only [sendClaim, queued]

/-- Settles O45: the refusals in order, then payment, or the claim of the space. -/
theorem saleAcceptPaysOrClaims : Obligations.SaleAcceptPaysOrClaims := by
  intro tag s no serving sells hno
  have result {a t} (h : saleAccept s = (a, t)) := exec_saleAccept_of_selling serving sells tag h
  have refused {x t} (h : saleAccept s = (.refused x, t)) : exec (.saleAccept tag) s = .next (no x t) := by
    rw [hno]
    exact result h
  refine ⟨fun none => refused (by rw [saleAccept, none]), fun r sale => ⟨fun stage => refused (saleAccept_busy sale stage),
    fun stage full => refused (saleAccept_journalFull sale stage full),
    fun stage room spent => refused (saleAccept_exhausted sale stage room spent), fun stage room serial => ?_⟩⟩
  have accepted := saleAccept_quoted sale stage room serial
  have aborted {x : Reason} (issued : x ≠ .issued) (void : x ≠ .void) : Closed s (abortSale x s) r x false 0 r.credit none :=
    abortSale_closed issued void sale (by simp [stage])
  refine ⟨fun space below => result (accepted.trans (acceptQuoted_paying space below s)), fun space met =>
    ⟨_, _, _, enterIssuing_issued r r.credit s, result (accepted.trans (acceptQuoted_issuing space met s))⟩, fun x space => ?_⟩
  have asks := accepted.trans (acceptQuoted_space space s)
  refine ⟨fun full => ⟨_, aborted (by decide) (by decide), refused (asks.trans (acceptSpace_full full))⟩, fun places =>
    ⟨fun full => ⟨_, aborted (by decide) (by decide), refused (asks.trans (acceptSpace_noRoom places full))⟩,
      fun few m => ?_, fun few m full urgent => ?_, fun few m free => ?_⟩⟩
  all_goals have sends := asks.trans (acceptSpace_sends places few)
  · exact ⟨_, aborted (by decide) (by decide), refused (sends.trans (sendClaim_muted m r x))⟩
  · exact ⟨_, aborted (by decide) (by decide), refused (sends.trans (sendClaim_busy m full urgent r x))⟩
  · refine (result (sends.trans (sendClaim_queued m free r x))).trans ?_
    rw [Line.push_eq]
    rfl

end Sys2Proof.Machine
end

