-- ==== Sys2Proof/Proofs/SaleQuote.lean ====
section
/-! SUPPORT. SALE_QUOTE (R134): the Fare Unit's checks in order (R126), the price (R127 to R130), the space call's check (R135). -/

namespace Sys2Proof.Machine

/-! ### The checks against the fare table (R126) -/

section quoteFrom
variable {t : FareTable} {edition coinStep : Nat} {c : Clock} {q : QuoteRequest}

theorem quoteFrom_noProduct (h : t.productWith q.product = none) : quoteFrom t edition coinStep c q = .error .notInTable := by
  rw [quoteFrom, h]

variable {p : Product} {bands : List Nat} (product : t.productWith q.product = some (p, bands))
include product

theorem quoteFrom_noConcession (h : t.concessionPercent (effectiveParty q p.cls).1 = none) :
    quoteFrom t edition coinStep c q = .error .notInTable := by
  simp only [quoteFrom, product, h]

variable {percent : Nat} (concession : t.concessionPercent (effectiveParty q p.cls).1 = some percent)
include concession

theorem quoteFrom_noDestination (h : t.stations.find? (fun f => f.code = q.destination) = none) :
    quoteFrom t edition coinStep c q = .error .badDestination := by
  simp only [quoteFrom, product, concession, h]

variable {f : FareStation} (station : t.stations.find? (fun f => f.code = q.destination) = some f)
include station

theorem quoteFrom_noPassengers (h : (effectiveParty q p.cls).2 = 0) : quoteFrom t edition coinStep c q = .error .badPassengers := by
  simp only [quoteFrom, product, concession, station, h, if_true]

variable (some' : (effectiveParty q p.cls).2 ≠ 0)
include some'

theorem quoteFrom_tooMany (h : (p.cls.space.isNone && decide (t.groupLimit.getD 0 < q.passengers)) = true) :
    quoteFrom t edition coinStep c q = .error .tooMany := by
  simp only [quoteFrom, product, concession, station, some', h, if_false, if_true]

theorem quoteFrom_priced (h : (p.cls.space.isNone && decide (t.groupLimit.getD 0 < q.passengers)) = false) :
    quoteFrom t edition coinStep c q = .ok (priced t edition coinStep c p bands f (effectiveParty q p.cls).1 percent
      (effectiveParty q p.cls).2) := by
  simp only [quoteFrom, product, concession, station, some', h, if_false, Bool.false_eq_true]

end quoteFrom

/-! ### Party, concession and price (R123, R124, R127 to R129) -/

theorem ProductClass.space_isSome (x : ProductClass) : x.space.isSome = true ↔ x = .spaceBike ∨ x = .spaceChair := by
  cases x <;> simp [ProductClass.space]

theorem effectiveParty_eq {q : QuoteRequest} {x : ProductClass} {space : Bool} (h : space = x.space.isSome) :
    effectiveParty q x = (if space then 0 else q.concession, if space then 1 else q.passengers) := by
  rw [effectiveParty, h]
  split <;> rfl

theorem concessionPercent_none {t : FareTable} {id : Nat} (some : id ≠ 0) (h : ∀ x ∈ t.concessions, x.1 ≠ id) :
    t.concessionPercent id = none := by
  rw [FareTable.concessionPercent, if_neg some, Option.map_eq_none_iff, List.find?_eq_none]
  simpa using h

theorem concessionPercent_some {t : FareTable} {id pct : Nat}
    (h : id = 0 ∧ pct = 100 ∨ id ≠ 0 ∧ (t.concessions.find? (fun x => x.1 = id)).map (·.2) = some pct) :
    t.concessionPercent id = some pct := by
  rcases h with ⟨rfl, rfl⟩ | ⟨some, found⟩
  · rfl
  · rw [FareTable.concessionPercent, if_neg some, found]

theorem insideOffPeak_iff {c : Clock} {r : OffPeakRule} (grade : c.grade ≠ .unset) : insideOffPeak c r = true ↔
    r.mask.testBit c.weekday = true ∧ r.start < r.stop ∧ r.start ≤ c.second / 60 ∧ c.second / 60 < r.stop := by
  rw [← serviceMinute]
  simp [insideOffPeak, grade, and_assoc]

theorem roundedQuote_eq (total coinStep : Nat) :
    roundedQuote total coinStep = min 99999 ((total + coinStep - 1) / coinStep * coinStep) := by
  rw [roundedQuote, ceilDiv]
  generalize (total + coinStep - 1) / coinStep * coinStep = x
  unfold clampNat
  split_ifs <;> omega

/-- The items of a quote, the off-peak window and the fares being those that R124, R127 and R128 give. -/
theorem priced_eq {t : FareTable} {rule : OffPeakRule} (offPeak : t.offPeak = some rule) {c : Clock} (grade : c.grade ≠ .unset)
    {p : Product} {inside : Bool} (window : inside = true ↔ p.offPeakEligible = true ∧ rule.mask.testBit c.weekday = true ∧
      rule.start < rule.stop ∧ rule.start ≤ c.second / 60 ∧ c.second / 60 < rule.stop)
    (edition coinStep : Nat) (bands : List Nat) (f : FareStation) (concession percent passengers : Nat) {b b1 b2 : Nat}
    (base : b = bands.getD (f.band - 1) 0) (first : b1 = if inside then (b * rule.percent + 50) / 100 else b)
    (second : b2 = (b1 * percent + 50) / 100) :
    priced t edition coinStep c p bands f concession percent passengers =
      { product := p.id, cls := p.cls, destination := f.code, band := f.band, nameIndex := f.nameIndex
        concession := concession, passengers := passengers, baseFare := b, unitFare := b2, offPeak := inside
        quote := min 99999 ((b2 * passengers + coinStep - 1) / coinStep * coinStep), edition := edition } := by
  have applied : (p.offPeakEligible && insideOffPeak c rule) = inside := by
    rw [Bool.eq_iff_iff, window, Bool.and_eq_true, insideOffPeak_iff grade]
  have unit : percentOf (offPeakFare b inside rule.percent) percent = b2 := by
    rw [second, first]
    rfl
  simp only [priced, offPeak, applied, ← base, unit, roundedQuote_eq]

/-! ### The Fare Unit's order (R126) -/

section quote
variable {s : State} {q : QuoteRequest}

theorem quote_noFares (h : s.store.fare.active = none) : quote s q = .error .noFares := by
  rw [quote, h]

variable {image : List Byte} (active : s.store.fare.active = some image)
include active

theorem quote_noTime (h : s.clock.grade = .unset) : quote s q = .error .noTime := by
  simp only [quote, active, h, if_true]

variable (grade : s.clock.grade ≠ .unset)
include grade

theorem quote_notOffered (h : q.product ∉ s.overlay.ids) : quote s q = .error .notOffered := by
  simp [quote, active, grade, h]

theorem quote_offered (h : q.product ∈ s.overlay.ids) : quote s q = quoteFrom (fareTableOf image) s.store.fare.activeEdition
    s.setup.settings.coinStep s.clock q := by
  simp [quote, active, grade, h]

end quote

/-! ### The space call (R135) -/

theorem suspended_iff (s : State) : suspended s = true ↔ ∃ x ∈ s.bulletins.list, x.inForce = true ∧ x.kind = .suspension := by
  simp [suspended]

theorem callFor_today {s : State} {n : Nat} {d : Date} (h : s.calls.date = d) :
    callFor s n d = s.calls.calls.find? (fun c => c.service = n) := if_pos h

theorem spaceCallOk_iff (second : Nat) (c : Call) : spaceCallOk second c = true ↔
    c.kind = .stop ∧ c.state.awaited = true ∧ ∃ e, c.estimates = some e ∧ second + 120 < e.dep := by
  rw [spaceCallOk, Bool.and_eq_true, Bool.and_eq_true, Call.departure, decide_eq_true_eq, and_assoc]
  cases c.estimates <;> simp

theorem spaceCheck_fails {call : Option Nat} {s : State} (h : s.calls.date ≠ s.clock.date ∨
    (∀ c ∈ s.calls.calls, some c.service = call → c.kind = .pass ∨ c.state.awaited = false ∨
      ∀ e, c.estimates = some e → e.dep ≤ s.clock.second + 120) ∨
    (∃ x ∈ s.bulletins.list, x.inForce = true ∧ x.kind = .suspension)) : spaceCheck call s = false := by
  refine Bool.eq_false_iff.2 fun checked => ?_
  unfold spaceCheck at checked
  split at checked
  · cases checked
  · next n =>
    split at checked
    · next c found =>
      obtain ⟨date, mem, service⟩ := callFor_some found
      rw [Bool.and_eq_true, spaceCallOk_iff, Bool.not_eq_true', ← Bool.not_eq_true, suspended_iff] at checked
      obtain ⟨⟨stop, awaited, e, timed, late⟩, running⟩ := checked
      rcases h with other | unfit | suspension
      · exact other date.symm
      · rcases unfit c mem (congrArg some service) with pass | gone | soon
        · rw [stop] at pass
          cases pass
        · rw [awaited] at gone
          cases gone
        · exact absurd late (Nat.not_lt.2 (soon e timed))
      · exact running suspension
    · cases checked

theorem spaceCheck_passes {s : State} {c : Call} {e : Estimates} (date : s.calls.date = s.clock.date)
    (found : s.calls.calls.find? (fun x => x.service = c.service) = some c) (stop : c.kind = .stop) (awaited : c.state.awaited = true)
    (timed : c.estimates = some e) (late : s.clock.second + 120 < e.dep)
    (running : ∀ x ∈ s.bulletins.list, x.inForce = true → x.kind = .info) : spaceCheck (some c.service) s = true := by
  have on : suspended s = false := by
    rw [← Bool.not_eq_true, suspended_iff]
    rintro ⟨x, mem, force, kind⟩
    rw [running x mem force] at kind
    cases kind
  simp only [spaceCheck, callFor_today date, found]
  rw [(spaceCallOk_iff _ _).2 ⟨stop, awaited, e, timed, late⟩, on]
  rfl

/-! ### The command -/

theorem saleBusy_iff (s : State) : saleBusy s = true ↔ ∃ r, s.sales.sale = some r ∧ r.stage ≠ .quoted := by
  unfold saleBusy
  cases s.sales.sale <;> simp

section saleQuote
variable {s : State} {q : QuoteRequest} (free : saleBusy s = false)
include free

theorem saleQuote_error {r : Reason} (h : quote s q = .error r) : saleQuote q s = (.refused r, s) := by
  simp [saleQuote, free, h]

theorem saleQuote_noSpace {items : QuoteItems} (h : quote s q = .ok items) (space : items.cls.space.isSome = true)
    (fails : spaceCheck q.call s = false) : saleQuote q s = (.refused .noSpaceSale, s) := by
  simp [saleQuote, free, h, space, fails]

theorem saleQuote_taken {items : QuoteItems} (h : quote s q = .ok items)
    (passes : items.cls.space.isSome = true → spaceCheck q.call s = true) : saleQuote q s =
      (.ok (.quote items), setSale (some (quotedRecord items (spaceCallOf items q s) s.clock.tick)) s) := by
  have ok : (items.cls.space.isSome && !spaceCheck q.call s) = false := by
    cases space : items.cls.space.isSome
    · rfl
    · simp [passes space]
  simp [saleQuote, free, h, ok]

end saleQuote

/-- Settles O44: the checks in order down to the price, then the space call. -/
theorem saleQuotePricesTheRequest : Obligations.SaleQuotePricesTheRequest := by
  intro tag q s no serving sells hno
  have result {a t} (h : saleQuote q s = (a, t)) := exec_saleQuote_of_selling serving sells tag h
  have refused {x} (h : saleQuote q s = (.refused x, s)) : exec (.saleQuote tag q) s = .next (no x) := by
    rw [hno]
    exact result h
  refine ⟨fun r sale stage => refused (if_pos ((saleBusy_iff s).2 ⟨r, sale, stage⟩)), fun quoted => ?_⟩
  have free : saleBusy s = false := by
    rw [← Bool.not_eq_true, saleBusy_iff]
    rintro ⟨r, sale, stage⟩
    exact stage (quoted r sale)
  have fails {x} (h : quote s q = .error x) : exec (.saleQuote tag q) s = .next (no x) := refused (saleQuote_error free h)
  refine ⟨fun none => fails (quote_noFares none), fun image t active ht => ?_⟩
  subst ht
  refine ⟨fun unset => fails (quote_noTime active unset), fun grade other => fails (quote_notOffered active grade other),
    fun grade offered => ?_⟩
  have from' := quote_offered active grade offered
  refine ⟨fun none => fails (from'.trans (quoteFrom_noProduct none)), fun p bands space con n product hspace hcon hn => ?_⟩
  have isSpace : space = p.cls.space.isSome := by
    rw [Bool.eq_iff_iff, hspace, ProductClass.space_isSome]
  have party : effectiveParty q p.cls = (con, n) := by rw [effectiveParty_eq isSpace, hcon, hn]
  refine ⟨fun some none => fails (from'.trans (quoteFrom_noConcession product ?_)), fun pct hpct => ?_⟩
  · rw [party]
    exact concessionPercent_none some none
  have concession : (fareTableOf image).concessionPercent (effectiveParty q p.cls).1 = some pct := by
    rw [party]
    exact concessionPercent_some hpct
  refine ⟨fun none => fails (from'.trans (quoteFrom_noDestination product concession (List.find?_eq_none.2 (by simpa using none)))),
    fun f station => ⟨fun zero => fails (from'.trans (quoteFrom_noPassengers product concession station (by rw [party]; exact zero))),
      fun pos ordinary many => fails (from'.trans (quoteFrom_tooMany product concession station (by rw [party]; exact pos.ne') ?_)),
      fun rule inside b b1 b2 items pos fits offPeak window base first second hitems => ?_⟩⟩
  · rw [ordinary] at hn isSpace
    rw [Option.isSome_eq_false_iff.1 isSpace.symm, Bool.true_and, decide_eq_true_eq]
    exact (show n = q.passengers from hn) ▸ many
  have within : (p.cls.space.isNone && decide ((fareTableOf image).groupLimit.getD 0 < q.passengers)) = false := by
    rw [← Option.not_isSome, ← isSpace]
    rcases fits with yes | few
    · simp [yes]
    · cases space
      · simp only [Bool.not_false, Bool.true_and, decide_eq_false_iff_not, Nat.not_lt]
        exact (show n = q.passengers from hn) ▸ few
      · rfl
  have quoted : quote s q = .ok items := by
    rw [from', quoteFrom_priced product concession station (by rw [party]; exact pos.ne') within, party, hitems,
      priced_eq offPeak grade window _ _ bands f con pct n base first second]
  have cls : items.cls = p.cls := by rw [hitems]
  refine ⟨fun yes bad => ?_, fun no' => ?_, fun c e cls' yes date call found stop awaited timed late running bike chair => ?_⟩
  · exact refused (saleQuote_noSpace free quoted (by rw [cls, ← isSpace, yes]) (spaceCheck_fails bad))
  · have none : items.cls.space = none := by
      rw [cls, ← Option.not_isSome_iff_eq_none, ← isSpace, no']
      simp
    refine (result (saleQuote_taken free quoted (by simp [none]))).trans ?_
    rw [spaceCallOf, none]
    rfl
  · have some' : items.cls.space = some cls' := by
      rw [cls]
      rcases hspace.1 yes with e | e <;> rw [e]
      · rw [bike e]
        rfl
      · rw [chair e]
        rfl
    refine (result (saleQuote_taken free quoted fun _ => ?_)).trans ?_
    · rw [call]
      exact spaceCheck_passes date found stop awaited timed late running
    · rw [spaceCallOf, some', call]
      rfl

end Sys2Proof.Machine
end

