-- ==== Sys2Proof/Proofs/LineEventsAndGrants.lean ====
section
/-! SUPPORT. Attempts, back-off and abandonment of a frame (R81 to R84), its completion (R85, R90), and what an own CLAIM's end does
to claim and sale (R150, R141). -/

namespace Sys2Proof.Machine

/-! ### Attempts (R81, R82) -/

theorem draw_seeded {s : State} {r : Rng} (rng : s.line.rng = some r) (n : Nat) : draw n s =
    (Config.rngValue r.station r.seedTick r.drawn % n, s.withLine { s.line with rng := some { r with drawn := r.drawn + 1 } }) := by
  rw [draw, rng]

theorem filledPayload_other {p : Payload} (h : p.kind ≠ .announce) (s : State) : filledPayload s p = p := by
  cases p <;> first | rfl | exact absurd rfl h

theorem filledPayload_announce {p : Payload} (h : p.kind = .announce) (s : State) : filledPayload s p = .announce (announceFields s) := by
  cases p <;> first | rfl | cases h

section current
variable {s : State} {f : TxFrame} {q : List TxFrame} (queue : s.line.queue = f :: q)
include queue

theorem startAttempt_waiting {since : Tick} (h : s.line.condition = .waiting since) : startAttempt s = s.withLine { s.line with
    queue := { f with attempts := f.attempts + 1, payload := filledPayload s f.payload } :: q, condition := .sending } := by
  simp only [startAttempt, h, queue, setCurrent, List.tail_cons]

/-- A back-off draws slots below 2^min(a, 6); none of them sends the frame back to WAITING at once. -/
theorem backOff_eq {r : Rng} (rng : s.line.rng = some r) (g : TxFrame) : ∃ b, b < 2 ^ min g.attempts 6 ∧
    backOff g s = s.withLine { s.line with
      queue := g :: q, condition := if b = 0 then .waiting s.clock.tick else .backoff b
      rng := some { r with drawn := r.drawn + 1 } } := by
  refine ⟨_, Nat.mod_lt (Config.rngValue r.station r.seedTick r.drawn) (Nat.two_pow_pos _), ?_⟩
  simp only [backOff, draw_seeded rng, backoffRange, setCurrent, State.withLine_line, queue, List.tail_cons]
  rfl

theorem collide_sending (h : s.line.condition = .sending) : collide s = attemptFailed f .collision s := by
  simp only [collide, h, queue]

theorem busyFail_late {since : Tick} (h : s.line.condition = .waiting since) (late : since + 20 ≤ s.clock.tick) :
    busyFail s = attemptFailed { f with attempts := f.attempts + 1 } .busy s := by
  simp only [busyFail, h, queue]
  exact if_pos late

end current

theorem startAttempt_other {s : State} (h : ∀ since, s.line.condition ≠ .waiting since) : startAttempt s = s := by
  unfold startAttempt
  split
  · next since _ _ waiting _ => exact absurd waiting (h since)
  · rfl

theorem endBackoff_backoff {s : State} {b : Nat} (h : s.line.condition = .backoff b) : endBackoff s =
    s.withLine { s.line with condition := .waiting s.clock.tick } := by
  rw [endBackoff, h]

theorem endBackoff_other {s : State} (h : ∀ b, s.line.condition ≠ .backoff b) : endBackoff s = s := by
  unfold endBackoff
  split
  · next b backoff => exact absurd backoff (h b)
  · rfl

theorem collide_other {s : State} (h : s.line.condition ≠ .sending) : collide s = s := by
  unfold collide
  split
  · next sending _ => exact absurd sending h
  · rfl

theorem busyFail_early {s : State} (h : ∀ since, s.line.condition = .waiting since → s.clock.tick < since + 20) : busyFail s = s := by
  unfold busyFail
  split
  · next since _ _ waiting _ => exact if_neg (Nat.not_le.2 (h since waiting))
  · rfl

theorem attemptFailed_backsOff {f : TxFrame} (h : f.attempts < 10) (why : LineFailure) (s : State) :
    attemptFailed f why s = backOff f s := if_pos h

theorem attemptFailed_abandons {f : TxFrame} (h : 10 ≤ f.attempts) (why : LineFailure) (s : State) :
    attemptFailed f why s = abandonCurrent f why s := if_neg (Nat.not_lt.2 h)

/-- Settles O22: the events of the current frame by its condition, a failure below the tenth by the draw. -/
theorem attemptsFailAndBackOff : Obligations.AttemptsFailAndBackOff := by
  refine ⟨fun s f q queue => ⟨fun since waiting => ?_, fun h => congrArg Host.Outcome.next (startAttempt_other h),
      fun b backoff => congrArg Host.Outcome.next (endBackoff_backoff backoff),
      fun h => congrArg Host.Outcome.next (endBackoff_other h)⟩,
    fun s f q r queue rng => ⟨fun h => congrArg Host.Outcome.next (collide_other h), fun sending below => ?_,
      fun early => congrArg Host.Outcome.next (busyFail_early early), fun since waiting late below => ?_⟩⟩
  · refine ⟨_, congrArg Host.Outcome.next (startAttempt_waiting queue waiting), fun other => filledPayload_other other s,
      fun announce => ⟨_, filledPayload_announce announce s, rfl, rfl, rfl, rfl, rfl, rfl, rfl, decide_eq_true_iff, ?_, ?_⟩⟩
    · intro timed
      simp [announceFields, timed]
    · intro unset
      simp [announceFields, unset, zeroDate]
  · obtain ⟨b, slots, e⟩ := backOff_eq queue rng f
    refine ⟨b, slots, congrArg Host.Outcome.next ?_⟩
    rw [collide_sending queue sending, attemptFailed_backsOff below, e, ← queue]
    rfl
  · obtain ⟨b, slots, e⟩ := backOff_eq queue rng { f with attempts := f.attempts + 1 }
    refine ⟨b, slots, congrArg Host.Outcome.next ?_⟩
    rw [busyFail_late queue waiting late, attemptFailed_backsOff (Nat.succ_lt_succ below), e]
    rfl

/-! ### The end of an own CLAIM (R90, R141, R149) -/

theorem claimingWith_eq_some {s : State} {n : Nat} {r : SaleRecord} (sale : s.sales.sale = some r) (stage : r.stage = .claiming)
    (claim : r.claim = some n) : claimingWith s n = some r := by
  simp only [claimingWith, sale]
  exact if_pos (by simp [stage, claim])

theorem claimingWith_eq_none {s : State} {n : Nat} (h : ∀ r, s.sales.sale = some r → r.stage ≠ .claiming ∨ r.claim ≠ some n) :
    claimingWith s n = none := by
  unfold claimingWith
  split
  · next r sale =>
    refine if_neg fun both => ?_
    simp only [Bool.and_eq_true, decide_eq_true_eq] at both
    exact (h r sale).elim (· both.1) (· both.2)
  · rfl

/-- An abort of a sale whose claim has left the list touches neither claims nor line. -/
theorem abortSale_claimGone {s : State} {r : SaleRecord} (sale : s.sales.sale = some r) (stage : r.stage ≠ .issuing)
    (gone : ∀ q, r.claim = some q → findClaim s.claims (own s) q = none) (reason : Reason) :
    (abortSale reason s).line = s.line ∧ (abortSale reason s).claims = s.claims ∧
      (abortSale reason s).sales = { s.sales with sale := none } := by
  have closes : abortSale reason s = closeSale reason false { r with refund := r.credit, change := 0 } s := by
    rw [abortSale, sale]
    exact if_neg stage
  have same : claimClosed false { r with refund := r.credit, change := 0 } s = s := claimClosed_none gone
  obtain ⟨line, claims⟩ := closeSale_rest reason false { r with refund := r.credit, change := 0 } s
  rw [closes, line, claims, same]
  exact ⟨rfl, rfl, (closeSale_closed reason false (r := r) (r' := { r with refund := r.credit, change := 0 }) rfl rfl rfl s).sale⟩

theorem findClaim_removed (claims : List Claim) (origin seq : Nat) :
    findClaim (claims.filter (fun x => !x.hasKey origin seq)) origin seq = none := by
  refine List.find?_eq_none.2 fun x hx => ?_
  simpa using (List.mem_filter.1 hx).2

theorem filter_of_findClaim_none {claims : List Claim} {origin seq : Nat} (h : findClaim claims origin seq = none) :
    claims.filter (fun x => !x.hasKey origin seq) = claims :=
  List.filter_eq_self.2 fun x hx => by simpa using List.find?_eq_none.1 h x hx

/-- An own claim that is queued, if any, is gone after it is dropped. -/
theorem dropQueued_queued {n : Nat} {s : State} (h : ∀ c, findClaim s.claims (own s) n = some c → c.state = .queued) :
    dropQueued n s = removeClaim (own s) n s := by
  unfold dropQueued
  split
  · next c found => exact if_pos (h c found)
  · next none => rw [removeClaim, filter_of_findClaim_none none, State.withClaims_self]

theorem dropQueued_other {n : Nat} {s : State} (h : ∀ c, findClaim s.claims (own s) n = some c → c.state ≠ .queued) :
    dropQueued n s = s := by
  unfold dropQueued
  split
  · next c found => exact if_neg (h c found)
  · rfl

theorem failClaim_none {n : Nat} {s : State} (h : claimingWith s n = none) (reason : Reason) :
    failClaim reason n s = dropQueued n s := by
  simp only [failClaim, h]

theorem failClaim_some {n : Nat} {s : State} {r : SaleRecord} (h : claimingWith s n = some r) (reason : Reason) :
    failClaim reason n s = abortSale reason (dropQueued n s) := by
  simp only [failClaim, h]

theorem OnSale.of_line {s t : State} (o : OnSale s t) (line : t.line = s.line) :
    t = { s with claims := t.claims, sales := t.sales, store := t.store, notices := t.notices } := by
  obtain ⟨_, _, _, _, _, e⟩ := o
  rw [e] at line ⊢
  simp only at line
  simp only [line]

/-- The end of a CLAIM whose own claim stands QUEUED, or has left the list: the claim goes, and the sale CLAIMING with it. -/
theorem failClaim_queued {n : Nat} {s : State} (queued : ∀ c, findClaim s.claims (own s) n = some c → c.state = .queued)
    (reason : Reason) :
    (failClaim reason n s).claims = s.claims.filter (fun x => !x.hasKey (own s) n) ∧ (failClaim reason n s).line = s.line ∧
    (∀ r, s.sales.sale = some r → r.stage = .claiming → r.claim = some n →
      (failClaim reason n s).sales = { s.sales with sale := none }) ∧
    ((∀ r, s.sales.sale = some r → r.stage ≠ .claiming ∨ r.claim ≠ some n) →
      (failClaim reason n s).sales = s.sales ∧ (failClaim reason n s).store = s.store) := by
  have dropped := dropQueued_queued queued
  cases claiming : claimingWith s n with
  | none =>
    rw [failClaim_none claiming, dropped]
    refine ⟨rfl, rfl, fun r sale stage claim => ?_, fun _ => ⟨rfl, rfl⟩⟩
    rw [claimingWith_eq_some sale stage claim] at claiming
    cases claiming
  | some r =>
    obtain ⟨sale, stage⟩ := claimingWith_some claiming
    have claim : r.claim = some n := by
      by_contra other
      rw [claimingWith_eq_none fun r' sale' => .inr (by rw [Option.some.inj (sale'.symm.trans sale)]; exact other)] at claiming
      cases claiming
    have gone : ∀ q, r.claim = some q → findClaim (removeClaim (own s) n s).claims (own s) q = none := by
      intro q hq
      cases claim.symm.trans hq
      exact findClaim_removed _ _ _
    obtain ⟨line, claims, sales⟩ := abortSale_claimGone (s := removeClaim (own s) n s) sale (by simp [stage]) gone reason
    rw [failClaim_some claiming, dropped, line, claims, sales]
    exact ⟨rfl, rfl, fun _ _ _ _ => rfl, fun none => absurd ((none r sale).resolve_left (· stage)) (· claim)⟩

/-! ### Abandonment (R83, R90, R112) -/

theorem dropCurrent_eq {s : State} {f : TxFrame} {q : List TxFrame} (queue : s.line.queue = f :: q) : dropCurrent s =
    s.withLine { s.line with queue := q, condition := if q = [] then .noFrame else .waiting s.clock.tick } := by
  simp only [dropCurrent, Line.remove, queue, List.eraseIdx_cons_zero, freshCondition, if_true, queue_isEmpty]

theorem tellAbandoned_other {f : TxFrame} (claim : f.payload.kind ≠ .claim) (segReq : f.payload.kind ≠ .segReq) (s : State) :
    tellAbandoned f s = s := by
  unfold tellAbandoned
  split
  · next e => exact absurd (by rw [e]; rfl) claim
  · next e => exact absurd (by rw [e]; rfl) segReq
  · rfl

theorem requestSegment_queued {k : TableKind} {s : State} (m : s.line.muted = false) (room : s.line.queue.length < 12) (n : Nat)
    (p : Pull) : requestSegment (n + 1) k p s =
      setPull k { p with request := some s.line.seqCounter } (s.withLine (s.line.push s.clock.tick (segReqOf k p))) := by
  have queued : handToLine (segReqOf k p) s = (.queued s.line.seqCounter, s.withLine (s.line.push s.clock.tick (segReqOf k p)), none) := by
    rw [handToLine, Line.hand_of_room m (fun g _ => supersedes_of_key rfl g.payload) room]
  simp only [requestSegment, queued]

theorem requestExpired_lastTry {k : TableKind} {s : State} {p : Pull} (pull : (slotOf s k).pull = some p) (last : 4 ≤ p.tries) :
    requestExpired k s = abandonPull k s := by
  simp only [requestExpired, pull]
  exact if_neg (Nat.not_lt.2 last)

theorem requestExpired_retry {k : TableKind} {s : State} {p : Pull} (pull : (slotOf s k).pull = some p) (left : p.tries < 4) :
    requestExpired k s = requestSegment 4 k { p with tries := p.tries + 1, replyTimer := none, request := none } s := by
  simp only [requestExpired, pull]
  exact if_pos left

/-- Settles O23: the tenth failure reaches `abandonCurrent`, whose owner's part is that of the frame's kind. -/
theorem tenthFailureAbandonsTheFrame : Obligations.TenthFailureAbandonsTheFrame := by
  intro s u f q e why queue tenth hu
  obtain ⟨g, payload, seq, fails⟩ : ∃ g : TxFrame, g.payload = f.payload ∧ g.seq = f.seq ∧
      exec e s = .next (abandonCurrent g why s) := by
    rcases tenth with ⟨rfl, rfl, sending, ten⟩ | ⟨rfl, rfl, nine, since, waiting, late⟩
    · exact ⟨f, rfl, rfl, congrArg Host.Outcome.next ((collide_sending queue sending).trans (attemptFailed_abandons ten _ s))⟩
    · exact ⟨{ f with attempts := f.attempts + 1 }, rfl, rfl, congrArg Host.Outcome.next
        ((busyFail_late queue waiting late).trans (attemptFailed_abandons (Nat.succ_le_succ nine) _ s))⟩
  have told : exec e s = .next (tellAbandoned g u) := by
    rw [fails, abandonCurrent, dropCurrent_eq queue, payload, seq, hu]
    rfl
  have claims : u.claims = s.claims := by rw [hu]; rfl
  have sales : u.sales = s.sales := by rw [hu]; rfl
  have store : u.store = s.store := by rw [hu]; rfl
  have owner : own u = s.setup.straps.station := by rw [hu]; rfl
  refine ⟨fun claim segReq => ?_, fun x hx => ?_, fun x hx => ?_⟩
  · rw [told, tellAbandoned_other (by rw [payload]; exact claim) (by rw [payload]; exact segReq)]
  · have tells : exec e s = .next (failClaim .lineFault f.seq u) := by
      rw [told, tellAbandoned, payload, hx, seq]
    refine ⟨fun notQueued idle => ?_, fun queued => ?_⟩
    · rw [tells, failClaim_none (claimingWith_eq_none (by rw [sales]; exact idle)),
        dropQueued_other (by rw [claims, owner]; exact notQueued)]
    · obtain ⟨gone, line, closed, stands⟩ := failClaim_queued (s := u) (by rw [claims, owner]; exact queued) .lineFault
      rw [claims, owner] at gone
      rw [sales] at closed stands
      rw [store] at stands
      exact ⟨_, tells, gone, line, closed, stands, (failClaim_onSale _ _ u).of_line line⟩
  · have tells : exec e s = .next (segReqLost x.kind f.seq u) := by
      rw [told, tellAbandoned, payload, hx, seq]
    have slot : slotOf u x.kind = s.store.slot x.kind := by rw [slotOf, store]
    refine ⟨fun other => ?_, fun p pull request => ⟨fun last => ?_, fun left m room => ?_⟩⟩
    · rw [tells, segReqLost_other (by rw [slot]; exact other)]
    · rw [tells, segReqLost_own (by rw [slot]; exact pull) request, requestExpired_lastTry (by rw [slot]; exact pull) last,
        abandonPull, slot, setSlot, store]
      rfl
    · have lineU : u.line = { s.line with queue := q, condition := if q = [] then .noFrame else .waiting s.clock.tick } := by
        rw [hu]
        rfl
      have tick : u.clock.tick = s.clock.tick := by rw [hu]; rfl
      rw [tells, segReqLost_own (by rw [slot]; exact pull) request, requestExpired_retry (by rw [slot]; exact pull) left,
        requestSegment_queued (by rw [lineU]; exact m) (by rw [lineU]; exact room), Line.push_eq, setPull, slotOf,
        State.withLine_store, ← slotOf, slot, setSlot, State.withLine_store, store, tick, lineU]
      by_cases empty : q = []
      · simp only [empty, if_true]
        rfl
      · simp only [empty, if_false]
        rfl

/-! ### Completion (R85, R90) -/

theorem complete_other {s : State} (h : s.line.condition ≠ .sending) : complete s = s := by
  unfold complete
  split
  · next sending _ => exact absurd sending h
  · rfl

/-- A frame that completes is counted and leaves the queue before its owner is told. -/
theorem complete_sending {s : State} {f : TxFrame} {q : List TxFrame} (queue : s.line.queue = f :: q)
    (sending : s.line.condition = .sending) : complete s = tellCompleted f (s.withLine { s.line with
      queue := q, condition := if q = [] then .noFrame else .waiting s.clock.tick
      rxCount := (s.line.rxCount + 1) % 4294967296 }) := by
  have counted : (countFrame s).line.queue = f :: q := queue
  simp only [complete, sending, queue]
  rw [dropCurrent_eq counted]
  rfl

theorem segReqCompleted_other {k : TableKind} {n : Nat} {s : State} (h : ∀ x, (slotOf s k).pull = some x → x.request ≠ some n) :
    segReqCompleted k n s = s := by
  unfold segReqCompleted
  split
  · next x pull => exact if_neg (h x pull)
  · rfl

theorem segReqCompleted_own {k : TableKind} {n : Nat} {s : State} {p : Pull} (pull : (slotOf s k).pull = some p)
    (request : p.request = some n) :
    segReqCompleted k n s = setPull k { p with replyTimer := some ⟨s.clock.tick, 10⟩, request := none } s := by
  simp only [segReqCompleted, pull]
  exact if_pos request

/-- Settles O24: what the owner is told, by the frame's kind. -/
theorem completionCountsAndTellsTheOwner : Obligations.CompletionCountsAndTellsTheOwner := by
  intro s u f q queue hu
  refine ⟨fun other => congrArg Host.Outcome.next (complete_other other), fun sending => ?_⟩
  have told : exec .completion s = .next (tellCompleted f u) := by
    rw [hu]
    exact congrArg Host.Outcome.next (complete_sending queue sending)
  have store : u.store = s.store := by rw [hu]
  have tick : u.clock.tick = s.clock.tick := by rw [hu]
  refine ⟨fun claim segReq announce => ?_, fun announce => ?_, fun g payload => ⟨fun other => ?_, fun p pull request => ?_⟩⟩
  · rw [told]
    refine congrArg Host.Outcome.next ?_
    unfold tellCompleted
    split
    · next e => exact absurd (by rw [e]; rfl) claim
    · next e => exact absurd (by rw [e]; rfl) segReq
    · next e => exact absurd (by rw [e]; rfl) announce
    · rfl
  · rw [told]
    obtain ⟨a, payload⟩ : ∃ a, f.payload = .announce a := by
      cases p : f.payload <;> rw [p] at announce <;> first | exact ⟨_, rfl⟩ | cases announce
    rw [tellCompleted, payload, hu]
    rfl
  · rw [told, tellCompleted, payload]
    exact congrArg Host.Outcome.next (segReqCompleted_other (by rw [slotOf, store]; exact other))
  · rw [told, tellCompleted, payload]
    have own' : (slotOf u g.kind).pull = some p := by rw [slotOf, store]; exact pull
    refine congrArg Host.Outcome.next ((segReqCompleted_own own' request).trans ?_)
    rw [setPull, setSlot, slotOf, store, tick]
    rfl

/-! ### The grant (R150) -/

theorem enterIssuing_changes (r : SaleRecord) (s : State) : ∃ n, enterIssuing r s =
    { s with sales := (enterIssuing r s).sales, notices := n } := by
  rw [enterIssuing_sales]
  simp only [enterIssuing]
  split <;> exact ⟨_, rfl⟩

section grant
variable {s : State} {n position : Nat} {c : Claim} (found : findClaim s.claims (own s) n = some c) (queued : c.state = .queued)
  {r : SaleRecord} (claiming : claimingWith s n = some r)
include found queued claiming

theorem decideGrant_granted
    (places : claimsBefore s.claims c.service c.date c.cls position < capacityOf s c.service c.date c.cls) :
    decideGrant n position s =
      enterPaying r (updateClaim (own s) n (fun x => { x with state := .granted, position := some position }) s) := by
  simp only [decideGrant, found, queued, if_true, places, claiming]

theorem decideGrant_refused
    (full : capacityOf s c.service c.date c.cls ≤ claimsBefore s.claims c.service c.date c.cls position) :
    decideGrant n position s = abortSale .noSpace (hand (.release c.fields) (removeClaim (own s) n s)) := by
  simp only [decideGrant, found, queued, if_true, Nat.not_lt.2 full, if_false, claiming]

end grant

/-- Settles O25: the two outcomes of the decision at the line position. -/
theorem claimCompletionDecidesTheGrant : Obligations.ClaimCompletionDecidesTheGrant := by
  rintro s f q g c r _ queue sending payload found queued sale stage claim rfl
  let u := s.withLine { s.line with
    queue := q, condition := if q = [] then .noFrame else .waiting s.clock.tick, rxCount := (s.line.rxCount + 1) % 4294967296 }
  have told : exec .completion s = .next (decideGrant f.seq ((s.line.rxCount + 1) % 4294967296) u) := by
    refine congrArg Host.Outcome.next ((complete_sending queue sending).trans ?_)
    rw [tellCompleted, payload]
    rfl
  have claiming : claimingWith u f.seq = some r := claimingWith_eq_some (s := u) sale stage claim
  refine ⟨fun places => ?_, fun full => ?_⟩
  · have granted := decideGrant_granted (s := u) found queued claiming places
    refine ⟨_, told.trans (congrArg Host.Outcome.next granted), ?_⟩
    by_cases owed : r.quote.quote ≤ r.credit
    · rw [enterPaying, if_pos owed]
      obtain ⟨n, e⟩ := enterIssuing_changes { r with hold := .none }
        (updateClaim (own u) f.seq (fun x => { x with state := .granted, position := some ((s.line.rxCount + 1) % 4294967296) }) u)
      have sales := enterIssuing_sales { r with hold := .none }
        (updateClaim (own u) f.seq (fun x => { x with state := .granted, position := some ((s.line.rxCount + 1) % 4294967296) }) u)
      rw [e, sales]
      refine ⟨updateClaim_claims _ _ _ u, rfl, fun below => absurd owed (Nat.not_le.2 below),
        fun _ => ⟨_, rfl, rfl, rfl, rfl, List.length_append⟩, rfl⟩
    · rw [enterPaying, if_neg owed]
      exact ⟨updateClaim_claims _ _ _ u, rfl, fun _ => ⟨rfl, rfl⟩, fun met => absurd met owed, rfl⟩
  · have refused := decideGrant_refused (s := u) found queued claiming full
    let w := hand (.release c.fields) (removeClaim (own u) f.seq u)
    have handed : OnLine (removeClaim (own u) f.seq u) w := hand_onLine _ _
    have m := hand_inner (.release c.fields) (removeClaim (own u) f.seq u)
    have claimsW : w.claims = s.claims.filter (fun x => !(x.origin = s.setup.straps.station && x.seq = f.seq)) := handed.claims
    have saleW : w.sales.sale = some r := by rw [handed.sales]; exact sale
    have gone : ∀ n, r.claim = some n → findClaim w.claims (own w) n = none := by
      intro n hn
      cases claim.symm.trans hn
      have owner : own w = own u := congrArg (fun x : Setup => x.straps.station) m.setup
      rw [handed.claims, owner]
      exact findClaim_removed _ _ _
    obtain ⟨line, claims, sales⟩ := abortSale_claimGone saleW (by simp [stage]) gone .noSpace
    refine ⟨_, told.trans (congrArg Host.Outcome.next refused), claims.trans claimsW, ?_, ?_, ?_, ?_, ?_⟩
    · rw [sales, handed.sales]
      rfl
    · rw [line, m.rxCount]
      rfl
    · intro muted room
      rw [line]
      exact hand_claimFrame rfl muted (by rw [queue] at room; exact room)
    · obtain ⟨_, _, _, _, _, e⟩ := handed.onSale.trans (abortSale_onSale .noSpace w)
      change abortSale .noSpace w = _
      rw [e]
      rfl
    · rw [line, m.peers]
      rfl

end Sys2Proof.Machine
end

