-- ==== Sys2Proof/Proofs/ReceivedFrames.lean ====
section
/-! SUPPORT. A frame received from a peer (R91 to R96): the entries of the peer table, and what the receive path hands on. -/

namespace Sys2Proof.Machine

/-! ### The peer table (R95) -/

section peers
variable {s : State} (ok : PeersOk s) {p : Peer} (mem : p ∈ s.line.peers)
include ok

/-- No two entries are of one station. -/
theorem PeersOk.distinct : s.line.peers.Pairwise (fun a b => a.station ≠ b.station) := by
  rw [← List.pairwise_map (R := (· ≠ ·)), ok.entries]
  exact (List.nodup_range' 1).filter _

include mem

theorem PeersOk.same {q : Peer} (hq : q ∈ s.line.peers) (station : q.station = p.station) : q = p :=
  Classical.byContradiction fun other => by
    have symm : Std.Symm (fun a b : Peer => a.station ≠ b.station) := ⟨fun _ _ => Ne.symm⟩
    exact ok.distinct.forall hq mem other station

theorem PeersOk.findPeer : findPeer s p.station = some p := by
  cases found : Sys2Proof.Machine.findPeer s p.station with
  | none => exact absurd (List.find?_eq_none.1 found p mem) (by simp)
  | some q => rw [ok.same mem (List.mem_of_find?_eq_some found) (findPeer_station found)]

/-- The own station has no entry. -/
theorem PeersOk.other : p.station ≠ own s := by
  have listed := List.mem_map_of_mem (f := (·.station)) mem
  rw [ok.entries, List.mem_filter] at listed
  exact bne_iff_ne.1 listed.2

end peers

theorem updateWatch_same {s : State} (h : watchView s.treadles s.line.peers = s.calls.watch) : updateWatch s = s := if_pos h

/-- The watch view reads what each entry contributes (R20). -/
theorem watchView_map {t : Treadles} {peers : List Peer} {f : Peer → Peer}
    (h : ∀ p ∈ peers, (f p).contribution = p.contribution) : watchView t (peers.map f) = watchView t peers := by
  rw [watchView, watchView, List.foldl_map]
  generalize ownCoverage t = acc
  induction peers generalizing acc with
  | nil => rfl
  | cons p ps ih =>
    rw [List.foldl_cons, List.foldl_cons, h p List.mem_cons_self]
    exact ih (fun q hq => h q (List.mem_cons_of_mem _ hq)) _

/-! ### What reaches the hand-on (R91, R94) -/

theorem receive_discarded {h : FrameHead} {ok : Bool} {s : State} (bad : s.setup.running = false ∨ h.wellFormed = false ∨ ok = false)
    (handOn : State → State) : receive h ok handOn s = s := by
  rcases bad with e | e | e <;> simp [receive, e]

theorem receive_taken {h : FrameHead} {s : State} (run : s.setup.running = true) (head : h.wellFormed = true)
    (handOn : State → State) : receive h true handOn s = takeFrame h handOn (countFrame s) := by
  simp [receive, run, head]

theorem takeFrame_of_peer {h : FrameHead} {s : State} {p : Peer} (other : h.origin ≠ own s) (peer : findPeer s h.origin = some p)
    (handOn : State → State) : takeFrame h handOn s = if p.state = .foreign then
      updatePeer h.origin (fun x => { x with lastHeard := s.clock.tick }) s else handOn (movePeer p (p.accepted s.clock.tick) s) := by
  rw [takeFrame, if_neg other]
  simp only [peer]

/-- A peer entry whose state and coverage stay: PEER_CHANGE is not raised and the watch view stands. -/
theorem movePeer_still {s : State} (ok : PeersOk s) (run : s.setup.running = true) {p new : Peer} (mem : p ∈ s.line.peers)
    (state : new.state = p.state) (coverage : new.coverage = p.coverage) :
    movePeer p new s = updatePeer p.station (fun _ => new) s := by
  have watch : watchView s.treadles (updatePeer p.station (fun _ => new) s).line.peers = s.calls.watch := by
    rw [ok.watch run]
    refine watchView_map fun q hq => ?_
    split
    · next here => rw [Peer.contribution, Peer.contribution, state, coverage, ok.same mem hq here]
    · rfl
  simp only [movePeer, state, if_true]
  rw [updateWatch_same (s := updatePeer p.station (fun _ => new) s) watch, if_neg]
  simp

/-- A frame of a PRESENT peer is handed on once it is counted and the peer heard (R91, R95, R96). -/
theorem receive_present {h : FrameHead} {s : State} {ok : Bool} (c : FromPresent h s) (fields : ok = true) (handOn : State → State) :
    receive h ok handOn s = handOn (s.heardFrom h.origin) := by
  obtain ⟨p, mem, station, present⟩ := c.present
  have counted : PeersOk (countFrame s) := ⟨c.peers.entries, c.peers.watch⟩
  have found : findPeer (countFrame s) h.origin = some p := station ▸ counted.findPeer mem
  rw [fields, receive_taken c.running c.head, takeFrame_of_peer (station ▸ counted.other mem) found, if_neg (by simp [present]),
    movePeer_still (new := p.accepted (countFrame s).clock.tick) counted c.running mem present.symm rfl, updatePeer]
  congr 1
  rw [station]
  have entries : s.line.peers.map (fun x => if x.station = h.origin then p.accepted s.clock.tick else x) =
      (s.heardFrom h.origin).line.peers := by
    refine List.map_congr_left fun q hq => ?_
    split
    · next here => rw [counted.same mem hq (here.trans station.symm), Peer.accepted, ← present]; rfl
    · rfl
  exact congrArg (fun ps => { s with line := { s.line with rxCount := (s.line.rxCount + 1) % 4294967296, peers := ps } }) entries

/-- Frames other than an ANNOUNCE go through the one receive path (R91). -/
theorem receivedFrame_cases {i : Instr} {h : FrameHead} {ok : Bool} (frame : receivedFrame i = some (h, ok)) :
    (∃ f, i = .announceReceived h f ∧ ok = f.wellFormed) ∨ ∃ handOn, ∀ s, exec i s = .next (receive h ok handOn s) := by
  unfold receivedFrame at frame
  split at frame
  case h_1 h' f => cases frame; exact .inl ⟨f, rfl, rfl⟩
  case h_11 => cases frame
  all_goals cases frame; exact .inr ⟨_, fun _ => rfl⟩

theorem receiveAnnounce_discarded {h : FrameHead} {f : AnnounceFields} {s : State}
    (bad : s.setup.running = false ∨ h.wellFormed = false ∨ f.wellFormed = false) : receiveAnnounce h f s = s := by
  rcases bad with e | e | e <;> simp [receiveAnnounce, e]

/-- Bytes whose CRC-16 does not hold are no frame (R79). -/
theorem readFrame_badCrc {bs : List Nat} (bad : bs.drop (bs.length - 2) ≠ num2 (crc16 (bs.take (bs.length - 2)))) :
    readFrame bs = none := by
  unfold readFrame
  split
  · rfl
  · simp [bad]

/-- Settles O26: by the receive path, and the CRC test of the bytes. -/
theorem discardedFramesLeaveTheState : Obligations.DiscardedFramesLeaveTheState := by
  refine ⟨fun i h ok s frame => ⟨fun bad => ?_, fun p run head fields peers mem station foreign other => ?_⟩, fun bs s bad => ?_⟩
  · rcases receivedFrame_cases frame with ⟨f, rfl, rfl⟩ | ⟨handOn, path⟩
    · exact congrArg Host.Outcome.next (receiveAnnounce_discarded bad)
    · rw [path, receive_discarded bad]
  · rcases receivedFrame_cases frame with ⟨f, announce, _⟩ | ⟨handOn, path⟩
    · exact absurd announce (other f)
    · have counted : PeersOk (countFrame s) := ⟨peers.entries, peers.watch⟩
      have found : findPeer (countFrame s) h.origin = some p := station ▸ counted.findPeer mem
      rw [path, fields, receive_taken run head, takeFrame_of_peer (station ▸ counted.other mem) found, if_pos foreign]
      rfl
  · have none : readFrame (byteValues bs) = none := readFrame_badCrc (by simpa [byteValues] using bad)
    exact congrArg Host.Outcome.next (show takeBytes bs s = s by rw [takeBytes, none])

end Sys2Proof.Machine
end

