-- ==== Sys2Proof/Proofs/SegmentRequests.lean ====
section
/-! SUPPORT. Requests for segments and the answers to them (R111, R112, R114). -/

namespace Sys2Proof.Machine

/-! ### The choice of a source (R111) -/

theorem foldl_betterSource_below {k : TableKind} {e : Nat} {ps : List Peer} (below : ∀ y ∈ ps, y.edition k < e) {a : Peer}
    (start : a.edition k < e) : (ps.foldl (betterSource k) a).edition k < e := by
  induction ps generalizing a with
  | nil => exact start
  | cons y ys ih =>
    refine ih (fun z hz => below z (List.mem_cons_of_mem _ hz)) ?_
    rw [betterSource]
    split
    · exact below y List.mem_cons_self
    · exact start

theorem foldl_betterSource_keeps {k : TableKind} {a : Peer} {ps : List Peer} (most : ∀ y ∈ ps, y.edition k ≤ a.edition k) :
    ps.foldl (betterSource k) a = a := by
  induction ps with
  | nil => rfl
  | cons y ys ih =>
    rw [List.foldl_cons, betterSource, if_neg (Nat.not_lt.2 (most y List.mem_cons_self))]
    exact ih fun z hz => most z (List.mem_cons_of_mem _ hz)

/-- The peers that offer a kind, as `chooseSource` lists them. -/
def offering (k : TableKind) (s : State) : List Peer :=
  s.line.peers.filter (fun p => p.state = .present && (slotOf s k).offers (p.edition k))

theorem chooseSource_none {k : TableKind} {s : State} (h : offering k s = []) : chooseSource k s = none := by
  unfold chooseSource
  split
  · rfl
  · next some => exact absurd (h.symm.trans some) (by simp)

/-- Entries stand in the order of their stations, so the first of the highest edition is the lowest station (R111). -/
theorem chooseSource_best {k : TableKind} {s : State} (ok : PeersOk s) {p : Peer} (mem : p ∈ offering k s)
    (best : ∀ y ∈ offering k s, y.edition k < p.edition k ∨ (y.edition k = p.edition k ∧ p.station ≤ y.station)) :
    chooseSource k s = some p := by
  have rising : (offering k s).Pairwise (fun a b => a.station < b.station) := by
    refine List.Pairwise.filter _ (List.pairwise_map.1 ?_)
    rw [ok.entries]
    exact (List.pairwise_lt_range' (s := 1)).filter _
  obtain ⟨before, after, cut⟩ := List.append_of_mem mem
  rw [cut] at rising best
  have earlier : ∀ y ∈ before, y.edition k < p.edition k := fun y hy => by
    have lt := (List.pairwise_append.1 rising).2.2 y hy p List.mem_cons_self
    rcases best y (List.mem_append_left _ hy) with less | ⟨_, le⟩
    · exact less
    · omega
  have later : ∀ y ∈ after, y.edition k ≤ p.edition k := fun y hy => by
    rcases best y (List.mem_append_right _ (List.mem_cons_of_mem _ hy)) with less | ⟨eq, _⟩ <;> omega
  have chosen : ∀ (a : Peer) (as : List Peer), a :: as = before ++ p :: after → as.foldl (betterSource k) a = p := by
    intro a as e
    cases before with
    | nil =>
      cases e
      exact foldl_betterSource_keeps later
    | cons b bs =>
      obtain ⟨rfl, rfl⟩ := List.cons.inj e
      have below := foldl_betterSource_below (fun y hy => earlier y (List.mem_cons_of_mem _ hy)) (earlier a List.mem_cons_self)
      change (bs ++ p :: after).foldl (betterSource k) a = p
      rw [List.foldl_append, List.foldl_cons, betterSource, if_pos below]
      exact foldl_betterSource_keeps later
  unfold chooseSource
  split
  · next none => exact absurd (cut.symm.trans none) (by simp)
  · next a as some => exact congrArg _ (chosen a as (some.symm.trans cut))

/-! ### Pulls (R111, R112) -/

theorem Slot.offers_iff (x : Slot) (e : Nat) :
    x.offers e = true ↔ e ≠ 0 ∧ e ≠ x.refused ∧ (x.active = none ∨ x.activeEdition < e) := by
  simp [Slot.offers, Bool.and_eq_true, and_assoc]

/-- The SEG_REQ of a pull queued at the tail, its sequence kept in the pull's record. -/
theorem requestSegment_room {k : TableKind} {s : State} (m : s.line.muted = false) (room : s.line.queue.length < 12) (n : Nat)
    (p : Pull) : requestSegment (n + 1) k p s = { s with
      store := s.store.setSlot k { s.store.slot k with pull := some { p with request := some s.line.seqCounter } }
      line := { s.line with
        queue := s.line.queue ++ [⟨s.line.seqCounter, 0, .segReq ⟨p.source, k, p.edition, p.index⟩⟩]
        seqCounter := (s.line.seqCounter + 1) % 4096
        condition := if s.line.queue = [] then .waiting s.clock.tick else s.line.condition } } := by
  rw [requestSegment_queued m room, Line.push_eq]
  rfl

theorem setSlot_setSlot (t : Store) (k : TableKind) (x y : Slot) : (t.setSlot k x).setSlot k y = t.setSlot k y := by
  cases k <;> rfl

theorem slot_setSlot (t : Store) (k : TableKind) (x : Slot) : (t.setSlot k x).slot k = x := by
  cases k <;> rfl

/-- The wait is over: the slot as the request of segment 0 finds it. -/
theorem beginPull_eq (k : TableKind) (s : State) : beginPull k s =
    match chooseSource k (setSlot k { slotOf s k with pullWait := none } s) with
    | none => setSlot k { slotOf s k with pullWait := none } s
    | some p => requestSegment 4 k ⟨p.station, p.edition k, 0, 1, none, none⟩ (setSlot k
        { { slotOf s k with pullWait := none }.cleared with loader := .peerFill, origin := some (.peer p.station) }
        (setSlot k { slotOf s k with pullWait := none } s)) := by
  simp only [beginPull, slotOf_setSlot, if_true]
  rfl

/-- Settles O32: by the choice of a source, and a request that finds room. -/
theorem pullsAreRequestedAndRetried : Obligations.PullsAreRequestedAndRetried := by
  rintro k s x rfl
  have offers : ∀ p, p ∈ offering k (setSlot k { slotOf s k with pullWait := none } s) ↔ p ∈ s.line.peers ∧ p.state = .present ∧
      p.edition k ≠ 0 ∧ p.edition k ≠ (s.store.slot k).refused ∧
      ((s.store.slot k).active = none ∨ (s.store.slot k).activeEdition < p.edition k) := fun p => by
    rw [offering, slotOf_setSlot, if_pos rfl]
    simp only [List.mem_filter, Bool.and_eq_true, decide_eq_true_eq, Slot.offers_iff]
    rfl
  refine ⟨fun h => congrArg Host.Outcome.next (if_neg (Bool.not_eq_true _ ▸ timerDue_false h)), fun w timer due => ?_,
    fun h => congrArg Host.Outcome.next (if_neg ?_), fun p w pull timer due => ?_⟩
  · have starts : exec (.pullWaitTimerExpiry k) s = .next (beginPull k s) :=
      congrArg Host.Outcome.next (if_pos (timerDue_true (t := (slotOf s k).pullWait) timer due))
    rw [starts, beginPull_eq]
    refine ⟨fun unoffered => ?_, fun p mem present some fresh newer peers best m room => ?_⟩
    · have empty : offering k (setSlot k { slotOf s k with pullWait := none } s) = [] := by
        refine List.eq_nil_iff_forall_not_mem.2 fun p hp => ?_
        obtain ⟨mem, present, some, fresh, newer⟩ := (offers p).1 hp
        rcases unoffered p mem present with e | e | ⟨held, low⟩
        · exact some e
        · exact fresh e
        · rcases newer with none | less
          · exact held none
          · exact absurd less (Nat.not_lt.2 low)
      rw [chooseSource_none empty]
      rfl
    · have ok : PeersOk (setSlot k { slotOf s k with pullWait := none } s) := ⟨peers.entries, peers.watch⟩
      rw [chooseSource_best ok ((offers p).2 ⟨mem, present, some, fresh, newer⟩) fun y hy => by
        obtain ⟨memY, presentY, _, freshY, _⟩ := (offers y).1 hy
        exact best y memY presentY freshY]
      refine congrArg Host.Outcome.next ((requestSegment_room (by exact m) (by exact room) 3 _).trans ?_)
      simp only [setSlot, State.withStore_store, slot_setSlot, setSlot_setSlot]
      rfl
  · rw [Bool.not_eq_true]
    refine timerDue_false fun w timer => ?_
    unfold replyTimer at timer
    split at timer
    · next p pull => exact h p w pull timer
    · cases timer
  · have expires : exec (.replyTimerExpiry k) s = .next (requestExpired k s) := by
      refine congrArg Host.Outcome.next (if_pos (timerDue_true (x := w) ?_ due))
      simp only [replyTimer, slotOf, pull, timer]
    rw [expires]
    refine ⟨fun last => congrArg _ (requestExpired_lastTry pull last), fun left m room => congrArg _ ?_⟩
    rw [requestExpired_retry pull left, requestSegment_room m room]

/-! ### The answer to a request (R114) -/

theorem servedSegment_some {x : Slot} {f : SegReqFields} {image : List Byte} (active : x.active = some image)
    (edition : x.activeEdition = f.edition) (within : 64 * f.index < image.length) :
    servedSegment x f = some ((image.drop (64 * f.index)).take 64) := by
  rw [Nat.mul_comm] at within
  simp only [servedSegment, active, edition, if_true, segmentOf, Config.segmentSize, within, Nat.mul_comm]

theorem servedSegment_none {x : Slot} {f : SegReqFields}
    (h : ∀ image, x.active = some image → x.activeEdition = f.edition → image.length ≤ 64 * f.index) : servedSegment x f = none := by
  unfold servedSegment
  split
  · next image active =>
    split
    · next edition =>
      have past := h image active edition.symm
      exact if_neg (by rw [Config.segmentSize, Nat.mul_comm]; omega)
    · rfl
  · rfl

/-- One SEGMENT answers a request to this station: the data it names, or the gone flag. -/
theorem segmentAnswer_eq {n : Nat} {x : Slot} {f : SegReqFields} {g : SegmentFields} (addressee : g.addressee = n)
    (kind : g.kind = f.kind) (edition : g.edition = f.edition) (index : g.index = f.index)
    (held : ∀ image, x.active = some image → x.activeEdition = f.edition → 64 * f.index < image.length →
      g.gone = false ∧ g.data = (image.drop (64 * f.index)).take 64)
    (gone : (∀ image, x.active = some image → x.activeEdition = f.edition → image.length ≤ 64 * f.index) →
      g.gone = true ∧ g.data = []) : segmentAnswer n x f = .segment g := by
  have whole : ∀ lost data, g.gone = lost → g.data = data → g = ⟨n, f.kind, f.edition, f.index, lost, data⟩ := by
    rintro _ _ rfl rfl
    rw [← addressee, ← kind, ← edition, ← index]
  by_cases served : ∃ image, x.active = some image ∧ x.activeEdition = f.edition ∧ 64 * f.index < image.length
  · obtain ⟨image, active, same, within⟩ := served
    obtain ⟨lost, data⟩ := held image active same within
    rw [whole _ _ lost data, segmentAnswer, servedSegment_some active same within]
  · have past : ∀ image, x.active = some image → x.activeEdition = f.edition → image.length ≤ 64 * f.index :=
      fun image active same => Nat.not_lt.1 fun lt => served ⟨image, active, same, lt⟩
    obtain ⟨lost, data⟩ := gone past
    rw [whole _ _ lost data, segmentAnswer, servedSegment_none past]

/-- Settles O38: by the segment an image gives, and the cases of a hand-over. -/
theorem segReqIsAnswered : Obligations.SegReqIsAnswered := by
  rintro h f s u g present fields rfl
  have path : exec (.segReqReceived h f) s = .next (segReqHandOn h.origin f (s.heardFrom h.origin)) :=
    congrArg Host.Outcome.next (receive_present present fields _)
  refine ⟨fun other => path.trans (congrArg _ (if_neg other)), fun own addressee kind edition index held gone => ?_⟩
  have answers : exec (.segReqReceived h f) s = .next (hand (.segment g) (s.heardFrom h.origin)) := by
    refine path.trans (congrArg _ ((if_pos own).trans ?_))
    rw [segmentAnswer_eq (x := slotOf (s.heardFrom h.origin) f.kind) addressee kind edition index held gone]
  refine ⟨fun muted => answers.trans (congrArg _ (hand_of_muted muted)), fun m full => answers.trans (congrArg _ ?_), fun m room =>
    answers.trans (congrArg _ ?_)⟩
  · exact congrArg Prod.snd (handOver_of_none (Line.hand_of_routine (l := (s.heardFrom h.origin).line) m
      (fun q _ => supersedes_of_key rfl q.payload) full rfl))
  · rw [hand_of_room (s := s.heardFrom h.origin) m (fun q _ => supersedes_of_key rfl q.payload) room, Line.push_eq]
    rfl

end Sys2Proof.Machine
end

