-- ==== Sys2Proof/Proofs/RunsOfChanges.lean ====
section
/-! SUPPORT. A change of a call with its hand-offs (R24, R31, R36), and a run of such changes: what it reaches, which claims and
sales it ends, and that the host is told. -/

namespace Sys2Proof.Machine

/-! ### Where the Call Table's operations reach -/

/-- Only the board and the notices of s may differ in t: a composition and a notice. -/
def OnPanel (s t : State) : Prop := ∃ b n, t = { s with board := b, notices := n }

theorem OnPanel.refl (s : State) : OnPanel s s := ⟨_, _, rfl⟩

theorem OnPanel.trans {s t u : State} (a : OnPanel s t) (b : OnPanel t u) : OnPanel s u := by
  obtain ⟨_, _, rfl⟩ := a
  obtain ⟨_, _, rfl⟩ := b
  exact ⟨_, _, rfl⟩

theorem OnPanel.ite {s t u : State} {c : Prop} [Decidable c] (a : OnPanel s t) (b : OnPanel s u) :
    OnPanel s (if c then t else u) := by
  split
  · exact a
  · exact b

theorem raise_onPanel (c : NoticeContent) (s : State) : OnPanel s (raise c s) := ⟨_, _, rfl⟩

/-- A composition changes the board alone. -/
theorem compose_eq (s : State) : compose s = { s with board := (compose s).board } := by
  unfold compose
  split <;> rfl

theorem compose_onPanel (s : State) : OnPanel s (compose s) := ⟨_, _, compose_eq s⟩

theorem notifyCall_onPanel (old new : Call) (s : State) : OnPanel s (notifyCall old new s) := by
  have m : OnPanel s (if boardChange old new then compose s else s) := .ite (compose_onPanel s) (.refl s)
  exact .ite (m.trans (raise_onPanel _ _)) m

/-- What an operation of the Call Table may touch: the table, and the blocks it hands a change to. -/
def OnTable (s t : State) : Prop := ∃ c l x u k b n,
  t = { s with calls := c, line := l, store := x, sales := u, claims := k, board := b, notices := n }

theorem OnTable.refl (s : State) : OnTable s s := ⟨_, _, _, _, _, _, _, rfl⟩

theorem OnTable.trans {s t u : State} (a : OnTable s t) (b : OnTable t u) : OnTable s u := by
  obtain ⟨_, _, _, _, _, _, _, rfl⟩ := a
  obtain ⟨_, _, _, _, _, _, _, rfl⟩ := b
  exact ⟨_, _, _, _, _, _, _, rfl⟩

theorem OnTable.ite {s t u : State} {c : Prop} [Decidable c] (a : OnTable s t) (b : OnTable s u) :
    OnTable s (if c then t else u) := by
  split
  · exact a
  · exact b

theorem OnTable.eq {s t : State} (h : OnTable s t) : t = { s with
    calls := t.calls, line := t.line, store := t.store, sales := t.sales, claims := t.claims, board := t.board
    notices := t.notices } := by
  obtain ⟨_, _, _, _, _, _, _, rfl⟩ := h
  rfl

theorem OnPanel.onTable {s t : State} (h : OnPanel s t) : OnTable s t := by
  obtain ⟨_, _, rfl⟩ := h
  exact ⟨_, _, _, _, _, _, _, rfl⟩

theorem OnSale.onTable {s t : State} (h : OnSale s t) : OnTable s t := by
  obtain ⟨_, _, _, _, _, rfl⟩ := h
  exact ⟨_, _, _, _, _, _, _, rfl⟩

theorem OnTable.foldl {α : Type} {f : State → α → State} (h : ∀ s a, OnTable s (f s a)) (xs : List α) (s : State) :
    OnTable s (xs.foldl f s) := by
  induction xs generalizing s with
  | nil => exact .refl s
  | cons x xs ih => exact (h s x).trans (ih _)

section panel
variable {s t : State} (h : OnPanel s t)
include h

theorem OnPanel.calls : t.calls = s.calls := by
  obtain ⟨_, _, rfl⟩ := h
  rfl

theorem OnPanel.claims : t.claims = s.claims := by
  obtain ⟨_, _, rfl⟩ := h
  rfl

theorem OnPanel.sales : t.sales = s.sales := by
  obtain ⟨_, _, rfl⟩ := h
  rfl

theorem OnPanel.store : t.store = s.store := by
  obtain ⟨_, _, rfl⟩ := h
  rfl

theorem OnPanel.line : t.line = s.line := by
  obtain ⟨_, _, rfl⟩ := h
  rfl

end panel

/-! ### CALL_CHANGED (R36, R178) -/

/-- A CALL_CHANGED of the present build count is queued. -/
def Told (s : State) : Prop := ∃ n ∈ s.notices.queue, n.content = .callChanged s.calls.buildCount

theorem Notices.mem_join (n : Notices) (x : Notice) : x ∈ (n.join x).queue := by
  unfold Notices.join
  split <;> simp

theorem callChanged_told (s : State) : Told (callChanged s) := by
  have added : ∃ n ∈ (s.notices.add (.callChanged s.calls.buildCount) (s.clock.tick / 10)).queue,
      n.content = .callChanged s.calls.buildCount := by
    by_cases queued : ∃ x ∈ s.notices.queue, ∃ b, x.content = .callChanged b
    · obtain ⟨x, mem, b, content⟩ := queued
      rw [Notices.add_coalesced ⟨x, mem, b, content⟩]
      refine ⟨coalesced s.calls.buildCount x, List.mem_map_of_mem mem, ?_⟩
      rw [coalesced, if_pos ((NoticeContent.isCallChanged_iff _).2 ⟨b, content⟩)]
    · rw [Notices.add_join (.inr fun x mem b content => queued ⟨x, mem, b, content⟩)]
      exact ⟨_, Notices.mem_join _ _, rfl⟩
  exact added

theorem Told.of_eq {s t : State} (h : Told s) (queue : t.notices = s.notices) (calls : t.calls.buildCount = s.calls.buildCount) :
    Told t := by
  rw [Told, queue, calls]
  exact h

/-! ### The end of a call (R31, R143, R154) -/

theorem hand_claims (p : Payload) (s : State) : (hand p s).claims = s.claims := (hand_onLine p s).claims

/-- A claim's close without an issue removes claims and changes none. -/
theorem closeClaim_mem {q : Nat} {s : State} {x : Claim} (h : x ∈ (closeClaim false q s).claims) : x ∈ s.claims := by
  unfold closeClaim at h
  split at h
  · exact h
  · split at h
    · next issued => cases issued
    · rw [hand_claims] at h
      exact List.mem_of_mem_filter h
    · have kept := List.mem_of_mem_filter h
      rwa [(withdrawClaim_onLine q s).claims] at kept
    · exact h

theorem abortSale_mem {reason : Reason} {s : State} {x : Claim} (h : x ∈ (abortSale reason s).claims) : x ∈ s.claims := by
  unfold abortSale at h
  split at h
  · split at h
    · exact h
    · rw [(closeSale_rest _ _ _ _).2] at h
      unfold claimClosed at h
      split at h
      · exact closeClaim_mem h
      · exact h
  · exact h

/-- The active timetable and its edition stand. -/
def TimetableStands (s t : State) : Prop :=
  t.store.timetable.active = s.store.timetable.active ∧ t.store.timetable.activeEdition = s.store.timetable.activeEdition

theorem TimetableStands.refl (s : State) : TimetableStands s s := ⟨rfl, rfl⟩

theorem TimetableStands.trans {s t u : State} (a : TimetableStands s t) (b : TimetableStands t u) : TimetableStands s u :=
  ⟨b.1.trans a.1, b.2.trans a.2⟩

theorem PullsOnly.stands {s t : State} (h : PullsOnly s t) : TimetableStands s t := ⟨(h .timetable).active, (h .timetable).edition⟩

theorem OnPanel.stands {s t : State} (h : OnPanel s t) : TimetableStands s t := (PullsOnly.of_eq h.store).stands

theorem abortSale_timetable (reason : Reason) (s : State) : TimetableStands s (abortSale reason s) := by
  have fare : ∀ t : State, TimetableStands t (activateFare t) := fun t => by
    unfold activateFare
    split <;> exact ⟨rfl, rfl⟩
  unfold abortSale
  split
  · split
    · exact .refl s
    · rw [closeSale_eq]
      refine TimetableStands.trans ?_ (fare _)
      exact (claimClosed_rest false _ s).2.stands
  · exact .refl s

theorem saleCallEnded_other {n : Nat} {s : State} (h : ∀ r x, s.sales.sale = some r → r.space = some x →
    ¬(x.service = n ∧ x.date = s.calls.date)) : saleCallEnded n s = s := by
  refine if_neg fun on => ?_
  unfold saleOnCall at on
  split at on
  · next r sale =>
    split at on
    · next x space => exact h r x sale space (by simpa using on)
    · cases on
  · cases on

theorem releaseOwn_pullsOnly (removed : List Claim) (s : State) : PullsOnly s (releaseOwn removed s) := by
  unfold releaseOwn
  induction removed generalizing s with
  | nil => exact .refl s
  | cons c cs ih =>
    refine PullsOnly.trans ?_ (ih _)
    dsimp only
    split
    · exact hand_pullsOnly _ s
    · exact .refl s

section callEnded
variable {c : Call} {s : State}

theorem callEnded_mem {x : Claim} (h : x ∈ (callEnded c s).claims) :
    x ∈ s.claims ∧ ¬(x.service = c.service ∧ x.date = s.calls.date) := by
  refine ⟨?_, callEnded_claims h⟩
  rw [callEnded, removeCallClaims_claims] at h
  have kept := List.mem_of_mem_filter h
  unfold saleCallEnded at kept
  split at kept
  · exact abortSale_mem kept
  · exact kept

theorem callEnded_stay (idle : s.sales.sale = none) : (callEnded c s).claims =
    s.claims.filter (fun x => !(x.service = c.service && x.date = s.calls.date)) := by
  rw [callEnded, saleCallEnded_other (by simp [idle]), removeCallClaims_claims]

theorem callEnded_sales_other (h : ∀ r x, s.sales.sale = some r → r.space = some x →
    ¬(x.service = c.service ∧ x.date = s.calls.date)) : (callEnded c s).sales = s.sales := by
  rw [callEnded, removeCallClaims_sales, saleCallEnded_other h]

theorem removeCallClaims_pullsOnly (n : Nat) (releases : Bool) (s : State) : PullsOnly s (removeCallClaims n releases s) := by
  simp only [removeCallClaims]
  split
  · refine PullsOnly.trans ?_ (releaseOwn_pullsOnly _ _)
    exact .of_eq rfl
  · exact .of_eq rfl

theorem callEnded_timetable (c : Call) (s : State) : TimetableStands s (callEnded c s) := by
  rw [callEnded]
  refine TimetableStands.trans ?_ (removeCallClaims_pullsOnly _ _ _).stands
  unfold saleCallEnded
  split
  · exact abortSale_timetable _ s
  · exact .refl s

end callEnded

/-! ### A run of changes of calls -/

/-- What CALL_CHANGED tells of a call (R36): a change of state, of DELAYED, or of the shown minute. -/
def SameShown (c c' : Call) : Prop := c'.state = c.state ∧ c'.delayed = c.delayed ∧ c'.shownMinute = c.shownMinute

/-- A run of changes of calls, none of them brought back: what it hands to the Sale Unit, the Claim List and the host. -/
structure Committed (s t : State) : Prop where
  inner : Inner s t
  onTable : OnTable s t
  table : SameTable s t
  length : t.calls.calls.length = s.calls.calls.length
  calls : ∀ (i : Nat) (c : Call), s.calls.calls[i]? = some c →
    ∃ c', t.calls.calls[i]? = some c' ∧ c'.service = c.service ∧ (c.state.over = true → c'.state.over = true)
  claims : ∀ x ∈ t.claims, x ∈ s.claims ∧ ¬(x.date = s.calls.date ∧ Ended s t x.service)
  stay : s.sales.sale = none → ∀ x ∈ s.claims, ¬(x.date = s.calls.date ∧ Ended s t x.service) → x ∈ t.claims
  closed : ∀ r x, s.sales.sale = some r → r.stage ≠ .issuing → r.space = some x → x.date = s.calls.date → Ended s t x.service →
    t.sales.sale = none
  stands : (∀ r x, s.sales.sale = some r → r.space = some x → ¬(x.date = s.calls.date ∧ Ended s t x.service)) → t.sales = s.sales
  told : (∀ (i : Nat) (c c' : Call), s.calls.calls[i]? = some c → t.calls.calls[i]? = some c' → SameShown c c') ∨ Told t
  heard : Told s → Told t
  timetable : t.store.timetable.active = s.store.timetable.active

theorem Ended.refl_false {s : State} {n : Nat} : ¬Ended s s n := by
  rintro ⟨i, c, c', hc, hc', _, live, past⟩
  rw [hc, Option.some.injEq] at hc'
  simp [hc', past] at live

theorem Committed.refl (s : State) : Committed s s where
  inner := .refl s
  onTable := .refl s
  table := .refl s
  length := rfl
  calls i c h := ⟨c, h, rfl, id⟩
  claims x hx := ⟨hx, fun e => Ended.refl_false e.2⟩
  stay _ x hx _ := hx
  closed r x _ _ _ _ e := absurd e Ended.refl_false
  stands _ := rfl
  told := .inl fun i c c' h h' => by
    rw [h, Option.some.injEq] at h'
    rw [h']
    exact ⟨rfl, rfl, rfl⟩
  heard := id
  timetable := rfl

section trans
variable {s t u : State} (a : Committed s t) (b : Committed t u)
include a b

/-- A call ended in a run of two parts ended in one of them. -/
theorem Committed.ended_iff (n : Nat) : Ended s u n ↔ Ended s t n ∨ Ended t u n := by
  constructor
  · rintro ⟨i, c, c', hc, hc', service, live, past⟩
    obtain ⟨d, hd, ds, _⟩ := a.calls i c hc
    cases mid : d.state.over with
    | true => exact .inl ⟨i, c, d, hc, hd, service, live, mid⟩
    | false => exact .inr ⟨i, d, c', hd, hc', ds.trans service, mid, past⟩
  · rintro (⟨i, c, d, hc, hd, service, live, past⟩ | ⟨i, d, c', hd, hc', service, live, past⟩)
    · obtain ⟨c', hc', _, stays⟩ := b.calls i d hd
      exact ⟨i, c, c', hc, hc', service, live, stays past⟩
    · obtain ⟨c, hc⟩ : ∃ c, s.calls.calls[i]? = some c := by
        have lt := (List.getElem?_eq_some_iff.1 hd).1
        exact ⟨_, List.getElem?_eq_getElem (a.length ▸ lt)⟩
      obtain ⟨d', hd', ds, stays⟩ := a.calls i c hc
      rw [hd, Option.some.injEq] at hd'
      subst hd'
      refine ⟨i, c, c', hc, hc', ds.symm.trans service, ?_, past⟩
      cases c_over : c.state.over with
      | true => rw [stays c_over] at live; exact live
      | false => rfl

theorem Committed.trans : Committed s u := by
  have date : t.calls.date = s.calls.date := a.table.date
  have ended := a.ended_iff b
  refine ⟨a.inner.trans b.inner, a.onTable.trans b.onTable, a.table.trans b.table, b.length.trans a.length, fun i c h => ?_,
    fun x hx => ?_, fun idle x hx no => ?_, fun r x sale stage space hd e => ?_, fun no => ?_, ?_, b.heard ∘ a.heard,
    b.timetable.trans a.timetable⟩
  · obtain ⟨d, hd, ds, dover⟩ := a.calls i c h
    obtain ⟨c', hc', cs, cover⟩ := b.calls i d hd
    exact ⟨c', hc', cs.trans ds, cover ∘ dover⟩
  · obtain ⟨inT, later⟩ := b.claims x hx
    obtain ⟨inS, earlier⟩ := a.claims x inT
    refine ⟨inS, fun ⟨hd, e⟩ => ?_⟩
    rcases (ended _).1 e with e | e
    · exact earlier ⟨hd, e⟩
    · exact later ⟨hd.trans date.symm, e⟩
  · have still : t.sales.sale = none := by
      rcases a.inner.sales with e | e <;> simp [e, idle]
    exact b.stay still x (a.stay idle x hx fun ⟨hd, e⟩ => no ⟨hd, (ended _).2 (.inl e)⟩)
      fun ⟨hd, e⟩ => no ⟨hd.trans date, (ended _).2 (.inr e)⟩
  · have gone : t.sales.sale = none → u.sales.sale = none := fun none => by
      rcases b.inner.sales with e | e <;> simp [e, none]
    rcases (ended _).1 e with e | e
    · exact gone (a.closed r x sale stage space hd e)
    · rcases a.inner.sales with same | none
      · exact b.closed r x (by rw [same]; exact sale) stage space (hd.trans date.symm) e
      · exact gone (by rw [none])
  · have first := a.stands fun r x sale space ⟨hd, e⟩ => no r x sale space ⟨hd, (ended _).2 (.inl e)⟩
    rw [b.stands fun r x sale space ⟨hd, e⟩ => no r x (first ▸ sale) space ⟨hd.trans date, (ended _).2 (.inr e)⟩, first]
  · rcases b.told with same | told
    · rcases a.told with same' | told
      · refine .inl fun i c c' hc hc' => ?_
        obtain ⟨d, hd, _⟩ := a.calls i c hc
        obtain ⟨s1, d1, m1⟩ := same' i c d hc hd
        obtain ⟨s2, d2, m2⟩ := same i d c' hd hc'
        exact ⟨s2.trans s1, d2.trans d1, m2.trans m1⟩
      · exact .inr (b.heard told)
    · exact .inr told

end trans

theorem Committed.ite {s t u : State} {c : Prop} [Decidable c] (a : c → Committed s t) (b : ¬c → Committed s u) :
    Committed s (if c then t else u) := by
  split
  · next h => exact a h
  · next h => exact b h

theorem Committed.foldl {α : Type} {f : State → α → State} (h : ∀ s a, Committed s (f s a)) (xs : List α) (s : State) :
    Committed s (xs.foldl f s) := by
  induction xs generalizing s with
  | nil => exact .refl s
  | cons x xs ih => exact (h s x).trans (ih _)

/-! ### One change (R24, R31, R36) -/

theorem commitCall_none {i : Nat} {s : State} (h : s.calls.calls[i]? = none) (new : Call) : commitCall i new s = s := by
  simp only [commitCall, h]

/-- The state that a change is told of: the call set, and its end handed on. -/
def callHanded (i : Nat) (old new : Call) (s : State) : State :=
  if new.state.over && !old.state.over then callEnded new (setCall i new s) else setCall i new s

theorem commitCall_some {i : Nat} {s : State} {old : Call} (h : s.calls.calls[i]? = some old) (new : Call) :
    commitCall i new s = notifyCall old new (callHanded i old new s) := by
  simp only [commitCall, h]
  rfl

theorem commitCall_onTable (i : Nat) (new : Call) (s : State) : OnTable s (commitCall i new s) := by
  have set : OnTable s (setCall i new s) := ⟨_, _, _, _, _, _, _, rfl⟩
  cases at_i : s.calls.calls[i]? with
  | none => rw [commitCall_none at_i]; exact .refl s
  | some old =>
    rw [commitCall_some at_i]
    exact OnTable.trans (.ite (set.trans (callEnded_onSale _ _).onTable) set) (notifyCall_onPanel _ _ _).onTable

/-- A call's own value written back changes nothing. -/
theorem commitCall_self {i : Nat} {c : Call} {s : State} (h : s.calls.calls[i]? = some c) : commitCall i c s = s := by
  have set : setCall i c s = s := by
    obtain ⟨lt, rfl⟩ := List.getElem?_eq_some_iff.1 h
    rw [setCall, List.set_getElem_self]
    rfl
  rw [commitCall_some h, callHanded, if_neg (by simp), set]
  simp [notifyCall, boardChange, noticeChange]

theorem noticeChange_false {old new : Call} (h : noticeChange old new = false) : SameShown old new := by
  simp only [noticeChange, Bool.or_eq_false_iff, bne_eq_false_iff_eq] at h
  obtain ⟨⟨⟨⟨state, _⟩, _⟩, delayed⟩, minute⟩ := h
  exact ⟨state.symm, delayed.symm, minute.symm⟩

/-- A call, its service kept and not brought back, takes a new value. -/
theorem commitCall_committed {i : Nat} {new : Call} {s : State} (h : ∀ old, s.calls.calls[i]? = some old →
    new.service = old.service ∧ (old.state.over = true → new.state.over = true)) : Committed s (commitCall i new s) := by
  cases at_i : s.calls.calls[i]? with
  | none => rw [commitCall_none at_i]; exact .refl s
  | some old =>
    obtain ⟨service, stays⟩ := h old at_i
    have lt : i < s.calls.calls.length := (List.getElem?_eq_some_iff.1 at_i).1
    have calls : (commitCall i new s).calls.calls = s.calls.calls.set i new := by rw [commitCall_calls]
    have ended : ∀ n, Ended s (commitCall i new s) n ↔ new.service = n ∧ (new.state.over && !old.state.over) = true := by
      intro n
      simp only [Bool.and_eq_true, Bool.not_eq_true']
      constructor
      · rintro ⟨j, c, c', hc, hc', cs, live, past⟩
        rw [calls, List.getElem?_set] at hc'
        by_cases at_j : i = j
        · subst at_j
          rw [at_i, Option.some.injEq] at hc
          rw [if_pos rfl, if_pos lt, Option.some.injEq] at hc'
          subst hc hc'
          exact ⟨service.trans cs, past, live⟩
        · rw [if_neg at_j, hc, Option.some.injEq] at hc'
          simp [hc', past] at live
      · rintro ⟨rfl, past, live⟩
        exact ⟨i, old, new, at_i, by rw [calls, List.getElem?_set_self lt], service.symm, live, past⟩
    have panel := notifyCall_onPanel old new (callHanded i old new s)
    rw [← commitCall_some at_i] at panel
    refine ⟨commitCall_inner i new s, commitCall_onTable i new s, commitCall_sameTable i new s, by rw [calls, List.length_set],
      fun j c hc => ?_, fun x hx => ?_, fun idle x hx no => ?_, fun r x sale stage space hd e => ?_, fun no => ?_, ?_, fun told => ?_, ?_⟩
    · rw [calls, List.getElem?_set]
      by_cases at_j : i = j
      · subst at_j
        rw [at_i, Option.some.injEq] at hc
        subst hc
        exact ⟨new, by rw [if_pos rfl, if_pos lt], service, stays⟩
      · exact ⟨c, by rw [if_neg at_j, hc], rfl, id⟩
    · rw [panel.claims, callHanded] at hx
      rw [ended]
      split at hx
      · obtain ⟨mem, gone⟩ := callEnded_mem (s := setCall i new s) hx
        exact ⟨mem, fun ⟨hd, hs, _⟩ => gone ⟨hs.symm, hd⟩⟩
      · next stays => exact ⟨hx, fun ⟨_, _, e⟩ => stays e⟩
    · rw [ended] at no
      rw [panel.claims, callHanded]
      split
      · next e =>
        rw [callEnded_stay (s := setCall i new s) idle, List.mem_filter]
        refine ⟨hx, ?_⟩
        simp only [Bool.not_eq_true', Bool.and_eq_false_iff, decide_eq_false_iff_not]
        exact not_and_or.1 fun ⟨hs, hd⟩ => no ⟨hd, hs.symm, e⟩
      · exact hx
    · obtain ⟨hs, past⟩ := (ended _).1 e
      rw [panel.sales, callHanded, if_pos past]
      cases after : (callEnded new (setCall i new s)).sales.sale with
      | none => rfl
      | some r' =>
        have same : r' = r := by
          rcases (callEnded_inner new (setCall i new s)).sales with e | e
          · rw [e] at after
            exact Option.some.inj (after.symm.trans sale)
          · rw [e] at after
            cases after
        subst same
        exact absurd ⟨hs.symm, hd⟩ (callEnded_sale (s := setCall i new s) after stage space)
    · rw [panel.sales, callHanded]
      split
      · next e =>
        exact callEnded_sales_other (s := setCall i new s) fun r x sale space ⟨hs, hd⟩ =>
          no r x sale space ⟨hd, (ended _).2 ⟨hs.symm, e⟩⟩
      · rfl
    · rw [commitCall_some at_i]
      cases shown : noticeChange old new with
      | true =>
        right
        simp only [notifyCall, shown, if_true]
        exact callChanged_told _
      | false =>
        left
        rw [← commitCall_some at_i]
        intro j c c' hc hc'
        rw [calls, List.getElem?_set] at hc'
        by_cases at_j : i = j
        · subst at_j
          rw [at_i, Option.some.injEq] at hc
          rw [if_pos rfl, if_pos lt, Option.some.injEq] at hc'
          subst hc hc'
          exact noticeChange_false shown
        · rw [if_neg at_j, hc, Option.some.injEq] at hc'
          rw [hc']
          exact ⟨rfl, rfl, rfl⟩
    · rw [commitCall_some at_i]
      simp only [notifyCall]
      cases shown : noticeChange old new with
      | true => exact callChanged_told _
      | false =>
        have stands : ¬(new.state.over && !old.state.over) = true := by simp [(noticeChange_false shown).1]
        rw [callHanded, if_neg stands]
        simp only [Bool.false_eq_true, if_false]
        have composed := (OnPanel.ite (compose_onPanel _) (.refl _) :
          OnPanel (setCall i new s) (if boardChange old new then compose (setCall i new s) else setCall i new s))
        refine Told.of_eq (s := setCall i new s) told ?_ (by rw [composed.calls])
        split
        · rw [compose_eq]
        · rfl
    · rw [panel.store, callHanded]
      split
      · exact (callEnded_timetable new (setCall i new s)).1
      · rfl

/-- A run of changes as the statements describe it, once each call is known to have become what it should. -/
theorem Committed.moved {s t : State} (m : Committed s t) {became : Call → Call → Prop}
    (calls : ∀ (i : Nat) (c : Call), s.calls.calls[i]? = some c → ∃ c', t.calls.calls[i]? = some c' ∧ became c c')
    (quiet : t.calls.calls = s.calls.calls → t = s) : CallsMoved became s t where
  length := m.length
  calls := calls
  table := m.table
  claims := m.claims
  stay := m.stay
  closed := m.closed
  stands := m.stands
  told := by
    rintro ⟨i, c, c', hc, hc', changed⟩
    rcases m.told with same | told
    · obtain ⟨state, delayed, minute⟩ := same i c c' hc hc'
      rcases changed with e | e | e
      · exact absurd state e
      · exact absurd delayed e
      · exact absurd minute e
    · have build : t.calls.buildCount = s.calls.buildCount := by rw [m.table]
      exact build ▸ told
  quiet := quiet
  others := m.onTable.eq
  kept := ⟨m.inner.peers, m.inner.muteFlag, m.inner.rxCount, m.inner.journal.1, m.inner.journal.2, m.timetable⟩

end Sys2Proof.Machine
end

