-- ==== Sys2Proof/Proofs/EvaluationOfACall.lean ====
section
/-! SUPPORT. The evaluation of one call (R22) and of the calls a changed watch view concerns (R21), and the runs of changes they
make of the Call Table. -/

namespace Sys2Proof.Machine

/-! ### The arithmetic of one call (R44 to R48) -/

theorem expectedDeparture_eq (minDwell arr : Nat) (c : Call) :
    expectedDeparture c.kind c.schedArr c.schedDep minDwell arr = departureFrom minDwell c arr := by
  unfold expectedDeparture departureFrom
  cases c.kind <;> rfl

theorem setArrival_eq (minDwell : Nat) (c : Call) (e : Estimates) (arr creep : Nat) : c.setArrival minDwell e arr creep =
    { c with estimates := some ⟨e.base, arr, departureFrom minDwell c arr, creep⟩ } := by
  rw [Call.setArrival, expectedDeparture_eq]

theorem fromBase_eq (minDwell : Nat) (c : Call) (base : Nat) : c.fromBase minDwell base =
    { c with delayed := false, estimates := some ⟨base, base, departureFrom minDwell c base, 0⟩ } := by
  rw [Call.fromBase, setArrival_eq]

theorem unwatched_eq {minDwell : Nat} {c : Call} {e : Estimates} (timed : c.estimates = some e) : c.unwatched minDwell =
    { c with delayed := false, estimates := some ⟨e.base, e.base, departureFrom minDwell c e.base, 0⟩ } := by
  simp only [Call.unwatched, timed, fromBase_eq]

theorem buildEstimates_eq (minDwell : Nat) (c : Call) : c.withBuildEstimates minDwell = { c with
    estimates := some ⟨min 108000 c.schedArr, min 108000 c.schedArr, departureFrom minDwell c (min 108000 c.schedArr), 0⟩ } := by
  have base : baseArrival c.schedArr c.points none = min 108000 c.schedArr := by
    simp only [baseArrival, clampNat]
    split_ifs <;> omega
  rw [Call.withBuildEstimates, setArrival_eq, base]

/-- Creep (R45): the arrival follows the clock, at most 1200 s beyond the base, and then the call is DELAYED. -/
theorem creepTo_eq (minDwell second : Nat) (c : Call) (e : Estimates) {late : Bool} {creep : Nat}
    (isLate : late = true ↔ c.delayed = true ∨ e.base + 1200 < second + 30)
    (crept : creep = if late then 1200 else second + 30 - e.base) : c.creepTo minDwell second e = { c with
      delayed := late, estimates := some ⟨e.base, e.base + creep, departureFrom minDwell c (e.base + creep), creep⟩ } := by
  have onTime : late = false → c.delayed = false ∧ second + 30 ≤ e.base + 1200 := fun no => by
    rw [no] at isLate
    simp only [Bool.false_eq_true, false_iff, not_or, Bool.not_eq_true, not_lt] at isLate
    exact isLate
  rw [Call.creepTo]
  split
  · next delayed =>
    have yes : late = true := isLate.2 (.inl delayed)
    subst yes
    have full : creep = 1200 := crept
    rw [full, setArrival_eq, ← delayed]
  · next prompt =>
    split
    · next early =>
      have no : late = false := Bool.eq_false_iff.2 fun yes => (isLate.1 yes).elim prompt fun far => by omega
      obtain ⟨delayed, _⟩ := onTime no
      have zero : creep = 0 := by
        rw [crept, no]
        simp only [Bool.false_eq_true, if_false]
        omega
      rw [zero, no, setArrival_eq, Nat.add_zero, ← delayed]
    · split
      · next near =>
        have no : late = false := Bool.eq_false_iff.2 fun yes => (isLate.1 yes).elim prompt fun far => by omega
        obtain ⟨delayed, _⟩ := onTime no
        have arrival : second + 30 = e.base + creep := by
          rw [crept, no]
          simp only [Bool.false_eq_true, if_false]
          omega
        have same : second + 30 - e.base = creep := by omega
        rw [same, arrival, setArrival_eq, no, ← delayed]
      · next far =>
        have yes : late = true := isLate.2 (.inr (by omega))
        subst yes
        have full : creep = 1200 := crept
        rw [full, setArrival_eq]

/-! ### The conditions of an evaluation (R22) -/

section phases
variable {x : EvalContext} {c : Call} {e : Estimates}

theorem creepPhase_timed (timed : c.estimates = some e) : creepPhase x c =
    if c.state.awaited && x.watch.arrival c.direction && c.approach.isNone then c.creepTo x.minDwell x.second e else c := by
  simp only [creepPhase, timed]

theorem lapsePhase_timed (timed : c.estimates = some e) : lapsePhase x c =
    if c.state.awaited && x.watch.arrival c.direction && c.delayed && e.base + 3000 ≤ x.second then { c with state := .lapsed }
    else c := by
  simp only [lapsePhase, timed]

theorem arrivePhase_timed (timed : c.estimates = some e) : arrivePhase x c =
    if ((c.state.awaited && !x.watch.arrival c.direction) || c.state = .approaching) && e.arr ≤ x.second then
      { c with state := .arrived } else c := by
  simp only [arrivePhase, timed]

theorem departPhase_timed (timed : c.estimates = some e) : departPhase x c =
    if c.state.atHand && e.dep + departureMargin x c ≤ x.second then { c with state := .departed } else c := by
  simp only [departPhase, timed]

theorem evaluated_untimed (timed : c.estimates = none) : evaluated x c = c := by
  simp only [evaluated, creepPhase, lapsePhase, arrivePhase, departPhase, timed]

/-- How far a call has come: an evaluation only takes it on. -/
def CallState.stage : CallState → Nat
  | .pending => 0
  | .reported => 0
  | .approaching => 1
  | .arrived => 2
  | .departed => 3
  | .cancelled => 3
  | .lapsed => 3

theorem CallState.stage_awaited {a : CallState} (h : a.awaited = true) : a.stage = 0 := by
  revert h
  cases a <;> decide

theorem CallState.stage_over {a : CallState} : a.over = true ↔ a.stage = 3 := by cases a <;> decide

theorem CallState.stage_atHand {a : CallState} (h : a.atHand = true) : 1 ≤ a.stage ∧ a.stage ≤ 2 := by
  revert h
  cases a <;> decide

theorem CallState.stage_le (a : CallState) : a.stage ≤ 3 := by cases a <;> decide

theorem creepPhase_state (x : EvalContext) (c : Call) : (creepPhase x c).state = c.state := by
  unfold creepPhase
  split
  · split
    · unfold Call.creepTo Call.setArrival
      split_ifs <;> rfl
    · rfl
  · rfl

/-- A condition of an evaluation leaves the call as it is or takes it a stage on. -/
def Onward (f : EvalContext → Call → Call) : Prop := ∀ x c, f x c = c ∨ c.state.stage < (f x c).state.stage

theorem lapsePhase_onward : Onward lapsePhase := by
  intro x c
  unfold lapsePhase
  split
  · split
    · next h =>
      simp only [Bool.and_eq_true] at h
      exact .inr ((CallState.stage_awaited h.1.1.1).trans_lt (by decide : 0 < CallState.lapsed.stage))
    · exact .inl rfl
  · exact .inl rfl

theorem arrivePhase_onward : Onward arrivePhase := by
  intro x c
  unfold arrivePhase
  split
  · split
    · next h =>
      simp only [Bool.and_eq_true, Bool.or_eq_true, decide_eq_true_eq] at h
      rcases h.1 with ⟨a, _⟩ | a
      · exact .inr ((CallState.stage_awaited a).trans_lt (by decide : 0 < CallState.arrived.stage))
      · exact .inr ((congrArg CallState.stage a).trans_lt (by decide : 1 < CallState.arrived.stage))
    · exact .inl rfl
  · exact .inl rfl

theorem departPhase_onward : Onward departPhase := by
  intro x c
  unfold departPhase
  split
  · split
    · next h =>
      simp only [Bool.and_eq_true] at h
      exact .inr (Nat.lt_succ_of_le (CallState.stage_atHand h.1).2)
    · exact .inl rfl
  · exact .inl rfl

theorem Onward.le {f : EvalContext → Call → Call} (h : Onward f) (x : EvalContext) (c : Call) :
    c.state.stage ≤ (f x c).state.stage := by
  rcases h x c with e | e
  · rw [e]
  · exact e.le

/-- An ended call is past every condition. -/
theorem Onward.over {f : EvalContext → Call → Call} (h : Onward f) {x : EvalContext} {c : Call} (ended : c.state.over = true) :
    f x c = c := by
  rcases h x c with e | e
  · exact e
  · rw [CallState.stage_over.1 ended] at e
    exact absurd (CallState.stage_le (f x c).state) (by omega)

theorem creepPhase_over (ended : c.state.over = true) : creepPhase x c = c := by
  have waiting : c.state.awaited = false := by
    revert ended
    cases c.state <;> decide
  unfold creepPhase
  split
  · exact if_neg (by simp [waiting])
  · rfl

theorem evaluated_over (ended : c.state.over = true) : evaluated x c = c := by
  rw [evaluated, creepPhase_over ended, lapsePhase_onward.over ended, arrivePhase_onward.over ended, departPhase_onward.over ended]

/-- A call that an evaluation does not take on met no condition but creep. -/
theorem evaluated_of_stage (h : (evaluated x c).state.stage = c.state.stage) :
    lapsePhase x (creepPhase x c) = creepPhase x c ∧ arrivePhase x (creepPhase x c) = creepPhase x c ∧
    departPhase x (creepPhase x c) = creepPhase x c := by
  have start := congrArg CallState.stage (creepPhase_state x c)
  have first := lapsePhase_onward.le x (creepPhase x c)
  have second := arrivePhase_onward.le x (lapsePhase x (creepPhase x c))
  have third := departPhase_onward.le x (arrivePhase x (lapsePhase x (creepPhase x c)))
  rw [evaluated] at h
  have lapse := (lapsePhase_onward x (creepPhase x c)).resolve_right (by omega)
  have arrive := (arrivePhase_onward x (lapsePhase x (creepPhase x c))).resolve_right (by omega)
  have depart := (departPhase_onward x (arrivePhase x (lapsePhase x (creepPhase x c)))).resolve_right (by omega)
  rw [arrive, lapse] at depart
  rw [lapse] at arrive
  exact ⟨lapse, arrive, depart⟩

theorem evaluated_eq_creep (h : (evaluated x c).state.stage = c.state.stage) : evaluated x c = creepPhase x c := by
  obtain ⟨lapse, arrive, depart⟩ := evaluated_of_stage h
  rw [evaluated, lapse, arrive, depart]

theorem departPhase_waiting (h : c.state.atHand = false) : departPhase x c = c := by
  unfold departPhase
  split
  · exact if_neg (by simp [h])
  · rfl

end phases

section evaluatedTo
variable {w : Coverage} {second minDwell : Nat} {c : Call} {e : Estimates}

/-- The watched case: creep, then perhaps lapse. -/
theorem evaluated_creeps (timed : c.estimates = some e) (awaited : c.state.awaited = true) (watched : w.arrival c.direction = true)
    (none : c.approach = none) {late : Bool} {creep : Nat}
    (isLate : late = true ↔ c.delayed = true ∨ e.base + 1200 < second + 30)
    (crept : creep = if late then 1200 else second + 30 - e.base) : evaluated ⟨w, second, minDwell⟩ c = { c with
      delayed := late
      estimates := some ⟨e.base, e.base + creep, departureFrom minDwell c (e.base + creep), creep⟩
      state := if late = true ∧ e.base + 3000 ≤ second then .lapsed else c.state } := by
  have creeps : creepPhase ⟨w, second, minDwell⟩ c = { c with
      delayed := late, estimates := some ⟨e.base, e.base + creep, departureFrom minDwell c (e.base + creep), creep⟩ } := by
    rw [creepPhase_timed timed, if_pos (by simp [awaited, watched, none]), creepTo_eq _ _ c e isLate crept]
  have lapses : ∀ d : Call, lapsePhase ⟨w, second, minDwell⟩ { c with
      delayed := late, estimates := some ⟨e.base, e.base + creep, departureFrom minDwell c (e.base + creep), creep⟩ } = d →
      arrivePhase ⟨w, second, minDwell⟩ d = d → d.state.atHand = false → evaluated ⟨w, second, minDwell⟩ c = d :=
    fun d l a h => by rw [evaluated, creeps, l, a, departPhase_waiting h]
  by_cases gone : late = true ∧ e.base + 3000 ≤ second
  · rw [if_pos gone]
    refine lapses _ ?_ ?_ rfl
    · rw [lapsePhase_timed (e := ⟨e.base, _, _, _⟩) rfl]
      exact if_pos (by simp [awaited, watched, gone])
    · rw [arrivePhase_timed (e := ⟨e.base, _, _, _⟩) rfl]
      exact if_neg (by simp [CallState.awaited])
  · rw [if_neg gone]
    have notNear : c.state ≠ .approaching ∧ c.state.atHand = false := by
      revert awaited
      cases c.state <;> decide
    refine lapses _ ?_ ?_ notNear.2
    · rw [lapsePhase_timed (e := ⟨e.base, _, _, _⟩) rfl]
      exact if_neg (by simpa [awaited, watched] using gone)
    · rw [arrivePhase_timed (e := ⟨e.base, _, _, _⟩) rfl]
      exact if_neg (by simp [watched, notNear.1])

/-- Where no creep is due, an evaluation is arrival and departure. -/
theorem evaluated_uncrept (h : c.state.awaited = true → w.arrival c.direction = false) : evaluated ⟨w, second, minDwell⟩ c =
    departPhase ⟨w, second, minDwell⟩ (arrivePhase ⟨w, second, minDwell⟩ c) := by
  have still : (c.state.awaited && w.arrival c.direction) = false := by
    cases a : c.state.awaited with
    | false => rfl
    | true => exact h a
  have creep : creepPhase ⟨w, second, minDwell⟩ c = c := by
    unfold creepPhase
    split
    · exact if_neg (by simp [still])
    · rfl
  have lapse : lapsePhase ⟨w, second, minDwell⟩ c = c := by
    unfold lapsePhase
    split
    · exact if_neg (by simp [still])
    · rfl
  rw [evaluated, creep, lapse]

/-- The assumed departure of a call at hand (R29). -/
theorem departPhase_to (timed : c.estimates = some e) (near : c.state.atHand = true) {margin : Nat}
    (isMargin : margin = if w.departure c.direction then 900 else 30) : departPhase ⟨w, second, minDwell⟩ c =
      { c with state := if e.dep + margin ≤ second then .departed else c.state } := by
  have same : departureMargin ⟨w, second, minDwell⟩ c = margin := isMargin.symm
  rw [departPhase_timed timed, same]
  by_cases gone : e.dep + margin ≤ second
  · rw [if_pos (by simp [near, gone]), if_pos gone]
  · rw [if_neg (by simp [gone]), if_neg gone]

/-- The evaluation of a call as the statements describe it. -/
theorem evaluated_to (w : Coverage) (second minDwell : Nat) (c : Call) :
    EvaluatedTo w second minDwell c (evaluated ⟨w, second, minDwell⟩ c) :=
  { ended h := h.elim evaluated_over evaluated_untimed
    creeps _ _ _ timed awaited watched none isLate crept := evaluated_creeps timed awaited watched none isLate crept
    waits e timed awaited unwatched early := by
      have notNear : c.state ≠ .approaching ∧ c.state.atHand = false := by
        revert awaited
        cases c.state <;> decide
      have waiting : arrivePhase ⟨w, second, minDwell⟩ c = c := by
        rw [arrivePhase_timed timed]
        exact if_neg (by simpa [notNear.1] using fun _ _ => early)
      rw [evaluated_uncrept fun _ => unwatched, waiting, departPhase_waiting notNear.2]
    arrives e margin timed isMargin come near := by
      have unwatched : c.state.awaited = true → w.arrival c.direction = false := by
        rcases near with ⟨_, no⟩ | near
        · exact fun _ => no
        · simp [near, CallState.awaited]
      have arrive : arrivePhase ⟨w, second, minDwell⟩ c = { c with state := .arrived } := by
        rw [arrivePhase_timed timed]
        exact if_pos (by simpa [come] using near)
      rw [evaluated_uncrept unwatched, arrive, departPhase_to (c := { c with state := .arrived }) timed rfl isMargin]
    departs e margin timed isMargin near := by
      have away : c.state.awaited = false ∧ c.state.atHand = true := by
        rcases near with h | ⟨h, _⟩ <;> rw [h] <;> exact ⟨rfl, rfl⟩
      have still : arrivePhase ⟨w, second, minDwell⟩ c = c := by
        rw [arrivePhase_timed timed]
        refine if_neg ?_
        rcases near with h | ⟨h, early⟩
        · simp [h, CallState.awaited]
        · simpa [h] using early
      rw [evaluated_uncrept (by simp [away.1]), still, departPhase_to timed away.2 isMargin] }

end evaluatedTo

end Sys2Proof.Machine
end

