-- ==== Sys2Proof/Proofs/Reevaluations.lean ====
section
/-! SUPPORT. Evaluations of the Call Table (R22), its re-evaluation when the watch view changes (R21), and the step from grade 0
(R16), each as one run of changes. -/

namespace Sys2Proof.Machine

/-! ### One change after another on one call -/

theorem modify_at {α : Type} {l : List α} {i : Nat} {a : α} (h : l[i]? = some a) (f : α → α) : l.modify i f = l.set i (f a) := by
  rw [List.modify_eq_set_getElem?, h]
  rfl

section commit
variable {i : Nat} {c : Call} {s : State}

theorem commitCall_at (h : s.calls.calls[i]? = some c) (new : Call) : (commitCall i new s).calls.calls[i]? = some new := by
  rw [commitCall_calls]
  exact List.getElem?_set_self (List.getElem?_eq_some_iff.1 h).1

theorem commitCall_context (new : Call) : evalContext (commitCall i new s) = evalContext s := by
  have m := commitCall_inner i new s
  rw [evalContext, evalContext, m.clock, m.setup, commitCall_calls]

/-- A condition of an evaluation, at a grade above 0, is one change of the call. -/
theorem evalPhase_eq {f : EvalContext → Call → Call} (rests : ∀ x d, d.state.over = true → f x d = d)
    (grade : s.clock.grade ≠ .unset) (h : s.calls.calls[i]? = some c) :
    evalPhase f i s = commitCall i (f (evalContext s) c) s := by
  simp only [evalPhase, h]
  split
  · rfl
  · next out =>
    have ended : c.state.over = true := by simpa [evaluable, grade] using out
    rw [rests _ c ended, commitCall_self h]

/-- An evaluation, at a grade above 0, is the changes its conditions make. -/
theorem evalCall_eq (grade : s.clock.grade ≠ .unset) (h : s.calls.calls[i]? = some c) : evalCall i s =
    commitCall i (evaluated (evalContext s) c) (commitCall i (arrivePhase (evalContext s) (lapsePhase (evalContext s)
      (creepPhase (evalContext s) c))) (commitCall i (lapsePhase (evalContext s) (creepPhase (evalContext s) c))
        (commitCall i (creepPhase (evalContext s) c) s))) := by
  have up : ∀ new (t : State), t.clock.grade ≠ .unset → (commitCall i new t).clock.grade ≠ .unset := fun new t g => by
    rw [(commitCall_inner i new t).clock]
    exact g
  have one := up (creepPhase (evalContext s) c) s grade
  have two := up (lapsePhase (evalContext s) (creepPhase (evalContext s) c)) _ one
  have three := up (arrivePhase (evalContext s) (lapsePhase (evalContext s) (creepPhase (evalContext s) c))) _ two
  rw [evalCall, evalPhase_eq (fun _ _ => creepPhase_over) grade h,
    evalPhase_eq (fun _ _ => lapsePhase_onward.over) one (commitCall_at h _), commitCall_context,
    evalPhase_eq (fun _ _ => arrivePhase_onward.over) two (commitCall_at (commitCall_at h _) _), commitCall_context, commitCall_context,
    evalPhase_eq (fun _ _ => departPhase_onward.over) three (commitCall_at (commitCall_at (commitCall_at h _) _) _),
    commitCall_context, commitCall_context, commitCall_context]
  rfl

end commit

theorem evalCall_none {i : Nat} {s : State} (h : s.calls.calls[i]? = none) : evalCall i s = s := by
  have still : ∀ f, evalPhase f i s = s := fun f => by simp only [evalPhase, h]
  rw [evalCall, still, still, still, still]

theorem evalCall_calls (i : Nat) {s : State} (grade : s.clock.grade ≠ .unset) :
    (evalCall i s).calls.calls = s.calls.calls.modify i (evaluated (evalContext s)) := by
  cases h : s.calls.calls[i]? with
  | none => rw [evalCall_none h, List.modify_eq_self (List.getElem?_eq_none_iff.1 h)]
  | some c =>
    rw [evalCall_eq grade h, modify_at h]
    simp only [commitCall_calls, List.set_set]

/-- A call that an evaluation leaves as it is: nothing is handed on. -/
theorem evalCall_self {i : Nat} {c : Call} {s : State} (grade : s.clock.grade ≠ .unset) (h : s.calls.calls[i]? = some c)
    (same : evaluated (evalContext s) c = c) : evalCall i s = s := by
  have stage : (evaluated (evalContext s) c).state.stage = c.state.stage := by rw [same]
  obtain ⟨lapse, arrive, -⟩ := evaluated_of_stage stage
  have creep : creepPhase (evalContext s) c = c := (evaluated_eq_creep stage).symm.trans same
  rw [creep] at lapse arrive
  rw [evalCall_eq grade h, same, creep, lapse, arrive, commitCall_self h, commitCall_self h, commitCall_self h, commitCall_self h]

theorem evalPhase_committed {f : EvalContext → Call → Call} (follows : ∀ x c, Follows x.minDwell c (f x c)) (i : Nat) (s : State) :
    Committed s (evalPhase f i s) := by
  unfold evalPhase
  split
  · next c h =>
    refine .ite (fun live => commitCall_committed fun old e => ?_) (fun _ => .refl s)
    rw [h, Option.some.injEq] at e
    subst e
    refine ⟨(follows _ c).service, fun ended => ?_⟩
    simp [evaluable, ended] at live
  · exact .refl s

theorem evalCall_committed (i : Nat) (s : State) : Committed s (evalCall i s) :=
  (evalPhase_committed follows_creepPhase i s).trans ((evalPhase_committed follows_lapsePhase i _).trans
    ((evalPhase_committed follows_arrivePhase i _).trans (evalPhase_committed follows_departPhase i _)))

/-! ### Every call in turn -/

/-- An operation on each call in turn that leaves the rest alone, and everything alone where it leaves the call as it is. -/
theorem CallsMoved.foldl {op : State → Nat → State} {g : Call → Call} {became : Call → Call → Prop} {P : State → Prop}
    (keep : ∀ t i, P t → P (op t i)) (commit : ∀ t i, Committed t (op t i))
    (calls : ∀ t i, P t → (op t i).calls.calls = t.calls.calls.modify i g)
    (same : ∀ t i c, P t → t.calls.calls[i]? = some c → g c = c → op t i = t)
    (none : ∀ t i, t.calls.calls[i]? = none → op t i = t) {s : State} (h : P s) (each : ∀ c, became c (g c)) :
    CallsMoved became s ((List.range s.calls.calls.length).foldl op s) := by
  have after := foldl_range_map keep calls h
  refine (Committed.foldl commit _ s).moved (fun i c hc => ⟨g c, ?_, each c⟩) fun still => ?_
  · rw [after, List.getElem?_map, hc]
    rfl
  · rw [after] at still
    have fixed : ∀ (i : Nat) (c : Call), s.calls.calls[i]? = some c → g c = c := fun i c hc => by
      have at_i : (s.calls.calls.map g)[i]? = s.calls.calls[i]? := by rw [still]
      simpa [hc] using at_i
    refine List.foldlRecOn _ _ (motive := fun t : State => t = s) rfl ?_
    rintro t rfl i _
    cases hc : t.calls.calls[i]? with
    | none => exact none t i hc
    | some c => exact same t i c h hc (fixed i c hc)

/-- An evaluation of every call (R22), as the statements describe it. -/
theorem evalAll_evaluated {s : State} (grade : s.clock.grade ≠ .unset) : CallsEvaluated (fun c => c) s (evalAll s) := by
  refine CallsMoved.foldl (g := evaluated (evalContext s)) (P := fun t => evalContext t = evalContext s ∧ t.clock.grade ≠ .unset)
    (fun t i h => ?_) (fun t i => evalCall_committed i t) (fun t i h => h.1 ▸ evalCall_calls i h.2)
    (fun t i c h hc same => evalCall_self h.2 hc (h.1.symm ▸ same)) (fun t i => evalCall_none) ⟨rfl, grade⟩
    (fun c => evaluated_to _ _ _ c)
  have m := evalCall_keeps i t
  exact ⟨(by rw [evalContext, m.watch, m.clock, m.setup]; exact h.1), by rw [m.clock]; exact h.2⟩

/-! ### A changed watch view (R21) -/

/-- What a change of the watch view makes of one call. -/
def rewatched (old new : Coverage) (second minDwell : Nat) (c : Call) : Call :=
  if watchConcerns old new c then evaluated ⟨new, second, minDwell⟩ (if arrivalCleared new c then c.unwatched minDwell else c) else c

theorem rewatched_to (old new : Coverage) (second minDwell : Nat) (c : Call) :
    RewatchedTo old new second minDwell c (rewatched old new second minDwell c) := by
  have away : c.state.atHand = true → c.state.awaited = false := by cases c.state <;> decide
  refine ⟨fun e timed awaited was is => ?_, fun awaited was is => ?_, fun near differ => ?_, fun watch margin => ?_⟩
  · rw [rewatched, if_pos (by simp [watchConcerns, awaited, was, is]), if_pos (by simp [arrivalCleared, awaited, is]), unwatched_eq timed]
    exact evaluated_to new second minDwell _
  · rw [rewatched, if_pos (by simp [watchConcerns, awaited, was, is]), if_neg (by simp [arrivalCleared, is])]
    exact evaluated_to new second minDwell c
  · rw [rewatched, if_pos (by simpa [watchConcerns, away near, near] using differ), if_neg (by simp [arrivalCleared, away near])]
    exact evaluated_to new second minDwell c
  · refine if_neg ?_
    unfold watchConcerns
    split
    · next awaited => simp [watch awaited]
    · split
      · next near => simp [margin near]
      · simp

theorem unwatched_state (minDwell : Nat) (c : Call) : (c.unwatched minDwell).state = c.state := by
  unfold Call.unwatched
  split <;> rfl

theorem unwatched_service (minDwell : Nat) (c : Call) : (c.unwatched minDwell).service = c.service := by
  unfold Call.unwatched
  split <;> rfl

section rewatch
variable {old : Coverage} {i : Nat} {s : State}

theorem rewatchCall_none {new : Coverage} (h : s.calls.calls[i]? = none) : rewatchCall old new s i = s := by
  simp only [rewatchCall, h]

theorem rewatchCall_some {new : Coverage} {c : Call} (h : s.calls.calls[i]? = some c) : rewatchCall old new s i =
    if watchConcerns old new c then evalCall i (if arrivalCleared new c then commitCall i (c.unwatched s.setup.settings.minDwell) s else s)
    else s := by
  simp only [rewatchCall, h]

theorem rewatchCall_committed (new : Coverage) (i : Nat) (s : State) : Committed s (rewatchCall old new s i) := by
  cases h : s.calls.calls[i]? with
  | none => rw [rewatchCall_none h]; exact .refl s
  | some c =>
    rw [rewatchCall_some h]
    refine .ite (fun _ => Committed.trans ?_ (evalCall_committed i _)) (fun _ => .refl s)
    refine .ite (fun _ => commitCall_committed fun old e => ?_) (fun _ => .refl s)
    rw [h, Option.some.injEq] at e
    subst e
    exact ⟨unwatched_service _ c, fun ended => by rw [unwatched_state]; exact ended⟩

variable (grade : s.clock.grade ≠ .unset)
include grade

theorem rewatchCall_calls (i : Nat) : (rewatchCall old s.calls.watch s i).calls.calls =
    s.calls.calls.modify i (rewatched old s.calls.watch s.clock.second s.setup.settings.minDwell) := by
  cases h : s.calls.calls[i]? with
  | none => rw [rewatchCall_none h, List.modify_eq_self (List.getElem?_eq_none_iff.1 h)]
  | some c =>
    rw [rewatchCall_some h, modify_at h, rewatched]
    by_cases concerned : watchConcerns old s.calls.watch c = true
    · rw [if_pos concerned, if_pos concerned]
      split
      · rw [evalCall_calls i (by rw [(commitCall_inner i _ s).clock]; exact grade), commitCall_context,
          modify_at (commitCall_at h _), commitCall_calls, List.set_set]
        rfl
      · rw [evalCall_calls i grade, modify_at h]
        rfl
    · rw [if_neg concerned, if_neg concerned]
      obtain ⟨lt, rfl⟩ := List.getElem?_eq_some_iff.1 h
      exact (List.set_getElem_self lt).symm

/-- A call that the change leaves as it is: nothing is handed on. -/
theorem rewatchCall_self {c : Call} (h : s.calls.calls[i]? = some c)
    (same : rewatched old s.calls.watch s.clock.second s.setup.settings.minDwell c = c) : rewatchCall old s.calls.watch s i = s := by
  rw [rewatchCall_some h]
  split
  · next concerned =>
    rw [rewatched, if_pos concerned] at same
    split
    · next cleared =>
      rw [if_pos cleared] at same
      have stage : (evaluated ⟨s.calls.watch, s.clock.second, s.setup.settings.minDwell⟩ (c.unwatched s.setup.settings.minDwell)).state.stage =
          (c.unwatched s.setup.settings.minDwell).state.stage := by rw [same, unwatched_state]
      have uncrept : creepPhase ⟨s.calls.watch, s.clock.second, s.setup.settings.minDwell⟩ (c.unwatched s.setup.settings.minDwell) =
          c.unwatched s.setup.settings.minDwell := by
        have direction : (c.unwatched s.setup.settings.minDwell).direction = c.direction := by
          unfold Call.unwatched
          split <;> rfl
        simp only [arrivalCleared, Bool.and_eq_true, Bool.not_eq_true'] at cleared
        unfold creepPhase
        split
        · exact if_neg (by simp [direction, cleared.2])
        · rfl
      have reset : c.unwatched s.setup.settings.minDwell = c := uncrept.symm.trans ((evaluated_eq_creep stage).symm.trans same)
      rw [reset] at same ⊢
      rw [commitCall_self h]
      exact evalCall_self grade h same
    · next kept =>
      rw [if_neg kept] at same
      exact evalCall_self grade h same
  · rfl

end rewatch

/-- The watch view formed again, as the statements describe it (R20, R21). -/
theorem updateWatch_rewatched (s : State) : Rewatched s (updateWatch s) := by
  refine ⟨updateWatch_same, fun grade => ?_, fun grade => ?_⟩
  · simp only [updateWatch, grade, if_true]
    split
    · next same => rw [same]
    · rfl
  · by_cases same : watchView s.treadles s.line.peers = s.calls.watch
    · rw [updateWatch_same same, same]
      refine (Committed.refl s).moved (fun i c hc => ⟨c, hc, ?_⟩) fun _ => rfl
      have became := rewatched_to s.calls.watch s.calls.watch s.clock.second s.setup.settings.minDwell c
      rwa [became.alone (fun _ => rfl) fun _ => rfl] at became
    · have folds : updateWatch s = (List.range s.calls.calls.length).foldl
          (rewatchCall s.calls.watch (watchView s.treadles s.line.peers))
          { s with calls := { s.calls with watch := watchView s.treadles s.line.peers } } := by
        simp only [updateWatch, same, grade, if_false]
        rfl
      rw [folds]
      refine CallsMoved.foldl (g := rewatched s.calls.watch (watchView s.treadles s.line.peers) s.clock.second s.setup.settings.minDwell)
        (P := fun t => t.calls.watch = watchView s.treadles s.line.peers ∧ t.clock = s.clock ∧ t.setup = s.setup)
        (fun t i h => ?_) (fun t i => rewatchCall_committed _ i t) (fun t i h => ?_) (fun t i c h hc same => ?_)
        (fun t i => rewatchCall_none) ⟨rfl, rfl, rfl⟩ (fun c => rewatched_to _ _ _ _ c)
      · have m := rewatchCall_keeps s.calls.watch (watchView s.treadles s.line.peers) t i
        exact ⟨m.watch.trans h.1, m.clock.trans h.2.1, m.setup.trans h.2.2⟩
      · have after := rewatchCall_calls (old := s.calls.watch) (s := t) (by rw [h.2.1]; exact grade) i
        rw [h.1, h.2.1, h.2.2] at after
        exact after
      · have stands := rewatchCall_self (old := s.calls.watch) (i := i) (s := t) (by rw [h.2.1]; exact grade) hc
        rw [h.1, h.2.1, h.2.2] at stands
        exact stands same

end Sys2Proof.Machine
end

