-- ==== Sys2Proof/Proofs/TreadleUnit.lean ====
section
/-! SUPPORT. The Treadle Unit: heads and pulses (R63 to R67), the end of a passage (R68, R76), and the treadle commands (R70, R72). -/

namespace Sys2Proof.Machine

/-! ### The watch view formed again (R20, R21) -/

/-- A re-evaluation is a run of changes of calls under the new watch view. -/
theorem updateWatch_committed (s : State) :
    Committed { s with calls := { s.calls with watch := watchView s.treadles s.line.peers } } (updateWatch s) := by
  have start : s.withCalls { s.calls with watch := watchView s.treadles s.line.peers } =
      { s with calls := { s.calls with watch := watchView s.treadles s.line.peers } } := rfl
  simp only [updateWatch]
  split
  · next same =>
    have still : { s with calls := { s.calls with watch := watchView s.treadles s.line.peers } } = s := by rw [same]
    rw [still]
    exact .refl s
  · split
    · exact .refl _
    · exact Committed.foldl (fun t i => rewatchCall_committed _ i t) _ _

/-- What the watch view's forming again leaves as it was. -/
theorem updateWatch_rest (s : State) : OnTable s (updateWatch s) ∧
    (updateWatch s).line.peers = s.line.peers ∧ (updateWatch s).line.muted = s.line.muted ∧
    (updateWatch s).line.rxCount = s.line.rxCount ∧ (updateWatch s).sales.journal = s.sales.journal ∧
    (updateWatch s).sales.serialCounter = s.sales.serialCounter ∧ (updateWatch s).calls.date = s.calls.date ∧
    (updateWatch s).calls.buildCount = s.calls.buildCount ∧ (updateWatch s).notices.mask = s.notices.mask := by
  have m := updateWatch_committed s
  have build : (updateWatch s).calls.buildCount = s.calls.buildCount := by rw [m.table]
  exact ⟨OnTable.trans ⟨_, _, _, _, _, _, _, rfl⟩ m.onTable, m.inner.peers, m.inner.muteFlag, m.inner.rxCount, m.inner.journal.1,
    m.inner.journal.2, m.table.date, build, m.inner.mask⟩

/-! ### Pairs -/

theorem Treadles.setPair_setPair (t : Treadles) (p : PairId) (x y : Pair) : (t.setPair p x).setPair p y = t.setPair p y := by
  cases p <;> rfl

@[simp] theorem Treadles.pair_setPair (t : Treadles) (p : PairId) (x : Pair) : (t.setPair p x).pair p = x := by cases p <;> rfl

theorem setPair_setPair (p : PairId) (x y : Pair) (s : State) : setPair p y (setPair p x s) = setPair p y s := by
  cases p <;> rfl

theorem setPair_self (p : PairId) (s : State) : setPair p (pairAt s p) s = s := by cases p <;> rfl

/-! ### Pulses (R63 to R67) -/

theorem addAxle_eq (h : HeadId) (n : Nat) : addAxle h n = if h = .one then min 255 (n + 1) else n := by cases h <;> rfl

/-- The pair as a pulse of a head leaves its heads (R63). -/
def Pair.pulsed (x : Pair) (h : HeadId) : Pair := x.setHead h ⟨true, true⟩

section pulse
variable {p : PairId} {h : HeadId} {s : State}

theorem headPulse_unsettled (level : (s.treadles.pair p).head h ≠ ⟨true, false⟩) (n : Nat) : headPulse p h n s = s := by
  refine if_neg fun pulse => level ?_
  simp only [Bool.and_eq_true, Bool.not_eq_true'] at pulse
  exact congrArg₂ HeadInput.mk pulse.1 pulse.2

variable (level : (s.treadles.pair p).head h = ⟨true, false⟩)
include level

theorem headPulse_settles (n : Nat) : headPulse p h n s = if takesPulses s p then
    passagePulse p h n (setPair p ((s.treadles.pair p).pulsed h) s) else setPair p ((s.treadles.pair p).pulsed h) s := by
  have settled : settle p h true s = setPair p ((s.treadles.pair p).pulsed h) s := by
    rw [settle, pairAt, level]
    rfl
  simp only [headPulse, pairAt, level, settled]
  rfl

theorem headPulse_stops {n : Nat} (stops : s.setup.running = false ∨ (s.treadles.pair p).config.enabled = false ∨
    (s.treadles.pair p).state = .faulty) : headPulse p h n s = setPair p ((s.treadles.pair p).pulsed h) s := by
  rw [headPulse_settles level]
  split
  · next takes =>
    simp only [takesPulses, pairAt, Bool.and_eq_true] at takes
    have faulty : (s.treadles.pair p).state = .faulty := by simpa [takes] using stops
    simp only [passagePulse, pairAt_setPair, Pair.pulsed, Pair.setHead_state, faulty]
  · rfl

variable (run : s.setup.running = true) (enabled : (s.treadles.pair p).config.enabled = true)
include run enabled

theorem headPulse_reaches (n : Nat) :
    headPulse p h n s = passagePulse p h n (setPair p ((s.treadles.pair p).pulsed h) s) := by
  rw [headPulse_settles level, if_pos]
  simp [takesPulses, run, pairAt, enabled]

end pulse

/-- Settles O16: by the levels of the head, and the states of the passage machine. -/
theorem pulsesMoveHeadsAndPassages : Obligations.PulsesMoveHeadsAndPassages := by
  constructor
  · rintro p h n v s level
    refine ⟨fun active => ?_, fun e => ?_, fun e => ?_, fun e => ?_, fun e stops => ?_⟩
    · exact congrArg (fun o : HeadInput => Host.Outcome.next (setPair p ((pairAt s p).setHead h { o with input := active }) s)) level
    · refine congrArg Host.Outcome.next ?_
      rw [headReturn, settle, pairAt, level, e]
      rfl
    · refine congrArg Host.Outcome.next (if_neg fun back => e ?_)
      simp only [pairAt, level, Bool.and_eq_true, Bool.not_eq_true'] at back
      exact congrArg₂ HeadInput.mk back.1 back.2
    · exact congrArg Host.Outcome.next (headPulse_unsettled (by rw [level]; exact e) n)
    · exact congrArg Host.Outcome.next (headPulse_stops (level.trans e) stops)
  · rintro p h n s x run enabled level rfl
    have reaches : exec (.pulse p h n) s = .next (passagePulse p h n (setPair p ((s.treadles.pair p).pulsed h) s)) :=
      congrArg Host.Outcome.next (headPulse_reaches level run enabled n)
    rw [reaches]
    refine ⟨fun quiet => ?_, fun timing first => ?_, fun passage => ⟨((s.treadles.pair p).pulsed h).passagePulse h s.clock.tick, ?_, ?_,
      ?_, fun none => ?_, fun m some => ?_⟩⟩
    · simp only [passagePulse, pairAt_setPair, Pair.pulsed, quiet, setPair_setPair]
      rw [Pair.startPassage, addAxle_eq]
      rfl
    · simp only [passagePulse, pairAt_setPair, Pair.pulsed, timing, setPair_setPair, ← first, if_true, addAxle_eq]
      rfl
    · simp only [passagePulse, pairAt_setPair, Pair.pulsed, passage, setPair_setPair]
      rfl
    · simp only [Pair.passagePulse, addAxle_eq, Pair.pulsed]
      rfl
    · simp [Pair.passagePulse, Pair.pulsed, bne_iff_ne]
    · exact congrArg (Option.map _) none
    · exact congrArg (Option.map _) some

/-! ### The end of a passage (R67, R68, R76) -/

theorem clampNat_eq (a b x : Nat) (h : a ≤ b) : clampNat a b x = max a (min b x) := by
  unfold clampNat
  split_ifs <;> omega

theorem raisePassage_some {p : PairId} {x : Pair} {m : Measurement} (record : x.record = some m) (s : State) :
    raisePassage p x s = raise (passageNotice p x m) s := by
  simp only [raisePassage, record]

/-- The passage notice, its times of arrival written out (R74, R76). -/
theorem passageNotice_eq (p : PairId) (x : Pair) (m : Measurement) : passageNotice p x m = if m.inbound then
    .approachSeen p x.config.direction m.detect m.speed m.slow
      (max 1 (min 1800 ((x.config.distance * 100 + m.speed - 1) / m.speed + x.config.braking)))
      (max 1 (min 1800 ((x.config.distance * 100 + m.speed - 1) / m.speed))) m.axles (!x.secondSeen) x.matched
    else .departureSeen p x.config.direction.opposite m.detect m.speed m.slow m.axles (!x.secondSeen) x.matched := by
  have clamp : ∀ n, clampNat 1 1800 n = max 1 (min 1800 n) := fun n => clampNat_eq 1 1800 n (by decide)
  rw [passageNotice, etaStop, etaPass, runTime, ceilDiv, clamp, clamp]
  cases m.inbound <;> rfl

/-- Settles O18: by the void count, and the watch view formed again when the pair is FAULTY. -/
theorem quietTimerEndsPassage : Obligations.QuietTimerEndsPassage := by
  rintro p s x rfl
  refine ⟨fun idle => congrArg Host.Outcome.next (if_neg fun due => ?_), ?_⟩
  · simp only [Bool.and_eq_true, decide_eq_true_eq] at due
    rcases idle with other | early
    · exact other due.1
    · have notDue := timerDue_false early
      exact absurd (notDue.symm.trans due.2) (by decide)
  intro q m v d n passage timer due record hv hd _ hn
  have ends : exec (.quietTimerExpiry p) s = .next (endPassage p s) := by
    refine congrArg Host.Outcome.next (if_pos ?_)
    simp only [pairAt, passage, decide_true, Bool.true_and]
    exact timerDue_true timer due
  have noticed : passageNotice p (s.treadles.pair p) m = n := by rw [passageNotice_eq, ← hd, hn]
  have voids : voidsAfter (pairAt s p) = v := hv.symm
  refine ⟨fun low => ?_, fun high => ?_⟩
  · have quiet : (pairAt s p).ended = { s.treadles.pair p with state := .quiet, quietTimer := none, voids := v } := by
      rw [Pair.ended, voids, if_pos low]
      rfl
    rw [ends]
    simp only [endPassage, quiet, reduceCtorEq, if_false]
    rw [raisePassage_some (x := pairAt s p) record]
    exact congrArg (fun c => Host.Outcome.next (raise c _)) noticed
  · have faulty : (pairAt s p).ended = { s.treadles.pair p with state := .faulty, quietTimer := none, voids := v } := by
      rw [Pair.ended, voids, if_neg (Nat.not_lt.2 high)]
      rfl
    have after : endPassage p s = updateWatch (raise (.treadleFault p) (raise n { s with
        treadles := s.treadles.setPair p { s.treadles.pair p with state := .faulty, quietTimer := none, voids := v } })) := by
      simp only [endPassage, faulty, if_true]
      rw [raisePassage_some (x := pairAt s p) record]
      exact congrArg (fun c => updateWatch (raise (.treadleFault p) (raise c _))) noticed
    generalize hx : ({ s.treadles.pair p with state := .faulty, quietTimer := none, voids := v } : Pair) = y at after ⊢
    obtain ⟨w, hw⟩ : ∃ w, w = raise (.treadleFault p) (raise n { s with treadles := s.treadles.setPair p y }) := ⟨_, rfl⟩
    rw [← hw] at after
    have onTable : ∃ b k, w = { s with treadles := s.treadles.setPair p y, board := b, notices := k } := ⟨_, _, hw⟩
    obtain ⟨b, k, whole⟩ := onTable
    obtain ⟨table, peers, _, _, journal, serial, date, build, _⟩ := updateWatch_rest w
    have treadles : (updateWatch w).treadles = s.treadles.setPair p y := by
      rw [table.eq, whole]
    refine ⟨updateWatch w, by rw [ends, after], treadles, ?_, ?_, ?_, fun grade => ?_, ?_, ?_, ?_, ?_, ?_, ?_⟩
    · rw [updateWatch_watch, treadles, whole]
    · rw [treadles, ← hw]
    · rw [treadles, ← hw]
      exact updateWatch_rewatched w
    · have unset : w.clock.grade = .unset := by rw [whole]; exact grade
      rw [treadles, updateWatch_watch]
      rw [(updateWatch_rewatched w).recorded unset, hw]
      rfl
    · rw [table.eq, whole]
    · rw [peers, whole]
    · rw [journal, whole]
    · rw [serial, whole]
    · rw [date, whole]
    · rw [build, whole]

/-! ### TREADLE_READ and TREADLE_ENABLE (R70, R72) -/

theorem pairOf_none {k : Nat} (h : 1 < k) : pairOf k = none := by
  match k, h with
  | _ + 2, _ => rfl

theorem pairOf_some {k : Nat} {p : PairId} (h : k = (match p with | .a => 0 | .b => 1)) : pairOf k = some p := by
  cases p <;> rw [h] <;> rfl

section treadle
variable {tag k : Nat} {s t : State} {a : Answer} (serving : s.Serving)
include serving

theorem exec_treadleRead_of_serving (h : readPair k s = (a, t)) : exec (.treadleRead tag k) s = .next (t.answered 28 tag a) :=
  exec_taken rfl (gate_run (c := .treadleRead) serving (by decide) rfl) h

theorem exec_treadleEnable_of_serving (h : enablePair k s = (a, t)) : exec (.treadleEnable tag k) s = .next (t.answered 29 tag a) :=
  exec_taken rfl (gate_run (c := .treadleEnable) serving (by decide) rfl) h

end treadle

/-- Settles O19: by the pair the number names, and the watch view formed again when the pair was FAULTY. -/
theorem treadleCommandsActOnOnePair : Obligations.TreadleCommandsActOnOnePair := by
  intro tag k p s serving
  refine ⟨fun out => ⟨exec_treadleRead_of_serving serving ?_, exec_treadleEnable_of_serving serving ?_⟩, fun names =>
    ⟨⟨treadleReport (s.treadles.pair p), exec_treadleRead_of_serving serving ?_, rfl, rfl, rfl, rfl, ?_⟩, fun off =>
      exec_treadleEnable_of_serving serving ?_, fun on => ?_⟩⟩
  · simp only [readPair, pairOf_none out]
    rfl
  · simp only [enablePair, pairOf_none out]
    rfl
  · simp only [readPair, pairOf_some names]
    rfl
  · simp [treadleReport, Function.comp_def]
  · simp only [enablePair, pairOf_some names, pairAt, off]
    rfl
  · have enables : enablePair k s = (.ok .none, updateWatch (setPair p (pairAt s p).restored s)) := by
      simp only [enablePair, pairOf_some names, pairAt, on, if_true]
    obtain ⟨table, peers, _, _, journal, serial, date, build, _⟩ := updateWatch_rest (setPair p (pairAt s p).restored s)
    refine ⟨_, exec_treadleEnable_of_serving serving enables, ?_, fun faulty => ?_, fun sound ok => ?_, ?_, peers, journal, serial, date,
      build⟩
    · rw [table.eq]
      rfl
    · have restored : (pairAt s p).restored = { s.treadles.pair p with voids := 0, state := .quiet } := by
        rw [Pair.restored, pairAt, if_pos faulty]
      have treadles : (updateWatch (setPair p (pairAt s p).restored s)).treadles = s.treadles.setPair p
          { s.treadles.pair p with voids := 0, state := .quiet } := by
        rw [table.eq, restored]
        rfl
      refine ⟨treadles, ?_, updateWatch (setPair p (pairAt s p).restored s), ?_, rfl⟩
      · exact (updateWatch_watch _).trans (by rw [table.eq]; rfl)
      · have start : setPair p (pairAt s p).restored s =
            { s with treadles := (updateWatch (setPair p (pairAt s p).restored s)).treadles } := by
          rw [treadles, restored]
          rfl
        exact (congrArg (fun w => Rewatched w _) start).mp (updateWatch_rewatched _)
    · have restored : (pairAt s p).restored = { s.treadles.pair p with voids := 0 } := by
        rw [Pair.restored, pairAt, if_neg sound]
      have kept : PeersOk (setPair p { s.treadles.pair p with voids := 0 } s) :=
        (setPair_lawful (x := { s.treadles.pair p with voids := 0 }) rfl Iff.rfl).peers ok
      rw [restored, updateWatch_same (kept.watch serving.running).symm]
      rfl
    · obtain ⟨_, _, _, _, _, _, _, whole⟩ := table
      rw [whole]
      rfl

end Sys2Proof.Machine
end

