-- ==== Sys2Proof/Proofs/Observations.lean ====
section
/-! SUPPORT. Observations of the treadle pairs (R49 to R52, R65, R66, R75): what they reach, and the end of TIMING. -/

namespace Sys2Proof.Machine

/-! ### What an observation reaches -/

theorem raiseWarning_eq (d : Direction) (s : State) : raiseWarning d s = { s with board := (raiseWarning d s).board } := by
  unfold raiseWarning
  split
  · exact compose_eq _
  · rfl

theorem clearWarning_eq (d : Direction) (s : State) : clearWarning d s = { s with board := (clearWarning d s).board } := by
  unfold clearWarning
  split
  · exact compose_eq _
  · rfl

/-- The table's own fields and the blocks that no change of a call reaches. -/
structure Observed (s t : State) : Prop where
  onTable : OnTable s t
  table : SameTable s t

theorem Observed.refl (s : State) : Observed s s := ⟨.refl s, .refl s⟩

theorem Observed.trans {s t u : State} (a : Observed s t) (b : Observed t u) : Observed s u :=
  ⟨a.onTable.trans b.onTable, a.table.trans b.table⟩

theorem Observed.ite {s t u : State} {c : Prop} [Decidable c] (a : Observed s t) (b : Observed s u) :
    Observed s (if c then t else u) := by
  split
  · exact a
  · exact b

theorem raiseWarning_observed (d : Direction) (s : State) : Observed s (raiseWarning d s) := by
  rw [raiseWarning_eq]
  exact ⟨⟨_, _, _, _, _, _, _, rfl⟩, .refl s⟩

theorem clearWarning_observed (d : Direction) (s : State) : Observed s (clearWarning d s) := by
  rw [clearWarning_eq]
  exact ⟨⟨_, _, _, _, _, _, _, rfl⟩, .refl s⟩

theorem warnIfPass_observed (c : Call) (d : Direction) (s : State) : Observed s (warnIfPass c d s) := by
  unfold warnIfPass
  split
  · exact raiseWarning_observed d s
  · exact .refl s

theorem commitCall_observed (i : Nat) (c : Call) (s : State) : Observed s (commitCall i c s) :=
  ⟨commitCall_onTable i c s, commitCall_sameTable i c s⟩

theorem takeApproach_observed (i : Nat) (c : Call) (s : State) : Observed s (takeApproach i c s) :=
  (commitCall_observed i c s).trans ⟨(evalCall_committed i _).onTable, evalCall_sameTable i _⟩

theorem approachObserved_observed (o : ApproachObs) (s : State) : Observed s (approachObserved o s).2 := by
  unfold approachObserved
  split
  · exact raiseWarning_observed _ s
  · split
    · split
      · exact (Observed.ite (takeApproach_observed _ _ s) (.refl s)).trans (warnIfPass_observed _ _ _)
      · exact .refl s
    · split
      · split
        · exact (takeApproach_observed _ _ s).trans (warnIfPass_observed _ _ _)
        · exact .refl s
      · exact raiseWarning_observed _ s

theorem departureObserved_observed (d : Direction) (second : Nat) (s : State) : Observed s (departureObserved d second s).2 := by
  unfold departureObserved
  split
  · exact clearWarning_observed _ s
  · split
    · split
      · exact (commitCall_observed _ _ s).trans (clearWarning_observed _ _)
      · exact clearWarning_observed _ s
    · exact clearWarning_observed _ s

theorem observe_observed (p : PairId) (c : PairConfig) (m : Measurement) (s : State) : Observed s (observe p c m s).2 := by
  unfold observe
  split
  · exact approachObserved_observed _ s
  · exact departureObserved_observed _ _ s

/-- With no call in the table an observation matches none and reaches the board alone. -/
theorem observe_empty (p : PairId) (c : PairConfig) (m : Measurement) {s : State} (empty : s.calls.calls = []) :
    ∃ b, observe p c m s = (none, { s with board := b }) := by
  unfold observe
  split
  · have warns : ∀ o, approachObserved o s = (none, raiseWarning o.direction s) := fun o => by
      simp [approachObserved, empty, candidates, nearest]
    rw [warns, raiseWarning_eq]
    exact ⟨_, rfl⟩
  · have clears : ∀ d n, departureObserved d n s = (none, clearWarning d s) := fun d n => by
      simp [departureObserved, empty, candidates, nearest]
    rw [clears, clearWarning_eq]
    exact ⟨_, rfl⟩

/-! ### The end of TIMING (R65, R66, R71, R73) -/

/-- The pair as it enters PASSAGE (R65, R66). -/
def Pair.passing (x : Pair) (m : Measurement) (tick : Tick) : Pair :=
  { x with state := .passage, record := some m, counter := m.count, quietTimer := some ⟨tick, 80⟩ }

/-- The state an observation of a pair leaves, its match kept for the passage's notice (R75). -/
def matchKept (p : PairId) (x : Pair) (m : Measurement) (s : State) : State :=
  keepMatch p (observe p x.config m (setPair p (x.passing m s.clock.tick) s)).1
    (observe p x.config m (setPair p (x.passing m s.clock.tick) s)).2

theorem enterPassage_eq (p : PairId) (x z : Pair) (m : Measurement) (s : State) : enterPassage p x m (setPair p z s) =
    if s.clock.grade = .unset then matchKept p x m s else hand (observationPayload p x.config m) (matchKept p x m s) := by
  rw [enterPassage, setPair_setPair]
  rfl

theorem matchKept_whole (p : PairId) (x : Pair) (m : Measurement) (s : State) : ∃ n c l y u k b o, matchKept p x m s = { s with
    treadles := s.treadles.setPair p { x.passing m s.clock.tick with matched := n }
    calls := c, line := l, store := y, sales := u, claims := k, board := b, notices := o } := by
  obtain ⟨c, l, y, u, k, b, o, whole⟩ := (observe_observed p x.config m (setPair p (x.passing m s.clock.tick) s)).onTable
  refine ⟨(observe p x.config m (setPair p (x.passing m s.clock.tick) s)).1, c, l, y, u, k, b, o, ?_⟩
  rw [matchKept, whole]
  simp only [keepMatch, setPair, pairAt, State.withTreadles, Treadles.setPair_setPair, Treadles.pair_setPair]

/-- With no call in the table nothing matches, and only the board is reached. -/
theorem matchKept_empty {p : PairId} {x : Pair} {m : Measurement} {s : State} (empty : s.calls.calls = []) :
    ∃ b, matchKept p x m s = { s with
      treadles := s.treadles.setPair p { x.passing m s.clock.tick with matched := none }, board := b } := by
  obtain ⟨b, e⟩ := observe_empty p x.config m (s := setPair p (x.passing m s.clock.tick) s) empty
  refine ⟨b, ?_⟩
  rw [matchKept, e]
  simp only [keepMatch, setPair, pairAt, State.withTreadles, Treadles.setPair_setPair, Treadles.pair_setPair]

/-- A pair enters PASSAGE, in a state where another value z of the pair may have been set before. -/
theorem enterPassage_enters (p : PairId) (x z : Pair) (m : Measurement) (s : State) :
    EntersPassage p x m s (enterPassage p x m (setPair p z s)) := by
  have observed := observe_observed p x.config m (setPair p (x.passing m s.clock.tick) s)
  have kept := observe_inner p x.config m (setPair p (x.passing m s.clock.tick) s)
  obtain ⟨n, c, l, y, u, k, b, o, all⟩ := matchKept_whole p x m s
  rw [enterPassage_eq]
  obtain ⟨t, ht⟩ : ∃ t, t = if s.clock.grade = .unset then matchKept p x m s else
    hand (observationPayload p x.config m) (matchKept p x m s) := ⟨_, rfl⟩
  rw [← ht]
  have onLine : OnLine (matchKept p x m s) t := ht ▸ .ite (.refl _) (hand_onLine _ _)
  have line : Inner (matchKept p x m s) t := ht ▸ .ite (fun _ => .refl _) (fun _ => hand_inner _ _)
  have calls : t.calls = (observe p x.config m (setPair p (x.passing m s.clock.tick) s)).2.calls := by
    obtain ⟨_, _, rfl⟩ := onLine
    rfl
  have same : t.treadles = (matchKept p x m s).treadles := line.treadles
  refine ⟨?_, ?_, ?_, fun empty => ?_⟩
  · rw [same, all]
    simp only [Treadles.pair_setPair]
    rfl
  · rw [all] at onLine
    obtain ⟨_, _, rfl⟩ := onLine
    rfl
  · have build : t.calls.buildCount = s.calls.buildCount := by
      rw [calls, observed.table]
      rfl
    have watch : t.calls.watch = s.calls.watch := by
      rw [calls, observed.table]
      rfl
    exact ⟨by rw [calls]; exact observed.table.date, build, watch, line.peers.trans kept.peers, line.muteFlag.trans kept.muteFlag,
      line.rxCount.trans kept.rxCount, line.journal.1.trans kept.journal.1, line.journal.2.trans kept.journal.2,
      line.mask.trans kept.mask⟩
  · obtain ⟨b, whole⟩ := matchKept_empty (p := p) (x := x) (m := m) empty
    have none : (t.treadles.pair p).matched = .none := by
      rw [same, whole]
      simp
    refine ⟨none, ?_, fun unsent => ?_, fun grade muted room => ?_⟩
    · rw [whole] at onLine
      obtain ⟨_, _, rfl⟩ := onLine
      rfl
    · have still : t = matchKept p x m s := by
        rw [ht]
        split
        · rfl
        · next graded => exact hand_of_muted (by rw [whole]; exact unsent.resolve_left graded)
      rw [still, whole]
    · have queued : t = (matchKept p x m s).withLine
          ((matchKept p x m s).line.push (matchKept p x m s).clock.tick (observationPayload p x.config m)) := by
        rw [ht, if_neg grade]
        refine hand_of_room (by rw [whole]; exact muted) (fun g _ => supersedes_of_key ?_ g.payload) (by rw [whole]; exact room)
        unfold observationPayload
        split <;> rfl
      rw [queued, whole, Line.push_eq]
      rfl

theorem countOf_eq (n : Nat) : countOf n = max 1 (min 65535 n) := by
  unfold countOf
  split <;> omega

theorem detectSecond_eq {c : Clock} {n : Nat} (unset : c.grade = .unset → n = 0) (set : c.grade ≠ .unset → n = c.second) :
    detectSecond c = n := by
  unfold detectSecond
  split
  · next grade => exact (unset grade).symm
  · next grade => exact (set grade).symm

/-- A fresh record that agrees with m field by field is m. -/
theorem measurement_eq {m : Measurement} {first : HeadId} {count speed axles detect : Nat} {slow : Bool}
    (inbound : m.inbound = true ↔ first = .one) (c : count = m.count) (v : speed = m.speed) (sl : slow = m.slow) (a : axles = m.axles)
    (d : detect = m.detect) (fresh : m.fresh = true) :
    { inbound := first = .one, count := count, speed := speed, slow := slow, axles := axles, detect := detect, fresh := true } = m := by
  have way : decide (first = .one) = m.inbound := by
    rw [Bool.eq_iff_iff, decide_eq_true_eq]
    exact inbound.symm
  rw [way, c, v, sl, a, d, ← fresh]

/-- Settles O17: by the record of a capture or an overflow, and what the observation reaches. -/
theorem captureOrOverflowGivesTheSpeed : Obligations.CaptureOrOverflowGivesTheSpeed := by
  constructor
  · rintro p h n s x m run enabled level rfl timing second count inbound axles fast slow unset set fresh
    have captured : exec (.pulse p h n) s = .next (capture p ((s.treadles.pair p).pulsed h) h n
        (setPair p ((s.treadles.pair p).pulsed h) s)) := by
      refine congrArg Host.Outcome.next ((headPulse_reaches level run enabled n).trans ?_)
      simp only [passagePulse, pairAt_setPair]
      rw [show ((s.treadles.pair p).pulsed h).state = .timing from timing]
      exact if_neg second
    have record : captureRecord ((s.treadles.pair p).pulsed h) h n (setPair p ((s.treadles.pair p).pulsed h) s) = m := by
      have speed : captureSpeed ((s.treadles.pair p).setHead h ⟨true, true⟩).config.spacing m.count s.setup.settings.minSpeed =
          (m.speed, m.slow) := by
        unfold captureSpeed measuredSpeed
        split
        · next low => exact (congrArg₂ Prod.mk (slow low).1 (slow low).2).symm
        · next high => exact (congrArg₂ Prod.mk (fast (Nat.not_lt.1 high)).1 (fast (Nat.not_lt.1 high)).2).symm
      rw [← countOf_eq] at count
      rw [captureRecord, ← count, addAxle_eq]
      refine measurement_eq inbound rfl (congrArg Prod.fst speed) (congrArg Prod.snd speed) axles.symm ?_ fresh
      exact detectSecond_eq unset set
    refine ⟨_, captured, ?_⟩
    rw [capture, record]
    have pair : ({ (s.treadles.pair p).pulsed h with
        secondSeen := true, axles := addAxle h ((s.treadles.pair p).pulsed h).axles } : Pair) =
        { (s.treadles.pair p).setHead h ⟨true, true⟩ with axles := m.axles, secondSeen := true } := by
      rw [axles, addAxle_eq]
      rfl
    rw [pair]
    exact enterPassage_enters _ _ _ _ _
  · rintro p s x m rfl
    refine ⟨fun other => congrArg Host.Outcome.next (if_neg other), fun timing count inbound axles speed slow unset set fresh =>
      ⟨_, congrArg Host.Outcome.next (if_pos timing), ?_⟩⟩
    have record : overflowRecord (pairAt s p) s = m :=
      measurement_eq inbound count.symm speed.symm slow.symm axles.symm (detectSecond_eq unset set) fresh
    rw [record]
    have enters := enterPassage_enters p (pairAt s p) (pairAt s p) m s
    rw [setPair_self] at enters
    exact enters

end Sys2Proof.Machine
end

