-- ==== Sys2Proof/Proofs/EmptiedQueues.lean ====
section
/-! SUPPORT. A station whose queue is emptied by muting (R92): what the owners of the emptied frames do then. -/

namespace Sys2Proof.Machine

/-! ### The notice line is driven (R179) -/

/-- The notices are as they were, or the notice line follows them. -/
def Driven (s t : State) : Prop := t.notices = s.notices ∨ t.notices.line = t.notices.lineWanted

theorem Driven.trans {s t u : State} (a : Driven s t) (b : Driven t u) : Driven s u := by
  rcases b with e | e
  · rw [Driven, e]
    exact a
  · exact .inr e

theorem OnLine.driven {s t : State} (h : OnLine s t) : Driven s t := by
  obtain ⟨_, _, rfl⟩ := h
  exact .inl rfl

theorem abortSale_driven (reason : Reason) (s : State) : Driven s (abortSale reason s) := by
  have fare : ∀ t : State, t.notices.line = t.notices.lineWanted → (activateFare t).notices.line = (activateFare t).notices.lineWanted :=
    fun t h => by
      unfold activateFare
      split
      · rfl
      · exact h
  unfold abortSale
  split
  · split
    · exact .inl rfl
    · rw [closeSale_eq]
      exact .inr (fare _ rfl)
  · exact .inl rfl

/-! ### The own claims -/

/-- Of each own key the list holds the claim it held, or none any more. -/
def OwnThinned (s t : State) : Prop :=
  ∀ q, findClaim t.claims (own s) q = findClaim s.claims (own s) q ∨ findClaim t.claims (own s) q = none

theorem OwnThinned.of_eq {s t : State} (h : t.claims = s.claims) : OwnThinned s t := fun q => .inl (by rw [h])

theorem removeClaim_thinned (q : Nat) (s : State) : OwnThinned s (removeClaim (own s) q s) := by
  intro n
  by_cases same : n = q
  · rw [same]
    exact .inr (findClaim_removed _ _ _)
  · left
    simp only [removeClaim, findClaim, State.withClaims_claims, List.find?_filter]
    congr 1
    funext c
    by_cases key : c.hasKey (own s) n = true
    · have other : c.hasKey (own s) q = false := by
        simp only [Claim.hasKey, Bool.and_eq_true, decide_eq_true_eq, Bool.and_eq_false_iff, decide_eq_false_iff_not] at key ⊢
        exact .inr fun e => same (key.2.symm.trans e)
      simp [key, other]
    · simp [key]

/-! ### A muted station with an empty queue -/

/-- What the owner of an emptied frame does: nothing of it reaches the line. -/
structure Emptied (s t : State) : Prop where
  inner : Inner s t
  onSale : OnSale s t
  line : t.line = s.line
  driven : Driven s t
  claims : OwnThinned s t

theorem Emptied.refl (s : State) : Emptied s s := ⟨.refl s, .refl s, rfl, .inl rfl, .of_eq rfl⟩

theorem Emptied.trans {s t u : State} (a : Emptied s t) (b : Emptied t u) : Emptied s u where
  inner := a.inner.trans b.inner
  onSale := a.onSale.trans b.onSale
  line := b.line.trans a.line
  driven := a.driven.trans b.driven
  claims q := by
    have same : own t = own s := congrArg (fun x => x.straps.station) a.inner.setup
    rcases b.claims q with e | e
    · rw [same] at e
      rw [e]
      exact a.claims q
    · rw [same] at e
      exact .inr e

theorem withdrawClaim_empty {s : State} (empty : s.line.queue = []) (q : Nat) : withdrawClaim q s = (false, s) := by
  simp [withdrawClaim, empty]

theorem dropQueued_emptied (q : Nat) (s : State) : Emptied s (dropQueued q s) := by
  have rest : (dropQueued q s).line = s.line ∧ Driven s (dropQueued q s) ∧ OwnThinned s (dropQueued q s) := by
    unfold dropQueued
    split
    · split
      · exact ⟨rfl, .inl rfl, removeClaim_thinned q s⟩
      · exact ⟨rfl, .inl rfl, .of_eq rfl⟩
    · exact ⟨rfl, .inl rfl, .of_eq rfl⟩
  exact ⟨dropQueued_inner q s, dropQueued_onSale q s, rest.1, rest.2.1, rest.2.2⟩

theorem Payload.claim_of_kind {p : Payload} (h : p.kind = .claim) : ∃ f, p = .claim f := by
  cases p with
  | claim f => exact ⟨f, rfl⟩
  | _ => cases h

section emptied
variable {s : State} (muted : s.line.muted = true)
include muted

theorem requestSegment_muted (n : Nat) (k : TableKind) (p : Pull) : requestSegment n k p s = abandonPull k s := by
  induction n generalizing p with
  | zero => rfl
  | succ n ih =>
    have none : handToLine (segReqOf k p) s = (.muted, s, none) := by
      rw [handToLine, Line.hand_of_muted muted]
      rfl
    simp only [requestSegment, none]
    rw [ih, ite_self]

theorem segReqLost_emptied (k : TableKind) (n : Nat) : Emptied s (segReqLost k n s) := by
  have line : (segReqLost k n s).line = s.line := by
    unfold segReqLost
    split
    · split
      · unfold requestExpired
        split
        · rfl
        · rw [requestSegment_muted muted, ite_self]
          rfl
      · rfl
    · rfl
  have onLine := segReqLost_onLine k n s
  exact ⟨segReqLost_inner k n s, onLine.onSale, line, onLine.driven, .of_eq onLine.claims⟩

variable (empty : s.line.queue = [])
include empty

theorem closeClaim_emptied (q : Nat) : (closeClaim false q s).line = s.line ∧ OwnThinned s (closeClaim false q s) := by
  unfold closeClaim
  split
  · exact ⟨rfl, .of_eq rfl⟩
  · split
    · next issued => cases issued
    · rw [hand_of_muted (s := removeClaim (own s) q s) muted]
      exact ⟨rfl, removeClaim_thinned q s⟩
    · rw [withdrawClaim_empty empty]
      exact ⟨rfl, removeClaim_thinned q s⟩
    · exact ⟨rfl, .of_eq rfl⟩

theorem abortSale_emptied (reason : Reason) : Emptied s (abortSale reason s) := by
  have rest : (abortSale reason s).line = s.line ∧ OwnThinned s (abortSale reason s) := by
    unfold abortSale
    split
    · next r _ =>
      split
      · exact ⟨rfl, .of_eq rfl⟩
      · obtain ⟨line, claims⟩ := closeSale_rest reason false { r with refund := r.credit, change := 0 } s
        have closed : (claimClosed false { r with refund := r.credit, change := 0 } s).line = s.line ∧
            OwnThinned s (claimClosed false { r with refund := r.credit, change := 0 } s) := by
          unfold claimClosed
          split
          · exact closeClaim_emptied muted empty _
          · exact ⟨rfl, .of_eq rfl⟩
        exact ⟨line.trans closed.1, fun q => by rw [claims]; exact closed.2 q⟩
    · exact ⟨rfl, .of_eq rfl⟩
  exact ⟨abortSale_inner reason s, abortSale_onSale reason s, rest.1, abortSale_driven reason s, rest.2⟩

theorem failClaim_emptied (reason : Reason) (q : Nat) : Emptied s (failClaim reason q s) := by
  have dropped := dropQueued_emptied q s
  unfold failClaim
  split
  · exact dropped.trans (abortSale_emptied (by rw [dropped.line]; exact muted) (by rw [dropped.line]; exact empty) reason)
  · exact dropped

theorem tellAbandoned_emptied (f : TxFrame) : Emptied s (tellAbandoned f s) := by
  unfold tellAbandoned
  split
  · exact failClaim_emptied muted empty _ _
  · exact segReqLost_emptied muted _ _
  · exact .refl s

/-- Of an emptied CLAIM the own queued claim goes. -/
theorem tellAbandoned_claim {f : TxFrame} (claim : f.payload.kind = .claim)
    (queued : ∀ c, findClaim s.claims (own s) f.seq = some c → c.state = .queued) :
    findClaim (tellAbandoned f s).claims (own s) f.seq = none := by
  have fails : tellAbandoned f s = failClaim .lineFault f.seq s := by
    obtain ⟨g, payload⟩ := Payload.claim_of_kind claim
    rw [tellAbandoned, payload]
  have dropped := dropQueued_emptied f.seq s
  have gone : findClaim (dropQueued f.seq s).claims (own s) f.seq = none := by
    rw [dropQueued_queued queued]
    exact findClaim_removed _ _ _
  rw [fails, failClaim]
  split
  · have after := (abortSale_emptied (by rw [dropped.line]; exact muted) (by rw [dropped.line]; exact empty) .lineFault).claims f.seq
    rw [show own (dropQueued f.seq s) = own s from congrArg (fun x => x.straps.station) dropped.inner.setup, gone] at after
    exact after.elim id id
  · exact gone

end emptied

end Sys2Proof.Machine
end

