-- ==== Sys2Proof/Proofs/PeerChanges.lean ====
section
/-! SUPPORT. Changes of a peer's entry (R93, R95, R96), and the station's own number heard on the line (R92). -/

namespace Sys2Proof.Machine

/-! ### A change of a peer's entry (R95) -/

/-- The state with a station's entry replaced. -/
def State.withPeer (s : State) (n : Nat) (p : Peer) : State :=
  { s with line := { s.line with peers := s.line.peers.map (fun x => if x.station = n then p else x) } }

/-- A change of the peer table that no contribution shows leaves the watch view, which is then not formed anew. -/
theorem updateWatch_still {s u : State} (ok : PeersOk s) (run : s.setup.running = true) {p new : Peer} (mem : p ∈ s.line.peers)
    (same : new.contribution = p.contribution) (treadles : u.treadles = s.treadles) (watch : u.calls.watch = s.calls.watch)
    (peers : u.line.peers = s.line.peers.map (fun x => if x.station = p.station then new else x)) : updateWatch u = u := by
  refine updateWatch_same ?_
  rw [treadles, watch, peers, ok.watch run]
  refine watchView_map fun q hq => ?_
  split
  · next here => rw [same, ok.same mem hq here]
  · rfl

section movePeer
variable {old new : Peer} {s : State}

theorem movePeer_left (present : old.state = .present) (left : new.state ≠ .present) : movePeer old new s =
    abandonPullsFrom old.station (updateWatch (raise (.peerChange old.station .present new.state) (s.withPeer old.station new))) := by
  have changed : ¬old.state = new.state := fun e => left (e.symm.trans present)
  simp only [movePeer, changed, if_false]
  rw [if_pos (by simp [present, left]), present]
  rfl

theorem movePeer_changed (changed : old.state ≠ new.state) (stays : old.state = .present → new.state = .present) :
    movePeer old new s = updateWatch (raise (.peerChange old.station old.state new.state) (s.withPeer old.station new)) := by
  have kept : ¬(old.state = .present && new.state ≠ .present) = true := by
    simpa using stays
  simp only [movePeer, if_neg changed, if_neg kept]
  rfl

theorem movePeer_same (same : old.state = new.state) : movePeer old new s = updateWatch (s.withPeer old.station new) := by
  have kept : ¬(old.state = .present && new.state ≠ .present) = true := by simp [same]
  simp only [movePeer, if_pos same, if_neg kept]
  rfl

end movePeer

/-! ### Pulls abandoned (R113) -/

theorem abandonPullFrom_eq (n : Nat) (k : TableKind) (s : State) :
    abandonPullFrom n k s = { s with store := (abandonPullFrom n k s).store } := by
  unfold abandonPullFrom
  split
  · split <;> rfl
  · rfl

theorem abandonPullFrom_none {n : Nat} {k : TableKind} {s : State} (h : ∀ y, (slotOf s k).pull = some y → y.source ≠ n) :
    abandonPullFrom n k s = s := by
  unfold abandonPullFrom
  split
  · next p pull => exact if_neg (h p pull)
  · rfl

theorem abandonPullFrom_gone (n : Nat) (k : TableKind) (s : State) (y : Pull)
    (pull : (slotOf (abandonPullFrom n k s) k).pull = some y) : y.source ≠ n := by
  unfold abandonPullFrom at pull
  split at pull
  · next p held =>
    split at pull
    · rw [abandonPull, slotOf_setSlot, if_pos rfl] at pull
      cases pull
    · next other => cases held.symm.trans pull; exact other
  · next none => cases none.symm.trans pull

theorem abandonPullFrom_other {n : Nat} {k j : TableKind} (h : j ≠ k) (s : State) :
    slotOf (abandonPullFrom n k s) j = slotOf s j := by
  unfold abandonPullFrom
  split
  · split
    · rw [abandonPull, slotOf_setSlot, if_neg h]
    · rfl
  · rfl

/-- Only the Edition Store changes. -/
theorem abandonPullsFrom_eq (n : Nat) (s : State) : abandonPullsFrom n s = { s with store := (abandonPullsFrom n s).store } := by
  rw [abandonPullsFrom, abandonPullFrom_eq n .fare, abandonPullFrom_eq n .timetable s]

theorem abandonPullsFrom_none {n : Nat} {s : State} (h : ∀ k y, (slotOf s k).pull = some y → y.source ≠ n) :
    abandonPullsFrom n s = s := by
  rw [abandonPullsFrom, abandonPullFrom_none (h .timetable), abandonPullFrom_none (h .fare)]

theorem abandonPullsFrom_gone (n : Nat) (s : State) (k : TableKind) (y : Pull)
    (pull : (slotOf (abandonPullsFrom n s) k).pull = some y) : y.source ≠ n := by
  cases k with
  | fare => exact abandonPullFrom_gone n .fare _ y pull
  | timetable =>
    rw [abandonPullsFrom, abandonPullFrom_other (by decide)] at pull
    exact abandonPullFrom_gone n .timetable s y pull

/-! ### A PRESENT peer lost (R93, R96) -/

/-- What follows when a PRESENT peer's entry leaves PRESENT. -/
structure PeerLost (s t : State) (p new : Peer) : Prop where
  peers : t.line.peers = (s.withPeer p.station new).line.peers
  watch : t.calls.watch = watchView s.treadles t.line.peers
  pulls : ∀ k y, (t.store.slot k).pull = some y → y.source ≠ p.station
  becomes : t = abandonPullsFrom p.station (updateWatch (raise (.peerChange p.station .present new.state) (s.withPeer p.station new)))
  rewatched : ∃ u, Rewatched (raise (.peerChange p.station .present new.state) (s.withPeer p.station new)) u ∧
    t = { u with store := t.store }
  onTable : OnTable s t
  kept : t.line.rxCount = s.line.rxCount ∧ t.line.muted = s.line.muted ∧ t.sales.journal = s.sales.journal ∧
    t.sales.serialCounter = s.sales.serialCounter ∧ t.calls.date = s.calls.date ∧ t.calls.buildCount = s.calls.buildCount ∧
    t.notices.mask = s.notices.mask

theorem movePeer_lost {p new : Peer} (present : p.state = .present) (left : new.state ≠ .present) (s : State) :
    PeerLost s (movePeer p new s) p new := by
  have ends := movePeer_left (s := s) present left
  obtain ⟨w, hw⟩ : ∃ w, w = raise (.peerChange p.station .present new.state) (s.withPeer p.station new) := ⟨_, rfl⟩
  have start : ∃ o, w = { s.withPeer p.station new with notices := o } := ⟨_, hw⟩
  obtain ⟨o, whole⟩ := start
  obtain ⟨table, peers, muted, rx, journal, serial, date, build, mask⟩ := updateWatch_rest w
  have noticeMask : w.notices.mask = s.notices.mask := by
    rw [hw]
    exact (Notices.add_rest _ _ _).1
  rw [← hw] at ends
  have only := abandonPullsFrom_eq p.station (updateWatch w)
  rw [← ends] at only
  have line : (movePeer p new s).line = (updateWatch w).line := by rw [only]
  have calls : (movePeer p new s).calls = (updateWatch w).calls := by rw [only]
  have sales : (movePeer p new s).sales = (updateWatch w).sales := by rw [only]
  have notices : (movePeer p new s).notices = (updateWatch w).notices := by rw [only]
  have entries : (movePeer p new s).line.peers = (s.withPeer p.station new).line.peers := by
    rw [line, peers, whole]
  refine ⟨entries, ?_, fun k y pull => ?_, by rw [← hw]; exact ends, ⟨updateWatch w, by rw [← hw]; exact updateWatch_rewatched w, only⟩,
    ?_, by rw [line, rx, whole]; rfl, by rw [line, muted, whole]; rfl, by rw [sales, journal, whole]; rfl,
    by rw [sales, serial, whole]; rfl, by rw [calls, date, whole]; rfl, by rw [calls, build, whole]; rfl,
    by rw [notices, mask, noticeMask]⟩
  · rw [calls, updateWatch_watch, line, peers, whole]
    rfl
  · rw [ends] at pull
    exact abandonPullsFrom_gone _ _ k y pull
  · rw [only]
    rw [whole] at table
    obtain ⟨_, _, _, _, _, _, _, e⟩ := table
    rw [whole, e]
    exact ⟨_, _, _, _, _, _, _, rfl⟩

/-! ### The own number heard (R92) -/

theorem raiseClash_eq (s : State) : raiseClash s = { s with notices := { s.notices with
    clash := ⟨true, (s.notices.clash.count + 1) % 256⟩, line := true } } := by
  simp [raiseClash, Notices.refresh, Notices.lineWanted, Latch.occur, State.withNotices]

/-- The muted state whose emptied frames are told of. -/
def State.muting (s : State) : State := { s with line := { s.line with queue := [], condition := .noFrame, muted := true } }

theorem tellEmptied_emptied (q : List TxFrame) {s : State} (muted : s.line.muted = true) (empty : s.line.queue = []) :
    Emptied s (tellEmptied q s) := by
  unfold tellEmptied
  induction q generalizing s with
  | nil => exact .refl s
  | cons f fs ih =>
    have told := tellAbandoned_emptied muted empty f
    exact told.trans (ih (by rw [told.line]; exact muted) (by rw [told.line]; exact empty))

/-- The owners of emptied CLAIM frames: the own queued claim goes, and the sale CLAIMING with it is closed. -/
theorem tellEmptied_claims {q : List TxFrame} {s : State} (muted : s.line.muted = true) (empty : s.line.queue = []) {f : TxFrame}
    (mem : f ∈ q) (claim : f.payload.kind = .claim) :
    (∀ c, findClaim s.claims (own s) f.seq = some c → c.state = .queued → findClaim (tellEmptied q s).claims (own s) f.seq = none) ∧
    ∀ r, s.sales.sale = some r → r.stage = .claiming → r.claim = some f.seq → (tellEmptied q s).sales.sale = none := by
  induction q generalizing s with
  | nil => cases mem
  | cons g gs ih =>
    have told := tellAbandoned_emptied muted empty g
    have muted' : (tellAbandoned g s).line.muted = true := by rw [told.line]; exact muted
    have empty' : (tellAbandoned g s).line.queue = [] := by rw [told.line]; exact empty
    have rest := tellEmptied_emptied gs muted' empty'
    have same : own (tellAbandoned g s) = own s := congrArg (fun x => x.straps.station) told.inner.setup
    have stays : ∀ n, findClaim (tellAbandoned g s).claims (own s) n = none →
        findClaim (tellEmptied gs (tellAbandoned g s)).claims (own s) n = none := fun n gone => by
      have after := rest.claims n
      rw [same, gone] at after
      exact after.elim id id
    have closes : (tellAbandoned g s).sales.sale = none → (tellEmptied gs (tellAbandoned g s)).sales.sale = none := fun none => by
      rcases rest.inner.sales with e | e
      · rw [e, none]
      · rw [e]
    rw [show tellEmptied (g :: gs) s = tellEmptied gs (tellAbandoned g s) from rfl]
    rcases List.mem_cons.1 mem with rfl | later
    · refine ⟨fun c found queued => stays _ (tellAbandoned_claim muted empty claim fun c' found' => ?_), fun r sale stage owned =>
        closes ?_⟩
      · rw [found, Option.some.injEq] at found'
        rw [← found']
        exact queued
      · obtain ⟨x, payload⟩ := Payload.claim_of_kind claim
        have dropped : (dropQueued f.seq s).sales = s.sales := by
          unfold dropQueued
          split
          · split <;> rfl
          · rfl
        have aborts : tellAbandoned f s = abortSale .lineFault (dropQueued f.seq s) := by
          rw [tellAbandoned, payload]
          exact failClaim_some (claimingWith_eq_some sale stage owned) _
        rw [aborts]
        exact abortSale_sale (by rw [dropped]; exact sale) (by simp [stage]) _
    · obtain ⟨gone, closed⟩ := ih muted' empty' later
      rw [same] at gone
      refine ⟨fun c found queued => ?_, fun r sale stage owned => ?_⟩
      · rcases told.claims f.seq with e | e
        · exact gone c (e.trans found) queued
        · exact stays _ e
      · rcases told.inner.sales with e | e
        · exact closed r (by rw [e]; exact sale) stage owned
        · exact closes (by rw [e])

theorem clash_muted {s : State} (h : s.line.muted = true) : clash s = raiseClash s := if_pos h

theorem clash_mutes {s : State} (h : s.line.muted = false) : clash s = tellEmptied s.line.queue (raiseClash s).muting := by
  have not : ¬(raiseClash s).line.muted = true := by rw [raiseClash_eq]; simp [h]
  simp only [clash, if_neg not]
  rfl

theorem receive_own {i : Instr} {h : FrameHead} (frame : receivedFrame i = some (h, true)) {s : State}
    (run : s.setup.running = true) (head : h.wellFormed = true) (mine : h.origin = own s) :
    exec i s = .next (clash (countFrame s)) := by
  rcases receivedFrame_cases frame with ⟨f, rfl, fields⟩ | ⟨handOn, path⟩
  · refine congrArg Host.Outcome.next ((if_pos ?_).trans (if_pos mine))
    simp [run, head, ← fields]
  · rw [path, receive_taken run head]
    exact congrArg Host.Outcome.next (if_pos mine)

/-- A wrong halt code makes the sender FOREIGN (R93). -/
theorem receiveAnnounce_foreign {h : FrameHead} {f : AnnounceFields} {s : State} {p : Peer} (run : s.setup.running = true)
    (head : h.wellFormed = true) (fields : f.wellFormed = true) (ok : PeersOk s) (mem : p ∈ s.line.peers)
    (station : p.station = h.origin) (wrong : f.haltCode ≠ s.setup.settings.haltCode) :
    receiveAnnounce h f s = movePeer p (p.foreign s.clock.tick) (countFrame s) := by
  have counted : PeersOk (countFrame s) := ⟨ok.entries, ok.watch⟩
  have found : findPeer (countFrame s) h.origin = some p := station ▸ counted.findPeer mem
  rw [receiveAnnounce, if_pos (by simp [run, head, fields]), takeAnnounce, if_neg (station ▸ counted.other mem)]
  simp only [found]
  exact if_pos wrong

/-- Settles O27: by the clash of numbers, and the entry that a wrong halt code leaves. -/
theorem clashMutesAndWrongHaltCodeMakesForeign : Obligations.ClashMutesAndWrongHaltCodeMakesForeign := by
  constructor
  · intro i h s frame run head mine
    refine ⟨clash (countFrame s), receive_own frame run head mine, ?_⟩
    cases muted : s.line.muted with
    | true =>
      rw [clash_muted (s := countFrame s) muted, raiseClash_eq]
      exact ⟨rfl, rfl, rfl, muted, rfl, fun _ => rfl, fun e => absurd e (by decide), rfl, rfl, rfl⟩
    | false =>
      rw [clash_mutes (s := countFrame s) muted, raiseClash_eq, show (countFrame s).line.queue = s.line.queue from rfl]
      obtain ⟨v, hv⟩ : ∃ v, v = State.muting { countFrame s with notices := { s.notices with
        clash := ⟨true, (s.notices.clash.count + 1) % 256⟩, line := true } } := ⟨_, rfl⟩
      have told := tellEmptied_emptied s.line.queue (s := v) (by rw [hv]; rfl) (by rw [hv]; rfl)
      have claims := fun f => tellEmptied_claims (q := s.line.queue) (s := v) (by rw [hv]; rfl) (by rw [hv]; rfl) (f := f)
      have mineV : own v = s.setup.straps.station := by rw [hv]; rfl
      have claimsV : v.claims = s.claims := by rw [hv]; rfl
      have salesV : v.sales = s.sales := by rw [hv]; rfl
      rw [mineV, claimsV, salesV] at claims
      have latch : (tellEmptied s.line.queue v).notices.clash = ⟨true, (s.notices.clash.count + 1) % 256⟩ := by
        rw [told.inner.clash, hv]
        rfl
      have driven : (tellEmptied s.line.queue v).notices.line = true := by
        rcases told.driven with e | e
        · rw [e, hv]
          rfl
        · rw [e, Notices.lineWanted, latch]
          simp
      refine hv ▸ ⟨latch, driven, ?_, ?_, ?_, fun e => absurd e (by decide), fun _ => ⟨?_, ?_, fun f mem claim c found queued x hx key => ?_,
        fun f mem claim r sale stage owned => (claims f mem claim).2 r sale stage owned, fun quiet => ?_⟩, ?_, ?_, ?_⟩
      · rw [told.line, hv]
        rfl
      · rw [told.line, hv]
        rfl
      · rw [told.line, hv]
        rfl
      · rw [told.line, hv]
        rfl
      · rw [told.line, hv]
        rfl
      · have gone := List.find?_eq_none.1 ((claims f mem claim).1 c found queued) x hx
        simp [Claim.hasKey, key] at gone
      · have nothing : tellEmptied s.line.queue v = v := by
          refine List.foldlRecOn _ _ (motive := fun t : State => t = v) rfl ?_
          rintro t rfl f mem
          exact tellAbandoned_other (quiet f mem).1 (quiet f mem).2 t
        rw [nothing, hv]
        rfl
      · obtain ⟨_, _, _, _, _, e⟩ := told.onSale
        rw [e, hv]
        rfl
      · rw [told.inner.journal.1, hv]
        rfl
      · rw [told.inner.journal.2, hv]
        rfl
  · rintro ⟨_, seq⟩ f s p run head fields ok mem rfl wrong
    have path : exec (.announceReceived ⟨p.station, seq⟩ f) s = .next (movePeer p (p.foreign s.clock.tick) (countFrame s)) :=
      congrArg Host.Outcome.next (receiveAnnounce_foreign run head fields ok mem rfl wrong)
    have counted : PeersOk (countFrame s) := ⟨ok.entries, ok.watch⟩
    have away : (p.foreign s.clock.tick).state ≠ .present := by simp [Peer.foreign]
    refine ⟨_, path, ?_⟩
    by_cases present : p.state = .present
    · have lost := movePeer_lost (new := p.foreign s.clock.tick) present away (countFrame s)
      obtain ⟨rx, _, journal, serial, date, build, mask⟩ := lost.kept
      have entry : State.withPeer (countFrame s) p.station (p.foreign s.clock.tick) = { s with line := { s.line with
          peers := (movePeer p (p.foreign s.clock.tick) (countFrame s)).line.peers
          rxCount := (movePeer p (p.foreign s.clock.tick) (countFrame s)).line.rxCount } } := by
        rw [lost.peers, rx]
        rfl
      have rewatched := lost.rewatched
      have ends := lost.becomes
      rw [entry] at rewatched ends
      refine ⟨lost.peers, rx, lost.watch, fun _ k x pull => lost.pulls k x pull,
        fun e => absurd (present.symm.trans e) (by decide), fun _ e => absurd present e, fun _ => ⟨ends, rewatched⟩, ?_, date, build,
        journal, serial, mask⟩
      obtain ⟨_, _, _, _, _, _, _, e⟩ := lost.onTable
      rw [e]
      rfl
    · have contribution : (p.foreign s.clock.tick).contribution = p.contribution := by
        simp [Peer.contribution, Peer.foreign, present]
      have still : ∀ u : State, u.treadles = s.treadles → u.calls.watch = s.calls.watch →
          u.line.peers = s.line.peers.map (fun x => if x.station = p.station then p.foreign s.clock.tick else x) → updateWatch u = u :=
        fun u => updateWatch_still ok run mem contribution
      have watch : s.calls.watch =
          watchView s.treadles (s.line.peers.map (fun x => if x.station = p.station then p.foreign s.clock.tick else x)) := by
        have formed := updateWatch_watch ((countFrame s).withPeer p.station (p.foreign s.clock.tick))
        rw [still ((countFrame s).withPeer p.station (p.foreign s.clock.tick)) rfl rfl rfl] at formed
        exact formed
      by_cases foreign : p.state = .foreign
      · rw [movePeer_same (new := p.foreign s.clock.tick) (by rw [foreign]; rfl),
          still ((countFrame s).withPeer p.station (p.foreign s.clock.tick)) rfl rfl rfl]
        exact ⟨rfl, rfl, watch, fun e => absurd e present, fun _ => rfl, fun e => absurd foreign e, fun e => absurd e present, rfl, rfl,
          rfl, rfl, rfl, rfl⟩
      · rw [movePeer_changed (new := p.foreign s.clock.tick) foreign fun e => absurd e present,
          still (raise _ ((countFrame s).withPeer p.station (p.foreign s.clock.tick))) rfl rfl rfl]
        exact ⟨rfl, rfl, watch, fun e => absurd e present, fun e => absurd e foreign, fun _ _ => rfl, fun e => absurd e present, rfl, rfl,
          rfl, rfl, rfl, (Notices.add_rest _ _ _).1⟩

end Sys2Proof.Machine
end

