-- ==== Sys2Proof/Proofs/LineTimers.lean ====
section
/-! SUPPORT. The timers of the line (R56, R96, R98), and a SILENT or UNKNOWN peer heard again (R95). -/

namespace Sys2Proof.Machine

/-! ### Frames handed over one after another -/

theorem handAll_muted (ps : List Payload) {s : State} (m : s.line.muted = true) : handAll ps s = s := by
  refine List.foldlRecOn _ _ (motive := fun t : State => t = s) rfl ?_
  rintro t rfl p _
  exact hand_of_muted m

/-- Frames that find room, none of them superseding another, stand at the tail in their order. -/
theorem handAll_room {ps : List Payload} {s : State} (m : s.line.muted = false) (seq : s.line.seqCounter ≤ 4095)
    (room : s.line.queue.length + ps.length ≤ 12) (new : ∀ p ∈ ps, ∀ g ∈ s.line.queue, p.supersedes g.payload = false)
    (apart : ps.Pairwise (fun a b => b.supersedes a = false)) : handAll ps s = { s with line := { s.line with
      queue := s.line.queue ++ ps.zipIdx.map (fun p => ⟨(s.line.seqCounter + p.2) % 4096, 0, p.1⟩)
      seqCounter := (s.line.seqCounter + ps.length) % 4096
      condition := if s.line.queue = [] ∧ ps ≠ [] then .waiting s.clock.tick else s.line.condition } } := by
  induction ps generalizing s with
  | nil =>
    have still : s.line.seqCounter % 4096 = s.line.seqCounter := by omega
    simp [handAll, still]
  | cons p ps ih =>
    rw [List.pairwise_cons] at apart
    have first := hand_of_room m (new p List.mem_cons_self) (by rw [List.length_cons] at room; omega)
    have start : handAll (p :: ps) s = handAll ps (s.withLine (s.line.push s.clock.tick p)) := by
      rw [← first]
      rfl
    rw [List.length_cons] at room
    rw [start, Line.push_eq, ih (s := s.withLine _) (by exact m) (Nat.le_of_lt_succ (Nat.mod_lt _ (by decide)))
      (by rw [State.withLine_line, List.length_append, List.length_singleton]; omega) ?_ apart.2]
    · have heads : s.line.seqCounter % 4096 = s.line.seqCounter := Nat.mod_eq_of_lt (by omega)
      have seqs : ∀ n, ((s.line.seqCounter + 1) % 4096 + n) % 4096 = (s.line.seqCounter + (n + 1)) % 4096 := fun n => by omega
      simp only [List.zipIdx_cons, List.zipIdx_succ, List.map_cons, List.map_map, Function.comp_def, seqs, heads, Nat.add_zero,
        State.withLine, List.append_assoc, List.singleton_append, List.append_eq_nil_iff, List.length_cons]
      simp
    · intro q hq g hg
      rcases List.mem_append.1 hg with old | last
      · exact new q (List.mem_cons_of_mem _ hq) g old
      · rw [List.mem_singleton.1 last]
        exact apart.1 q hq

/-! ### Own reports (R56, R57) -/

theorem CallState.live_iff (a : CallState) : a.live = true ↔ a ≠ .departed ∧ a ≠ .lapsed := by cases a <;> decide

/-- The own reports of live calls, in call index order. -/
theorem ownReportPayloads_eq (s : State) : ownReportPayloads s = s.calls.calls.filterMap (fun c => c.report.bind (fun r =>
    if c.state ≠ .departed ∧ c.state ≠ .lapsed ∧ r.origin = s.setup.straps.station then
      some (.running ⟨c.service, s.calls.date, r.point, r.lateness, r.observed, r.cancelled⟩)
    else none)) := by
  rw [ownReportPayloads]
  congr 1
  funext c
  unfold ownReport
  cases report : c.report with
  | none => rfl
  | some r =>
    have same : (c.state.live && r.origin = own s) = true ↔
        c.state ≠ .departed ∧ c.state ≠ .lapsed ∧ r.origin = s.setup.straps.station := by
      rw [Bool.and_eq_true, CallState.live_iff, decide_eq_true_eq, and_assoc]
      rfl
    simp only [Option.bind_some, same]
    split <;> rfl

/-- Each is a RUNNING of a call of the table. -/
theorem mem_ownReportPayloads {s : State} {p : Payload} (h : p ∈ ownReportPayloads s) :
    ∃ c ∈ s.calls.calls, p.key = some (some c.service) := by
  obtain ⟨c, mem, made⟩ := List.mem_filterMap.1 h
  refine ⟨c, mem, ?_⟩
  obtain ⟨r, _, rfl⟩ := Option.map_eq_some_iff.1 made
  rfl

theorem ownReportPayloads_apart {s : State} (distinct : s.calls.calls.Pairwise (fun a b => a.service ≠ b.service)) :
    (ownReportPayloads s).Pairwise (fun a b => b.supersedes a = false) := by
  refine List.Pairwise.filterMap _ (fun a b apart p hp q hq => ?_) distinct
  obtain ⟨_, _, rfl⟩ := Option.map_eq_some_iff.1 hp
  obtain ⟨_, _, rfl⟩ := Option.map_eq_some_iff.1 hq
  exact (Payload.supersedes_false _ _).2 fun k => apart (Option.some.inj (Option.some.inj k.1)).symm

theorem supersedes_kind {p q : Payload} (key : ∃ n, p.key = some (some n)) (kind : q.kind ≠ .running) : p.supersedes q = false := by
  obtain ⟨n, key⟩ := key
  refine (Payload.supersedes_false p q).2 fun k => kind ?_
  rw [key] at k
  cases q with
  | running f => rfl
  | _ => cases k.1

theorem supersedes_announce {f : AnnounceFields} {q : Payload} (kind : q.kind ≠ .announce) :
    (Payload.announce f).supersedes q = false := by
  cases q with
  | announce g => exact absurd rfl kind
  | _ => rfl

/-! ### A peer heard again (R95) -/

/-- A frame other than an ANNOUNCE from an UNKNOWN or SILENT peer acts as from the PRESENT peer it has become. -/
theorem receive_revives {h : FrameHead} {s : State} {p : Peer} (run : s.setup.running = true) (head : h.wellFormed = true)
    (ok : PeersOk s) (mem : p ∈ s.line.peers) (station : p.station = h.origin) (gone : p.state = .unknown ∨ p.state = .silent)
    (handOn : State → State) : receive h true handOn s = handOn (updateWatch (raise (.peerChange h.origin p.state .present)
      ((countFrame s).withPeer h.origin (p.accepted s.clock.tick)))) := by
  have counted : PeersOk (countFrame s) := ⟨ok.entries, ok.watch⟩
  have found : findPeer (countFrame s) h.origin = some p := station ▸ counted.findPeer mem
  have here : p.state ≠ .foreign ∧ p.state ≠ .present := by
    rcases gone with e | e <;> rw [e] <;> decide
  rw [receive_taken run head, takeFrame_of_peer (station ▸ counted.other mem) found, if_neg here.1,
    movePeer_changed (new := p.accepted (countFrame s).clock.tick) here.2 fun e => absurd e here.2, station]
  rfl

/-! ### Timers -/

theorem peerSilent_of_mem {s : State} {p : Peer} (ok : PeersOk s) (mem : p ∈ s.line.peers) : peerSilent p.station s =
    if p.state = .present && timerDue p.silence s.clock.tick then movePeer p p.silenced s else s := by
  simp only [peerSilent, ok.findPeer mem]

theorem startAnnounceTimer_seeded {s : State} {r : Rng} (rng : s.line.rng = some r) : startAnnounceTimer s = { s with line := { s.line with
    announceTimer := some ⟨s.clock.tick, 100 + Config.rngValue r.station r.seedTick r.drawn % 11⟩
    rng := some { r with drawn := r.drawn + 1 } } } := by
  simp only [startAnnounceTimer, draw_seeded rng]
  rfl

/-- Settles O31: each timer acts when due, by what a hand-over, a lost peer and a new ANNOUNCE do. -/
theorem lineTimersActWhenDue : Obligations.LineTimersActWhenDue := by
  constructor
  · rintro s t frames rfl rfl
    refine ⟨fun early => congrArg Host.Outcome.next (if_neg (by simp [timerDue_false early])), fun x timer due => ?_⟩
    have resends : exec .reSendTimerExpiry s =
        .next (handAll (ownReportPayloads s) { s with calls := { s.calls with resend := some ⟨s.clock.tick, 600⟩ } }) :=
      congrArg Host.Outcome.next (if_pos (timerDue_true timer due))
    rw [resends, ← ownReportPayloads_eq]
    refine ⟨fun muted => congrArg _ (handAll_muted _ muted), fun muted seq room old distinct => congrArg _ ?_⟩
    refine handAll_room (s := { s with calls := { s.calls with resend := some ⟨s.clock.tick, 600⟩ } }) muted seq room
      (fun p hp g hg => ?_) (ownReportPayloads_apart distinct)
    obtain ⟨c, _, key⟩ := mem_ownReportPayloads hp
    exact supersedes_kind ⟨_, key⟩ (old g hg)
  · rintro n s p ok mem rfl
    have silent : exec (.peerSilenceTimerExpiry p.station) s = .next (if p.state = .present && timerDue p.silence s.clock.tick then
        movePeer p p.silenced s else s) := congrArg Host.Outcome.next (peerSilent_of_mem ok mem)
    refine ⟨fun idle => silent.trans (congrArg _ (if_neg fun due => ?_)), fun x present timer due run => ?_, fun early =>
      congrArg Host.Outcome.next (if_neg (by simp [timerDue_false early])), fun x r timer due rng => ?_⟩
    · simp only [Bool.and_eq_true, decide_eq_true_eq] at due
      rcases idle with other | early
      · exact other due.1
      · exact absurd ((timerDue_false early).symm.trans due.2) (by decide)
    · have falls : exec (.peerSilenceTimerExpiry p.station) s = .next (movePeer p p.silenced s) :=
        silent.trans (congrArg _ (if_pos (by simp [present, timerDue_true timer due])))
      have lost := movePeer_lost (new := p.silenced) present (by simp [Peer.silenced]) s
      obtain ⟨rx, muted, journal, serial, date, _, mask⟩ := lost.kept
      have entry : State.withPeer s p.station p.silenced = { s with line := { s.line with
          peers := (movePeer p p.silenced s).line.peers } } := by
        rw [lost.peers]
        rfl
      have rewatched := lost.rewatched
      have ends := lost.becomes
      rw [entry] at rewatched ends
      refine ⟨_, falls, lost.peers, lost.watch, lost.pulls, rewatched, fun grade => ?_, fun bare unpulled => ?_, lost.onTable.eq, rx,
        muted, journal, serial, date, mask⟩
      · obtain ⟨u, formed, whole⟩ := rewatched
        have recorded := formed.recorded grade
        have watch : (movePeer p p.silenced s).calls.watch = watchView s.treadles (movePeer p p.silenced s).line.peers := lost.watch
        rw [watch]
        rw [recorded] at whole
        exact whole
      · have contribution : p.silenced.contribution = p.contribution := by
          simp [Peer.contribution, Peer.silenced, present, bare, noCoverage]
        have still : updateWatch (raise (.peerChange p.station .present .silent) (s.withPeer p.station p.silenced)) =
            raise (.peerChange p.station .present .silent) (s.withPeer p.station p.silenced) :=
          updateWatch_still ok run mem contribution rfl rfl rfl
        rw [← entry] at ends ⊢
        rw [ends, show p.silenced.state = .silent from rfl, still]
        exact abandonPullsFrom_none unpulled
    · have sends : exec .announceTimerExpiry s = .next (announce s) := congrArg Host.Outcome.next (if_pos (timerDue_true timer due))
      rw [sends]
      refine ⟨Config.rngValue r.station r.seedTick r.drawn % 11, Nat.le_of_lt_succ (Nat.mod_lt _ (by decide)), fun muted => ?_, fun muted room unannounced =>
        ⟨announceFields s, ?_⟩⟩
      · rw [announce, hand_of_muted muted, startAnnounceTimer_seeded rng]
      · rw [announce, hand_of_room muted (fun g hg => supersedes_announce (unannounced g hg)) room, Line.push_eq,
          State.withLine, startAnnounceTimer_seeded (r := r) (by exact rng)]

end Sys2Proof.Machine
end

