-- ==== Sys2Proof/Proofs/AcceptedAnnounces.lean ====
section
/-! SUPPORT. An accepted ANNOUNCE (R7, R94, R95, R99, R110): the peer's entry, the clock, the offers, the own state sent
again. -/

namespace Sys2Proof.Machine

/-! ### The clock (R7) -/

/-- When the station adopts a peer's clock. -/
theorem adopts_iff (c : Clock) (f : AnnounceFields) : adopts c f = true ↔ (c.grade = .unset ∧ f.grade ≠ .unset) ∨
    ((c.grade = .adopted ∨ c.grade = .hostAged) ∧ f.grade = .host ∧
      (c.date ≠ f.date ∨ c.second * 10 + c.tenths + 20 ≤ f.second * 10 + f.tenths ∨
        f.second * 10 + f.tenths + 20 ≤ c.second * 10 + c.tenths)) := by
  have instants : instantsDiffer c f = true ↔ c.date ≠ f.date ∨ c.second * 10 + c.tenths + 20 ≤ f.second * 10 + f.tenths ∨
      f.second * 10 + f.tenths + 20 ≤ c.second * 10 + c.tenths := by
    have apart : 20 ≤ natDist c.tenthsOfDay (f.second * 10 + f.tenths) ↔ c.second * 10 + c.tenths + 20 ≤ f.second * 10 + f.tenths ∨
        f.second * 10 + f.tenths + 20 ≤ c.second * 10 + c.tenths := by
      rw [natDist, Clock.tenthsOfDay]
      omega
    rw [instantsDiffer, Bool.or_eq_true, decide_eq_true_eq, decide_eq_true_eq, apart]
  rw [← instants]
  unfold adopts
  cases c.grade <;> simp

theorem considerAdoption_kept {f : AnnounceFields} {s : State} (h : ¬adopts s.clock f = true) (station : Nat) :
    considerAdoption station f s = s := if_neg h

/-- A clock the host set is not replaced. -/
theorem adopts_host {c : Clock} (h : c.grade = .host) (f : AnnounceFields) : ¬adopts c f = true := by simp [adopts, h]

/-! ### Accepted by the receive path (R91, R95) -/

theorem receiveAnnounce_accepted {h : FrameHead} {f : AnnounceFields} {s : State} {p : Peer} (run : s.setup.running = true)
    (head : h.wellFormed = true) (fields : f.wellFormed = true) (ok : PeersOk s) (mem : p ∈ s.line.peers)
    (station : p.station = h.origin) (right : f.haltCode = s.setup.settings.haltCode) : receiveAnnounce h f s =
      announceHandOn h.origin f (movePeer p ((p.announced f).accepted s.clock.tick) (countFrame s)) := by
  have counted : PeersOk (countFrame s) := ⟨ok.entries, ok.watch⟩
  have found : findPeer (countFrame s) h.origin = some p := station ▸ counted.findPeer mem
  rw [receiveAnnounce, if_pos (by simp [run, head, fields]), takeAnnounce, if_neg (station ▸ counted.other mem)]
  simp only [found]
  exact if_neg (not_not_intro right)

/-- A peer whose entry becomes, or stays, PRESENT. -/
theorem movePeer_arrives {p new : Peer} (present : new.state = .present) (s : State) : movePeer p new s =
    updateWatch (if p.state = .present then s.withPeer p.station new else
      raise (.peerChange p.station p.state .present) (s.withPeer p.station new)) := by
  split
  · next same => exact movePeer_same (same.trans present.symm)
  · next other => rw [movePeer_changed (fun e => other (e.trans present)) fun _ => present, present]

/-! ### Offers (R110) -/

/-- What a kind's slot becomes when an edition is offered. -/
def OfferTaken (tick : Tick) (e : Nat) (x y : Slot) : Prop :=
  (e = 0 ∨ e = x.refused ∨ (x.active ≠ none ∧ e ≤ x.activeEdition) → y = x) ∧
  (e ≠ 0 → e ≠ x.refused → x.active = none ∨ x.activeEdition < e →
    (x.loader = .empty → x.pullWait = none → ∃ d, d ≤ 20 ∧ y = { x with pullWait := some ⟨tick, d⟩ }) ∧
    (x.loader = .empty → x.pullWait ≠ none → y = x) ∧ (x.loader = .hostFill ∨ x.loader = .peerFill → y = x) ∧
    (x.loader = .staged → e ≤ editionOf x.staging → y = x) ∧
    (x.loader = .staged → editionOf x.staging < e → ∃ d, d ≤ 20 ∧ y =
      { x with loader := .empty, staging := [], declared := none, offset := 0, origin := none, pull := none
               pullWait := some ⟨tick, d⟩ }))

/-- The state after `n` more draws, with one slot replaced. -/
def State.offered (s : State) (r : Rng) (n : Nat) (k : TableKind) (y : Slot) : State :=
  { s with line := { s.line with rng := some { r with drawn := r.drawn + n } }, store := s.store.setSlot k y }

theorem startPullWait_seeded {s : State} {r : Rng} (rng : s.line.rng = some r) (k : TableKind) : startPullWait k s =
    s.offered r 1 k { s.store.slot k with
      pullWait := some ⟨s.clock.tick, Config.rngValue r.station r.seedTick r.drawn % 21⟩ } := by
  simp only [startPullWait, draw_seeded rng]
  rfl

theorem setSlot_slot (t : Store) (k : TableKind) : t.setSlot k (t.slot k) = t := by cases k <;> rfl

theorem State.offered_none {s : State} {r : Rng} (rng : s.line.rng = some r) (k : TableKind) :
    s.offered r 0 k (s.store.slot k) = s := by
  rw [State.offered, setSlot_slot, show ({ r with drawn := r.drawn + 0 } : Rng) = r from rfl, ← rng]

theorem considerOffer_zero (k : TableKind) (s : State) : considerOffer k 0 s = s := by
  simp only [considerOffer]
  exact if_neg (by simp [Slot.offers])

theorem considerOffer_offered {s : State} {r : Rng} (rng : s.line.rng = some r) (k : TableKind) (e : Nat) : ∃ n y,
    considerOffer k e s = s.offered r n k y ∧ OfferTaken s.clock.tick e (s.store.slot k) y := by
  obtain ⟨x, hx⟩ : ∃ x, x = s.store.slot k := ⟨_, rfl⟩
  have slot : slotOf s k = x := hx.symm
  have stays : ∀ t, t = s → (∃ n y, t = s.offered r n k y ∧ y = x) := fun t e =>
    ⟨0, x, e.trans (hx ▸ (State.offered_none rng k).symm), rfl⟩
  have small : ∀ d, d % 21 ≤ 20 := fun d => Nat.le_of_lt_succ (Nat.mod_lt d (by decide))
  by_cases offers : x.offers e = true
  · have ⟨pos, unrefused, above⟩ := (Slot.offers_iff x e).1 offers
    have path : considerOffer k e s = match x.loader with
        | .empty => if x.pullWait.isNone then startPullWait k s else s
        | .staged => if editionOf x.staging < e then startPullWait k (setSlot k x.cleared s) else s
        | .hostFill => s
        | .peerFill => s := by
      simp only [considerOffer, slot]
      exact if_pos offers
    have offer : ∀ y, ((x.loader = .empty → x.pullWait = none → ∃ d, d ≤ 20 ∧ y = { x with pullWait := some ⟨s.clock.tick, d⟩ }) ∧
        (x.loader = .empty → x.pullWait ≠ none → y = x) ∧ (x.loader = .hostFill ∨ x.loader = .peerFill → y = x) ∧
        (x.loader = .staged → e ≤ editionOf x.staging → y = x) ∧
        (x.loader = .staged → editionOf x.staging < e → ∃ d, d ≤ 20 ∧ y = { x with
          loader := .empty, staging := [], declared := none, offset := 0, origin := none, pull := none
          pullWait := some ⟨s.clock.tick, d⟩ })) → OfferTaken s.clock.tick e x y := fun y clauses => by
      refine ⟨fun bad => ?_, fun _ _ _ => clauses⟩
      rcases bad with zero | same | ⟨active, low⟩
      · exact absurd zero pos
      · exact absurd same unrefused
      · exact absurd low (Nat.not_le.2 (above.resolve_left active))
    rw [path, ← hx]
    cases loader : x.loader with
    | empty =>
      by_cases waits : x.pullWait = none
      · have starts := startPullWait_seeded rng k
        rw [← hx] at starts
        refine ⟨1, _, (if_pos (by simp [waits])).trans starts, offer _ ?_⟩
        simp [loader, waits, small]
      · obtain ⟨n, y, e, same⟩ := stays (if x.pullWait.isNone then startPullWait k s else s) (if_neg (by simpa using waits))
        refine ⟨n, y, e, offer y ?_⟩
        simp [loader, waits, same]
    | staged =>
      by_cases higher : editionOf x.staging < e
      · have starts := startPullWait_seeded (s := setSlot k x.cleared s) rng k
        refine ⟨1, { x.cleared with
          pullWait := some ⟨s.clock.tick, Config.rngValue r.station r.seedTick r.drawn % 21⟩ }, (if_pos higher).trans (starts.trans ?_),
          offer _ ?_⟩
        · simp only [State.offered, setSlot, State.withStore_store, slot_setSlot, setSlot_setSlot]
          rfl
        · simp [loader, higher, Nat.not_le.2 higher, Slot.cleared, small]
      · obtain ⟨n, y, e', same⟩ := stays (if editionOf x.staging < e then startPullWait k (setSlot k x.cleared s) else s) (if_neg higher)
        refine ⟨n, y, e', offer y ?_⟩
        simp [loader, higher, same]
    | hostFill =>
      obtain ⟨n, y, e, same⟩ := stays s rfl
      exact ⟨n, y, e, offer y (by simp [loader, same])⟩
    | peerFill =>
      obtain ⟨n, y, e, same⟩ := stays s rfl
      exact ⟨n, y, e, offer y (by simp [loader, same])⟩
  · obtain ⟨n, y, taken, same⟩ := stays (considerOffer k e s) (by simp only [considerOffer, slot]; exact if_neg offers)
    refine ⟨n, y, taken, hx ▸ ⟨fun _ => same, fun pos unrefused above => ?_⟩⟩
    exact absurd ((Slot.offers_iff x e).2 ⟨pos, unrefused, above⟩) offers

/-- Settles O29: the timetable edition and then the fare edition of the ANNOUNCE are considered. -/
theorem offeredEditionStartsThePullWait : Obligations.OfferedEditionStartsThePullWait := by
  rintro ⟨_, seq⟩ f s u p r c fields right grade stale mem rfl coverage rng rfl
  obtain ⟨q, listed, station, present⟩ := c.present
  obtain rfl := c.peers.same mem listed station
  have counted : PeersOk (countFrame s) := ⟨c.peers.entries, c.peers.watch⟩
  have entry : movePeer q ((q.announced f).accepted s.clock.tick) (countFrame s) =
      updatePeer q.station (fun _ => (q.announced f).accepted s.clock.tick) (countFrame s) :=
    movePeer_still counted c.running mem present.symm coverage.symm
  obtain ⟨u, hu⟩ : ∃ u, u = updatePeer q.station (fun _ => (q.announced f).accepted s.clock.tick) (countFrame s) := ⟨_, rfl⟩
  have path : exec (.announceReceived ⟨q.station, seq⟩ f) s =
      .next (considerOffer .fare f.fare (considerOffer .timetable f.timetable u)) := by
    refine congrArg Host.Outcome.next ((receiveAnnounce_accepted c.running c.head fields c.peers mem rfl right).trans ?_)
    have host : u.clock.grade = .host := by rw [hu]; exact grade
    rw [entry, ← hu, announceHandOn, considerAdoption_kept (adopts_host host f)]
    simp [stale]
  obtain ⟨n, y, first, taken⟩ := considerOffer_offered (s := u) (r := r) (by rw [hu]; exact rng) .timetable f.timetable
  obtain ⟨m, z, second, taken'⟩ := considerOffer_offered (s := u.offered r n .timetable y) rfl .fare f.fare
  rw [first, second] at path
  refine ⟨_, n + m, path, ?_, ?_⟩
  · rw [hu, ← Nat.add_assoc]
    rfl
  rintro k e x w rfl rfl rfl
  cases k with
  | timetable => exact hu ▸ taken
  | fare => exact hu ▸ taken'

end Sys2Proof.Machine
end

