-- ==== Sys2Proof/Proofs/FreshResends.lean ====
section
/-! SUPPORT. What a hand-over can bring into the queue, and the own state that a fresh ANNOUNCE has sent again (R99). -/

namespace Sys2Proof.Machine

/-! ### Frames that a hand-over brings -/

/-- Every frame queued after was queued before, or its payload is of a kind `P`. -/
def Brings (P : Payload → Prop) (s t : State) : Prop := ∀ g ∈ t.line.queue, g ∈ s.line.queue ∨ P g.payload

section brings
variable {P : Payload → Prop}

theorem Brings.of_eq {s t : State} (e : t.line.queue = s.line.queue) : Brings P s t := fun _ mem => .inl (e ▸ mem)

theorem Brings.trans {s t u : State} (a : Brings P s t) (b : Brings P t u) : Brings P s u := fun g mem =>
  (b g mem).elim (a g) .inr

theorem Brings.mono {Q : Payload → Prop} {s t : State} (a : Brings P s t) (h : ∀ p, P p → Q p) : Brings Q s t := fun g mem =>
  (a g mem).imp_right (h _)

end brings

theorem Line.hand_mem {l : Line} {tick : Tick} {p : Payload} {g : TxFrame} (mem : g ∈ (l.hand tick p).2.1.queue) :
    g ∈ l.queue ∨ g.payload = p := by
  have pushed : ∀ m : Line, g ∈ (m.push tick p).queue → g ∈ m.queue ∨ g.payload = p := fun m mem =>
    (List.mem_append.1 mem).imp_right fun last => by rw [List.mem_singleton.1 last]
  unfold Line.hand at mem
  split at mem
  · exact .inl mem
  · split at mem
    · exact (List.mem_or_eq_of_mem_set mem).imp_right fun same => by rw [same]
    · split at mem
      · exact pushed l mem
      · split at mem
        · split at mem
          · exact (pushed _ mem).imp_left List.mem_of_mem_eraseIdx
          · exact .inl mem
        · exact .inl mem

theorem handToLine_brings (p : Payload) (s : State) : Brings (· = p) s (handToLine p s).2.1 := fun _ => Line.hand_mem

theorem requestSegment_brings (n : Nat) (k : TableKind) (p : Pull) (s : State) :
    Brings (fun q => q.kind = .segReq) s (requestSegment n k p s) := by
  induction n generalizing p s with
  | zero => exact .of_eq rfl
  | succ n ih =>
    have handed : Brings (fun q => q.kind = .segReq) s (handToLine (segReqOf k p) s).2.1 :=
      (handToLine_brings _ s).mono fun _ e => e ▸ rfl
    simp only [requestSegment]
    split
    · exact handed.trans (.of_eq rfl)
    · split
      · exact handed.trans (ih _ _)
      · exact handed.trans (.of_eq rfl)

theorem reportUnsent_brings (f : TxFrame) (s : State) : Brings (fun q => q.kind = .segReq) s (reportUnsent f s) := by
  unfold reportUnsent
  split
  · unfold segReqLost
    split
    · split
      · unfold requestExpired
        split
        · exact .of_eq rfl
        · split
          · exact requestSegment_brings _ _ _ _
          · exact .of_eq rfl
      · exact .of_eq rfl
    · exact .of_eq rfl
  · exact .of_eq rfl

theorem hand_brings (p : Payload) (s : State) : Brings (fun q => q = p ∨ q.kind = .segReq) s (hand p s) := by
  have handed := (handToLine_brings p s).mono (Q := fun q => q = p ∨ q.kind = .segReq) fun _ => .inl
  simp only [hand, handOver]
  split
  · exact handed.trans ((reportUnsent_brings _ _).mono fun _ => .inr)
  · exact handed

theorem handAll_brings (ps : List Payload) (s : State) : Brings (fun q => q ∈ ps ∨ q.kind = .segReq) s (handAll ps s) := by
  unfold handAll
  induction ps generalizing s with
  | nil => exact .of_eq rfl
  | cons p ps ih =>
    exact ((hand_brings p s).mono fun q e => e.imp_left fun e => e ▸ List.mem_cons_self).trans
      ((ih (hand p s)).mono fun q e => e.imp_left (List.mem_cons_of_mem p))

/-! ### Frames not queued already (R99) -/

/-- A queued frame for the same claim, or the same bulletin in force. -/
def Payload.resent (p q : Payload) : Bool :=
  match p, q with
  | .taken a, .taken b => a.seq = b.seq
  | .bulletin a, .bulletin b => a.origin = b.origin && a.number = b.number && !b.withdrawn
  | _, _ => false

theorem queuedAlready_iff (p : Payload) (s : State) : queuedAlready p s = true ↔ ∃ f ∈ s.line.queue, p.resent f.payload = true :=
  List.any_eq_true

theorem Payload.resent_kind {p q : Payload} (h : p.resent q = true) : (q.kind = .taken ∨ q.kind = .bulletin) ∧ q.kind = p.kind := by
  unfold Payload.resent at h
  split at h
  · exact ⟨.inl rfl, rfl⟩
  · exact ⟨.inr rfl, rfl⟩
  · cases h

/-- Frames that none queued stands for are handed over one after another. -/
theorem foldl_handUnlessQueued {ps : List Payload} {s : State} (new : ∀ p ∈ ps, ∀ f ∈ s.line.queue, p.resent f.payload = false)
    (apart : ps.Pairwise (fun a b => b.resent a = false)) : ps.foldl handUnlessQueued s = handAll ps s := by
  induction ps generalizing s with
  | nil => rfl
  | cons p ps ih =>
    rw [List.pairwise_cons] at apart
    have unqueued : ¬queuedAlready p s = true := fun e => by
      obtain ⟨f, mem, same⟩ := (queuedAlready_iff p s).1 e
      rw [new p List.mem_cons_self f mem] at same
      cases same
    rw [List.foldl_cons, handUnlessQueued, if_neg unqueued]
    refine ih (fun q hq f hf => ?_) apart.2
    rcases hand_brings p s f hf with old | same | request
    · exact new q (List.mem_cons_of_mem p hq) f old
    · exact same ▸ apart.1 q hq
    · refine Bool.eq_false_iff.2 fun e => ?_
      have kinds := (Payload.resent_kind e).1
      rw [request] at kinds
      rcases kinds with e | e <;> cases e

/-! ### The order of line positions (R85, R99) -/

theorem positionBefore_asymm {p q : Nat} (h : positionBefore p q = true) : positionBefore q p = false := by
  simp only [positionBefore, Bool.and_eq_true, decide_eq_true_eq, Bool.and_eq_false_iff, decide_eq_false_iff_not] at h ⊢
  omega

theorem insertByPosition_last {c : Claim} {l : List Claim}
    (after : ∀ x ∈ l, positionBefore (x.position.getD 0) (c.position.getD 0) = true) : insertByPosition c l = l ++ [c] := by
  induction l with
  | nil => rfl
  | cons x xs ih =>
    rw [insertByPosition, if_neg (by simp [positionBefore_asymm (after x List.mem_cons_self)]),
      ih fun y hy => after y (List.mem_cons_of_mem x hy)]
    rfl

/-- Claims already in the order of their positions stay so. -/
theorem foldl_insertByPosition {l acc : List Claim}
    (order : l.Pairwise (fun a b => positionBefore (a.position.getD 0) (b.position.getD 0) = true))
    (after : ∀ x ∈ acc, ∀ y ∈ l, positionBefore (x.position.getD 0) (y.position.getD 0) = true) :
    l.foldl (fun acc c => insertByPosition c acc) acc = acc ++ l := by
  induction l generalizing acc with
  | nil => exact (List.append_nil acc).symm
  | cons c cs ih =>
    rw [List.pairwise_cons] at order
    rw [List.foldl_cons, insertByPosition_last fun x hx => after x hx c List.mem_cons_self, ih order.2, List.append_assoc]
    · rfl
    · intro x hx y hy
      rcases List.mem_append.1 hx with old | last
      · exact after x old y (List.mem_cons_of_mem c hy)
      · exact List.mem_singleton.1 last ▸ order.1 y hy

/-! ### The re-sends (R99) -/

/-- Own reports, own TAKEN claims and own bulletins in force, when none of the two last is queued already. -/
theorem freshResends_eq {s : State} {taken : List Claim}
    (owned : taken = s.claims.filter (fun x => x.origin = s.setup.straps.station && x.state = .taken))
    (order : taken.Pairwise (fun a b => a.seq ≠ b.seq ∧ positionBefore (a.position.getD 0) (b.position.getD 0) = true))
    (distinct : DistinctIds s.bulletins.list)
    (unqueued : ∀ q ∈ s.line.queue, q.payload.kind ≠ .taken ∧ q.payload.kind ≠ .bulletin) : freshResends s =
      handAll (ownReportPayloads s ++ taken.map (fun x => .taken x.fields) ++ (ownInForce s).map bulletinPayload) s := by
  obtain ⟨s1, hs1⟩ : ∃ t, t = resendReports s := ⟨_, rfl⟩
  have reports : Brings (fun q => q ∈ ownReportPayloads s ∨ q.kind = .segReq) s s1 := hs1 ▸ handAll_brings _ s
  have listed : ownTaken s1 = taken := by
    have line : OnLine s s1 := hs1 ▸ handAll_onLine _ s
    obtain ⟨_, _, e⟩ := line
    have same : s1.claims.filter (fun x => x.origin = own s1 && x.state = .taken) = taken := by rw [owned, e]; rfl
    rw [ownTaken, same]
    exact foldl_insertByPosition (order.imp And.right) (fun x hx => absurd hx List.not_mem_nil)
  have kinds1 : ∀ f ∈ s1.line.queue, f.payload.kind ≠ .taken ∧ f.payload.kind ≠ .bulletin := fun f hf => by
    rcases reports f hf with old | report | request
    · exact unqueued f old
    · obtain ⟨c, mem, made⟩ := List.mem_filterMap.1 report
      obtain ⟨r, _, made⟩ := Option.map_eq_some_iff.1 made
      have kind : f.payload.kind = .running := made ▸ rfl
      rw [kind]
      decide
    · rw [request]
      decide
  obtain ⟨s2, hs2⟩ : ∃ t, t = handAll (taken.map (fun x => .taken x.fields)) s1 := ⟨_, rfl⟩
  have second : (taken.map (fun x => Payload.taken x.fields)).foldl handUnlessQueued s1 = s2 := by
    rw [hs2]
    refine foldl_handUnlessQueued (fun p _ f hf => Bool.eq_false_iff.2 fun e => ?_) (List.pairwise_map.2 (order.imp fun apart => ?_))
    · rcases (Payload.resent_kind e).1 with k | k
      · exact (kinds1 f hf).1 k
      · exact (kinds1 f hf).2 k
    · exact decide_eq_false apart.1.symm
  have claims : Brings (fun q => q ∈ taken.map (fun x => Payload.taken x.fields) ∨ q.kind = .segReq) s1 s2 := hs2 ▸ handAll_brings _ s1
  have inForce : ownInForce s2 = ownInForce s := by
    have first : OnLine s s1 := hs1 ▸ handAll_onLine _ s
    have line : OnLine s s2 := first.trans (hs2 ▸ handAll_onLine _ s1)
    obtain ⟨_, _, e⟩ := line
    rw [e]
    rfl
  have third : ((ownInForce s).map bulletinPayload).foldl handUnlessQueued s2 = handAll ((ownInForce s).map bulletinPayload) s2 := by
    refine foldl_handUnlessQueued (fun p hp f hf => Bool.eq_false_iff.2 fun e => ?_)
      (List.pairwise_map.2 ((distinct.filter _).imp fun apart => Bool.eq_false_iff.2 fun e => ?_))
    · obtain ⟨b, _, rfl⟩ := List.mem_map.1 hp
      have kind : f.payload.kind = .bulletin := (Payload.resent_kind e).2
      rcases claims f hf with old | taken | request
      · exact (kinds1 f old).2 kind
      · obtain ⟨c, _, made⟩ := List.mem_map.1 taken
        rw [← made] at kind
        cases kind
      · rw [request] at kind
        cases kind
    · simp only [Payload.resent, bulletinPayload, Bool.and_eq_true, decide_eq_true_eq] at e
      exact apart ⟨e.1.1.symm, e.1.2.symm⟩
  have phases : freshResends s = ((ownInForce s2).map bulletinPayload).foldl handUnlessQueued s2 := by
    rw [← second, ← listed, hs1]
    rfl
  rw [phases, inForce, third, hs2, hs1]
  simp only [resendReports, handAll, List.foldl_append]

/-- Settles O28: the entry, the watch view and the clock follow the frame; a fresh flag has the own state sent again. -/
theorem acceptedAnnounceUpdatesPeerAndClock : Obligations.AcceptedAnnounceUpdatesPeerAndClock := by
  rintro ⟨_, seq⟩ f s p run head fields ok mem rfl right
  have path : exec (.announceReceived ⟨p.station, seq⟩ f) s = .next (announceHandOn p.station f
      (movePeer p ((p.announced f).accepted s.clock.tick) (countFrame s))) :=
    congrArg Host.Outcome.next (receiveAnnounce_accepted run head fields ok mem rfl right)
  rw [movePeer_arrives rfl] at path
  obtain ⟨v, hv⟩ : ∃ v, v = (if p.state = .present then (countFrame s).withPeer p.station ((p.announced f).accepted s.clock.tick) else
    raise (.peerChange p.station p.state .present) ((countFrame s).withPeer p.station ((p.announced f).accepted s.clock.tick))) := ⟨_, rfl⟩
  have entry : ∃ o, v = { (countFrame s).withPeer p.station ((p.announced f).accepted s.clock.tick) with notices := o } ∧
      o.mask = s.notices.mask := by
    rw [hv]
    split
    · exact ⟨_, rfl, rfl⟩
    · exact ⟨_, rfl, (Notices.add_rest _ _ _).1⟩
  rw [← hv] at path
  obtain ⟨o, whole, noticeMask⟩ := entry
  have first := updateWatch_inner v
  have watch := updateWatch_watch v
  have clock : (updateWatch v).clock = s.clock := first.clock.trans (by rw [whole]; rfl)
  have setup : (updateWatch v).setup = s.setup := first.setup.trans (by rw [whole]; rfl)
  have treadles : v.treadles = s.treadles := by rw [whole]; rfl
  have after := announceHandOn_clocked p.station f (s := updateWatch v) (by rw [setup]; exact run)
  rw [clock] at after
  have entries : (updateWatch v).line.peers = s.line.peers.map (fun x => if x.station = p.station then
      (p.announced f).accepted s.clock.tick else x) := by rw [first.peers, whole]; rfl
  have inner := after.inner
  refine ⟨_, path, inner.peers.trans entries, inner.rxCount.trans (first.rxCount.trans (by rw [whole]; rfl)), ?_, fun adopted => ?_,
    fun kept => ?_, fun w u host noTimetable noFare hw hu => ?_, inner.setup.trans setup,
    inner.overlay.trans (first.overlay.trans (by rw [whole]; rfl)), inner.treadles.trans (first.treadles.trans treadles),
    inner.host.trans (first.host.trans (by rw [whole]; rfl)), inner.pending.trans (first.pending.trans (by rw [whole]; rfl)),
    inner.muteFlag.trans (first.muteFlag.trans (by rw [whole]; rfl)), inner.journal.1.trans (first.journal.1.trans (by rw [whole]; rfl)),
    inner.journal.2.trans (first.journal.2.trans (by rw [whole]; rfl)),
    inner.mask.trans (first.mask.trans (by rw [whole]; exact noticeMask))⟩
  · rw [after.watch, watch, inner.peers, State.withClock_line, first.peers, treadles]
  · rw [inner.clock]
    exact if_pos ((adopts_iff s.clock f).2 adopted)
  · rw [inner.clock]
    refine if_neg fun e => ?_
    rcases (adopts_iff s.clock f).1 e with ⟨unset, timed⟩ | ⟨grade, peerHost, apart⟩
    · simp [unset, timed] at kept
    · rcases kept with host | unset | ⟨_, other⟩ | ⟨_, date, near, near'⟩
      · simp [host] at grade
      · simp [unset] at peerHost
      · exact other peerHost
      · rcases apart with other | far | far
        · exact other date
        · exact absurd near' (Nat.not_lt.2 far)
        · exact absurd near (Nat.not_lt.2 far)
  · have same : w = (countFrame s).withPeer p.station ((p.announced f).accepted s.clock.tick) := by
      simp only [hw, Peer.announced, Peer.accepted, noTimetable, noFare]
      rfl
    rw [← same] at hv
    rw [← hv] at hu ⊢
    have kept : announceHandOn p.station f u = if f.fresh then freshResends u else u := by
      rw [announceHandOn, noTimetable, noFare, hu,
        considerAdoption_kept (adopts_host ((congrArg Clock.grade clock).trans host) f), considerOffer_zero, considerOffer_zero]
    rw [← hu, kept]
    refine ⟨hu ▸ updateWatch_rewatched v, fun stale => if_neg (by simp [stale]), fun taken frames fresh owned order distinct unqueued all => ?_⟩
    have mine : u.setup = s.setup := hu ▸ setup
    rw [if_pos fresh, freshResends_eq (by rw [mine]; exact owned) order distinct unqueued, all, ownReportPayloads_eq, ownInForce, own, mine]
    rfl

end Sys2Proof.Machine
end

