-- ==== Sys2Proof/Proofs/Reports.lean ====
section
/-! SUPPORT. Running reports (R39 to R48): the checks, and what an accepted report makes of its call. -/

namespace Sys2Proof.Machine

/-! ### The arithmetic of a report (R43, R44) -/

theorem baseArrival_of_isBase {c : Call} {base : Nat} (h : IsBase c base) : baseArrival c.schedArr c.points c.report = base := by
  unfold IsBase at h
  unfold baseArrival
  cases report : c.report with
  | none =>
    simp only [report] at h ⊢
    rw [clampNat_eq _ _ _ (by decide), h]
    exact Nat.zero_max _
  | some r =>
    simp only [report] at h ⊢
    have allowance : ((c.points[r.point]?).map (·.allowance)).getD 0 = pointAllowance c.points r.point := by
      unfold pointAllowance
      cases c.points[r.point]? <;> rfl
    rw [allowance] at h
    have late : propagatedLateness r.lateness (pointAllowance c.points r.point) =
        if r.lateness ≤ 0 then r.lateness else max 0 (r.lateness - pointAllowance c.points r.point) := by
      unfold propagatedLateness
      split_ifs <;> omega
    rw [clampNat_eq _ _ _ (by decide), late]
    omega

theorem clampLateness_eq (l : Int) : clampLateness l = max (-900) (min 21600 l) := by
  unfold clampLateness
  split_ifs <;> omega

/-! ### A report on its call (R23 to R26) -/

theorem evaluated_report (x : EvalContext) (c : Call) : (evaluated x c).report = c.report := by
  have creep : (creepPhase x c).report = c.report := by
    unfold creepPhase Call.creepTo Call.setArrival
    split
    · split_ifs <;> rfl
    · rfl
  have lapse : ∀ d, (lapsePhase x d).report = d.report := fun d => by
    unfold lapsePhase
    split
    · split <;> rfl
    · rfl
  have arrive : ∀ d, (arrivePhase x d).report = d.report := fun d => by
    unfold arrivePhase
    split
    · split <;> rfl
    · rfl
  have depart : ∀ d, (departPhase x d).report = d.report := fun d => by
    unfold departPhase
    split
    · split <;> rfl
    · rfl
  rw [evaluated, depart, arrive, lapse, creep]

section withReport
variable {minDwell : Nat} {c : Call} {r : BestReport}

theorem CallState.live_cases {a : CallState} (departed : a ≠ .departed) (lapsed : a ≠ .lapsed) :
    a.atHand = true ∨ a = .cancelled ∨ a.awaited = true := by
  revert departed lapsed
  cases a <;> decide

theorem withReport_atHand (h : c.state.atHand = true) : c.withReport minDwell r = { c with report := some r } := by
  unfold Call.withReport
  cases state : c.state <;> simp_all [CallState.atHand]

theorem withReport_stillCancelled (h : c.state = .cancelled) (cancelled : r.cancelled = true) :
    c.withReport minDwell r = { c with report := some r } := by
  simp only [Call.withReport, h, cancelled, if_true]

theorem withReport_cancels (h : c.state.awaited = true) (cancelled : r.cancelled = true) : c.withReport minDwell r =
    { c with report := some r, source := .report, state := .cancelled, delayed := false } := by
  unfold Call.withReport
  cases state : c.state <;> simp_all [CallState.awaited]

theorem withReport_reports (h : c.state.awaited = true ∨ c.state = .cancelled) (runs : r.cancelled = false) {base : Nat}
    (isBase : IsBase { c with report := some r } base) : c.withReport minDwell r =
      { c with report := some r, source := .report, state := .reported, delayed := false
               estimates := some ⟨base, base, departureFrom minDwell c base, 0⟩ } := by
  have same : baseArrival c.schedArr c.points (some r) = base := baseArrival_of_isBase isBase
  have result : ({ c with report := some r, source := .report, state := .reported } : Call).fromBase minDwell
      (baseArrival c.schedArr c.points (some r)) = { c with
        report := some r, source := .report, state := .reported, delayed := false
        estimates := some ⟨base, base, departureFrom minDwell c base, 0⟩ } := by
    rw [fromBase_eq, same]
    rfl
  unfold Call.withReport
  cases state : c.state <;> simp_all [CallState.awaited]

end withReport

/-- A call on its report, not due before 30 s, stays so when it is evaluated. -/
theorem evaluated_early {w : Coverage} {second minDwell base dep : Nat} {c : Call} (state : c.state = .reported)
    (timed : c.estimates = some ⟨base, base, dep, 0⟩) (isDep : dep = departureFrom minDwell c base) (prompt : c.delayed = false)
    (early : second + 30 < base) : evaluated ⟨w, second, minDwell⟩ c = c := by
  have awaited : c.state.awaited = true := by rw [state]; rfl
  cases watched : w.arrival c.direction with
  | false => exact (evaluated_to w second minDwell c).waits _ timed awaited watched (by simp only; omega)
  | true =>
    have creeps : creepPhase ⟨w, second, minDwell⟩ c = c := by
      rw [creepPhase_timed timed]
      split
      · rw [creepTo_eq minDwell second c _ (late := false) (creep := 0) (by simp [prompt]; omega) (by simp; omega), Nat.add_zero, ← isDep,
          ← timed, ← prompt]
      · rfl
    have lapses : lapsePhase ⟨w, second, minDwell⟩ c = c := by
      rw [lapsePhase_timed timed]
      exact if_neg (by simp [prompt])
    have arrives : arrivePhase ⟨w, second, minDwell⟩ c = c := by
      rw [arrivePhase_timed timed]
      exact if_neg (by simp [state, watched])
    rw [evaluated, creeps, lapses, arrives, departPhase_waiting (by rw [state]; rfl)]

/-! ### A report on the Call Table (R42) -/

section acceptReport
variable {i : Nat} {c : Call} {r : BestReport} {s : State}

theorem acceptReport_commits (h : s.calls.calls[i]? = some c) (state : (c.withReport s.setup.settings.minDwell r).state ≠ .reported) :
    acceptReport i r s = commitCall i (c.withReport s.setup.settings.minDwell r) s := by
  simp only [acceptReport, h]
  exact if_neg state

theorem acceptReport_evaluates (h : s.calls.calls[i]? = some c) (state : (c.withReport s.setup.settings.minDwell r).state = .reported) :
    acceptReport i r s = evalCall i (commitCall i (creepPhase (evalContext s) (c.withReport s.setup.settings.minDwell r)) s) := by
  simp only [acceptReport, h]
  exact if_pos state

/-- A change by which no call ends, and of which board and host are told. -/
theorem commitCall_told {new : Call} (h : s.calls.calls[i]? = some c) (stays : (new.state.over && !c.state.over) = false)
    (board : boardChange c new = true) (notice : noticeChange c new = true) : commitCall i new s =
      raise (.callChanged s.calls.buildCount) (compose (setCall i new s)) := by
  have composed : (compose (setCall i new s)).calls = (setCall i new s).calls := (compose_onPanel _).calls
  rw [commitCall_some h, callHanded, if_neg (by simp [stays])]
  simp only [notifyCall, board, notice, if_true, callChanged]
  rw [composed]
  rfl

theorem setCall_of_calls {new : Call} {x : CallTable} (h : x = { s.calls with calls := s.calls.calls.set i new }) :
    setCall i new s = { s with calls := x } := by rw [h]; rfl

theorem reportChange {new : Call} (report : c.report ≠ some r) (h : new.report = some r) :
    boardChange c new = true ∧ noticeChange c new = true := by
  have differ : (c.report != new.report) = true := by rw [h]; simpa using report
  simp [boardChange, noticeChange, differ]

/-- A report of a running service on a call not at hand. -/
theorem acceptReport_reports (grade : s.clock.grade ≠ .unset) (h : s.calls.calls[i]? = some c)
    (waiting : c.state.awaited = true ∨ c.state = .cancelled) (runs : r.cancelled = false) {base : Nat}
    (isBase : IsBase { c with report := some r } base) : ∃ c', (acceptReport i r s).calls = { s.calls with calls := s.calls.calls.set i c' } ∧
      c'.report = some r ∧ (s.clock.second + 30 < base → c' = { c with
        report := some r, source := .report, state := .reported, delayed := false
        estimates := some ⟨base, base, departureFrom s.setup.settings.minDwell c base, 0⟩ } ∧
        acceptReport i r s = commitCall i c' s) := by
  obtain ⟨d, hd⟩ : ∃ d, d = c.withReport s.setup.settings.minDwell r := ⟨_, rfl⟩
  have reports := withReport_reports (minDwell := s.setup.settings.minDwell) waiting runs isBase
  rw [← hd] at reports
  have state : d.state = .reported := by rw [reports]
  have path := acceptReport_evaluates h (hd ▸ state)
  rw [← hd] at path
  obtain ⟨v, hv⟩ : ∃ v, v = commitCall i (creepPhase (evalContext s) d) s := ⟨_, rfl⟩
  rw [← hv] at path
  have up : v.clock.grade ≠ .unset := by
    rw [hv, (commitCall_inner i _ s).clock]
    exact grade
  have at_v : v.calls.calls[i]? = some (creepPhase (evalContext s) d) := by rw [hv]; exact commitCall_at h _
  have context : evalContext v = evalContext s := by rw [hv]; exact commitCall_context _
  refine ⟨evaluated (evalContext s) (creepPhase (evalContext s) d), ?_, ?_, fun early => ?_⟩
  · have table : SameTable v (evalCall i v) := (evalCall_committed i v).table
    rw [path, table, evalCall_calls i up, modify_at at_v, context, hv, commitCall_calls, List.set_set]
  · have creep : (creepPhase (evalContext s) d).report = d.report := by
      unfold creepPhase Call.creepTo Call.setArrival
      split
      · split_ifs <;> rfl
      · rfl
    rw [evaluated_report, creep, reports]
  · have stays : evaluated (evalContext s) d = d :=
      evaluated_early state (by rw [reports]) (by rw [reports]; rfl) (by rw [reports]) early
    have creep : creepPhase (evalContext s) d = d := (evaluated_eq_creep (congrArg (fun x => x.state.stage) stays)).symm.trans stays
    rw [creep] at at_v hv
    rw [creep, stays, path, evalCall_self up at_v (by rw [context]; exact stays)]
    exact ⟨reports, hv⟩

/-- An accepted report, as the statements describe it. -/
theorem acceptReport_taken (grade : s.clock.grade ≠ .unset) (h : s.calls.calls[i]? = some c) (departed : c.state ≠ .departed)
    (lapsed : c.state ≠ .lapsed) (report : c.report ≠ some r) {base : Nat} (isBase : IsBase { c with report := some r } base) :
    ReportTaken s (acceptReport i r s) i c r base := by
  obtain ⟨t, ht⟩ : ∃ t, t = acceptReport i r s := ⟨_, rfl⟩
  have atHandOnly : ∀ a : CallState, a.atHand = true → a ≠ .cancelled ∧ a.awaited = false := by intro a; cases a <;> decide
  have ofCommit : ∀ new, t = commitCall i new s → new.report = some r → (new.state.over && !c.state.over) = false →
      t = raise (.callChanged s.calls.buildCount) (compose { s with calls := t.calls }) := fun new e report' stays => by
    obtain ⟨board, notice⟩ := reportChange report report'
    have calls : t.calls = { s.calls with calls := s.calls.calls.set i new } := by rw [e, commitCall_calls]
    rw [← setCall_of_calls calls, e, commitCall_told h stays board notice]
  have always : OnTable s t ∧ Inner s t := by
    rw [ht]
    simp only [acceptReport, h]
    split
    · exact ⟨(commitCall_onTable i _ s).trans (evalCall_committed i _).onTable, (commitCall_inner i _ s).trans (evalCall_committed i _).inner⟩
    · exact ⟨commitCall_onTable i _ s, commitCall_inner i _ s⟩
  obtain ⟨onTable, inner⟩ := always
  rw [← ht]
  have rest : t = { s with
      calls := t.calls, board := t.board, line := t.line, store := t.store, sales := t.sales, claims := t.claims
      notices := t.notices } := onTable.eq.trans rfl
  have counted : t.sales.journal = s.sales.journal ∧ t.sales.serialCounter = s.sales.serialCounter ∧ t.line.peers = s.line.peers ∧
      t.line.rxCount = s.line.rxCount ∧ t.line.muted = s.line.muted :=
    ⟨inner.journal.1, inner.journal.2, inner.peers, inner.rxCount, inner.muteFlag⟩
  have reported : c.state.atHand = false → c.state.awaited = true ∨ c.state = .cancelled → r.cancelled = false →
      ReportTaken s t i c r base := fun away waiting runs => by
    obtain ⟨c', calls, report', early⟩ := acceptReport_reports grade h waiting runs isBase
    rw [← ht] at calls early
    refine ⟨⟨c', calls, report', fun e => ?_, fun e => ?_, fun e => ?_, fun _ _ _ _ due => (early due).1⟩, rest, counted, fun e => ?_,
      fun e => ?_⟩
    · rw [away] at e; cases e
    · rw [runs] at e; cases e
    · rw [runs] at e; cases e
    · rcases e with e | ⟨e, _⟩ | ⟨_, _, due⟩
      · rw [away] at e; cases e
      · rw [runs] at e; cases e
      · exact ofCommit c' (early due).2 report' (by rw [(early due).1]; rfl)
    · rw [runs] at e; cases e
  rcases CallState.live_cases departed lapsed with near | cancelled | awaited
  · obtain ⟨notCancelled, notAwaited⟩ := atHandOnly _ near
    have new := withReport_atHand (minDwell := s.setup.settings.minDwell) (r := r) near
    have unreported : c.state ≠ .reported := fun e => by rw [e] at near; cases near
    have commits : t = commitCall i { c with report := some r } s := by
      rw [ht, acceptReport_commits h (by rw [new]; exact unreported), new]
    refine ⟨⟨{ c with report := some r }, by rw [commits, commitCall_calls], rfl, fun _ => rfl, fun _ e => absurd e notCancelled, fun _ e => ?_,
      fun _ _ e => ?_⟩, rest, counted, fun _ => ofCommit _ commits rfl (by simp), fun _ e => ?_⟩
    · rw [notAwaited] at e; cases e
    · rw [notAwaited] at e; exact e.elim (fun e => by cases e) (fun e => absurd e notCancelled)
    · rw [notAwaited] at e; cases e
  · have away : c.state.atHand = false ∧ c.state.awaited = false := by rw [cancelled]; exact ⟨rfl, rfl⟩
    cases runs : r.cancelled with
    | true =>
      have new := withReport_stillCancelled (minDwell := s.setup.settings.minDwell) cancelled runs
      have commits : t = commitCall i { c with report := some r } s := by
        rw [ht, acceptReport_commits h (by rw [new]; simp [cancelled]), new]
      refine ⟨⟨{ c with report := some r }, by rw [commits, commitCall_calls], rfl, fun _ => rfl, fun _ _ => rfl, fun _ e => ?_,
        fun _ e => ?_⟩, rest, counted, fun _ => ofCommit _ commits rfl (by simp), fun _ e => ?_⟩
      · rw [away.2] at e; cases e
      · rw [runs] at e; cases e
      · rw [away.2] at e; cases e
    | false => exact reported away.1 (.inr cancelled) runs
  · have away : c.state.atHand = false ∧ c.state ≠ .cancelled := by
      revert awaited
      cases c.state <;> decide
    cases runs : r.cancelled with
    | true =>
      have new := withReport_cancels (minDwell := s.setup.settings.minDwell) awaited runs
      have commits : t = commitCall i { c with report := some r, source := .report, state := .cancelled, delayed := false } s := by
        rw [ht, acceptReport_commits h (by rw [new]; simp), new]
      have run : Committed s t := commits ▸ commitCall_committed fun old e => by
        rw [h, Option.some.injEq] at e
        subst e
        exact ⟨rfl, fun _ => rfl⟩
      have calls : t.calls.calls[i]? = some { c with report := some r, source := .report, state := .cancelled, delayed := false } := by
        rw [commits]
        exact commitCall_at h _
      have ended : Ended s t c.service := ⟨i, c, _, h, calls, rfl, by revert awaited; cases c.state <;> decide, rfl⟩
      refine ⟨⟨_, by rw [commits, commitCall_calls], rfl, fun e => ?_, fun _ e => absurd e away.2, fun _ _ => rfl, fun _ e => ?_⟩, rest, counted,
        fun e => ?_, fun _ _ => ⟨fun x hx => ?_, fun x y sale stage space service date => ?_⟩⟩
      · rw [away.1] at e; cases e
      · rw [runs] at e; cases e
      · rcases e with e | ⟨_, e⟩ | ⟨e, _⟩
        · rw [away.1] at e; cases e
        · exact absurd e away.2
        · rw [runs] at e; cases e
      · obtain ⟨mem, gone⟩ := run.claims x hx
        exact ⟨mem, fun ⟨service, date⟩ => gone ⟨date, service ▸ ended⟩⟩
      · exact run.closed x y sale stage space date (service ▸ ended)
    | false => exact reported away.1 (.inl awaited) runs

theorem withReport_service (minDwell : Nat) (c : Call) (r : BestReport) : (c.withReport minDwell r).service = c.service := by
  unfold Call.withReport
  split
  case h_1 | h_2 | h_3 => split <;> rfl
  all_goals rfl

/-- The call a report is accepted for keeps its service number. -/
theorem acceptReport_service (h : s.calls.calls[i]? = some c) {c' : Call} (after : (acceptReport i r s).calls.calls[i]? = some c') :
    c'.service = c.service := by
  by_cases state : (c.withReport s.setup.settings.minDwell r).state = .reported
  · rw [acceptReport_evaluates h state] at after
    obtain ⟨d, at_i, service, _⟩ := (evalCall_committed i _).calls i _ (commitCall_at h _)
    rw [after, Option.some.injEq] at at_i
    subst at_i
    rw [service, (follows_creepPhase _ _).service, withReport_service]
  · rw [acceptReport_commits h state, commitCall_at h, Option.some.injEq] at after
    rw [← after, withReport_service]

end acceptReport

/-! ### The checks of a report (R39 to R41) -/

theorem mergePasses_iff (c : Call) (observed : Nat) : mergePasses c observed = true ↔ ∀ x, c.report = some x → x.observed < observed := by
  unfold mergePasses
  cases c.report <;> simp

theorem callIndex_none {calls : List Call} {n : Nat} (h : ∀ c ∈ calls, c.service ≠ n) : callIndex calls n = none :=
  List.findIdx?_eq_none_iff.2 fun c hc => decide_eq_false (h c hc)

/-- The base arrival as the statements give it. -/
theorem isBase_of_report {c : Call} {r : BestReport} {a base : Nat} (allowance : a = ((c.points[r.point]?).map (·.allowance)).getD 0)
    (h : (base : Int) = max 0 (min 108000 (c.schedArr + (if r.lateness ≤ 0 then r.lateness else max 0 (r.lateness - a))))) :
    IsBase { c with report := some r } base := by
  rw [allowance] at h
  exact h

theorem report_differs {c : Call} {r : BestReport} (newer : ∀ x, c.report = some x → x.observed < r.observed) : c.report ≠ some r := fun e =>
  (newer r e).false

theorem acceptedFor_discards {f : RunningFields} {s : State} (h : s.clock.grade = .unset ∨ f.date ≠ s.clock.date ∨
    s.clock.second + 60 < f.observed ∨ (∀ c ∈ s.calls.calls, c.service ≠ f.service)) : acceptedFor f s = none := by
  unfold acceptedFor
  split
  · rfl
  · next pass =>
    simp only [Bool.or_eq_true, decide_eq_true_eq, not_or] at pass
    rcases h with e | e | e | none
    · exact absurd e pass.1.1
    · exact absurd e pass.1.2
    · exact absurd e pass.2
    · rw [callIndex_none none]

theorem acceptedFor_checked {f : RunningFields} {s : State} {i : Nat} {c : Call} (index : callIndex s.calls.calls f.service = some i)
    (h : s.calls.calls[i]? = some c) : acceptedFor f s =
      if (s.clock.grade = .unset || f.date ≠ s.clock.date || s.clock.second + 60 < f.observed) = true then none else
        if c.state.live && mergePasses c f.observed then some i else none := by
  simp only [acceptedFor, index, h]

theorem live_of {a : CallState} (departed : a ≠ .departed) (lapsed : a ≠ .lapsed) : a.live = true := (CallState.live_iff a).2 ⟨departed, lapsed⟩

/-- Settles O33: the checks and the accepted report; a frame from a peer heard again acts after its entry has changed. -/
theorem runningFrameActsOnItsCall : Obligations.RunningFrameActsOnItsCall := by
  constructor
  · rintro h f s u c fields rfl
    have path : exec (.runningReceived h f) s = .next (runningHandOn h.origin f (s.heardFrom h.origin)) :=
      congrArg Host.Outcome.next (receive_present c fields _)
    have discards : acceptedFor f (s.heardFrom h.origin) = none → exec (.runningReceived h f) s = .next (s.heardFrom h.origin) := fun e => by
      rw [path]
      simp only [runningHandOn, e]
    refine ⟨fun bad => discards (acceptedFor_discards bad), fun i c index at_i => ?_⟩
    have checked := acceptedFor_checked (s := s.heardFrom h.origin) (f := f) index at_i
    refine ⟨fun bad => discards ?_, fun r a base grade date seen departed lapsed newer isReport allowance isBase => ?_⟩
    · rw [checked]
      split
      · rfl
      · refine if_neg fun e => ?_
        rw [Bool.and_eq_true, CallState.live_iff, mergePasses_iff] at e
        rcases bad with e' | e' | ⟨x, report, late⟩
        · exact e.1.1 e'
        · exact e.1.2 e'
        · exact absurd (e.2 x report) (Nat.not_lt.2 late)
    · have accepts : acceptedFor f (s.heardFrom h.origin) = some i := by
        have pass : ¬((s.heardFrom h.origin).clock.grade = .unset || f.date ≠ (s.heardFrom h.origin).clock.date ||
            (s.heardFrom h.origin).clock.second + 60 < f.observed) = true := by
          simp only [Bool.or_eq_true, decide_eq_true_eq, not_or, Nat.not_lt]
          exact ⟨⟨grade, not_not_intro date⟩, seen⟩
        rw [checked, if_neg pass, if_pos (by rw [Bool.and_eq_true, mergePasses_iff]; exact ⟨live_of departed lapsed, newer⟩)]
      refine ⟨_, path, ?_⟩
      have best : bestReportOf f h.origin = r := by rw [isReport, bestReportOf, clampLateness_eq]
      simp only [runningHandOn, accepts, best]
      exact acceptReport_taken (s := s.heardFrom h.origin) grade at_i departed lapsed (report_differs (by rw [isReport]; exact newer))
        (isBase_of_report allowance isBase)
  · rintro i ⟨_, seq⟩ s v p frame other run head ok mem rfl gone hv
    obtain ⟨f, e, _⟩ | ⟨handOn, path⟩ := receivedFrame_cases frame
    · exact absurd e (other f)
    obtain ⟨u, hu⟩ : ∃ u, u = updateWatch v := ⟨_, rfl⟩
    have inner : Inner v u := hu ▸ updateWatch_inner v
    have entries : u.line.peers = s.line.peers.map (fun x => if x.station = p.station then
        { p with state := .present, lastHeard := s.clock.tick, silence := some ⟨s.clock.tick, 350⟩ } else x) := by
      rw [inner.peers, hv]
      rfl
    have rx : u.line.rxCount = (s.line.rxCount + 1) % 4294967296 := by
      rw [inner.rxCount, hv]
      rfl
    have clock : u.clock = s.clock := inner.clock.trans (by rw [hv]; rfl)
    have setup : u.setup = s.setup := inner.setup.trans (by rw [hv]; rfl)
    have treadles : v.treadles = s.treadles := by rw [hv]; rfl
    have watch : u.calls.watch = watchView s.treadles v.line.peers := by rw [hu, updateWatch_watch, treadles]
    have acts : exec i s = .next (handOn u) := by
      rw [path, receive_revives run head ok mem rfl gone, hu, hv]
      rfl
    obtain ⟨w, hw⟩ : ∃ w, w = { u with line := { u.line with rxCount := s.line.rxCount } } := ⟨_, rfl⟩
    have from' : FromPresent ⟨p.station, seq⟩ w := by
      refine ⟨by rw [hw]; exact setup ▸ run, head, ⟨?_, fun _ => ?_⟩, ?_⟩
      · rw [hw]
        simp only [entries, setup, ← ok.entries, List.map_map]
        refine List.map_congr_left fun q _ => ?_
        simp only [Function.comp_apply]
        split
        · next here => exact here.symm
        · rfl
      · rw [hw]
        simp only [watch, inner.treadles, treadles, inner.peers]
      · refine ⟨{ p with state := .present, lastHeard := s.clock.tick, silence := some ⟨s.clock.tick, 350⟩ }, ?_, rfl, rfl⟩
        rw [hw]
        simp only [entries]
        exact List.mem_map.2 ⟨p, mem, if_pos rfl⟩
    have again : w.heardFrom p.station = u := by
      have map : u.line.peers.map (fun x => if x.station = p.station then
          { x with lastHeard := w.clock.tick, silence := some ⟨w.clock.tick, 350⟩ } else x) = u.line.peers := by
        have tick : w.clock = s.clock := by rw [hw]; exact clock
        rw [entries, tick, List.map_map]
        refine List.map_congr_left fun q _ => ?_
        simp only [Function.comp_apply]
        split <;> simp_all
      rw [State.heardFrom, show w.line.peers = u.line.peers by rw [hw], map, hw]
      simp only [← rx]
    refine ⟨u, w, handOn u, hu ▸ updateWatch_rewatched v, inner.peers, inner.rxCount, hw, from', ?_, ?_, acts⟩
    · rw [hw]
      exact watch
    · rw [acts, path, receive_present from' rfl, again]

/-! ### REPORT_RUNNING (R39, R42) -/

theorem reportFieldsOk_iff (second : Nat) (f : RunningFields) : reportFieldsOk second f = true ↔
    1 ≤ f.service ∧ f.service ≤ 9999 ∧ f.observed ≤ 86399 ∧ f.observed ≤ second + 60 := by
  simp [reportFieldsOk, Bool.and_eq_true, and_assoc]

section reportCheck
variable {f : RunningFields} {s : State}

theorem reportRunning_refused {r : Reason} (h : reportCheck f s = .error r) : reportRunning f s = (.refused r, s) := by
  simp only [reportRunning, h]

theorem reportCheck_noTime (h : s.clock.grade = .unset) : reportCheck f s = .error .noTime := if_pos h

variable (grade : s.clock.grade ≠ .unset)
include grade

theorem reportCheck_badReport (h : ¬reportFieldsOk s.clock.second f = true) : reportCheck f s = .error .badReport := by
  rw [reportCheck, if_neg grade, if_pos (by simpa using h)]

variable (fields : reportFieldsOk s.clock.second f = true)
include fields

theorem reportCheck_wrongDate (h : f.date ≠ s.clock.date) : reportCheck f s = .error .wrongDate := by
  rw [reportCheck, if_neg grade, if_neg (by simp [fields]), if_pos h]

variable (date : f.date = s.clock.date)
include date

theorem reportCheck_noService (h : callIndex s.calls.calls f.service = none) : reportCheck f s = .error .noService := by
  rw [reportCheck, if_neg grade, if_neg (by simp [fields]), if_neg (not_not_intro date)]
  simp only [h]

theorem reportCheck_call {i : Nat} {c : Call} (index : callIndex s.calls.calls f.service = some i) (h : s.calls.calls[i]? = some c) :
    reportCheck f s = if !c.state.live then .error .callEnded else if !mergePasses c f.observed then .error .staleReport else .ok i := by
  rw [reportCheck, if_neg grade, if_neg (by simp [fields]), if_neg (not_not_intro date)]
  simp only [index, h]

end reportCheck

/-- Settles O34: the checks in their order; an accepted report, its answer, and the frame handed over. -/
theorem reportRunningActsOnItsCall : Obligations.ReportRunningActsOnItsCall := by
  intro tag f s serving
  have answers : ∀ {a t}, reportRunning f s = (a, t) → exec (.reportRunning tag f) s = .next (t.answered 13 tag a) := fun e =>
    exec_taken rfl (gate_run (c := .reportRunning) serving (by decide) rfl) e
  have refuses : ∀ r, reportCheck f s = .error r → exec (.reportRunning tag f) s = .next (s.answered 13 tag ⟨.refused, some r, .none⟩) :=
    fun r h => answers (reportRunning_refused h)
  refine ⟨fun unset => refuses _ (reportCheck_noTime unset), fun grade => ⟨fun bad => refuses _ (reportCheck_badReport grade fun e => ?_),
    fun low high day seen => ?_⟩⟩
  · have := (reportFieldsOk_iff _ _).1 e
    omega
  have fields := (reportFieldsOk_iff s.clock.second f).2 ⟨low, high, day, seen⟩
  refine ⟨fun other => refuses _ (reportCheck_wrongDate grade fields other), fun date =>
    ⟨fun none => refuses _ (reportCheck_noService grade fields date (callIndex_none none)), fun i c index at_i => ?_⟩⟩
  have checked := reportCheck_call grade fields date index at_i
  refine ⟨fun past => refuses _ ?_, fun departed lapsed stale => refuses _ ?_,
    fun r a base departed lapsed newer isReport allowance isBase => ?_⟩
  · rw [checked]
    refine if_pos ?_
    rcases past with e | e <;> rw [e] <;> rfl
  · have old : ¬mergePasses c f.observed = true := fun e => by
      obtain ⟨x, report, late⟩ := stale
      exact absurd ((mergePasses_iff _ _).1 e x report) (Nat.not_lt.2 late)
    rw [checked, if_neg (by simp [live_of departed lapsed]), if_pos (by simpa using old)]
  · have accepts : reportCheck f s = .ok i := by
      rw [checked, if_neg (by simp [live_of departed lapsed]), if_neg (by simpa [mergePasses_iff] using newer)]
    have best : bestReportOf f (own s) = r := by rw [isReport, bestReportOf, clampLateness_eq]; rfl
    have taken := acceptReport_taken (r := r) grade at_i departed lapsed (report_differs (by rw [isReport]; exact newer))
      (isBase_of_report allowance isBase)
    obtain ⟨c', calls, _⟩ := taken.call
    have lt : i < s.calls.calls.length := (List.getElem?_eq_some_iff.1 at_i).1
    have at_i' : (acceptReport i r s).calls.calls[i]? = some c' := by
      rw [calls]
      exact List.getElem?_set_self lt
    refine ⟨acceptReport i r s, c', taken, at_i', ?_⟩
    refine (answers (a := .ok (.reportTaken i c'.state)) (t := hand (.running ⟨c.service, s.calls.date, r.point, r.lateness, r.observed,
      r.cancelled⟩) (acceptReport i r s)) ?_).trans rfl
    have payload : runningPayload (acceptReport i r s) c' r = .running ⟨c.service, s.calls.date, r.point, r.lateness, r.observed,
        r.cancelled⟩ := by
      rw [runningPayload, acceptReport_service at_i at_i', calls]
    simp only [reportRunning, accepts, best, stateOfCall, sendReport, at_i', payload]

end Sys2Proof.Machine
end

