-- ==== Sys2Proof/Proofs/NearestCalls.lean ====
section
/-! SUPPORT. Observations of peers (R49 to R52): the nearest call, and what the observation makes of it. -/

namespace Sys2Proof.Machine

/-! ### The nearest candidate (R49) -/

theorem foldl_nearer {best : Nat × Nat × Nat} {l : List (Nat × Nat × Nat)} (h : ∀ x ∈ l, x = best ∨ best.2.1 < x.2.1) :
    l.foldl nearer best = best := by
  induction l with
  | nil => rfl
  | cons x xs ih =>
    have keeps : nearer best x = best := by
      rcases h x List.mem_cons_self with e | far
      · rw [e, nearer, ite_self]
      · exact if_neg (by simp only [Bool.or_eq_true, Bool.and_eq_true, decide_eq_true_eq]; omega)
    rw [List.foldl_cons, keeps]
    exact ih fun y hy => h y (List.mem_cons_of_mem x hy)

theorem foldl_nearer_reaches {best start : Nat × Nat × Nat} {l : List (Nat × Nat × Nat)} (mem : best ∈ l) (far : best.2.1 < start.2.1)
    (h : ∀ x ∈ l, x = best ∨ best.2.1 < x.2.1) : l.foldl nearer start = best := by
  induction l generalizing start with
  | nil => cases mem
  | cons x xs ih =>
    have rest : ∀ y ∈ xs, y = best ∨ best.2.1 < y.2.1 := fun y hy => h y (List.mem_cons_of_mem x hy)
    rw [List.foldl_cons]
    rcases h x List.mem_cons_self with rfl | beyond
    · rw [nearer, if_pos (by simp [far])]
      exact foldl_nearer rest
    · refine ih ((List.mem_cons.1 mem).resolve_left fun e => ?_) ?_ rest
      · rw [e] at beyond
        exact beyond.false
      · unfold nearer
        split
        · exact beyond
        · exact far

theorem nearest_of_least {best : Nat × Nat × Nat} {l : List (Nat × Nat × Nat)} (mem : best ∈ l)
    (h : ∀ x ∈ l, x = best ∨ best.2.1 < x.2.1) : nearest l = some best.1 := by
  cases l with
  | nil => cases mem
  | cons x xs =>
    have rest : ∀ y ∈ xs, y = best ∨ best.2.1 < y.2.1 := fun y hy => h y (List.mem_cons_of_mem x hy)
    rw [nearest]
    rcases h x List.mem_cons_self with rfl | beyond
    · rw [foldl_nearer rest]
    · rw [foldl_nearer_reaches ((List.mem_cons.1 mem).resolve_left fun e => ?_) beyond rest]
      rw [e] at beyond
      exact beyond.false

theorem mem_candidates {dist : Call → Option Nat} {calls : List Call} {x : Nat × Nat × Nat} :
    x ∈ candidates dist calls ↔ ∃ c d, calls[x.1]? = some c ∧ dist c = some d ∧ x = (x.1, d, c.schedArr) := by
  simp only [candidates, List.mem_filterMap, List.mem_zipIdx_iff_getElem?, Option.map_eq_some_iff, Prod.exists]
  constructor
  · rintro ⟨c, i, at_i, d, found, rfl⟩
    exact ⟨c, d, at_i, found, rfl⟩
  · rintro ⟨c, d, at_i, found, e⟩
    exact ⟨c, x.1, at_i, d, found, e.symm⟩

theorem nearest_none {dist : Call → Option Nat} {calls : List Call} (h : ∀ c ∈ calls, dist c = none) :
    nearest (candidates dist calls) = none := by
  have empty : candidates dist calls = [] := by
    refine List.eq_nil_iff_forall_not_mem.2 fun x mem => ?_
    obtain ⟨c, d, at_i, found, _⟩ := mem_candidates.1 mem
    rw [h c (List.mem_of_getElem? at_i)] at found
    cases found
  rw [empty]
  rfl

/-- The call strictly nearest is the one matched. -/
theorem nearest_some {dist : Call → Option Nat} {calls : List Call} {i d : Nat} {c : Call} (at_i : calls[i]? = some c)
    (found : dist c = some d) (others : ∀ j x y, j ≠ i → calls[j]? = some x → dist x = some y → d < y) :
    nearest (candidates dist calls) = some i := by
  refine nearest_of_least (best := (i, d, c.schedArr)) (mem_candidates.2 ⟨c, d, at_i, found, rfl⟩) fun x mem => ?_
  obtain ⟨c', d', at_j, found', e⟩ := mem_candidates.1 mem
  by_cases same : x.1 = i
  · left
    rw [same, at_i, Option.some.injEq] at at_j
    subst at_j
    rw [found, Option.some.injEq] at found'
    rw [e, same, found']
  · right
    have less := others x.1 c' d' same at_j found'
    rw [e]
    exact less

section distances
variable {o : ApproachObs} {c : Call} {d : Nat}

theorem duplicateDistance_some : duplicateDistance o c = some d ↔ ∃ a, c.approach = some a ∧ c.direction = o.direction ∧
    c.state.atHand = true ∧ natDist (a.detect + a.eta) (o.detect + o.etaFor c.kind) ≤ 300 ∧
    d = natDist (a.detect + a.eta) (o.detect + o.etaFor c.kind) := by
  unfold duplicateDistance
  cases c.approach with
  | none => simp
  | some a =>
    simp only [Option.ite_none_right_eq_some, Option.some.injEq, Bool.and_eq_true, decide_eq_true_eq, exists_eq_left', and_assoc,
      eq_comm (a := d)]

theorem freshDistance_some : freshDistance o c = some d ↔ ∃ e, c.estimates = some e ∧ c.direction = o.direction ∧
    c.state.awaited = true ∧ natDist e.arr (o.detect + o.etaFor c.kind) ≤ 1200 ∧ d = natDist e.arr (o.detect + o.etaFor c.kind) := by
  unfold freshDistance
  cases c.estimates with
  | none => simp
  | some a =>
    simp only [Option.ite_none_right_eq_some, Option.some.injEq, Bool.and_eq_true, decide_eq_true_eq, exists_eq_left', and_assoc,
      eq_comm (a := d)]

theorem departureDistance_some {direction : Direction} {second : Nat} : departureDistance direction second c = some d ↔
    ∃ e, c.estimates = some e ∧ c.direction = direction ∧ c.state.atHand = true ∧ natDist e.dep second ≤ 900 ∧ d = natDist e.dep second := by
  unfold departureDistance
  cases c.estimates with
  | none => simp
  | some a =>
    simp only [Option.ite_none_right_eq_some, Option.some.injEq, Bool.and_eq_true, decide_eq_true_eq, exists_eq_left', and_assoc,
      eq_comm (a := d)]

end distances

/-! ### The board's warning (R163, R164) -/

theorem boardActive_iff (s : State) : boardActive s = true ↔ s.Composing := by
  simp [boardActive, State.Composing, Option.isSome_iff_ne_none]

theorem raiseWarning_idle {s : State} (h : ¬s.Composing) (d : Direction) : raiseWarning d s = s :=
  if_neg fun e => h ((boardActive_iff s).1 e)

theorem raiseWarning_composes {s : State} (h : s.Composing) (d : Direction) : raiseWarning d s =
    compose { s with board := s.board.setWarning d (some ⟨s.clock.tick, 900⟩) } := if_pos ((boardActive_iff s).2 h)

theorem clearWarning_idle {s : State} {d : Direction} (h : ¬s.Composing ∨ s.board.warning d = none) : clearWarning d s = s := by
  refine if_neg fun e => ?_
  rw [Bool.and_eq_true, boardActive_iff, Option.isSome_iff_ne_none] at e
  exact h.elim (absurd e.1) e.2

theorem clearWarning_composes {s : State} {d : Direction} (h : s.Composing) (warned : s.board.warning d ≠ none) :
    clearWarning d s = compose { s with board := s.board.setWarning d none } :=
  if_pos (by rw [Bool.and_eq_true, boardActive_iff, Option.isSome_iff_ne_none]; exact ⟨h, warned⟩)

theorem compose_warning (s : State) (d : Direction) : (compose s).board.warning d = s.board.warning d := by
  unfold compose
  split
  · simp only [State.withBoard, Board.handToPort]
    cases d <;> split <;> rfl
  · rfl

theorem clearWarning_clears {s : State} (h : s.Composing) (d : Direction) : (clearWarning d s).board.warning d = none := by
  by_cases warned : s.board.warning d = none
  · rw [clearWarning_idle (.inr warned)]
    exact warned
  · rw [clearWarning_composes h warned, compose_warning]
    cases d <;> rfl

/-- A change that keeps the roles and the rotation timer keeps the board at work. -/
theorem Inner.composing {s t : State} (m : Inner s t) : t.Composing ↔ s.Composing := by
  rw [State.Composing, State.Composing, m.setup, m.rotation]

/-! ### An approach (R27, R46, R49 to R51) -/

theorem le_departureFrom (minDwell : Nat) (c : Call) (arr : Nat) : arr ≤ departureFrom minDwell c arr := by
  unfold departureFrom
  split <;> omega

theorem withApproach_eq {minDwell : Nat} {c : Call} {e : Estimates} (timed : c.estimates = some e) (a : ApproachRecord) :
    c.withApproach minDwell a = { c with approach := some a, source := .approach, delayed := false
                                         estimates := some ⟨e.base, max (a.detect + a.eta) (c.schedArr - 900),
                                           departureFrom minDwell c (max (a.detect + a.eta) (c.schedArr - 900)), 0⟩ } := by
  simp only [Call.withApproach, timed, setArrival_eq, approachArrival]

/-- A call APPROACHING that is not due is left by an evaluation as it is. -/
theorem evaluated_approaching {w : Coverage} {second minDwell arr dep base : Nat} {c : Call} (state : c.state = .approaching)
    (timed : c.estimates = some ⟨base, arr, dep, 0⟩) (after : arr ≤ dep) (early : second < arr) : evaluated ⟨w, second, minDwell⟩ c = c := by
  refine ((evaluated_to w second minDwell c).departs _ _ timed rfl (.inr ⟨state, early⟩)).trans ?_
  rw [if_neg (by simp only; omega)]

/-- A call takes an approach of which board and host are told, and is not due. -/
theorem takeApproach_told {i : Nat} {c new : Call} {base arr dep : Nat} {s : State} (grade : s.clock.grade ≠ .unset)
    (h : s.calls.calls[i]? = some c) (state : new.state = .approaching) (timed : new.estimates = some ⟨base, arr, dep, 0⟩) (after : arr ≤ dep)
    (early : s.clock.second < arr) (differs : c.state ≠ new.state ∨ c.approach ≠ new.approach) : takeApproach i new s =
      raise (.callChanged s.calls.buildCount) (compose (setCall i new s)) := by
  have changes : boardChange c new = true ∧ noticeChange c new = true := by
    rcases differs with e | e <;> simp [boardChange, noticeChange, bne_iff_ne.2 e]
  have same : evaluated (evalContext (commitCall i new s)) new = new := by
    rw [commitCall_context]
    exact evaluated_approaching state timed after early
  rw [takeApproach, evalCall_self (by rw [(commitCall_inner i new s).clock]; exact grade) (commitCall_at h new) same]
  exact commitCall_told h (by rw [state]; rfl) changes.1 changes.2

section approach
variable {o : ApproachObs} {s : State}

theorem approachObserved_unmatched (h : s.clock.grade = .unset ∨ ((∀ c ∈ s.calls.calls, duplicateDistance o c = none) ∧
    ∀ c ∈ s.calls.calls, freshDistance o c = none)) : (approachObserved o s).2 = raiseWarning o.direction s := by
  unfold approachObserved
  split
  · rfl
  · next timed =>
    obtain ⟨duplicate, fresh⟩ := h.resolve_left timed
    simp only [nearest_none duplicate, nearest_none fresh]

theorem approachObserved_fresh {i : Nat} {c : Call} (grade : s.clock.grade ≠ .unset)
    (duplicate : ∀ c ∈ s.calls.calls, duplicateDistance o c = none) (fresh : nearest (candidates (freshDistance o) s.calls.calls) = some i)
    (h : s.calls.calls[i]? = some c) : (approachObserved o s).2 =
      warnIfPass c o.direction (takeApproach i (c.matched s.setup.settings.minDwell (o.recordFor c)) s) := by
  simp only [approachObserved, if_neg grade, nearest_none duplicate, fresh, h]

theorem approachObserved_duplicate {i : Nat} {c : Call} {a : ApproachRecord} (grade : s.clock.grade ≠ .unset)
    (duplicate : nearest (candidates (duplicateDistance o) s.calls.calls) = some i) (h : s.calls.calls[i]? = some c)
    (record : c.approach = some a) (stops : c.kind = .stop) : (approachObserved o s).2 =
      if o.replaces a then takeApproach i (c.withApproach s.setup.settings.minDwell (o.recordFor c)) s else s := by
  simp only [approachObserved, if_neg grade, duplicate, h, record, warnIfPass, stops, reduceCtorEq, if_false]

end approach

/-- Settles O35: the nearest call takes the approach, or the earlier of two stands, or the warning is raised. -/
theorem approachFrameMatchesTheNearestCall : Obligations.ApproachFrameMatchesTheNearestCall := by
  rintro h f s u eta c fields rfl isEta
  obtain ⟨o, ho⟩ : ∃ o : ApproachObs, o = ⟨f.direction, f.detect, f.speed, f.etaStop, f.etaPass, f.pair, h.origin⟩ := ⟨_, rfl⟩
  have path : exec (.approachReceived h f) s = .next (approachObserved o (s.heardFrom h.origin)).2 :=
    ho ▸ congrArg Host.Outcome.next (receive_present c fields _)
  have due : ∀ c, o.detect + o.etaFor c.kind = eta c := fun c => by
    rw [isEta, ho]
    cases c.kind <;> rfl
  have direction : o.direction = f.direction := by rw [ho]
  have far : ∀ c ∈ s.calls.calls, (c.direction = f.direction → c.state.atHand = true → ∀ x, c.approach = some x →
      300 < natDist (x.detect + x.eta) (eta c)) → duplicateDistance o c = none := fun c _ h =>
    Option.eq_none_iff_forall_ne_some.2 fun d e => by
      obtain ⟨a, record, same, near, close, _⟩ := duplicateDistance_some.1 e
      rw [due] at close
      exact absurd (h (same.trans direction) near a record) (Nat.not_lt.2 close)
  have record : ∀ c, o.recordFor c = ⟨f.detect, f.speed, eta c - f.detect, f.pair, h.origin⟩ := fun c => by
    rw [← due c, ho]
    simp only [ApproachObs.recordFor, Nat.add_sub_cancel_left]
  have due' : ∀ c, f.detect + (eta c - f.detect) = eta c := fun c => by
    rw [isEta]
    omega
  refine ⟨fun unmatched => ?_, fun i c e grade at_i same timed => ⟨fun awaited close alone least arr v isArr early hv => ?_,
    fun x state stops held close least => ?_⟩⟩
  · have warns : (approachObserved o (s.heardFrom h.origin)).2 = raiseWarning f.direction (s.heardFrom h.origin) := by
      rw [approachObserved_unmatched, direction]
      refine unmatched.imp_right fun none => ⟨fun c mem => far c mem fun d => (none c mem d).2, fun c mem => ?_⟩
      refine Option.eq_none_iff_forall_ne_some.2 fun d e => ?_
      obtain ⟨est, timed, same, awaited, close, _⟩ := freshDistance_some.1 e
      rw [due] at close
      exact absurd ((none c mem (same.trans direction)).1 awaited est timed) (Nat.not_lt.2 close)
    rw [path, warns]
    exact ⟨fun idle => congrArg _ (raiseWarning_idle (s := s.heardFrom h.origin) idle _),
      fun composing => congrArg _ (raiseWarning_composes (s := s.heardFrom h.origin) composing _)⟩
  · have finds : nearest (candidates (freshDistance o) s.calls.calls) = some i := by
      refine nearest_some at_i (freshDistance_some.2 ⟨e, timed, same.trans direction.symm, awaited, by rw [due]; exact close, rfl⟩)
        fun j x d other at_j found => ?_
      obtain ⟨y, timed', same', awaited', _, rfl⟩ := freshDistance_some.1 found
      rw [due, due]
      exact least j x y other at_j (same'.trans direction) awaited' timed'
    obtain ⟨new, hn⟩ : ∃ new, new = c.matched s.setup.settings.minDwell (o.recordFor c) := ⟨_, rfl⟩
    have matched : new = { c with
        state := .approaching, source := .approach, delayed := false
        approach := some ⟨f.detect, f.speed, eta c - f.detect, f.pair, h.origin⟩
        estimates := some ⟨e.base, arr, departureFrom s.setup.settings.minDwell c arr, 0⟩ } := by
      rw [hn, Call.matched, withApproach_eq timed, record c, due' c, isArr]
    have told : takeApproach i new (s.heardFrom h.origin) = v := by
      refine (takeApproach_told (s := s.heardFrom h.origin) grade at_i (by rw [matched]) (by rw [matched]) (le_departureFrom _ c arr) early
        (.inl ?_)).trans ?_
      · rw [matched]
        intro e
        rw [e] at awaited
        cases awaited
      · rw [hv, matched]
        rfl
    have result := approachObserved_fresh (o := o) (s := s.heardFrom h.origin) grade
      (fun c mem => far c mem fun d near x record => alone c mem d near x record) finds at_i
    rw [show (s.heardFrom h.origin).setup = s.setup from rfl, ← hn, told, direction] at result
    have inner : Inner (s.heardFrom h.origin) v := told ▸ (commitCall_inner i new _).trans (evalCall_committed i _).inner
    rw [path, result]
    constructor
    · rintro (stops | idle)
      · exact congrArg _ (if_neg (by rw [stops]; decide))
      · unfold warnIfPass
        split
        · exact congrArg _ (raiseWarning_idle (fun composing => idle (inner.composing.1 composing)) _)
        · rfl
    · intro passes composing
      rw [warnIfPass, if_pos passes, raiseWarning_composes (inner.composing.2 composing), inner.clock]
      rfl
  · have near : c.state.atHand = true := by rw [state]; rfl
    have finds : nearest (candidates (duplicateDistance o) s.calls.calls) = some i := by
      refine nearest_some at_i (duplicateDistance_some.2 ⟨x, held, same.trans direction.symm, near, by rw [due]; exact close, rfl⟩)
        fun j z d other at_j found => ?_
      obtain ⟨y, held', same', near', _, rfl⟩ := duplicateDistance_some.1 found
      rw [due, due]
      exact least j z y other at_j (same'.trans direction) near' held'
    have result := approachObserved_duplicate (o := o) (s := s.heardFrom h.origin) grade finds at_i held stops
    have replaces : o.replaces x = true ↔ f.detect < x.detect ∨ (f.detect = x.detect ∧ h.origin < x.origin) := by
      rw [ho]
      simp only [ApproachObs.replaces, Bool.or_eq_true, Bool.and_eq_true, decide_eq_true_eq]
    rw [path, result]
    refine ⟨fun stands => congrArg _ (if_neg fun e => ?_), fun arr earlier isArr early => congrArg _ ((if_pos (replaces.2 earlier)).trans ?_)⟩
    · have := replaces.1 e
      omega
    · obtain ⟨new, hn⟩ : ∃ new, new = c.withApproach s.setup.settings.minDwell (o.recordFor c) := ⟨_, rfl⟩
      have taken : new = { c with
          source := .approach, delayed := false
          approach := some ⟨f.detect, f.speed, eta c - f.detect, f.pair, h.origin⟩
          estimates := some ⟨e.base, arr, departureFrom s.setup.settings.minDwell c arr, 0⟩ } := by
        rw [hn, withApproach_eq timed, record c, due' c, isArr]
      rw [show (s.heardFrom h.origin).setup = s.setup from rfl, ← hn]
      refine (takeApproach_told (s := s.heardFrom h.origin) grade at_i (by rw [taken]; exact state) (by rw [taken]) (le_departureFrom _ c arr)
        early (.inr ?_)).trans ?_
      · rw [held, taken]
        intro e
        have fields := Option.some.inj e
        have detects : x.detect = f.detect := congrArg ApproachRecord.detect fields
        have origins : x.origin = h.origin := congrArg ApproachRecord.origin fields
        omega
      · rw [taken]
        rfl

/-! ### A departure (R29, R52) -/

section departure
variable {d : Direction} {second : Nat} {s : State}

theorem departureObserved_unmatched (h : s.clock.grade = .unset ∨ ∀ c ∈ s.calls.calls, departureDistance d second c = none) :
    (departureObserved d second s).2 = clearWarning d s := by
  unfold departureObserved
  split
  · rfl
  · next timed => simp only [nearest_none (h.resolve_left timed)]

theorem departureObserved_matched {i : Nat} {c : Call} (grade : s.clock.grade ≠ .unset)
    (finds : nearest (candidates (departureDistance d second) s.calls.calls) = some i) (h : s.calls.calls[i]? = some c) :
    (departureObserved d second s).2 = clearWarning d (commitCall i { c with state := .departed, sensed := true } s) := by
  simp only [departureObserved, if_neg grade, finds, h]

end departure

/-- With no sale open, the end of a call by DEPARTED takes its claims away and tells board and host alone. -/
theorem commitCall_departs {i : Nat} {c : Call} {s : State} (h : s.calls.calls[i]? = some c) (near : c.state.atHand = true)
    (idle : s.sales.sale = none) {new : Call} (state : new.state = .departed) (service : new.service = c.service) :
    OnPanel { setCall i new s with claims := s.claims.filter (fun x => !(x.service = c.service && x.date = s.calls.date)) }
      (commitCall i new s) := by
  have live : c.state.over = false := by
    revert near
    cases c.state <;> decide
  have handed : callHanded i c new s =
      { setCall i new s with claims := s.claims.filter (fun x => !(x.service = c.service && x.date = s.calls.date)) } := by
    have past : (new.state.over && !c.state.over) = true := by rw [state, live]; rfl
    have open' : saleCallEnded new.service (setCall i new s) = setCall i new s :=
      saleCallEnded_other (s := setCall i new s) fun r x sale => by
        rw [show (setCall i new s).sales = s.sales from rfl, idle] at sale
        cases sale
    rw [callHanded, if_pos past, callEnded, open', removeCallClaims, service, state]
    rfl
  rw [commitCall_some h, handed]
  exact notifyCall_onPanel _ _ _

/-- Settles O36: the nearest call at hand departs, and the warning of its direction is cleared. -/
theorem departFrameEndsTheNearestCall : Obligations.DepartFrameEndsTheNearestCall := by
  rintro h f s u c fields rfl
  have path : exec (.departReceived h f) s = .next (departureObserved f.direction f.detect (s.heardFrom h.origin)).2 :=
    congrArg Host.Outcome.next (receive_present c fields _)
  refine ⟨fun unmatched => ?_, fun i c e grade at_i same near timed close least => ?_⟩
  · have clears : (departureObserved f.direction f.detect (s.heardFrom h.origin)).2 = clearWarning f.direction (s.heardFrom h.origin) := by
      refine departureObserved_unmatched (unmatched.imp_right fun none c mem => Option.eq_none_iff_forall_ne_some.2 fun d e => ?_)
      obtain ⟨est, timed, same, near, close, _⟩ := departureDistance_some.1 e
      exact absurd (none c mem same near est timed) (Nat.not_lt.2 close)
    rw [path, clears]
    exact ⟨fun idle => congrArg _ (clearWarning_idle (s := s.heardFrom h.origin) idle),
      fun composing warned => congrArg _ (clearWarning_composes (s := s.heardFrom h.origin) composing warned)⟩
  · have finds : nearest (candidates (departureDistance f.direction f.detect) s.calls.calls) = some i := by
      refine nearest_some at_i (departureDistance_some.2 ⟨e, timed, same, near, close, rfl⟩) fun j x d other at_j found => ?_
      obtain ⟨y, timed', same', near', _, rfl⟩ := departureDistance_some.1 found
      exact least j x y other at_j same' near' timed'
    rw [departureObserved_matched (s := s.heardFrom h.origin) grade finds at_i] at path
    obtain ⟨w, hw⟩ : ∃ w, w = commitCall i { c with state := .departed, sensed := true } (s.heardFrom h.origin) := ⟨_, rfl⟩
    have run : Committed (s.heardFrom h.origin) w := hw ▸ commitCall_committed fun old e => by
      rw [show (s.heardFrom h.origin).calls.calls[i]? = s.calls.calls[i]? from rfl, at_i, Option.some.injEq] at e
      subst e
      exact ⟨rfl, fun _ => rfl⟩
    have calls : w.calls = { s.calls with calls := s.calls.calls.set i { c with state := .departed, sensed := true } } := by
      rw [hw, commitCall_calls]
      rfl
    have ended : Ended (s.heardFrom h.origin) w c.service := by
      refine ⟨i, c, { c with state := .departed, sensed := true }, at_i, ?_, rfl, ?_, rfl⟩
      · rw [hw]
        exact commitCall_at (s := s.heardFrom h.origin) at_i _
      · revert near
        cases c.state <;> decide
    have last := clearWarning_eq f.direction w
    have inner : Inner (s.heardFrom h.origin) (clearWarning f.direction w) := run.inner.trans (clearWarning_keeps f.direction w).toInner
    have onTable : OnTable (s.heardFrom h.origin) (clearWarning f.direction w) :=
      run.onTable.trans (clearWarning_observed f.direction w).onTable
    have claims : (clearWarning f.direction w).claims = w.claims := by rw [last]
    have sales : (clearWarning f.direction w).sales = w.sales := by rw [last]
    rw [← hw] at path
    refine ⟨_, path, by rw [last]; exact calls, fun x mem => ?_, fun x y sale stage space service date => ?_, fun idle => ?_,
      fun _ composing => clearWarning_clears (run.inner.composing.2 composing) _, onTable.eq.trans rfl, inner.peers, inner.journal⟩
    · obtain ⟨mem, gone⟩ := run.claims x (claims ▸ mem)
      exact ⟨mem, fun ⟨service, date⟩ => gone ⟨date, service ▸ ended⟩⟩
    · rw [sales]
      exact run.closed x y sale stage space date (service ▸ ended)
    · have panel := commitCall_departs (s := s.heardFrom h.origin) (new := { c with state := .departed, sensed := true }) at_i near idle rfl rfl
      rw [← hw] at panel
      refine ⟨by rw [claims, panel.claims]; rfl, ?_⟩
      obtain ⟨b, n, whole⟩ := panel
      rw [last, whole]
      rfl

end Sys2Proof.Machine
end

