-- ==== Sys2Proof/Proofs/PeerClaims.lean ====
section
/-! SUPPORT. Claims of peers at the Claim List (R147, R149, R151). -/

namespace Sys2Proof.Machine

/-! ### A claim that may join (R151) -/

theorem claimCallHeld_false {f : ClaimFields} {s : State} (h : f.date ≠ s.clock.date ∨ s.calls.date ≠ f.date ∨
    ∀ c ∈ s.calls.calls, c.service = f.service → c.state = .departed ∨ c.state = .lapsed ∨ c.state = .cancelled) :
    claimCallHeld f s = false := by
  rw [claimCallHeld, Bool.and_eq_false_iff, decide_eq_false_iff_not]
  refine h.imp_right fun h => ?_
  unfold callFor
  by_cases date : s.calls.date = f.date
  · rw [if_pos date]
    cases found : s.calls.calls.find? (fun c => c.service = f.service) with
    | none => rfl
    | some c =>
      have service : c.service = f.service := by simpa using List.find?_some found
      have ended : c.state.over = true := by
        rcases h.resolve_left (not_not_intro date) c (List.mem_of_find?_eq_some found) service with e | e | e <;> rw [e] <;> rfl
      simp [ended]
  · rw [if_neg date]

theorem claimCallHeld_true {f : ClaimFields} {s : State} {c : Call} (today : f.date = s.clock.date) (date : s.calls.date = f.date)
    (found : s.calls.calls.find? (fun x => x.service = f.service) = some c) (live : c.state.over = false) : claimCallHeld f s = true := by
  simp only [claimCallHeld, callFor, if_pos date, found, live, decide_eq_true today, Bool.not_false, Bool.and_self]

theorem CallState.over_false {a : CallState} (departed : a ≠ .departed) (lapsed : a ≠ .lapsed) (cancelled : a ≠ .cancelled) :
    a.over = false := by
  revert departed lapsed cancelled
  cases a <;> decide

theorem takeIn_full {c : Claim} {s : State} (h : 24 ≤ s.claims.length) : takeIn c s = s := if_neg (Nat.not_lt.2 h)

/-- With no own claim queued the test after a claim joins asks for nothing (R149). -/
theorem withdrawalTest_none {s : State} (h : ∀ x ∈ s.claims, ¬(x.state = .queued ∧ x.origin = s.setup.straps.station)) :
    withdrawalTest s = s := by
  have none : s.claims.find? (fun c => c.state = .queued && c.origin = own s) = none := by
    refine List.find?_eq_none.2 fun x mem => ?_
    rw [Bool.and_eq_true, decide_eq_true_eq, decide_eq_true_eq]
    exact h x mem
  simp only [withdrawalTest, none]

theorem takeIn_joins {c : Claim} {s : State} (room : s.claims.length < 24) (waiting : c.state ≠ .queued)
    (h : ∀ x ∈ s.claims, ¬(x.state = .queued ∧ x.origin = s.setup.straps.station)) :
    takeIn c s = s.withClaims (s.claims ++ [c]) := by
  refine (if_pos room).trans (withdrawalTest_none fun x mem => ?_)
  rcases List.mem_append.1 mem with old | new
  · exact h x old
  · rw [List.mem_singleton.1 new]
    exact fun e => waiting e.1

section handOn
variable {origin : Nat} {f : ClaimFields} {s : State}

theorem claimHandOn_held {c : Claim} (found : findClaim s.claims origin f.seq = some c) : claimHandOn origin f s = s := by
  simp only [claimHandOn, found]

theorem takenHandOn_held {c : Claim} (found : findClaim s.claims origin f.seq = some c) : takenHandOn origin f s =
    if c.state = .pending then updateClaim origin f.seq (fun x => { x with state := .taken, heard := none }) s else s := by
  simp only [takenHandOn, found]

variable (unknown : findClaim s.claims origin f.seq = none)
include unknown

theorem claimHandOn_new : claimHandOn origin f s =
    if claimCallHeld f s then takeIn (claimOf origin f .pending (some s.clock.tick) s) s else s := by
  simp only [claimHandOn, unknown]

theorem takenHandOn_new : takenHandOn origin f s = if claimCallHeld f s then takeIn (claimOf origin f .taken none s) s else s := by
  simp only [takenHandOn, unknown]

end handOn

/-! ### The lifetime of a claim (R151) -/

theorem claimLapsed_iff (tick : Tick) (c : Claim) : claimLapsed tick c = true ↔
    c.state = .pending ∧ ∃ t, c.heard = some t ∧ t + 1800 ≤ tick := by
  unfold claimLapsed
  cases c.heard with
  | none => simp
  | some t =>
    have due : (timerFrom t 180).due tick = true ↔ t + 1800 ≤ tick := decide_eq_true_iff
    simp only [Bool.and_eq_true, decide_eq_true_eq, due, Option.some.injEq, exists_eq_left']

/-! ### An own claim withdrawn (R149) -/

theorem occupancy_append (l : List Claim) (c : Claim) (service : Nat) (date : Date) (cls : SpaceClass) (counts : c.counts = true) :
    occupancy (l ++ [c]) service date cls = occupancy l service date cls + (if c.isFor service date cls then 1 else 0) := by
  rw [occupancy, occupancy, List.filter_append, List.length_append]
  congr 1
  cases same : c.isFor service date cls <;> simp [counts, same]

/-- The own queued claim of a sale CLAIMING is withdrawn when its class is full: frame, claim and sale go. -/
theorem withdrawalTest_full {s : State} {q : Claim} {r : SaleRecord} {i : Nat}
    (queued : s.claims.find? (fun x => x.state = .queued && x.origin = own s) = some q)
    (keyed : findClaim s.claims (own s) q.seq = some q)
    (full : capacityOf s q.service q.date q.cls ≤ occupancy s.claims q.service q.date q.cls)
    (sale : s.sales.sale = some r) (stage : r.stage = .claiming) (claim : r.claim = some q.seq)
    (frame : s.line.queue.findIdx? (fun x => x.seq = q.seq && x.payload.kind = .claim) = some i) :
    (withdrawalTest s).sales = { s.sales with sale := none } ∧
    (withdrawalTest s).line = s.line.remove s.clock.tick i ∧
    (withdrawalTest s).claims = s.claims.filter (fun x => !x.hasKey (own s) q.seq) ∧ OnSale s (withdrawalTest s) := by
  obtain ⟨v, hv⟩ : ∃ v, v = s.withLine (s.line.remove s.clock.tick i) := ⟨_, rfl⟩
  have withdrawn : withdrawClaim q.seq s = (true, v) := by
    simp only [withdrawClaim, frame, hv]
  have path : withdrawalTest s = failClaim .noSpace q.seq v := by
    simp only [withdrawalTest, queued, if_pos full, withdrawn, if_true]
  have isQueued : q.state = .queued := by
    have := List.find?_some queued
    simp only [Bool.and_eq_true, decide_eq_true_eq] at this
    exact this.1
  obtain ⟨claims, line, sales, _⟩ := failClaim_queued (n := q.seq) (s := v) (fun c found => by
    rw [hv] at found
    exact Option.some.inj (keyed.symm.trans found) ▸ isQueued) .noSpace
  refine ⟨?_, ?_, ?_, withdrawalTest_onSale s⟩
  · rw [path, sales r (by rw [hv]; exact sale) stage claim, hv]
    rfl
  · rw [path, line, hv]
    rfl
  · rw [path, claims, hv]
    rfl

/-- Settles O37: what each frame of a claim does at the list, the lifetime, and the withdrawal. -/
theorem claimFramesKeepTheClaimList : Obligations.ClaimFramesKeepTheClaimList := by
  constructor
  · rintro h f s u c fields rfl unqueued
    have claimPath : exec (.claimReceived h f) s = .next (claimHandOn h.origin f (s.heardFrom h.origin)) :=
      congrArg Host.Outcome.next (receive_present c fields _)
    have takenPath : exec (.takenReceived h f) s = .next (takenHandOn h.origin f (s.heardFrom h.origin)) :=
      congrArg Host.Outcome.next (receive_present c fields _)
    have releasePath : exec (.releaseReceived h f) s = .next (releaseHandOn h.origin f (s.heardFrom h.origin)) :=
      congrArg Host.Outcome.next (receive_present c fields _)
    refine ⟨fun k found => ?_, fun unknown => ?_, releasePath, fun o q => ⟨fun early => ?_, fun k t found pending heard late => ?_⟩⟩
    · have held := takenHandOn_held (s := s.heardFrom h.origin) found
      rw [claimPath, takenPath, claimHandOn_held (s := s.heardFrom h.origin) found, held]
      refine ⟨rfl, fun other => congrArg _ (if_neg other), fun pending => congrArg _ ((if_pos pending).trans ?_)⟩
      simp only [updateClaim, Claim.hasKey, Bool.and_eq_true, decide_eq_true_eq]
      rfl
    · rw [claimPath, takenPath, claimHandOn_new (s := s.heardFrom h.origin) unknown, takenHandOn_new (s := s.heardFrom h.origin) unknown]
      refine ⟨fun bad => ?_, fun room today date k found departed lapsed cancelled => ?_⟩
      · rcases bad with full | bad
        · rw [takeIn_full (s := s.heardFrom h.origin) full, takeIn_full (s := s.heardFrom h.origin) full, ite_self]
          exact ⟨rfl, rfl⟩
        · rw [claimCallHeld_false (s := s.heardFrom h.origin) bad]
          exact ⟨rfl, rfl⟩
      · have held := claimCallHeld_true (s := s.heardFrom h.origin) today date found (CallState.over_false departed lapsed cancelled)
        rw [if_pos held, if_pos held, takeIn_joins (s := s.heardFrom h.origin) room (by simp [claimOf]) unqueued,
          takeIn_joins (s := s.heardFrom h.origin) room (by simp [claimOf]) unqueued]
        exact ⟨rfl, rfl⟩
    · refine congrArg Host.Outcome.next (show claimExpired o q s = s from ?_)
      unfold claimExpired
      split
      · next k found =>
        refine if_neg fun lapsed => ?_
        obtain ⟨pending, t, heard, late⟩ := (claimLapsed_iff _ _).1 lapsed
        rcases early k found with e | e
        · exact e pending
        · exact absurd late (Nat.not_le.2 (e t heard))
      · rfl
    · refine congrArg Host.Outcome.next (show claimExpired o q s = _ from ?_)
      simp only [claimExpired, found, if_pos ((claimLapsed_iff _ _).2 ⟨pending, t, heard, late⟩)]
      rfl
  · intro h f s q c r i present fields unknown room today date found live queued keyed full sale stage claim frame
    have path : exec (.claimReceived h f) s = .next (claimHandOn h.origin f (s.heardFrom h.origin)) :=
      congrArg Host.Outcome.next (receive_present present fields _)
    obtain ⟨k, hk⟩ : ∃ k, k = claimOf h.origin f .pending (some s.clock.tick) (s.heardFrom h.origin) := ⟨_, rfl⟩
    obtain ⟨v, hv⟩ : ∃ v, v = (s.heardFrom h.origin).withClaims (s.claims ++ [k]) := ⟨_, rfl⟩
    have joins : claimHandOn h.origin f (s.heardFrom h.origin) = withdrawalTest v := by
      rw [claimHandOn_new (s := s.heardFrom h.origin) unknown,
        if_pos (claimCallHeld_true (s := s.heardFrom h.origin) today date found live), hv, hk]
      exact if_pos room
    have other : h.origin ≠ s.setup.straps.station := by
      obtain ⟨p, mem, station, _⟩ := present.present
      exact station ▸ present.peers.other mem
    have isFor : k.isFor q.service q.date q.cls = q.isFor f.service f.date f.cls := by
      rw [hk, Bool.eq_iff_iff]
      simp only [Claim.isFor, claimOf, Bool.and_eq_true, decide_eq_true_eq, and_assoc]
      exact and_congr (decide_eq_true_iff.trans eq_comm) (and_congr (decide_eq_true_iff.trans eq_comm) (decide_eq_true_iff.trans eq_comm))
    have mine : own v = s.setup.straps.station := by rw [hv]; rfl
    have listed : v.claims = s.claims ++ [k] := by rw [hv]; rfl
    obtain ⟨sales, line, claims, onSale⟩ := withdrawalTest_full (s := v) (q := q) (r := r) (i := i)
      (by rw [listed, mine, List.find?_append, queued]; rfl)
      (by rw [findClaim] at keyed; rw [listed, mine, findClaim, List.find?_append, keyed]; rfl)
      (by
        rw [hv]
        refine full.trans (le_of_eq ?_)
        rw [State.withClaims_claims, occupancy_append _ _ _ _ _ (by rw [hk]; rfl), isFor])
      (by rw [hv]; exact sale) stage claim (by rw [hv]; exact frame)
    refine ⟨withdrawalTest v, by rw [path, joins], by rw [sales, hv]; rfl, by rw [line, hv]; rfl, ?_, ?_, by rw [line, hv]; rfl,
      by rw [line, hv]; rfl⟩
    · have kept : k.hasKey s.setup.straps.station q.seq = false := by
        rw [hk]
        simp [Claim.hasKey, claimOf, other]
      rw [claims, listed, mine, List.filter_append, List.filter_singleton, kept, hk]
      rfl
    · obtain ⟨_, _, _, _, _, e⟩ := onSale
      rw [e, hv]
      rfl

end Sys2Proof.Machine
end

