-- ==== Sys2Proof/Proofs/ForceOfBulletins.lean ====
section
/-! SUPPORT. The evaluation of force (R169) as one change of the Bulletin List, and the changes that it follows (R168). -/

namespace Sys2Proof.Machine

/-! ### What an evaluation of force makes of the list -/

/-- One bulletin judged: gone when expired, else its flag as defined. -/
theorem judged_cons (c : Clock) (b : Bulletin) (l : List Bulletin) : Judged c (b :: l) =
    (if b.expiredAt c then [] else [{ b with inForce := b.inForceAt c }]) ++ Judged c l := by
  rw [Judged, List.filter_cons]
  cases b.expiredAt c <;> rfl

theorem judged_append (c : Clock) (l m : List Bulletin) : Judged c (l ++ m) = Judged c l ++ Judged c m := by
  simp [Judged]

theorem judged_judged (c : Clock) (l : List Bulletin) : Judged c (Judged c l) = Judged c l := by
  induction l with
  | nil => rfl
  | cons b l ih =>
    rw [judged_cons, judged_append, ih]
    congr 1
    cases expired : b.expiredAt c with
    | true => rfl
    | false =>
      have same : ({ b with inForce := b.inForceAt c } : Bulletin).expiredAt c = false := expired
      simp only [Bool.false_eq_true, if_false, judged_cons, same]
      rfl

/-- An expired bulletin is not in force. -/
theorem Bulletin.inForceAt_expired {b : Bulletin} {c : Clock} (h : b.expiredAt c = true) : b.inForceAt c = false := by
  simp only [Bulletin.expiredAt, Bulletin.inForceAt, Bool.and_eq_true, Bool.not_eq_true', bne_iff_ne, ne_eq] at h ⊢
  simp [h.2]

theorem mem_judged {c : Clock} {l : List Bulletin} {x : Bulletin} (h : x ∈ Judged c l) : x.inForce = x.inForceAt c := by
  obtain ⟨b, _, rfl⟩ := List.mem_map.1 h
  rfl

theorem judged_ids (c : Clock) (l : List Bulletin) : (idsOf (Judged c l)).Sublist (idsOf l) := by
  have same : idsOf (Judged c l) = idsOf (l.filter (fun b => !b.expiredAt c)) := by simp [idsOf, Judged]
  rw [same]
  exact List.filter_sublist.map _

/-- Every bulletin of one id is the one that stands there. -/
theorem hasId_of_ne {b x : Bulletin} (h : ¬(b.origin = x.origin ∧ b.number = x.number)) : x.hasId b.origin b.number = false := by
  rw [Bulletin.hasId, Bool.and_eq_false_iff, decide_eq_false_iff_not, decide_eq_false_iff_not]
  exact not_and_or.1 fun e => h ⟨e.1.symm, e.2.symm⟩

theorem hasId_self (b : Bulletin) : b.hasId b.origin b.number = true := by simp [Bulletin.hasId]

section split
variable {b : Bulletin} {l m : List Bulletin} (distinct : DistinctIds (l ++ b :: m))
include distinct

theorem DistinctIds.apart {x : Bulletin} (mem : x ∈ l ∨ x ∈ m) : x.hasId b.origin b.number = false := by
  rw [DistinctIds, List.pairwise_append, List.pairwise_cons] at distinct
  obtain ⟨_, ⟨after, _⟩, before⟩ := distinct
  rcases mem with mem | mem
  · exact hasId_of_ne fun e => before x mem b List.mem_cons_self ⟨e.1.symm, e.2.symm⟩
  · exact hasId_of_ne (after x mem)

theorem findBulletin_middle : findBulletin (l ++ b :: m) b.origin b.number = some b := by
  have none : l.find? (fun x => x.hasId b.origin b.number) = none :=
    List.find?_eq_none.2 fun x mem => by simp [distinct.apart (.inl mem)]
  rw [findBulletin, List.find?_append, none]
  simp [hasId_self]

theorem filter_middle : (l ++ b :: m).filter (fun x => !x.hasId b.origin b.number) = l ++ m := by
  have keep : ∀ k : List Bulletin, (∀ x ∈ k, x ∈ l ∨ x ∈ m) → k.filter (fun x => !x.hasId b.origin b.number) = k := fun k h =>
    List.filter_eq_self.2 fun x mem => by simp [distinct.apart (h x mem)]
  rw [List.filter_append, List.filter_cons, if_neg (by simp [hasId_self]), keep l fun _ => .inl, keep m fun _ => .inr]

theorem map_middle (f : Bulletin → Bulletin) : (l ++ b :: m).map (fun x => if x.hasId b.origin b.number then f x else x) =
    l ++ f b :: m := by
  have keep : ∀ k : List Bulletin, (∀ x ∈ k, x ∈ l ∨ x ∈ m) → k.map (fun x => if x.hasId b.origin b.number then f x else x) = k :=
    fun k h => (List.map_congr_left fun x mem => by simp [distinct.apart (h x mem)]).trans (List.map_id k)
  rw [List.map_append, List.map_cons, if_pos (hasId_self b), keep l fun _ => .inl, keep m fun _ => .inr]

end split

/-! ### The evaluation of force (R169) -/

/-- Part of a list has been judged: the rest stands as it was. -/
structure ForceRun (s t : State) (done rest : List Bulletin) : Prop where
  list : t.bulletins.list = Judged s.clock done ++ rest
  counter : t.bulletins.counter = s.bulletins.counter
  others : t = { s with bulletins := t.bulletins, board := t.board, notices := t.notices }
  latch : (∃ b ∈ done, b.kind = .suspension ∧ b.inForce = false ∧ b.inForceAt s.clock = true) → t.notices.suspension.isSet = true
  still : (∀ b ∈ done, b.kind = .suspension → b.inForceAt s.clock = true → b.inForce = true) →
    t.notices.suspension = s.notices.suspension
  sets : s.notices.suspension.isSet = true → t.notices.suspension.isSet = true

theorem ForceRun.refl (s : State) : ForceRun s s [] s.bulletins.list :=
  ⟨rfl, rfl, rfl, by simp, fun _ => rfl, id⟩

theorem evaluateBulletin_expired {s : State} {b : Bulletin} (found : findBulletin s.bulletins.list b.origin b.number = some b)
    (expired : b.expiredAt s.clock = true) : evaluateBulletin s (b.origin, b.number) =
      compose (bulletinNotice b .removed (setBulletins (s.bulletins.list.filter (fun x => !x.hasId b.origin b.number)) s)) := by
  simp only [evaluateBulletin, found]
  exact if_pos expired

theorem evaluateBulletin_still {s : State} {b : Bulletin} (found : findBulletin s.bulletins.list b.origin b.number = some b)
    (lasting : b.expiredAt s.clock = false) (same : b.inForce = b.inForceAt s.clock) : evaluateBulletin s (b.origin, b.number) = s := by
  simp only [evaluateBulletin, found]
  rw [if_neg (by simp [lasting]), if_pos same]

theorem evaluateBulletin_flips {s : State} {b : Bulletin} (found : findBulletin s.bulletins.list b.origin b.number = some b)
    (lasting : b.expiredAt s.clock = false) (other : b.inForce ≠ b.inForceAt s.clock) : evaluateBulletin s (b.origin, b.number) =
      compose (if b.kind = .suspension && b.inForceAt s.clock then
        raiseSuspension (setBulletins (s.bulletins.list.map
          (fun x => if x.hasId b.origin b.number then { x with inForce := b.inForceAt s.clock } else x)) s)
        else setBulletins (s.bulletins.list.map
          (fun x => if x.hasId b.origin b.number then { x with inForce := b.inForceAt s.clock } else x)) s) := by
  simp only [evaluateBulletin, found]
  rw [if_neg (by simp [lasting]), if_neg other]

section step
variable {s t : State} {done rest : List Bulletin} {b : Bulletin}

/-- A step of the run, by what it does to the list and to the latch. -/
theorem ForceRun.next (run : ForceRun s t done (b :: rest)) {u : State}
    (list : u.bulletins.list = Judged s.clock (done ++ [b]) ++ rest) (counter : u.bulletins.counter = t.bulletins.counter)
    (others : u = { t with bulletins := u.bulletins, board := u.board, notices := u.notices })
    (raises : b.kind = .suspension ∧ b.inForce = false ∧ b.inForceAt s.clock = true → u.notices.suspension.isSet = true)
    (quiet : ¬(b.kind = .suspension ∧ b.inForce = false ∧ b.inForceAt s.clock = true) → u.notices.suspension = t.notices.suspension) :
    ForceRun s u (done ++ [b]) rest := by
  have sets : t.notices.suspension.isSet = true → u.notices.suspension.isSet = true := fun set => by
    by_cases event : b.kind = .suspension ∧ b.inForce = false ∧ b.inForceAt s.clock = true
    · exact raises event
    · rw [quiet event]
      exact set
  refine ⟨list, counter.trans run.counter, ?_, ?_, fun old => ?_, sets ∘ run.sets⟩
  · rw [others, run.others]
  · rintro ⟨x, mem, event⟩
    rcases List.mem_append.1 mem with before | last
    · exact sets (run.latch ⟨x, before, event⟩)
    · exact raises (List.mem_singleton.1 last ▸ event)
  · have last := old b (List.mem_append_right _ (List.mem_singleton.2 rfl))
    rw [quiet fun event => by simp [last event.1 event.2.2] at event, run.still fun x mem => old x (List.mem_append_left _ mem)]

theorem evaluateBulletin_run (run : ForceRun s t done (b :: rest)) (distinct : DistinctIds (done ++ b :: rest)) :
    ForceRun s (evaluateBulletin t (b.origin, b.number)) (done ++ [b]) rest := by
  have clock : t.clock = s.clock := by rw [run.others]
  have here : DistinctIds (Judged s.clock done ++ b :: rest) := by
    rw [distinctIds_iff] at distinct ⊢
    refine distinct.sublist ?_
    rw [idsOf, idsOf, List.map_append, List.map_append]
    exact (judged_ids s.clock done).append (.refl _)
  have found : findBulletin t.bulletins.list b.origin b.number = some b := by
    rw [run.list]
    exact findBulletin_middle here
  have judged : ∀ k, (if b.expiredAt s.clock then [] else [{ b with inForce := b.inForceAt s.clock }]) = k →
      Judged s.clock (done ++ [b]) ++ rest = Judged s.clock done ++ (k ++ rest) := fun k e => by
    rw [judged_append, judged_cons, e]
    simp [Judged]
  cases expired : b.expiredAt s.clock with
  | true =>
    have dead := Bulletin.inForceAt_expired expired
    rw [evaluateBulletin_expired found (clock ▸ expired)]
    refine run.next ?_ (by simp [setBulletins]) ?_ (fun event => by simp [dead] at event) fun _ => ?_
    · rw [judged [] (if_pos expired), compose_bulletins, bulletinNotice_bulletins, setBulletins_list, run.list, filter_middle here]
      rfl
    · rw [compose_eq]
      rfl
    · rw [compose_eq]
      exact (Notices.add_latches _ _ _).2.1
  | false =>
    have kept := judged [{ b with inForce := b.inForceAt s.clock }] (if_neg (by simp [expired]))
    by_cases same : b.inForce = b.inForceAt s.clock
    · rw [evaluateBulletin_still found (clock ▸ expired) (clock ▸ same)]
      refine run.next ?_ rfl rfl (fun event => ?_) fun _ => rfl
      · rw [kept, run.list, ← same]
        rfl
      · rw [event.2.1, event.2.2] at same
        cases same
    · rw [evaluateBulletin_flips found (clock ▸ expired) (clock ▸ same), clock]
      obtain ⟨v, hv⟩ : ∃ v, v = setBulletins (t.bulletins.list.map
          (fun x => if x.hasId b.origin b.number then { x with inForce := b.inForceAt s.clock } else x)) t := ⟨_, rfl⟩
      have list : v.bulletins.list = Judged s.clock (done ++ [b]) ++ rest := by
        rw [hv, setBulletins_list, run.list, map_middle here (fun x => { x with inForce := b.inForceAt s.clock }), kept]
        rfl
      rw [← hv]
      by_cases event : (b.kind = .suspension && b.inForceAt s.clock) = true
      · rw [if_pos event]
        simp only [Bool.and_eq_true, decide_eq_true_eq] at event
        refine run.next (by rw [compose_bulletins, raiseSuspension_bulletins]; exact list) ?_ ?_ (fun _ => ?_) fun not => ?_
        · rw [compose_bulletins, raiseSuspension_bulletins, hv]
          rfl
        · rw [compose_eq, hv]
          rfl
        · rw [compose_eq]
          rfl
        · rw [event.2] at same
          exact absurd ⟨event.1, Bool.eq_false_iff.2 same, event.2⟩ not
      · rw [if_neg event]
        refine run.next (by rw [compose_bulletins]; exact list) ?_ ?_ (fun e => ?_) fun _ => ?_
        · rw [compose_bulletins, hv]
          rfl
        · rw [compose_eq, hv]
          rfl
        · exact absurd (by simp [e.1, e.2.2]) event
        · rw [compose_eq, hv]
          rfl

end step

theorem foldl_evaluateBulletin {s t : State} {done rest : List Bulletin} (run : ForceRun s t done rest)
    (distinct : DistinctIds (done ++ rest)) :
    ForceRun s ((rest.map (fun b => (b.origin, b.number))).foldl evaluateBulletin t) (done ++ rest) [] := by
  induction rest generalizing t done with
  | nil => rw [List.append_nil]; exact run
  | cons b rest ih =>
    rw [List.map_cons, List.foldl_cons, ← List.singleton_append, ← List.append_assoc]
    exact ih (evaluateBulletin_run run distinct) (by rw [List.append_assoc]; exact distinct)

/-- An evaluation of force as the statements describe it; a latch that was set stays so. -/
structure Forced (s t : State) (list : List Bulletin) : Prop extends BulletinsChanged s t list where
  sets : s.notices.suspension.isSet = true → t.notices.suspension.isSet = true

theorem evaluateForce_forced {s : State} (distinct : DistinctIds s.bulletins.list) : Forced s (evaluateForce s) s.bulletins.list := by
  have run := foldl_evaluateBulletin (ForceRun.refl s) distinct
  rw [List.nil_append] at run
  exact ⟨⟨run.list.trans (List.append_nil _), run.counter, run.others, run.latch, run.still⟩, run.sets⟩

/-- The board composes after it. -/
theorem Forced.composed {s t : State} {list : List Bulletin} (h : Forced s t list) : Forced s (compose t) list := by
  rw [compose_eq]
  exact ⟨⟨h.after, h.counter, by rw [h.rest], h.latch, h.still⟩, h.sets⟩

/-- A list left to be evaluated, a notice raised of the change: what follows (R168). -/
theorem bulletinChanged_forced {list : List Bulletin} (distinct : DistinctIds list) (b : Bulletin) (e : BulletinEvent) (s : State) :
    Forced s (bulletinChanged b e (setBulletins list s)) list := by
  obtain ⟨w, hw⟩ : ∃ w, w = bulletinNotice b e (setBulletins list s) := ⟨_, rfl⟩
  have forced := (evaluateForce_forced (s := w) (by rw [hw]; exact distinct)).composed
  have listed : w.bulletins.list = list := by rw [hw]; rfl
  have clock : w.clock = s.clock := by rw [hw]; rfl
  have latch : w.notices.suspension = s.notices.suspension := by
    rw [hw]
    exact (Notices.add_latches _ _ _).2.1
  have path : bulletinChanged b e (setBulletins list s) = compose (evaluateForce w) := by rw [hw]; rfl
  rw [listed] at forced
  rw [path]
  refine ⟨⟨clock ▸ forced.after, forced.counter.trans (by rw [hw]; rfl), ?_, clock ▸ forced.latch, fun h =>
    (forced.still (by rw [clock]; exact h)).trans latch⟩, fun set => forced.sets (by rw [latch]; exact set)⟩
  have rest := forced.rest
  have whole : ∃ n, w = { s with bulletins := w.bulletins, notices := n } := ⟨w.notices, by rw [hw]; rfl⟩
  obtain ⟨n, whole⟩ := whole
  rw [rest, whole]

/-- Another bulletin joins a list that has been evaluated. -/
theorem Forced.trans_append {s t u : State} {list : List Bulletin} {x : Bulletin} (a : Forced s t list)
    (b : Forced t u (t.bulletins.list ++ [x])) : Forced s u (list ++ [x]) := by
  have clock : t.clock = s.clock := by rw [a.rest]
  have after := b.after
  have latch := b.latch
  have still := b.still
  rw [a.after, clock] at after latch still
  refine ⟨⟨?_, b.counter.trans a.counter, by rw [b.rest, a.rest], ?_, fun h => ?_⟩, b.sets ∘ a.sets⟩
  · rw [after, judged_append, judged_judged, judged_append]
  · rintro ⟨y, mem, event⟩
    rcases List.mem_append.1 mem with before | last
    · exact b.sets (a.latch ⟨y, before, event⟩)
    · exact latch ⟨y, List.mem_append_right _ last, event⟩
  · rw [still, a.still fun y mem => h y (List.mem_append_left _ mem)]
    intro y mem kind force
    rcases List.mem_append.1 mem with before | last
    · rw [mem_judged before]
      exact force
    · exact h y (List.mem_append_right _ last) kind force

end Sys2Proof.Machine
end

