-- ==== Sys2Proof/Proofs/BulletinChanges.lean ====
section
/-! SUPPORT. What BULLETIN frames, POST_BULLETIN and WITHDRAW_BULLETIN make of the Bulletin List (R168, R176, R177). -/

namespace Sys2Proof.Machine

/-! ### The changes of the list (R168) -/

theorem removeBulletin_forced {s : State} (distinct : DistinctIds s.bulletins.list) (b : Bulletin) (e : BulletinEvent) :
    Forced s (removeBulletin b e s) (s.bulletins.list.filter (fun x => !(x.origin = b.origin && x.number = b.number))) :=
  bulletinChanged_forced (distinct.filter _) b e s

/-- A bulletin of a new id joins a list with room. -/
theorem addBulletin_room {s : State} {b : Bulletin} (distinct : DistinctIds s.bulletins.list)
    (new : findBulletin s.bulletins.list b.origin b.number = none) (waiting : b.inForce = false) (room : s.bulletins.list.length < 4) :
    ∃ v, addBulletin b s = (none, v) ∧ Forced s v (s.bulletins.list ++ [b]) := by
  have roomy : makeRoom s = (none, s) := if_pos room
  refine ⟨_, by rw [addBulletin, roomy], ?_⟩
  rw [← waiting]
  refine bulletinChanged_forced ?_ b .added s
  rw [DistinctIds, List.pairwise_append]
  refine ⟨distinct, List.pairwise_singleton _ _, fun x mem y last e => ?_⟩
  have other := List.find?_eq_none.1 new x mem
  rw [List.mem_singleton.1 last] at e
  exact other (by rw [Bulletin.hasId, e.1, e.2]; simp)

/-- A bulletin of a new id joins a full list after one has been dropped. -/
theorem addBulletin_full {s : State} {b d : Bulletin} (distinct : DistinctIds s.bulletins.list)
    (new : findBulletin s.bulletins.list b.origin b.number = none) (waiting : b.inForce = false) (full : 4 ≤ s.bulletins.list.length)
    (choice : dropChoice s.bulletins.list = some d) : ∃ v, addBulletin b s = (some (d.origin, d.number), v) ∧
      Forced s v (s.bulletins.list.filter (fun x => !(x.origin = d.origin && x.number = d.number)) ++ [b]) := by
  have dropped : makeRoom s = (some (d.origin, d.number), removeBulletin d .dropped s) := by
    have notRoom : ¬s.bulletins.list.length < Config.bulletinCapacity := Nat.not_lt.2 full
    rw [makeRoom, if_neg notRoom]
    simp only [choice]
  obtain ⟨t, ht⟩ : ∃ t, t = removeBulletin d .dropped s := ⟨_, rfl⟩
  have first : Forced s t _ := ht ▸ removeBulletin_forced distinct d .dropped
  refine ⟨_, by rw [addBulletin, dropped], ?_⟩
  rw [← waiting, ← ht]
  refine first.trans_append (bulletinChanged_forced ?_ b .added t)
  have listed : (idsOf t.bulletins.list).Sublist (idsOf s.bulletins.list) := by
    rw [first.after]
    exact (judged_ids _ _).trans (List.filter_sublist.map _)
  have unlisted : (b.origin, b.number) ∉ idsOf t.bulletins.list := fun mem => findBulletin_none new (listed.subset mem)
  rw [distinctIds_iff, idsOf, List.map_append, List.map_singleton]
  exact ((distinctIds_iff _).1 distinct |>.sublist listed).append (List.nodup_singleton _) (by simpa [idsOf] using unlisted)

theorem sameContent_iff {a b : Bulletin} (origin : a.origin = b.origin) (number : a.number = b.number) :
    a.sameContent b = true ↔ a = { b with inForce := a.inForce } := by
  obtain ⟨ao, an, ak, af, au, ax, ai⟩ := a
  obtain ⟨bo, bn, bk, bf, bu, bx, bi⟩ := b
  simp only at origin number
  subst origin number
  simp only [Bulletin.sameContent, Bool.and_eq_true, decide_eq_true_eq, Bulletin.mk.injEq, true_and, and_true, and_assoc]

/-- A bulletin replaced in its place. -/
theorem replaceBulletin_forced {s : State} {old new : Bulletin} (distinct : DistinctIds s.bulletins.list) (origin : new.origin = old.origin)
    (number : new.number = old.number) : Forced
      (if old.inForce && old.kind = .info && new.kind = .suspension then raiseSuspension s else s) (replaceBulletin old new s)
      (s.bulletins.list.map (fun x => if x.origin = old.origin ∧ x.number = old.number then { new with inForce := old.inForce } else x)) := by
  have list : s.bulletins.list.map (fun x => if x.origin = old.origin ∧ x.number = old.number then
      ({ new with inForce := old.inForce } : Bulletin) else x) =
      s.bulletins.list.map (fun x => if x.hasId old.origin old.number then ({ new with inForce := old.inForce } : Bulletin) else x) := by
    simp only [Bulletin.hasId, Bool.and_eq_true, decide_eq_true_eq]
  have ids : DistinctIds (s.bulletins.list.map (fun x => if x.hasId old.origin old.number then
      ({ new with inForce := old.inForce } : Bulletin) else x)) := by
    rw [distinctIds_iff] at distinct ⊢
    refine (congrArg List.Nodup ?_).mp distinct
    rw [idsOf, idsOf, List.map_map]
    refine List.map_congr_left fun x _ => ?_
    simp only [Function.comp_apply]
    split
    · next same =>
      simp only [Bulletin.hasId, Bool.and_eq_true, decide_eq_true_eq] at same
      rw [origin, number, same.1, same.2]
    · rfl
  have changed := fun v => bulletinChanged_forced ids { new with inForce := old.inForce } .replaced v
  rw [list]
  simp only [replaceBulletin]
  split
  · exact changed (raiseSuspension s)
  · exact changed s

/-! ### What a full list drops (R168) -/

theorem Instant.before_asymm {a b : Instant} (h : a.before b = true) : b.before a = false := by
  simp only [Instant.before, Bool.or_eq_true, Bool.and_eq_true, decide_eq_true_eq, beq_iff_eq, Bool.or_eq_false_iff,
    Bool.and_eq_false_iff, decide_eq_false_iff_not, beq_eq_false_iff_ne] at h ⊢
  omega

theorem foldl_earlier {d : Bulletin} {l : List Bulletin} {a : Bulletin} (mem : d = a ∨ d ∈ l)
    (start : a = d ∨ d.validUntil.before a.validUntil = true) (h : ∀ y ∈ l, y ≠ d → d.validUntil.before y.validUntil = true) :
    l.foldl (fun a b => if b.validUntil.before a.validUntil then b else a) a = d := by
  induction l generalizing a with
  | nil => exact (mem.resolve_right List.not_mem_nil).symm
  | cons y ys ih =>
    have rest : ∀ x ∈ ys, x ≠ d → d.validUntil.before x.validUntil = true := fun x hx => h x (List.mem_cons_of_mem y hx)
    rw [List.foldl_cons]
    by_cases here : y = d
    · have kept : (if y.validUntil.before a.validUntil then y else a) = d := by
        rcases start with e | early
        · rw [here, e, ite_self]
        · rw [here, if_pos early]
      exact ih (.inl kept.symm) (.inl kept) rest
    · have late := h y List.mem_cons_self here
      have kept : (if y.validUntil.before a.validUntil then y else a) = d ∨
          d.validUntil.before (if y.validUntil.before a.validUntil then y else a).validUntil = true := by
        split
        · exact .inr late
        · exact start
      refine ih ?_ kept rest
      rcases mem with e | mem
      · left
        rw [← e, if_neg (by simp [Instant.before_asymm late])]
      · exact .inr ((List.mem_cons.1 mem).resolve_left (Ne.symm here))

theorem earliestUntil_of_least {d : Bulletin} {l : List Bulletin} (mem : d ∈ l)
    (h : ∀ y ∈ l, y ≠ d → d.validUntil.before y.validUntil = true) : earliestUntil l = some d := by
  cases l with
  | nil => cases mem
  | cons x xs =>
    refine congrArg some (foldl_earlier (List.mem_cons.1 mem) ?_ fun y hy => h y (List.mem_cons_of_mem x hy))
    by_cases e : x = d
    · exact .inl e
    · exact .inr (h x List.mem_cons_self e)

theorem dropChoice_info {d : Bulletin} {l : List Bulletin} (mem : d ∈ l) (info : d.kind = .info)
    (h : ∀ y ∈ l, y ≠ d → y.kind = .suspension ∨ d.validUntil.before y.validUntil = true) : dropChoice l = some d := by
  have first : earliestUntil (l.filter (fun b => b.kind = .info)) = some d := by
    refine earliestUntil_of_least (List.mem_filter.2 ⟨mem, decide_eq_true info⟩) fun y hy other => ?_
    obtain ⟨listed, kind⟩ := List.mem_filter.1 hy
    refine (h y listed other).resolve_left fun e => ?_
    rw [e] at kind
    cases kind
  simp only [dropChoice, first]

theorem dropChoice_suspension {d : Bulletin} {l : List Bulletin} (mem : d ∈ l) (all : ∀ y ∈ l, y.kind = .suspension)
    (h : ∀ y ∈ l, y ≠ d → d.validUntil.before y.validUntil = true) : dropChoice l = some d := by
  have none : l.filter (fun b => b.kind = .info) = [] := List.filter_eq_nil_iff.2 fun y hy => by simp [all y hy]
  simp only [dropChoice, none, earliestUntil]
  exact earliestUntil_of_least mem h

/-! ### BULLETIN frames (R168) -/

section frame
variable {origin : Nat} {f : BulletinFields} {s : State}

theorem takeBulletin_ignored (h : f.origin ≠ origin ∨ (f.withdrawn = false ∧ f.validFrom.before f.validUntil = false)) :
    takeBulletin origin f s = s := by
  unfold takeBulletin
  split
  · rfl
  · next same =>
    obtain ⟨withdrawn, span⟩ := h.resolve_left same
    exact if_pos (by simp [withdrawn, span])

variable (own : f.origin = origin) (span : f.withdrawn = true ∨ f.validFrom.before f.validUntil = true)
include own span

theorem takeBulletin_unknown (found : findBulletin s.bulletins.list f.origin f.number = none) : takeBulletin origin f s =
    if f.withdrawn || (bulletinOf f).expiredAt s.clock then s else (addBulletin (bulletinOf f) s).2 := by
  rw [takeBulletin, if_neg (not_not_intro own), if_neg (by rcases span with e | e <;> simp [e])]
  simp only [found]

theorem takeBulletin_known {b : Bulletin} (found : findBulletin s.bulletins.list f.origin f.number = some b) : takeBulletin origin f s =
    if f.withdrawn || (bulletinOf f).expiredAt s.clock then removeBulletin b .removed s
    else if b.sameContent (bulletinOf f) then s else replaceBulletin b (bulletinOf f) s := by
  rw [takeBulletin, if_neg (not_not_intro own), if_neg (by rcases span with e | e <;> simp [e])]
  simp only [found]

end frame

/-- Settles O42: by the first row of R168 that fits. -/
theorem bulletinFrameKeepsTheList : Obligations.BulletinFrameKeepsTheList := by
  rintro h f s u n c fields rfl distinct hn
  have path : exec (.bulletinReceived h f) s = .next (takeBulletin h.origin f (s.heardFrom h.origin)) :=
    congrArg Host.Outcome.next (receive_present c fields _)
  have carried : bulletinOf f = n := hn.symm
  rw [path]
  refine ⟨fun bad => congrArg _ (takeBulletin_ignored bad), fun own span => ⟨fun found => ?_, fun b found => ?_⟩⟩
  · rw [takeBulletin_unknown (s := s.heardFrom h.origin) own span found, carried]
    refine ⟨fun gone => congrArg _ (if_pos (by rcases gone with e | e <;> simp [e, State.heardFrom])), fun kept lasting room => ?_⟩
    have joins : ¬(f.withdrawn || n.expiredAt (s.heardFrom h.origin).clock) = true := by simp [kept, lasting, State.heardFrom]
    obtain ⟨v, added, forced⟩ := addBulletin_room (s := s.heardFrom h.origin) (b := n) distinct (by rw [hn]; exact found) (by rw [hn]) room
    exact ⟨v, congrArg _ ((if_neg joins).trans (congrArg Prod.snd added)), forced.toBulletinsChanged⟩
  · obtain ⟨origin, number⟩ := findBulletin_id found
    rw [takeBulletin_known (s := s.heardFrom h.origin) own span found, carried]
    have stands : f.withdrawn = false → n.expiredAt s.clock = false → ¬(f.withdrawn || n.expiredAt (s.heardFrom h.origin).clock) = true :=
      fun kept lasting => by simp [kept, lasting, State.heardFrom]
    have same : b.sameContent n = true ↔ n = { b with inForce := false } := by
      rw [sameContent_iff (by rw [hn]; exact origin) (by rw [hn]; exact number), hn]
      obtain ⟨bo, bn, bk, bf, bu, bx, bi⟩ := b
      simp only [Bulletin.mk.injEq, and_true, eq_comm]
    have replaced := replaceBulletin_forced (s := s.heardFrom h.origin) (old := b) (new := n) distinct (by rw [hn]; exact origin.symm)
      (by rw [hn]; exact number.symm)
    rw [origin, number] at replaced
    refine ⟨fun gone => ⟨_, congrArg _ (if_pos (by rcases gone with e | e <;> simp [e, State.heardFrom])), ?_⟩, fun kept lasting equal =>
      congrArg _ ((if_neg (stands kept lasting)).trans (if_pos (same.2 equal))), fun kept lasting other quiet =>
      ⟨_, congrArg _ ((if_neg (stands kept lasting)).trans (if_neg fun e => other (same.1 e))), ?_⟩, fun kept lasting force info susp =>
      ⟨_, congrArg _ ((if_neg (stands kept lasting)).trans (if_neg fun e => ?_)), ?_⟩⟩
    · have removed := removeBulletin_forced (s := s.heardFrom h.origin) distinct b .removed
      rw [origin, number] at removed
      exact removed.toBulletinsChanged
    · rw [if_neg (by rcases quiet with e | e | e <;> simp [e])] at replaced
      exact replaced.toBulletinsChanged
    · have kinds := congrArg Bulletin.kind (same.1 e)
      rw [susp] at kinds
      simp only [info, reduceCtorEq] at kinds
    · rw [if_pos (by simp [force, info, susp]), force] at replaced
      exact replaced.toBulletinsChanged

/-! ### POST_BULLETIN (R176) -/

theorem bulletinFieldsOk_iff (a b : Instant) (text : Text) : bulletinFieldsOk a b text = true ↔ a.valid = true ∧ b.valid = true ∧
    1 ≤ text.length ∧ text.length ≤ 64 ∧ (∀ c ∈ text, 32 ≤ c ∧ c ≤ 126) ∧ a.before b = true := by
  simp [bulletinFieldsOk, Text.inCharset, Bool.and_eq_true, and_assoc]

section post
variable {tag k : Nat} {a b : Instant} {text : Text} {s : State} (serving : s.Serving) (short : 1 ≤ text.length) (long : text.length ≤ 64)
include serving short long

theorem exec_postBulletin_of_serving {x : Answer} {t : State} (h : postBulletin k a b text s = (x, t)) :
    exec (.postBulletin tag k a b text) s = .next (t.answered 14 tag x) := by
  have length : textLengthOk text = true := by simp [textLengthOk, short, long]
  exact exec_taken (i := .postBulletin tag k a b text) (ok := textLengthOk text) rfl (by rw [length]; exact gate_run (c := .postBulletin) serving (by decide) rfl) h

end post

theorem postBulletin_bad {k : Nat} {a b : Instant} {text : Text} {s : State} (h : bulletinKindOf k = none ∨ ¬bulletinFieldsOk a b text = true) :
    postBulletin k a b text s = (.refused .badBulletin, s) := by
  unfold postBulletin
  split
  · rfl
  · next kind =>
    have bad := h.resolve_left (by simp [kind])
    exact if_pos (by simpa using bad)

section posted
variable {k : Nat} {kind : BulletinKind} {a b : Instant} {text : Text} {s : State} (isKind : bulletinKindOf k = some kind)
  (fields : bulletinFieldsOk a b text = true)
include isKind fields

theorem postBulletin_expired (timed : s.clock.grade ≠ .unset) (late : s.clock.instant.before b = false) :
    postBulletin k a b text s = (.refused .expired, s) := by
  simp only [postBulletin, isKind, fields]
  simp [timed, late]

theorem postBulletin_accepted (early : s.clock.grade = .unset ∨ s.clock.instant.before b = true) :
    postBulletin k a b text s = postAccepted kind a b text s := by
  simp only [postBulletin, isKind, fields]
  rcases early with e | e <;> simp [e]

end posted

/-- Settles O43: the refusals in their order, the list, the answer and the frame. -/
theorem bulletinCommandsKeepTheList : Obligations.BulletinCommandsKeepTheList := by
  constructor
  · intro tag k a b text s serving short long
    have answers := fun {x t} => exec_postBulletin_of_serving (tag := tag) (k := k) (a := a) (b := b) serving short long (x := x) (t := t)
    refine ⟨fun bad => answers (postBulletin_bad ?_), fun low from' until' chars span => ?_⟩
    · rw [bulletinFieldsOk_iff]
      rcases bad with e | e | e | ⟨c, mem, e⟩ | e
      · left
        obtain ⟨j, rfl⟩ := Nat.exists_eq_add_of_le' e
        rfl
      · exact .inr fun ok => by simp [ok.1] at e
      · exact .inr fun ok => by simp [ok.2.1] at e
      · refine .inr fun ok => ?_
        have := ok.2.2.2.2.1 c mem
        omega
      · exact .inr fun ok => by simp [ok.2.2.2.2.2] at e
    have fields := (bulletinFieldsOk_iff a b text).2 ⟨from', until', short, long, chars, span⟩
    have isKind : bulletinKindOf k = some (if k = 0 then .info else .suspension) := by
      have : k = 0 ∨ k = 1 := by omega
      rcases this with rfl | rfl <;> rfl
    refine ⟨fun timed late => answers (postBulletin_expired isKind fields timed late), fun m x early number hx distinct new => ?_⟩
    obtain ⟨w, hw⟩ : ∃ w, w = s.withBulletins { s.bulletins with counter := m } := ⟨_, rfl⟩
    have posts : ∀ d v, addBulletin x w = (d, v) → exec (.postBulletin tag k a b text) s = .next ((hand (.bulletin ⟨x.origin, m, x.kind, false,
        a, b, text⟩) v).answered 14 tag ⟨.ok, none, .bulletinPosted x.origin m d⟩) := fun d v added => by
      refine answers ((postBulletin_accepted isKind fields early).trans ?_)
      have counted : nextNumber s.bulletins.counter = m := number.symm
      have isNew : findBulletin w.bulletins.list x.origin x.number = none := by
        rw [hw, hx]
        exact new
      have listed : postToList x w = (d, v) := by
        simp only [postToList, isNew]
        exact added
      rw [hw, hx] at listed
      rw [postAccepted, counted, own, listed, hx]
      rfl
    refine ⟨fun room => ?_, fun d full mem kind info susp => ?_⟩
    · obtain ⟨v, added, forced⟩ := addBulletin_room (s := w) (b := x) (by rw [hw]; exact distinct) (by rw [hw, hx]; exact new) (by rw [hx])
        (by rw [hw]; exact room)
      rw [hw] at forced
      exact ⟨v, forced.toBulletinsChanged, posts none v added⟩
    · have choice : dropChoice s.bulletins.list = some d := by
        rcases kind with isInfo | all
        · exact dropChoice_info mem isInfo fun y hy other => info y hy other isInfo
        · exact dropChoice_suspension mem all fun y hy other => susp y hy other (all d mem)
      obtain ⟨v, added, forced⟩ := addBulletin_full (s := w) (b := x) (d := d) (by rw [hw]; exact distinct) (by rw [hw, hx]; exact new)
        (by rw [hx]) (by rw [hw]; exact full.ge) (by rw [hw]; exact choice)
      rw [hw] at forced
      exact ⟨v, forced.toBulletinsChanged, posts _ v added⟩
  · intro tag o n s serving distinct
    have answers : ∀ {x t}, withdrawBulletin o n s = (x, t) → exec (.withdrawBulletin tag o n) s = .next (t.answered 15 tag x) := fun e =>
      exec_taken rfl (gate_run (c := .withdrawBulletin) serving (by decide) rfl) e
    refine ⟨fun other => answers (if_pos other), fun mine bad => answers ?_, fun mine low high => ?_⟩
    · rw [withdrawBulletin, if_neg (fun other => other mine)]
      exact if_pos (by simpa using bad)
    · have numbered : ¬(n = 0 || 255 < n) = true := by
        simp only [Bool.or_eq_true, decide_eq_true_eq]
        omega
      have withdraws : withdrawBulletin o n s = (.ok (.bulletinHeld (findBulletin s.bulletins.list o n).isSome),
          hand (withdrawalPayload o n (findBulletin s.bulletins.list o n)) (withdrawHeld (findBulletin s.bulletins.list o n) s)) := by
        rw [withdrawBulletin, if_neg (fun other => other mine), if_neg numbered]
      refine ⟨fun found => ?_, fun b found => ⟨removeBulletin b .removed s, ?_, ?_⟩⟩
      · rw [found] at withdraws
        exact answers withdraws
      · obtain ⟨origin, number⟩ := findBulletin_id found
        have removed := removeBulletin_forced distinct b .removed
        rw [origin, number] at removed
        exact removed.toBulletinsChanged
      · rw [found] at withdraws
        exact answers withdraws

end Sys2Proof.Machine
end

