-- ==== Sys2Proof/Proofs/BuiltTables.lean ====
section
/-! SUPPORT. A build of the Call Table as the statements describe it (R17 to R19, R33, R34). -/

namespace Sys2Proof.Machine

/-! ### New and kept calls (R15, R18, R33) -/

theorem isBase_none {c : Call} {base : Nat} (report : c.report = none) : IsBase c base ↔ base = min 108000 c.schedArr := by
  unfold IsBase
  rw [report]

theorem callOf_new (grade : ClockGrade) (minDwell : Nat) (en : CallEntry) : NewCall grade minDwell en (callOf grade minDwell en) := by
  unfold callOf
  simp only
  split
  · next unset =>
    exact ⟨⟨rfl, rfl, rfl, rfl, rfl, rfl, rfl, rfl⟩, ⟨rfl, by simp only; split <;> rfl⟩, ⟨rfl, rfl, rfl, rfl, rfl, rfl⟩, fun _ => rfl,
      fun _ timed => absurd unset timed⟩
  · next timed =>
    rw [buildEstimates_eq]
    refine ⟨⟨rfl, rfl, rfl, rfl, rfl, rfl, rfl, rfl⟩, ⟨rfl, by simp only; split <;> rfl⟩, ⟨rfl, rfl, rfl, rfl, rfl, rfl⟩, fun e => absurd e timed,
      fun base _ isBase => ?_⟩
    rw [(isBase_none rfl).1 isBase]
    rfl

theorem recomputed_timed {minDwell : Nat} {c : Call} {e : Estimates} {base : Nat} (timed : c.estimates = some e) (isBase : IsBase c base) :
    ∃ arr, c.recomputed minDwell = { c with estimates := some ⟨base, arr, departureFrom minDwell c arr, e.creep⟩ } ∧
      (∀ a, c.approach = some a → arr = max (a.detect + a.eta) (c.schedArr - 900)) ∧
      (c.approach = none → arr = base + (if c.delayed then 1200 else e.creep)) := by
  have same := baseArrival_of_isBase isBase
  rcases Option.eq_none_or_eq_some c.approach with near | ⟨a, near⟩
  · refine ⟨base + (if c.delayed then 1200 else e.creep), ?_, fun a e => (nomatch near.symm.trans e), fun _ => rfl⟩
    simp only [Call.recomputed, timed, near, setArrival_eq, same]
    cases c.delayed <;> rfl
  · have result : c.recomputed minDwell = { c with estimates := some ⟨base, approachArrival c.schedArr a.detect a.eta,
        departureFrom minDwell c (approachArrival c.schedArr a.detect a.eta), e.creep⟩ } := by
      simp only [Call.recomputed, timed, near, setArrival_eq, same]
    refine ⟨_, result, fun x other => ?_, fun e => nomatch near.symm.trans e⟩
    cases near.symm.trans other
    rfl

theorem recomputed_untimed {minDwell : Nat} {c : Call} (timed : c.estimates = none) : c.recomputed minDwell = c := by
  simp only [Call.recomputed, timed]

theorem carried_kept (minDwell : Nat) (n o : Call) : KeptCall minDwell o n (carried minDwell n o) := by
  obtain ⟨m, hm⟩ : ∃ m : Call, m = { n with
      state := o.state, report := o.report, approach := o.approach, estimates := o.estimates, source := o.source
      delayed := o.delayed, sensed := o.sensed } := ⟨_, rfl⟩
  have path : carried minDwell n o = m.recomputed minDwell := by rw [hm]; rfl
  have only : ∃ x, m.recomputed minDwell = { m with estimates := x } := by
    unfold Call.recomputed Call.setArrival
    split
    · exact ⟨_, rfl⟩
    · split <;> exact ⟨_, rfl⟩
  obtain ⟨x, only⟩ := only
  rw [path]
  refine ⟨by rw [only, hm], fun untimed => by rw [recomputed_untimed (by rw [hm]; exact untimed), hm]; exact untimed,
    fun e base timed isBase => ?_⟩
  have based : IsBase m base := by
    rw [only] at isBase
    exact isBase
  obtain ⟨arr, result, near, far⟩ := recomputed_timed (minDwell := minDwell) (c := m) (e := e) (by rw [hm]; exact timed) based
  refine ⟨arr, ?_, fun a approach => ?_, fun none => ?_⟩
  · rw [result]
    rfl
  · rw [near a (by rw [hm]; exact approach), hm]
  · rw [far (by rw [hm]; exact none), hm]

/-! ### The calls of the new table (R17) -/

theorem activeTimetable_none {v : State} (h : v.store.timetable.active = none) : activeTimetable v = ⟨[], []⟩ := by
  simp only [activeTimetable, h]

theorem activeTimetable_some {v : State} {image : List Byte} (h : v.store.timetable.active = some image) :
    activeTimetable v = timetableOf image := by
  simp only [activeTimetable, h]

/-- The call that a build makes of a new one: the old call carried, at a swap. -/
def rebuiltCall (k : BuildKind) (v : State) (n : Call) : Call :=
  match k with
  | .fresh => n
  | .swap => swapped v.setup.settings.minDwell v.calls.calls n

theorem builtCalls_eq (k : BuildKind) (v : State) : builtCalls k v =
    (newCalls v.clock.grade v.setup.settings.minDwell v.clock.weekday (activeTimetable v)).map (rebuiltCall k v) := by
  cases k with
  | fresh => exact (List.map_id _).symm
  | swap => rfl

/-- The old calls that a build of a kind may keep. -/
def BuildKind.keeps (k : BuildKind) (v : State) : List Call :=
  match k with
  | .fresh => []
  | .swap => v.calls.calls

theorem rebuiltCall_none {k : BuildKind} {v : State} {n : Call} (h : ∀ o ∈ k.keeps v, ¬(o.service = n.service ∧ o.direction = n.direction)) :
    rebuiltCall k v n = n := by
  cases k with
  | fresh => rfl
  | swap =>
    have none : keptFrom v.calls.calls n = none := List.find?_eq_none.2 fun o mem => by
      rw [Bool.and_eq_true, decide_eq_true_eq, decide_eq_true_eq]
      exact h o mem
    simp only [rebuiltCall, swapped, none]

theorem rebuiltCall_some {k : BuildKind} {v : State} {n o : Call}
    (h : (k.keeps v).find? (fun o => o.service = n.service && o.direction = n.direction) = some o) :
    rebuiltCall k v n = carried v.setup.settings.minDwell n o := by
  cases k with
  | fresh => cases h
  | swap =>
    have kept : keptFrom v.calls.calls n = some o := h
    simp only [rebuiltCall, swapped, kept]

/-! ### The hand-offs (R19) -/

theorem endAfterBuild_onTable (s : State) (c : Call) : OnTable s (endAfterBuild s c) :=
  (callEnded_onSale c s).onTable.trans ((compose_onPanel _).onTable.trans (raise_onPanel _ _).onTable)

theorem claimsAfterBuild_onTable (k : BuildKind) (dropped : List Nat) (s : State) : OnTable s (claimsAfterBuild k dropped s) := by
  cases k with
  | fresh => exact ⟨_, _, _, _, _, _, _, rfl⟩
  | swap => exact OnTable.foldl (fun t n => (removeCallClaims_onSale n true t).onTable) dropped s

theorem handedOff_onTable (k : BuildKind) (v : State) : OnTable v (handedOff k v) := by
  have put : OnTable v (rebuilt k v) := ⟨_, _, _, _, _, _, _, rfl⟩
  exact put.trans ((saleAfterBuild_onSale _).onTable.trans ((claimsAfterBuild_onTable k _ _).trans
    (OnTable.foldl endAfterBuild_onTable _ _)))

theorem buildTable_onTable (k : BuildKind) (v : State) : OnTable v (buildTable k v) := by
  have counted : OnTable (handedOff k v) ((handedOff k v).withCalls
    { (handedOff k v).calls with buildCount := ((handedOff k v).calls.buildCount + 1) % 256 }) := ⟨_, _, _, _, _, _, _, rfl⟩
  rw [buildTable_eq]
  exact (handedOff_onTable k v).trans (counted.trans ((compose_onPanel _).onTable.trans (raise_onPanel _ _).onTable))

/-! ### A send in progress (R165) -/

theorem compose_sends {s : State} (active : s.Composing) (sending : s.board.sending ≠ none) :
    (compose s).board.sending = s.board.sending ∧ (compose s).board.waitingImage ≠ none := by
  obtain ⟨x, isX⟩ := Option.ne_none_iff_exists'.1 sending
  rw [compose, if_pos ((boardActive_iff s).2 active)]
  simp only [State.withBoard, Board.handToPort, isX, true_and, ne_eq, reduceCtorEq, not_false_eq_true]

theorem compose_sending {s : State} (sending : s.board.sending ≠ none) : (compose s).board.sending = s.board.sending := by
  by_cases active : s.Composing
  · exact (compose_sends active sending).1
  · rw [compose, if_neg fun e => active ((boardActive_iff s).1 e)]

/-- An operation during which a send in progress goes on. -/
def SendsOn (s t : State) : Prop := s.board.sending ≠ none → t.board.sending = s.board.sending

theorem SendsOn.trans {s t u : State} (a : SendsOn s t) (b : SendsOn t u) : SendsOn s u := fun h =>
  (b (by rw [a h]; exact h)).trans (a h)

theorem OnSale.sendsOn {s t : State} (h : OnSale s t) : SendsOn s t := fun _ => by
  obtain ⟨_, _, _, _, _, e⟩ := h
  rw [e]

theorem handedOff_sendsOn (k : BuildKind) (v : State) : SendsOn v (handedOff k v) := by
  have ends : ∀ t c, SendsOn t (endAfterBuild t c) := fun t c =>
    (callEnded_onSale c t).sendsOn.trans fun sending => compose_sending sending
  have claims : SendsOn (saleAfterBuild (rebuilt k v))
      (claimsAfterBuild k (droppedBy v.calls.calls (builtCalls k v)) (saleAfterBuild (rebuilt k v))) := by
    cases k with
    | fresh => exact fun _ => rfl
    | swap =>
      refine List.foldlRecOn _ _ (motive := SendsOn _) (fun _ => rfl) fun t h n _ => h.trans (removeCallClaims_onSale n true t).sendsOn
  have sale : SendsOn v (saleAfterBuild (rebuilt k v)) := SendsOn.trans (fun _ => rfl) (saleAfterBuild_onSale (rebuilt k v)).sendsOn
  refine (sale.trans claims).trans ?_
  exact List.foldlRecOn _ _ (motive := SendsOn _) (fun _ => rfl) fun t h c _ => h.trans (ends t c)

/-! ### The build -/

/-- A build as the statements describe it. -/
theorem buildTable_built (k : BuildKind) (v : State) : CallsBuilt (k.keeps v) v (buildTable k v) := by
  have calls := buildTable_calls k v
  have inner := buildTable_inner k v
  have table : (buildTable k v).calls.calls = (newCalls v.clock.grade v.setup.settings.minDwell v.clock.weekday
      (activeTimetable v)).map (fun n => evaluatedIn v (rebuiltCall k v n)) := by
    rw [calls, evaluatedCalls_eq, builtCalls_eq, List.map_map]
    rfl
  refine ⟨by rw [calls], fun none => ?_, fun image active => ?_, fun image i en active low entry => ?_, ?_, fun composing sending => ?_,
    (buildTable_onTable k v).eq, ⟨inner.peers, inner.muteFlag, inner.rxCount, inner.journal.1, inner.journal.2⟩⟩
  · rw [table, activeTimetable_none none]
    rfl
  · rw [table, activeTimetable_some active, List.length_map, newCalls, List.length_map, List.length_take]
    rfl
  · refine ⟨callOf v.clock.grade v.setup.settings.minDwell en, rebuiltCall k v (callOf v.clock.grade v.setup.settings.minDwell en),
      evaluatedIn v (rebuiltCall k v (callOf v.clock.grade v.setup.settings.minDwell en)), callOf_new _ _ en, ?_, rebuiltCall_none,
      fun o found => rebuiltCall_some found ▸ carried_kept _ _ o, fun unset => if_neg (by simp [evaluable, unset]), fun timed => ?_⟩
    · have at_i : (newCalls v.clock.grade v.setup.settings.minDwell v.clock.weekday (activeTimetable v))[i]? =
          some (callOf v.clock.grade v.setup.settings.minDwell en) := by
        rw [activeTimetable_some active, newCalls, List.getElem?_map, List.getElem?_take_of_lt (j := Config.maxCalls) low, entry]
        rfl
      rw [table, List.getElem?_map, at_i]
      rfl
    · unfold evaluatedIn
      split
      · exact evaluated_to _ _ _ _
      · next ended =>
        have past : (rebuiltCall k v (callOf v.clock.grade v.setup.settings.minDwell en)).state.over = true := by
          simpa [evaluable, timed] using ended
        have same := evaluated_to v.calls.watch v.clock.second v.setup.settings.minDwell
          (rebuiltCall k v (callOf v.clock.grade v.setup.settings.minDwell en))
        rw [evaluated_over past] at same
        exact same
  · obtain ⟨w, hw⟩ : ∃ w, w = compose ((handedOff k v).withCalls
      { (handedOff k v).calls with buildCount := ((handedOff k v).calls.buildCount + 1) % 256 }) := ⟨_, rfl⟩
    rw [buildTable_eq, ← hw]
    exact callChanged_told w
  · have sent := handedOff_sendsOn k v sending
    have active : ((handedOff k v).withCalls
        { (handedOff k v).calls with buildCount := ((handedOff k v).calls.buildCount + 1) % 256 }).Composing := by
      have composed := compose_inner ((handedOff k v).withCalls
        { (handedOff k v).calls with buildCount := ((handedOff k v).calls.buildCount + 1) % 256 })
      rw [← composed.composing]
      exact inner.composing.2 composing
    have sends := compose_sends active (by rw [State.withCalls_board, sent]; exact sending)
    rw [State.withCalls_board, sent] at sends
    exact sends

/-- A sale that no build closes. -/
theorem saleCallEnded_settled {s : State} (h : ∀ r, s.sales.sale = some r → r.stage = .issuing ∨ r.space = none) (n : Nat) :
    saleCallEnded n s = s := by
  unfold saleCallEnded saleOnCall
  cases sale : s.sales.sale with
  | none => rfl
  | some r =>
    rcases h r sale with issuing | none
    · have stays : abortSale .callEnded s = s := by
        simp only [abortSale, sale, issuing, if_true]
      rw [stays, ite_self]
    · simp only [none, Bool.false_eq_true, if_false]

/-- A fresh build as the statements describe it. -/
theorem buildTable_fresh (v : State) : TableBuilt v (buildTable .fresh v) := by
  refine ⟨buildTable_built .fresh v, buildTable_fresh_claims v, fun r x sale stage space other => ?_, fun settled => ?_⟩
  · rcases (buildTable_inner .fresh v).sales with same | closed
    · have live := buildTable_sale (k := .fresh) (by simp) (same ▸ sale) stage space
      have date := live.1
      rw [buildTable_calls] at date
      exact absurd date other
    · rw [closed]
  · have put : (saleAfterBuild (rebuilt .fresh v)).sales = v.sales := by
      have stands : saleAfterBuild (rebuilt .fresh v) = rebuilt .fresh v := by
        cases sale : (rebuilt .fresh v).sales.sale with
        | none => simp only [saleAfterBuild, sale]
        | some r =>
          have aborts : r.stage = .issuing → ∀ reason, abortSale reason (rebuilt .fresh v) = rebuilt .fresh v := fun issuing reason => by
            simp only [abortSale, sale, issuing, if_true]
          rcases settled r sale with issuing | none
          · simp only [saleAfterBuild, sale, aborts issuing, ite_self]
            split
            · split <;> rfl
            · rfl
          · simp only [saleAfterBuild, sale, none]
      rw [stands]
      rfl
    have handed : (handedOff .fresh v).sales = v.sales := by
      refine List.foldlRecOn _ _ (motive := fun t : State => t.sales = v.sales) put fun t h c _ => ?_
      have ended := saleCallEnded_settled (s := t) (fun r sale => settled r (h ▸ sale)) c.service
      have sales : (callEnded c t).sales = t.sales := by rw [callEnded, ended, removeCallClaims_sales]
      have panel : OnPanel (callEnded c t) (endAfterBuild t c) := (compose_onPanel _).trans (raise_onPanel _ _)
      exact panel.sales.trans (sales.trans h)
    have panel : OnPanel ((handedOff .fresh v).withCalls
      { (handedOff .fresh v).calls with buildCount := ((handedOff .fresh v).calls.buildCount + 1) % 256 }) (buildTable .fresh v) :=
      (compose_onPanel _).trans (raise_onPanel _ _)
    exact panel.sales.trans handed

end Sys2Proof.Machine
end

