-- ==== Sys2Proof/Proofs/ClockSteps.lean ====
section
/-! SUPPORT. Seconds events, rollovers and steps of the clock at the Call Table and the Bulletin List (R3, R4, R10, R11, R16). -/

namespace Sys2Proof.Machine

/-! ### The end of an event: the bulletins and the board (R4, R11) -/

theorem secondsToLists_changed {u : State} {list : List Bulletin} (listed : u.bulletins.list = list) (distinct : DistinctIds list) :
    BulletinsChanged u (secondsToLists u) list := by
  have forced := (evaluateForce_forced (s := u) (listed ▸ distinct)).composed
  rw [listed] at forced
  exact forced.toBulletinsChanged

theorem OnTable.bulletins {s t : State} (h : OnTable s t) : t.bulletins = s.bulletins := by
  obtain ⟨_, _, _, _, _, _, _, e⟩ := h
  rw [e]

theorem evalAll_onTable (s : State) : OnTable s (evalAll s) :=
  (Committed.foldl (f := fun t i => evalCall i t) (fun t i => evalCall_committed i t) _ s).onTable

/-! ### The rollover (R4, R116) -/

theorem rolloverCheck_waits {s : State} (h : ¬timetableReady s = true) : rolloverCheck s = s := if_neg h

theorem rolloverCheck_activates {s : State} (h : timetableReady s = true) : rolloverCheck s =
    compose (raise (.editionActive .timetable (editionOf s.store.timetable.staging) s.store.timetable.activeEdition
      (s.store.timetable.origin.getD .host)) { s with store := { s.store with timetable := { s.store.timetable with
        active := some s.store.timetable.staging, activeEdition := editionOf s.store.timetable.staging, loader := .empty
        staging := [], declared := none, offset := 0, origin := none, pull := none } } }) := if_pos h

theorem timetableReady_iff {s : State} (grade : s.clock.grade ≠ .unset) : timetableReady s = true ↔
    s.store.timetable.loader = .staged ∧ (effectiveDateOf s.store.timetable.staging).onOrBefore s.clock.date = true := by
  rw [timetableReady, if_neg grade, Bool.and_eq_true, decide_eq_true_eq]

/-! ### The first step from grade 0 (R16) -/

theorem estimateCall_committed (s : State) (i : Nat) : Committed s (estimateCall s i) := by
  unfold estimateCall
  split
  · next c h =>
    refine commitCall_committed fun old e => ?_
    rw [h, Option.some.injEq] at e
    subst e
    exact ⟨rfl, id⟩
  · exact .refl s

theorem estimateCalls_committed (s : State) : Committed s (estimateCalls s) := Committed.foldl estimateCall_committed _ s

/-- Every call, none holding estimates, given its schedule's and evaluated. -/
theorem evalAll_estimated {s : State} (grade : s.clock.grade ≠ .unset) (untimed : ∀ c ∈ s.calls.calls, c.estimates = none) :
    CallsEvaluated (fun c => c.withBuildEstimates s.setup.settings.minDwell) s (evalAll (estimateCalls s)) := by
  obtain ⟨v, hv⟩ : ∃ v, v = estimateCalls s := ⟨_, rfl⟩
  have first : Committed s v := hv ▸ estimateCalls_committed s
  have context : evalContext v = evalContext s := by
    rw [evalContext, evalContext, first.inner.clock, first.inner.setup, first.table]
  have up : v.clock.grade ≠ .unset := by
    rw [first.inner.clock]
    exact grade
  have run : Committed v (evalAll v) := Committed.foldl (f := fun t i => evalCall i t) (fun t i => evalCall_committed i t) _ v
  have after : (evalAll v).calls.calls =
      s.calls.calls.map (fun c => evaluated (evalContext s) (c.withBuildEstimates s.setup.settings.minDwell)) := by
    have each : (evalAll v).calls.calls = v.calls.calls.map (evaluated (evalContext v)) :=
      foldl_range_map (op := fun t i => evalCall i t) (P := fun t => evalContext t = evalContext v ∧ t.clock.grade ≠ .unset)
        (fun t i h => by
          have m := evalCall_keeps i t
          exact ⟨(by rw [evalContext, m.watch, m.clock, m.setup]; exact h.1), by rw [m.clock]; exact h.2⟩)
        (fun t i h => h.1 ▸ evalCall_calls i h.2) ⟨rfl, up⟩
    rw [each, context, hv, (estimateCalls_calls s).1, List.map_map]
    rfl
  rw [← hv]
  refine (first.trans run).moved (fun i c hc => ⟨_, by rw [after, List.getElem?_map, hc]; rfl, evaluated_to _ _ _ _⟩) fun still => ?_
  have empty : s.calls.calls = [] := by
    refine List.eq_nil_iff_forall_not_mem.2 fun c mem => ?_
    have listed : evaluated (evalContext s) (c.withBuildEstimates s.setup.settings.minDwell) ∈ s.calls.calls := by
      rw [← still, after]
      exact List.mem_map_of_mem mem
    have timed := ((follows_evaluated (evalContext s) (c.withBuildEstimates s.setup.settings.minDwell)).timed).1 (untimed _ listed)
    rw [buildEstimates_eq] at timed
    cases timed
  have same : v = s := by
    rw [hv, estimateCalls_eq, empty]
    rfl
  rw [same, evalAll, empty]
  rfl

/-! ### A step (R10, R11) -/

/-- A step of the clock, whoever sets it. -/
theorem stepClock_steps {s : State} {c : Clock} {start : Call → Call} (ok : CallsOk s) (distinct : DistinctIds s.bulletins.list)
    (isStart : ∀ d, (s.clock.grade ≠ .unset → start d = d) ∧ (s.clock.grade = .unset → start d = { d with estimates := (some
      ⟨min 108000 d.schedArr, min 108000 d.schedArr, departureFrom s.setup.settings.minDwell d (min 108000 d.schedArr), 0⟩) }))
    (grade : c.grade ≠ .unset) : ∃ u, BulletinsChanged u (stepClock c s) s.bulletins.list ∧
      (c.date = s.clock.date → CallsEvaluated start (s.withClock c) u) ∧ (c.date ≠ s.clock.date → TableBuilt (s.withClock c) u) := by
  by_cases date : s.clock.date = c.date
  · obtain ⟨w, hw⟩ : ∃ w, w = if s.clock.grade = .unset then estimateCalls (s.withClock c) else s.withClock c := ⟨_, rfl⟩
    have path : stepClock c s = secondsToLists (evalAll w) := by
      rw [hw]
      exact if_pos date
    have kept : OnTable (s.withClock c) w := by
      rw [hw]
      exact .ite (estimateCalls_committed _).onTable (.refl _)
    refine ⟨evalAll w, path ▸ secondsToLists_changed ?_ distinct, fun _ => ?_, fun other => absurd date.symm other⟩
    · rw [(evalAll_onTable w).bulletins, kept.bulletins]
      rfl
    · rw [hw]
      by_cases unset : s.clock.grade = .unset
      · have starts : start = fun d => d.withBuildEstimates s.setup.settings.minDwell :=
          funext fun d => ((isStart d).2 unset).trans (buildEstimates_eq _ d).symm
        rw [if_pos unset, starts]
        exact evalAll_estimated (s := s.withClock c) grade fun d mem => by
          by_contra timed
          exact (ok.timed d mem).1 timed unset
      · have starts : start = fun d => d := funext fun d => (isStart d).1 unset
        rw [if_neg unset, starts]
        exact evalAll_evaluated (s := s.withClock c) grade
  · have path : stepClock c s = secondsToLists (buildTable .fresh (s.withClock c)) := if_neg date
    refine ⟨buildTable .fresh (s.withClock c), path ▸ secondsToLists_changed ?_ distinct, fun same => absurd same.symm date,
      fun _ => buildTable_fresh _⟩
    rw [(buildTable_onTable _ _).bulletins]
    rfl

/-- Settles O10: the seconds event, the rollover with or without an activation, and ageing. -/
theorem secondsEventsMoveTheCallTable : Obligations.SecondsEventsMoveTheCallTable := by
  refine ⟨fun s c grade tenths distinct => ⟨fun second hc => ?_, fun last day yearEnd => ?_⟩, fun s host due distinct => ?_⟩
  · have path : exec .referenceClockTenth s = .next (secondsToLists (evalAll { s with clock := c })) :=
      congrArg Host.Outcome.next ((clockTenth_second grade tenths second).trans (by rw [hc]; rfl))
    refine ⟨_, _, path, evalAll_evaluated (by rw [hc]; exact grade), secondsToLists_changed ?_ distinct⟩
    rw [(evalAll_onTable _).bulletins]
  · have rolled : s.clock.tickOn.rolled = c := by
      unfold Clock.rolled
      by_cases lastYear : s.clock.date = ⟨2099, 12, 31⟩
      · exact (if_pos lastYear).trans (yearEnd lastYear).symm
      · exact (if_neg lastYear).trans (day lastYear).symm
    have path : exec .referenceClockTenth s = .next (secondsToLists (buildTable .fresh (rolloverCheck { s with clock := c }))) :=
      congrArg Host.Outcome.next ((clockTenth_rollover grade tenths last).trans (by rw [← rolled]; rfl))
    have timed : s.clock.date ≠ ⟨2099, 12, 31⟩ → c.grade ≠ .unset := fun date => by
      rw [day date]
      exact grade
    refine ⟨fun waits => ?_, fun staged date effective => ?_⟩
    · have unready : ¬timetableReady { s with clock := c } = true := fun ready => by
        rcases waits with other | ⟨date, later⟩
        · exact other (by simpa using (Bool.and_eq_true_iff.1 ready).1)
        · have early := ((timetableReady_iff (s := { s with clock := c }) (timed date)).1 ready).2
          rw [later] at early
          cases early
      rw [rolloverCheck_waits unready] at path
      refine ⟨_, _, path, buildTable_fresh _, secondsToLists_changed ?_ distinct⟩
      rw [(buildTable_onTable _ _).bulletins]
    · have ready := (timetableReady_iff (s := { s with clock := c }) (timed date)).2 ⟨staged, effective⟩
      rw [rolloverCheck_activates ready] at path
      refine ⟨_, _, path, buildTable_fresh _, secondsToLists_changed ?_ distinct⟩
      rw [(buildTable_onTable _ _).bulletins, compose_bulletins, raise_bulletins]
  · exact ⟨_, congrArg Host.Outcome.next (age_due host due), secondsToLists_changed rfl distinct⟩

/-- Settles O11: both steps are one operation on the clock they are given. -/
theorem stepsReevaluateOrRebuildTheTable : Obligations.StepsReevaluateOrRebuildTheTable := by
  intro s start ok distinct isStart
  constructor
  · intro tag d h serving low date hours minutes seconds floor
    have valid : setTimeValid s.setup.settings.rolloverMinute d h = true := by
      rw [setTimeValid_iff, resetDate_key_lt date]
      exact ⟨date, hours, minutes, seconds, floor.symm⟩
    obtain ⟨c, hc⟩ : ∃ c, c = hostClock s.setup.settings.rolloverMinute d h s.clock := ⟨_, rfl⟩
    have path := exec_setTime_of_serving serving tag (setTime_valid valid)
    rw [← hc] at path
    obtain ⟨u, changed, same, other⟩ := stepClock_steps (c := c) ok distinct isStart (by rw [hc]; simp [hostClock])
    have clock : (stepClock c s).clock = c := (stepClock_inner c s).clock
    refine ⟨u, stepClock c s, path, changed, ?_, ?_⟩
    · rw [clock]
      exact same
    · rw [clock]
      exact other
  · rintro ⟨_, seq⟩ f p v c fields right mem rfl coverage noTimetable noFare stale adopted hv
    obtain ⟨q, listed, station, present⟩ := c.present
    obtain rfl := c.peers.same mem listed station
    have counted : PeersOk (countFrame s) := ⟨c.peers.entries, c.peers.watch⟩
    have entry : movePeer q ((q.announced f).accepted s.clock.tick) (countFrame s) =
        updatePeer q.station (fun _ => (q.announced f).accepted s.clock.tick) (countFrame s) :=
      movePeer_still counted c.running mem present.symm coverage.symm
    obtain ⟨w, hw⟩ : ∃ w, w = updatePeer q.station (fun _ => (q.announced f).accepted s.clock.tick) (countFrame s) := ⟨_, rfl⟩
    have clock : w.clock = s.clock := by rw [hw]; rfl
    have path : exec (.announceReceived ⟨q.station, seq⟩ f) s =
        .next (raise (.clockAdopted q.station s.clock.grade) (stepClock (adoptedClock f s.clock) w)) := by
      refine congrArg Host.Outcome.next ((receiveAnnounce_accepted c.running c.head fields c.peers mem rfl right).trans ?_)
      have adopts' : adopts w.clock f = true := by rw [clock]; exact (adopts_iff _ _).2 adopted
      rw [entry, ← hw, announceHandOn, noTimetable, noFare, considerOffer_zero, considerOffer_zero, if_neg (by simp [stale]),
        considerAdoption, if_pos adopts', clock]
    have before : CallsOk w := ok.congr (by rw [hw]; rfl) clock (by rw [hw]; rfl) (by rw [hw]; rfl)
    have start' : ∀ d, (w.clock.grade ≠ .unset → start d = d) ∧ (w.clock.grade = .unset → start d = { d with estimates := (some
        ⟨min 108000 d.schedArr, min 108000 d.schedArr, departureFrom w.setup.settings.minDwell d (min 108000 d.schedArr), 0⟩) }) := by
      rw [clock, show w.setup = s.setup by rw [hw]; rfl]
      exact isStart
    have bulletins : w.bulletins = s.bulletins := by rw [hw]; rfl
    obtain ⟨u, changed, same, other⟩ := stepClock_steps (c := adoptedClock f s.clock) before (bulletins ▸ distinct) start' (by simp [adoptedClock])
    have isV : w.withClock (adoptedClock f s.clock) = v := by
      rw [hw, hv]
      simp only [Peer.announced, Peer.accepted, noTimetable, noFare]
      rfl
    rw [isV, clock] at same other
    rw [bulletins] at changed
    exact ⟨u, _, path, changed, same, other⟩

end Sys2Proof.Machine
end

