-- ==== Sys2Proof/Proofs/Fills.lean ====
section
/-! SUPPORT. A fill of the Edition Store: the check of a complete image, activation, and the segments that fill it (R104 to R117). -/

namespace Sys2Proof.Machine

/-! ### What a build leaves of the active timetable (R19) -/

theorem TimetableStands.foldl {α : Type} {f : State → α → State} (h : ∀ s a, TimetableStands s (f s a)) (xs : List α) (s : State) :
    TimetableStands s (xs.foldl f s) :=
  List.foldlRecOn _ _ (motive := TimetableStands s) (.refl s) fun _ m a _ => m.trans (h _ a)

theorem saleAfterBuild_timetable (s : State) : TimetableStands s (saleAfterBuild s) := by
  unfold saleAfterBuild
  split
  · split
    · split
      · exact abortSale_timetable _ s
      · split
        · exact .refl s
        · exact abortSale_timetable _ s
    · exact .refl s
  · exact .refl s

theorem claimsAfterBuild_timetable (k : BuildKind) (dropped : List Nat) (s : State) :
    TimetableStands s (claimsAfterBuild k dropped s) := by
  cases k with
  | fresh => exact ⟨rfl, rfl⟩
  | swap => exact .foldl (fun t n => (removeCallClaims_pullsOnly n true t).stands) dropped s

theorem endAfterBuild_timetable (s : State) (c : Call) : TimetableStands s (endAfterBuild s c) :=
  (callEnded_timetable c s).trans ((compose_onPanel _).trans (raise_onPanel _ _)).stands

theorem buildTable_timetable (k : BuildKind) (s : State) : TimetableStands s (buildTable k s) := by
  have put : TimetableStands s (rebuilt k s) := ⟨rfl, rfl⟩
  have handed : TimetableStands s (handedOff k s) := put.trans ((saleAfterBuild_timetable _).trans
    ((claimsAfterBuild_timetable k _ _).trans (.foldl endAfterBuild_timetable _ _)))
  rw [buildTable_eq]
  refine handed.trans (TimetableStands.trans ?_ ((compose_onPanel _).trans (raise_onPanel _ _)).stands)
  exact ⟨rfl, rfl⟩

/-! ### The check of a complete image (R107, R109, R115 to R117) -/

section check
variable {k : TableKind} {x : Slot} {s : State}

/-- The image staged, before its activation condition is tested. -/
def stagedIn (k : TableKind) (x : Slot) (s : State) : State :=
  raise (.editionStaged k (editionOf x.staging) (x.origin.getD .host)) (setSlot k { x with loader := .staged, pull := none } s)

theorem stagedIn_eq : stagedIn k x s = raise (.editionStaged k (editionOf x.staging) (x.origin.getD .host))
    { s with store := s.store.setSlot k { x with loader := .staged, pull := none } } := rfl

theorem stagedIn_slot : slotOf (stagedIn k x s) k = { x with loader := .staged, pull := none } := slot_setSlot _ _ _

theorem checkFill_sound (ok : checkImage k s.setup.settings.haltCode x.activeEdition x.staging = none) :
    checkFill k (setSlot k x s) = testActivation k (stagedIn k x s) := by
  have none : stagingFault k (setSlot k x s) = none := by
    rw [stagingFault, slotOf_setSlot, if_pos rfl]
    exact ok
  simp only [checkFill, none, stage, slotOf_setSlot, if_true]
  rw [setSlot, setSlot, State.withStore_store, setSlot_setSlot]
  rfl

theorem checkFill_faulty {f : Reason × Nat} (fault : checkImage k s.setup.settings.haltCode x.activeEdition x.staging = some f) :
    checkFill k (setSlot k x s) = raise (.loadRejected k f.1 f.2 (x.origin.getD .host))
      { s with store := s.store.setSlot k { x.cleared with refused := x.refusedAfter } } := by
  have some : stagingFault k (setSlot k x s) = some f := by
    rw [stagingFault, slotOf_setSlot, if_pos rfl]
    exact fault
  simp only [checkFill, some, reject, slotOf_setSlot, if_true]
  rw [setSlot, setSlot, State.withStore_store, setSlot_setSlot]
  rfl

end check

theorem activate_slot (k : TableKind) (s : State) : slotOf (activate k s) k = { (slotOf s k).cleared with
    active := some (slotOf s k).staging, activeEdition := editionOf (slotOf s k).staging } := slot_setSlot _ _ _

theorem stagedIn_ready {x : Slot} {s : State} : timetableReady (stagedIn .timetable x s) = true ↔
    (s.clock.grade = .unset ∧ x.active = none) ∨
      (s.clock.grade ≠ .unset ∧ (effectiveDateOf x.staging).onOrBefore s.clock.date = true) := by
  have staged : (stagedIn .timetable x s).store.timetable = { x with loader := .staged, pull := none } := stagedIn_slot (k := .timetable)
  have clock : (stagedIn .timetable x s).clock = s.clock := rfl
  rw [timetableReady, staged, clock]
  by_cases unset : s.clock.grade = .unset <;> simp [unset]

theorem activateStagedTimetable_active {s : State} (ready : timetableReady s = true) :
    activateStagedTimetable s = buildTable .swap (compose (activate .timetable s)) := if_pos ready

theorem activateTimetable_built {x : Slot} {s : State} (ready : timetableReady (stagedIn .timetable x s) = true) :
    ∃ t, activateStagedTimetable (stagedIn .timetable x s) = t ∧
      t.store.timetable.active = some x.staging ∧ t.store.timetable.activeEdition = editionOf x.staging ∧
      (∃ w, w.store.timetable.active = some x.staging ∧ CallsBuilt s.calls.calls (compose w) t ∧
        w = { s with store := w.store, notices := w.notices }) ∧
      t = { s with store := t.store, calls := t.calls, line := t.line, sales := t.sales, claims := t.claims
                   board := t.board, notices := t.notices } ∧
      t.line.peers = s.line.peers ∧ t.sales.journal = s.sales.journal := by
  obtain ⟨w, hw⟩ : ∃ w, w = activate .timetable (stagedIn .timetable x s) := ⟨_, rfl⟩
  have slot : w.store.timetable = { ({ x with loader := .staged, pull := none } : Slot).cleared with
      active := some x.staging, activeEdition := editionOf x.staging } := by
    rw [hw]
    exact (activate_slot .timetable _).trans (by rw [stagedIn_slot])
  have kept : w = { s with store := w.store, notices := w.notices } := by rw [hw]; rfl
  have panel := compose_onPanel w
  have built := buildTable_built .swap (compose w)
  have calls : BuildKind.keeps .swap (compose w) = s.calls.calls := (congrArg CallTable.calls panel.calls).trans (by rw [kept])
  have stands := panel.stands.trans (buildTable_timetable .swap (compose w))
  rw [calls] at built
  refine ⟨buildTable .swap (compose w), hw ▸ activateStagedTimetable_active ready, stands.1.trans (by rw [slot]), stands.2.trans (by rw [slot]),
    ⟨w, by rw [slot], built, kept⟩, ?_, ?_, ?_⟩
  · have changed : OnTable s w := by
      rw [kept]
      exact ⟨_, _, _, _, _, _, _, rfl⟩
    exact (changed.trans (panel.onTable.trans (buildTable_onTable .swap _))).eq
  · rw [built.kept.1, panel.line, kept]
  · rw [built.kept.2.2.2.1, panel.sales, kept]

/-- The end of a fill as the statements describe it. -/
theorem checkFill_checked (k : TableKind) (x : Slot) (s : State) : FillChecked k x s (checkFill k (setSlot k x s)) where
  rejected why off fault := by
    rw [checkFill_faulty fault]
    rfl
  waits ok condition := by
    rw [checkFill_sound ok, ← stagedIn_eq]
    cases k with
    | timetable =>
      refine if_neg fun ready => ?_
      rcases condition with ⟨e, _⟩ | ⟨_, unset, held⟩ | ⟨_, timed, later⟩
      · cases e
      · rcases stagedIn_ready.1 ready with ⟨_, none⟩ | ⟨timed, _⟩
        · exact held none
        · exact timed unset
      · rcases stagedIn_ready.1 ready with ⟨unset, _⟩ | ⟨_, due⟩
        · exact timed unset
        · rw [later] at due
          cases due
    | fare =>
      refine if_neg fun ready => ?_
      rcases condition with ⟨_, selling⟩ | ⟨e, _⟩ | ⟨e, _⟩
      · exact selling (Option.isNone_iff_eq_none.1 (Bool.and_eq_true_iff.1 ready).2)
      · cases e
      · cases e
  fare ok fare idle := by
    subst fare
    rw [checkFill_sound ok]
    refine (activateFare_staged (s := stagedIn .fare x s) rfl idle).trans ?_
    rfl
  timetable ok timetable condition := by
    subst timetable
    obtain ⟨t, path, active⟩ := activateTimetable_built (stagedIn_ready.2 condition)
    rw [checkFill_sound ok, testActivation, path]
    exact active

/-! ### Segments of a pull (R112) -/

section segments
variable {k : TableKind} {p : Pull} {f : SegmentFields} {s : State}

theorem segmentForPull_gone (gone : f.gone = true) : segmentForPull k p f s = abandonPull k s := if_pos gone

theorem segmentForPull_lower (data : f.gone = false) (lower : f.index < p.index) : segmentForPull k p f s = s := by
  rw [segmentForPull, data, if_neg Bool.false_ne_true, if_pos lower]

theorem segmentForPull_higher (higher : p.index < f.index) : segmentForPull k p f s = abandonPull k s := by
  unfold segmentForPull
  split
  · rfl
  · rw [if_neg (Nat.lt_asymm higher), if_neg (Nat.ne_of_gt higher)]

theorem segmentForPull_expected {n : Nat} (data : f.gone = false) (expected : f.index = p.index)
    (declared : (slotOf s k).lengthFor k p f.data = some n) : segmentForPull k p f s =
      if f.data.length = requiredLength n f.index then acceptSegment k p n f.data s else abandonPull k s := by
  simp only [segmentForPull, data, Bool.false_eq_true, if_false, expected, Nat.lt_irrefl, if_true, declared]

theorem requiredLength_eq (n i : Nat) : requiredLength n i = min 64 (n - 64 * i) := by
  rw [requiredLength, Config.segmentSize, Nat.mul_comm]

theorem lengthFor_some {x : Slot} {n : Nat} {data : List Byte}
    (h : x.declared = some n ∨ (x.declared = none ∧ ∃ hd, headerOf data = some hd ∧ hd.length = n ∧ hd.edition = p.edition ∧
      hd.kind = (match k with | .timetable => 0 | .fare => 1) ∧ imageMinimum ≤ n ∧ n ≤ imageLimit k)) :
    x.lengthFor k p data = some n := by
  rcases h with known | ⟨unknown, hd, header, rfl, edition, kind, low, high⟩
  · simp only [Slot.lengthFor, known]
  · have code : hd.kind = k.code := by
      cases k <;> exact kind
    simp only [Slot.lengthFor, unknown, firstSegmentLength, header, code, edition, low, high, decide_true, Bool.and_true, if_true]

/-- The slot as an accepted segment leaves it. -/
def Slot.appended (x : Slot) (p : Pull) (n : Nat) (data : List Byte) : Slot :=
  { x with staging := x.staging ++ data, offset := x.offset + data.length, declared := some n,
           pull := some { p with replyTimer := none, request := none } }

theorem acceptSegment_eq (n : Nat) (data : List Byte) : acceptSegment k p n data s =
    if (slotOf s k).offset + data.length = n then checkFill k (setSlot k ((slotOf s k).appended p n data) s)
    else requestSegment 4 k { p with index := p.index + 1, tries := 1, replyTimer := none, request := none }
      (setSlot k ((slotOf s k).appended p n data) s) := rfl

theorem acceptSegment_continues {n : Nat} {data : List Byte} (left : (slotOf s k).offset + data.length ≠ n)
    (m : s.line.muted = false) (room : s.line.queue.length < 12) : acceptSegment k p n data s = { s with
      store := s.store.setSlot k { (slotOf s k).appended p n data with
        pull := some ⟨p.source, p.edition, p.index + 1, 1, none, some s.line.seqCounter⟩ }
      line := { s.line with
        queue := s.line.queue ++ [⟨s.line.seqCounter, 0, .segReq ⟨p.source, k, p.edition, p.index + 1⟩⟩]
        seqCounter := (s.line.seqCounter + 1) % 4096
        condition := if s.line.queue = [] then .waiting s.clock.tick else s.line.condition } } := by
  rw [acceptSegment_eq, if_neg left]
  refine (requestSegment_room (by exact m) (by exact room) 3 _).trans ?_
  simp only [setSlot, State.withStore_store, slot_setSlot, setSlot_setSlot]
  rfl

theorem segmentArrived_other {origin : Nat} (h : (slotOf s f.kind).loader ≠ .peerFill ∨
    ∀ p, (slotOf s f.kind).pull = some p → p.source ≠ origin ∨ p.edition ≠ f.edition) : segmentArrived origin f s = s := by
  unfold segmentArrived
  dsimp only
  split
  · next p pull =>
    refine if_neg fun filling => ?_
    simp only [Bool.and_eq_true, decide_eq_true_eq] at filling
    obtain ⟨⟨loader, source⟩, edition⟩ := filling
    rcases h with other | other
    · exact other loader
    · rcases other p pull with e | e
      · exact e source
      · exact e edition
  · rfl

theorem segmentArrived_own {origin : Nat} (loader : (slotOf s f.kind).loader = .peerFill) (pull : (slotOf s f.kind).pull = some p)
    (source : p.source = origin) (edition : p.edition = f.edition) :
    segmentArrived origin f s = segmentForPull f.kind p f s := by
  simp only [segmentArrived, pull, loader, source, edition, decide_true, Bool.and_true, if_true]

end segments

/-- Settles O39: a segment that reaches its pull, by its index and its length. -/
theorem segmentFillsThePull : Obligations.SegmentFillsThePull := by
  rintro h f s u x present fields rfl rfl
  have path : exec (.segmentReceived h f) s = .next (segmentHandOn h.origin f (s.heardFrom h.origin)) :=
    congrArg Host.Outcome.next (receive_present present fields _)
  refine ⟨fun other => path.trans (congrArg _ ?_), fun p addressee loader pull source edition => ?_⟩
  · by_cases addressee : f.addressee = s.setup.straps.station
    · exact (if_pos addressee).trans (segmentArrived_other (other.resolve_left (fun e => e addressee)))
    · exact if_neg addressee
  · have reaches : exec (.segmentReceived h f) s = .next (segmentForPull f.kind p f (s.heardFrom h.origin)) :=
      path.trans (congrArg _ ((if_pos addressee).trans (segmentArrived_own loader pull source edition)))
    rw [reaches]
    refine ⟨fun data lower => congrArg _ (segmentForPull_lower data lower), fun ends => congrArg _ ?_,
      fun n data expected declared length => ?_⟩
    · by_cases gone : f.gone = true
      · exact segmentForPull_gone gone
      · rcases ends with other | higher | ⟨expected, n, declared, wrong⟩
        · exact absurd other gone
        · exact segmentForPull_higher higher
        · rw [segmentForPull_expected (s := s.heardFrom h.origin) (n := n) (Bool.eq_false_iff.2 gone) expected (lengthFor_some (.inl declared)),
            requiredLength_eq, if_neg wrong]
          rfl
    · rw [segmentForPull_expected (s := s.heardFrom h.origin) (n := n) data expected (lengthFor_some declared), requiredLength_eq, if_pos length]
      refine ⟨fun left m room => congrArg _ (acceptSegment_continues left m room), fun whole => ?_⟩
      refine ⟨_, congrArg _ ((acceptSegment_eq n f.data).trans (if_pos whole)), ?_⟩
      have checked := checkFill_checked f.kind ((slotOf (s.heardFrom h.origin) f.kind).appended p n f.data) (s.heardFrom h.origin)
      rw [show (slotOf (s.heardFrom h.origin) f.kind).appended p n f.data = { s.store.slot f.kind with
        staging := (s.store.slot f.kind).staging ++ f.data, offset := n, declared := some n
        pull := some { p with replyTimer := none, request := none } } by rw [← whole]; rfl] at checked ⊢
      exact checked

/-! ### A fill from the host (R104, R105) -/

theorem tableKindOf_none {k : Nat} (h : 1 < k) : tableKindOf k = none := by
  unfold tableKindOf
  split
  · omega
  · omega
  · rfl

theorem tableKindOf_some {k : Nat} {kind : TableKind} (h : k = (match kind with | .timetable => 0 | .fare => 1)) :
    tableKindOf k = some kind := by
  subst h
  cases kind <;> rfl

section loads
variable {k off : Nat} {kind : TableKind} {data : List Byte} {s : State}

theorem beginLoad_unnamed (unnamed : 1 < k) (n : Nat) : beginLoad k n s = (.refused .badKind, s) := by
  simp only [beginLoad, tableKindOf_none unnamed]

theorem beginLoad_taken (named : tableKindOf k = some kind) (n : Nat) : beginLoad k n s =
    if loadLengthValid kind n then (.ok .none, setSlot kind ((slotOf s kind).beginHostFill n) s) else (.refused .badSize, s) := by
  simp only [beginLoad, named]

theorem loadLengthValid_iff (n : Nat) : loadLengthValid kind n = true ↔ imageMinimum ≤ n ∧ n ≤ imageLimit kind := by
  rw [loadLengthValid, Bool.and_eq_true, decide_eq_true_eq, decide_eq_true_eq]

theorem loadData_unnamed (unnamed : 1 < k) : loadData k off data s = (.refused .badKind, s) := by
  simp only [loadData, tableKindOf_none unnamed]

theorem loadData_idle (named : tableKindOf k = some kind) (idle : (slotOf s kind).loader ≠ .hostFill) :
    loadData k off data s = (.refused .noLoad, s) := by
  simp only [loadData, named]
  exact if_neg idle

theorem loadData_filling (named : tableKindOf k = some kind) (filling : (slotOf s kind).loader = .hostFill) :
    loadData k off data s =
      if (slotOf s kind).inSequence off data then takeLoadSegment kind data s else loadOutOfSequence kind s := by
  simp only [loadData, named]
  exact if_pos filling

theorem inSequence_iff {x : Slot} {n : Nat} (declared : x.declared = some n) :
    x.inSequence off data = true ↔ off = x.offset ∧ off + data.length ≤ n := by
  rw [Slot.inSequence, declared, Bool.and_eq_true, decide_eq_true_eq, decide_eq_true_eq]
  rfl

end loads

/-- Settles O40: LOAD_BEGIN by its size, LOAD_SEGMENT by its place in the fill. -/
theorem hostFillBeginsAndRunsInSequence : Obligations.HostFillBeginsAndRunsInSequence := by
  refine ⟨fun tag k n kind s serving => ?_, ?_⟩
  · have g : gate .loadBegin true s = none := gate_run serving (by decide) rfl
    refine ⟨fun unnamed => exec_taken (i := .loadBegin tag k n) rfl g (beginLoad_unnamed unnamed n), fun code => ?_⟩
    have begins := beginLoad_taken (s := s) (tableKindOf_some code) n
    refine ⟨fun size => exec_taken (i := .loadBegin tag k n) rfl g (begins.trans (if_neg fun valid => ?_)), fun low high =>
      exec_taken (i := .loadBegin tag k n) rfl g (begins.trans (if_pos ?_))⟩
    · obtain ⟨low, high⟩ := (loadLengthValid_iff n).1 valid
      rcases size with short | long
      · exact absurd short (Nat.not_lt.2 low)
      · have past : imageLimit kind < n := by cases kind <;> exact long
        exact absurd past (Nat.not_lt.2 high)
    · have within : n ≤ imageLimit kind := by cases kind <;> exact high
      exact (loadLengthValid_iff n).2 ⟨low, within⟩
  · rintro tag k off data kind s x serving one most rfl
    have g : gate .loadSegment (segmentLengthOk data) s = none := by
      rw [segmentLengthOk, decide_eq_true one, decide_eq_true most]
      exact gate_run serving (by decide) rfl
    have taken : ∀ {t : State} {a : Answer}, loadData k off data s = (a, t) →
        exec (.loadSegment tag k off data) s = .next (t.answered 11 tag a) := fun h =>
      exec_taken (i := .loadSegment tag k off data) rfl g h
    refine ⟨fun unnamed => taken (loadData_unnamed unnamed), fun code =>
      ⟨fun idle => taken (loadData_idle (tableKindOf_some code) idle), fun n filling declared => ?_⟩⟩
    have fills := loadData_filling (off := off) (data := data) (tableKindOf_some code) filling
    have sequence := inSequence_iff (off := off) (data := data) declared
    refine ⟨fun out => taken (fills.trans (if_neg fun at_end => ?_)), fun place short => taken (fills.trans ((if_pos
      (sequence.2 ⟨place, short.le⟩)).trans ?_)), fun place whole => ?_⟩
    · obtain ⟨place, within⟩ := sequence.1 at_end
      omega
    · subst place
      rw [takeLoadSegment]
      refine (if_neg fun e => ?_).trans rfl
      have : (s.store.slot kind).offset + data.length = n := (Option.some.inj (declared.symm.trans e)).symm
      omega
    · subst place
      obtain ⟨y, hy⟩ : ∃ y, y = (slotOf s kind).append data := ⟨_, rfl⟩
      have fault : stagingFault kind (setSlot kind y s) =
          checkImage kind s.setup.settings.haltCode (s.store.slot kind).activeEdition ((s.store.slot kind).staging ++ data) := by
        rw [stagingFault, slotOf_setSlot, if_pos rfl, hy]
        rfl
      have takes : takeLoadSegment kind data s =
          (.ok (.loadProgress y.offset (some (if (stagingFault kind (setSlot kind y s)).isNone then .staged else .empty))),
            checkFill kind (setSlot kind y s)) := by
        rw [takeLoadSegment, ← hy]
        refine if_pos ?_
        rw [hy]
        exact declared.trans (congrArg _ whole.symm)
      have offset : y.offset = n := by rw [hy]; exact whole
      rw [offset, fault] at takes
      refine ⟨_, _, taken (fills.trans ((if_pos (sequence.2 ⟨rfl, whole.le⟩)).trans takes)), ?_, fun sound => ?_, fun faulty => ?_⟩
      · have checked := checkFill_checked kind y s
        rw [show y = { s.store.slot kind with staging := (s.store.slot kind).staging ++ data, offset := n } by rw [← offset, hy]; rfl]
          at checked ⊢
        exact checked
      · rw [sound]
        rfl
      · rw [if_neg (by simpa using faulty)]

end Sys2Proof.Machine
end

