-- ==== Sys2Proof/Proofs/Starting.lean ====
section
/-! SUPPORT. CONFIGURE's clamps and START's steps (R185, R186). -/

namespace Sys2Proof.Machine

/-! ### CONFIGURE (R185) -/

theorem coinStepOf_eq (n : Nat) : coinStepOf n = ([50, 20, 10, 5].find? (· ≤ n)).getD 1 := by
  unfold coinStepOf
  simp only [List.find?]
  split_ifs with h50 h20 h10 h5 <;> simp [*]

theorem settings_clamped {p : ConfigParams} (halt : p.haltCode ≠ 0) : p.settings =
    { haltCode := min 65535 p.haltCode, rolloverMinute := min 359 p.rolloverMinute, minDwell := max 20 (min 120 p.minDwell)
      minSpeed := max 100 (min 1000 p.minSpeed), coinStep := ([50, 20, 10, 5].find? (· ≤ p.coinStep)).getD 1
      resume := min 999999 p.resume } := by
  have code : max 1 (min 65535 p.haltCode) = min 65535 p.haltCode := by omega
  simp only [ConfigParams.settings, coinStepOf_eq, clampNat_eq 1 65535 p.haltCode (by decide), code,
    clampNat_eq 0 359 p.rolloverMinute (by decide), clampNat_eq 20 120 p.minDwell (by decide),
    clampNat_eq 100 1000 p.minSpeed (by decide), clampNat_eq 0 999999 p.resume (by decide), Nat.zero_max]

theorem pair_clamped (p : PairConfig) : p.clamped =
    { enabled := p.enabled, direction := p.direction, spacing := max 50 (min 500 p.spacing)
      distance := max 100 (min 5000 p.distance), braking := min 180 p.braking } := by
  simp only [PairConfig.clamped, clampNat_eq 50 500 p.spacing (by decide), clampNat_eq 100 5000 p.distance (by decide),
    clampNat_eq 0 180 p.braking (by decide), Nat.zero_max]

theorem board_clamped (p : ConfigParams) : p.board =
    { rows := max 2 (min 8 p.rows), columns := max 16 (min 40 p.columns), filter := min 2 p.platformFilter
      nightStart := min 1439 p.nightStart, nightEnd := min 1439 p.nightEnd, nightLevel := min 7 p.nightLevel
      dayLevel := min 7 p.dayLevel } := by
  simp only [ConfigParams.board, clampNat_eq 2 8 p.rows (by decide), clampNat_eq 16 40 p.columns (by decide),
    clampNat_eq 0 2 p.platformFilter (by decide), clampNat_eq 0 1439 p.nightStart (by decide),
    clampNat_eq 0 1439 p.nightEnd (by decide), clampNat_eq 0 7 p.nightLevel (by decide), clampNat_eq 0 7 p.dayLevel (by decide),
    Nat.zero_max]

theorem configure_stores {p : ConfigParams} {s : State} (fresh : s.setup.configured = false) (halt : p.haltCode ≠ 0) :
    configure p s = (.ok (.configured p.settings p.pairA.clamped p.pairB.clamped p.board), storeConfiguration p s) := by
  rw [configure, fresh, if_neg Bool.false_ne_true, if_neg halt]

/-! ### START (R186) -/

/-- An ANNOUNCE that finds the queue empty, and its timer's draw. -/
theorem announce_alone {s : State} {r : Rng} (m : s.line.muted = false) (empty : s.line.queue = []) (rng : s.line.rng = some r) :
    announce s = { s with line := { s.line with
      queue := [⟨s.line.seqCounter, 0, .announce (announceFields s)⟩], condition := .waiting s.clock.tick
      seqCounter := (s.line.seqCounter + 1) % 4096
      announceTimer := some ⟨s.clock.tick, 100 + Config.rngValue r.station r.seedTick r.drawn % 11⟩
      rng := some { r with drawn := r.drawn + 1 } } } := by
  have handed : hand (.announce (announceFields s)) s = s.withLine { s.line with
      queue := [⟨s.line.seqCounter, 0, .announce (announceFields s)⟩], condition := .waiting s.clock.tick
      seqCounter := (s.line.seqCounter + 1) % 4096 } := by
    rw [hand_of_room m (by simp [empty]) (by simp [empty]), Line.push_eq, empty, if_pos rfl]
    rfl
  rw [announce, handed, startAnnounceTimer_seeded (by exact rng)]
  rfl

theorem compose_dark {s : State} (dark : s.board.rotation = none) : compose s = s :=
  if_neg fun active => ((boardActive_iff s).1 active).2 dark

/-- A build without a timetable, a claim, a sale or a board to compose. -/
theorem buildTable_bare {v : State} (unloaded : v.store.timetable.active = none) (idle : v.sales.sale = none) (unclaimed : v.claims = [])
    (dark : v.board.rotation = none) : buildTable .fresh v = raise (.callChanged ((v.calls.buildCount + 1) % 256))
      { v with calls := { v.calls with calls := [], buildCount := (v.calls.buildCount + 1) % 256, date := v.clock.date } } := by
  have built : builtCalls .fresh v = [] := by
    rw [builtCalls_eq, activeTimetable_none unloaded]
    rfl
  have put : rebuilt .fresh v = { v with calls := { v.calls with calls := [], date := v.clock.date } } := by
    rw [rebuilt, built]
    rfl
  have stands : saleAfterBuild (rebuilt .fresh v) = rebuilt .fresh v := by
    have sale : (rebuilt .fresh v).sales.sale = none := idle
    simp only [saleAfterBuild, sale]
  have handed : handedOff .fresh v = { v with calls := { v.calls with calls := [], date := v.clock.date } } := by
    rw [handedOff, stands, put, built]
    exact congrArg (fun c => { v with calls := { v.calls with calls := [], date := v.clock.date }, claims := c }) unclaimed.symm
  rw [buildTable_eq, handed, compose_dark (by exact dark)]
  rfl

theorem compose_mode {s : State} (active : s.Composing) (unloaded : s.store.timetable.active = none) :
    (compose s).board.mode = .noTimetable ∧ (compose s).board.rotation = s.board.rotation := by
  have mode : modeOf s = .noTimetable := by simp [modeOf, unloaded]
  rw [compose, if_pos ((boardActive_iff s).2 active), mode]
  refine ⟨?_, (handToPort_rest _ _).2.1⟩
  simp only [State.withBoard, Board.handToPort]
  split <;> rfl

section starting
variable {s : State} (muted : s.line.muted = false) (empty : s.line.queue = [])
include muted empty

/-- The Line Controller as START leaves it (R186). -/
theorem startLine_eq : startLine s.inRun = { s.inRun with line := { s.line with
    queue := [⟨s.line.seqCounter, 0, .announce (announceFields (s.inRun.withLine { s.line with
      rng := some ⟨s.setup.straps.station, s.clock.tick, 0⟩, freshCount := 3 }))⟩]
    condition := .waiting s.clock.tick, seqCounter := (s.line.seqCounter + 1) % 4096, freshCount := 3
    announceTimer := some ⟨s.clock.tick, 100 + Config.rngValue s.setup.straps.station s.clock.tick 0 % 11⟩
    rng := some ⟨s.setup.straps.station, s.clock.tick, 1⟩ } } := by
  refine (announce_alone (s := s.inRun.withLine { s.line with
    rng := some ⟨s.setup.straps.station, s.clock.tick, 0⟩, freshCount := 3 }) muted empty rfl).trans ?_
  rfl

/-- The state that START hands to the board (R186). -/
theorem startCalls_eq (unloaded : s.store.timetable.active = none) (idle : s.sales.sale = none) (unclaimed : s.claims = [])
    (dark : s.board.rotation = none) : ∃ n, startCalls (startLine s.inRun) = { startLine s.inRun with
      calls := { calls := [], buildCount := (s.calls.buildCount + 1) % 256, date := s.clock.date
                 watch := watchView s.treadles s.line.peers, resend := some ⟨s.clock.tick, 600⟩ }
      notices := n } := by
  obtain ⟨l, hl⟩ : ∃ l, l = startLine s.inRun := ⟨_, rfl⟩
  have kept := startLine_eq muted empty
  rw [← hl] at kept ⊢
  have bare := buildTable_bare (v := l.withCalls { l.calls with watch := watchView l.treadles l.line.peers })
    (by rw [kept]; exact unloaded) (by rw [kept]; exact idle) (by rw [kept]; exact unclaimed) (by rw [kept]; exact dark)
  refine ⟨(startCalls l).notices, ?_⟩
  rw [startCalls, bare, kept]
  rfl

end starting

/-- Settles O6: CONFIGURE by its clamps, START step by step. -/
theorem configureStoresAndStartEntersRun : Obligations.ConfigureStoresAndStartEntersRun := by
  refine ⟨fun tag p s ready => ?_, fun tag s ready => ?_⟩
  · have g : gate .configure true s = none := gate_setup ready rfl rfl
    refine ⟨fun done => exec_taken (i := .configure tag p) rfl g (if_pos done), fun fresh bad =>
      exec_taken (i := .configure tag p) rfl g ((if_neg (by simp [fresh])).trans (if_pos bad)), fun fresh halt => ?_⟩
    refine ⟨_, _, _, _, rfl, rfl, rfl, rfl, ?_⟩
    refine (exec_taken (i := .configure tag p) rfl g (configure_stores fresh halt)).trans ?_
    rw [storeConfiguration, settings_clamped halt, pair_clamped, pair_clamped, board_clamped]
    rfl
  · have g : gate .start true s = none := gate_setup ready rfl rfl
    refine ⟨fun fresh => exec_taken (i := .start tag) rfl g (if_pos (by simp [fresh])), fun done bad =>
      exec_taken (i := .start tag) rfl g ((if_neg (by simp [done])).trans (if_pos bad)),
      fun done station empty muted idle unclaimed unloaded dark => ?_⟩
    have path := exec_taken (i := .start tag) rfl g ((if_neg (by simp [done])).trans (if_neg station) : start s = (.ok .none, startRun s))
    obtain ⟨n, calls⟩ := startCalls_eq muted empty unloaded idle unclaimed dark
    obtain ⟨w, hw⟩ : ∃ w, w = startCalls (startLine s.inRun) := ⟨_, rfl⟩
    have run : startRun s = if w.setup.straps.shows then compose (w.withBoard { w.board with
        rotation := some (timerFrom w.clock.tick 10) }) else w := by rw [hw]; rfl
    rw [← hw, startLine_eq muted empty] at calls
    have board : ∃ b, startRun s = { w with board := b } ∧
        (s.setup.straps.shows = true → b.rotation = some ⟨s.clock.tick, 100⟩ ∧ b.mode = .noTimetable) ∧
        (s.setup.straps.shows = false → b = s.board) := by
      by_cases shows : s.setup.straps.shows = true
      · rw [run, if_pos (by rw [calls]; exact shows), compose_eq]
        have mode := compose_mode (s := w.withBoard { w.board with rotation := some (timerFrom w.clock.tick 10) })
          ⟨by rw [calls]; exact shows, by simp⟩ (by rw [calls]; exact unloaded)
        refine ⟨_, rfl, fun _ => ⟨mode.2.trans ?_, mode.1⟩, fun hidden => absurd (shows.symm.trans hidden) (by decide)⟩
        rw [calls]
        rfl
      · rw [run, if_neg (by rw [calls]; exact shows)]
        exact ⟨w.board, rfl, fun shown => absurd shown shows, fun _ => by rw [calls]; rfl⟩
    obtain ⟨b, started, shown, hidden⟩ := board
    rw [started, calls] at path
    refine ⟨_, _, _, path, rfl, rfl, rfl, rfl, rfl, rfl, ?_, rfl, shown, hidden, rfl, rfl, rfl, rfl, rfl, rfl, unclaimed, rfl, rfl⟩
    exact Nat.lt_succ_iff.1 (Nat.mod_lt _ (by decide))

end Sys2Proof.Machine
end

