-- ==== Sys2Proof/Proofs/CommandBytes.lean ====
section
/-! SUPPORT. The tests on a host command: its start-up state and role, and the bytes of its frame (R172 to R174, R190). -/

namespace Sys2Proof.Machine

/-! ### Which test a command meets (R173) -/

theorem hostCommand_gated {c : Command} {ok : Bool} {s : State} {a : Answer} (g : gate c ok s = some a) (tag : Nat)
    (body : State → Answer × State) : hostCommand c tag ok body s = s.answered c.code tag a := by
  unfold hostCommand
  rw [g]
  rfl

theorem runReset_gated {s : State} {a : Answer} (g : gate .reset true s = some a) (tag : Nat) (straps : Straps) :
    runReset tag straps s = s.answered 3 tag a := by
  unfold runReset
  rw [g]
  rfl

/-- Every host command is put to the gate of its code first; a well-formed one has a sound length. -/
structure Gated (i : Instr) (c : Command) (tag : Nat) (ok : Bool) : Prop where
  sound : i.wellFormed = true → ok = true
  stops : ∀ s a, gate c ok s = some a → exec i s = .next (s.answered c.code tag a)

theorem gated_hostCommand {i : Instr} {c : Command} {tag : Nat} {ok : Bool} {body : State → Answer × State}
    (runs : ∀ s, exec i s = .next (hostCommand c tag ok body s)) (sound : i.wellFormed = true → ok = true) : Gated i c tag ok :=
  ⟨sound, fun s _ g => (runs s).trans (congrArg _ (hostCommand_gated g tag body))⟩

theorem gated_of_hostFrame {i : Instr} {code tag : Nat} (h : hostFrame i = some (code, tag)) :
    ∃ c ok, Command.code c = code ∧ Gated i c tag ok := by
  cases i <;> cases h
  case reset straps => exact ⟨.reset, true, rfl, fun _ => rfl, fun s a g => congrArg _ (runReset_gated g tag straps)⟩
  case overlaySet ids =>
    refine ⟨.overlaySet, _, rfl, gated_hostCommand (fun _ => rfl) fun sound => ?_⟩
    exact (Bool.and_eq_true_iff.1 (Bool.and_eq_true_iff.1 sound).2).1
  case loadSegment k off data =>
    exact ⟨.loadSegment, _, rfl, gated_hostCommand (fun _ => rfl) fun sound => (Bool.and_eq_true_iff.1 sound).2⟩
  case postBulletin k from_ until_ text =>
    refine ⟨.postBulletin, _, rfl, gated_hostCommand (fun _ => rfl) fun sound => ?_⟩
    exact (Bool.and_eq_true_iff.1 (Bool.and_eq_true_iff.1 sound).2).1
  case noticeMask flags =>
    exact ⟨.noticeMask, _, rfl, gated_hostCommand (fun _ => rfl) fun sound => (Bool.and_eq_true_iff.1 sound).2⟩
  all_goals exact ⟨_, _, rfl, gated_hostCommand (c := _) (fun _ => rfl) fun _ => rfl⟩

theorem gate_busy {c : Command} {ok : Bool} {s : State} (busy : s.host.ready = false) : gate c ok s = some (.bare .busy) := by
  rw [gate, busy]
  rfl

section gates
variable {c : Command} {s : State} (ready : s.host.ready = true)
include ready

theorem gate_notStarted (setup : s.setup.running = false) (run : c.acceptance = .runOnly) :
    gate c true s = some (.bare .notStarted) := by
  simp only [gate, ready, setup, run]
  rfl

theorem gate_alreadyStarted (run : s.setup.running = true) (setup : c.acceptance = .setupOnly) :
    gate c true s = some (.bare .alreadyStarted) := by
  simp only [gate, ready, run, setup]
  rfl

theorem gate_notSelling (run : s.setup.running = true) (role : c.role = .sells) (later : c.acceptance = .runOnly)
    (sells : s.setup.straps.sells = false) : gate c true s = some (.refused .notSelling) := by
  simp only [gate, ready, run, later, role, sells]
  rfl

theorem gate_notShowing (run : s.setup.running = true) (role : c.role = .shows) (later : c.acceptance = .runOnly)
    (shows : s.setup.straps.shows = false) : gate c true s = some (.refused .notShowing) := by
  simp only [gate, ready, run, later, role, shows]
  rfl

end gates

theorem acceptance_runOnly {c : Command} (h : c.code = 5 ∨ (10 ≤ c.code ∧ c.code ≤ 31)) : c.acceptance = .runOnly := by
  revert h
  cases c <;> decide

theorem acceptance_setupOnly {c : Command} (h : c.code = 1 ∨ c.code = 2) : c.acceptance = .setupOnly := by
  revert h
  cases c <;> decide

theorem role_sells {c : Command} (h : 20 ≤ c.code ∧ c.code ≤ 27) : c.role = .sells := by
  revert h
  cases c <;> decide

theorem role_shows {c : Command} (h : c.code = 30 ∨ c.code = 31) : c.role = .shows := by
  revert h
  cases c <;> decide

/-! ### Parameters (R190) -/

/-- The parameters are as many as the command takes, and a count byte among them tells what follows it. -/
structure ParamsFit (code : Nat) (ps : List Nat) : Prop where
  low : (paramLengths code).1 ≤ ps.length
  high : ps.length ≤ (paramLengths code).2
  ids : code = 6 → ∀ n, ps[0]? = some n → n + 1 = ps.length
  text : code = 14 → ∀ n, ps[13]? = some n → n + 14 = ps.length

theorem ParamsFit.fixed {code n : Nat} {ps : List Nat} (lengths : paramLengths code = (n, n)) (length : ps.length = n)
    (ids : code ≠ 6) (text : code ≠ 14) : ParamsFit code ps :=
  ⟨by rw [lengths, length], by rw [lengths, length], fun e => absurd e ids, fun e => absurd e text⟩

theorem configOf_length {ps : List Nat} {p : ConfigParams} (h : configOf ps = some p) : ps.length = 34 := by
  unfold configOf at h
  split at h
  · unfold configRest at h
    split at h
    · rfl
    · cases h
  · cases h

section params
variable {code tag : Nat} {ps : List Nat} {s t : State}

theorem runFirst_fits (h : runFirst code tag ps s = some t) : ParamsFit code ps := by
  unfold runFirst at h
  split at h
  · obtain ⟨p, read, _⟩ := Option.map_eq_some_iff.1 h
    exact .fixed (n := 34) rfl (configOf_length read) (by decide) (by decide)
  · exact .fixed (n := 0) rfl rfl (by decide) (by decide)
  · exact .fixed (n := 0) rfl rfl (by decide) (by decide)
  · exact .fixed (n := 0) rfl rfl (by decide) (by decide)
  · exact .fixed (n := 6) rfl rfl (by decide) (by decide)
  · next n ids =>
    split at h
    · next fits =>
      simp only [Bool.and_eq_true, decide_eq_true_eq] at fits
      obtain ⟨count, few⟩ := fits
      refine ⟨Nat.succ_le_succ (Nat.zero_le _), Nat.succ_le_succ (count ▸ few), fun _ m e => ?_, fun e => absurd e (by decide)⟩
      cases e
      rw [count, List.length_cons]
    · cases h
  · exact .fixed (n := 0) rfl rfl (by decide) (by decide)
  · exact .fixed (n := 0) rfl rfl (by decide) (by decide)
  · exact .fixed (n := 0) rfl rfl (by decide) (by decide)
  · cases h

theorem runSecond_fits (h : runSecond code tag ps s = some t) : ParamsFit code ps := by
  unfold runSecond at h
  split at h
  · exact .fixed (n := 3) rfl rfl (by decide) (by decide)
  · next k a b data =>
    split at h
    · next fits =>
      simp only [Bool.and_eq_true, decide_eq_true_eq] at fits
      exact ⟨Nat.add_le_add_right fits.1 3, Nat.add_le_add_right fits.2 3, fun e => absurd e (by decide), fun e => absurd e (by decide)⟩
    · cases h
  · exact .fixed (n := 1) rfl rfl (by decide) (by decide)
  · split at h
    · next length => exact .fixed (n := 12) rfl length (by decide) (by decide)
    · cases h
  · next text =>
    split at h
    · next fits =>
      simp only [Bool.and_eq_true, decide_eq_true_eq] at fits
      obtain ⟨⟨count, some⟩, few⟩ := fits
      rw [count] at some few
      refine ⟨Nat.add_le_add_right some 14, Nat.add_le_add_right few 14, fun e => absurd e (by decide), fun _ m e => ?_⟩
      cases e
      rw [count]
      rfl
    · cases h
  · exact .fixed (n := 2) rfl rfl (by decide) (by decide)
  · exact .fixed (n := 1) rfl rfl (by decide) (by decide)
  · exact .fixed (n := 1) rfl rfl (by decide) (by decide)
  · exact .fixed (n := 0) rfl rfl (by decide) (by decide)
  · exact .fixed (n := 1) rfl rfl (by decide) (by decide)
  · cases h

theorem runThird_fits (h : runThird code tag ps s = some t) : ParamsFit code ps := by
  unfold runThird at h
  split at h
  · exact .fixed (n := 8) rfl rfl (by decide) (by decide)
  · exact .fixed (n := 0) rfl rfl (by decide) (by decide)
  · exact .fixed (n := 3) rfl rfl (by decide) (by decide)
  · exact .fixed (n := 2) rfl rfl (by decide) (by decide)
  · exact .fixed (n := 0) rfl rfl (by decide) (by decide)
  · exact .fixed (n := 1) rfl rfl (by decide) (by decide)
  · exact .fixed (n := 1) rfl rfl (by decide) (by decide)
  · exact .fixed (n := 1) rfl rfl (by decide) (by decide)
  · cases h

theorem runFourth_fits (h : runFourth code tag ps s = some t) : ParamsFit code ps := by
  unfold runFourth at h
  split at h
  · exact .fixed (n := 1) rfl rfl (by decide) (by decide)
  · exact .fixed (n := 1) rfl rfl (by decide) (by decide)
  · exact .fixed (n := 1) rfl rfl (by decide) (by decide)
  · exact .fixed (n := 1) rfl rfl (by decide) (by decide)
  · exact .fixed (n := 0) rfl rfl (by decide) (by decide)
  · split at h
    · next length => exact .fixed (n := 14) rfl length (by decide) (by decide)
    · cases h
  · exact .fixed (n := 2) rfl rfl (by decide) (by decide)
  · cases h

/-- A command runs on parameters that fit it alone. -/
theorem runCommand_fits (h : runCommand code tag ps s = some t) : ParamsFit code ps := by
  unfold runCommand at h
  split at h
  · exact runFirst_fits h
  · split at h
    · exact runSecond_fits h
    · split at h
      · exact runThird_fits h
      · exact runFourth_fits h

theorem runCommand_none (h : ¬ParamsFit code ps) : runCommand code tag ps s = none :=
  Option.eq_none_iff_forall_ne_some.2 fun _ e => h (runCommand_fits e)

end params

/-! ### The bytes of a transaction (R172, R173) -/

theorem byteValues_idle {bs : List Byte} : (byteValues bs).all (· = idleFill) = true ↔ ∀ b ∈ bs, b = 0xFF#8 := by
  have fill : ∀ b : Byte, b.toNat = idleFill ↔ b = 0xFF#8 := fun b => BitVec.toNat_inj (y := 0xFF#8)
  simp [byteValues, List.all_map, fill]

theorem byteValues_length (bs : List Byte) : (byteValues bs).length = bs.length := List.length_map _

theorem takeTransaction_idle {bs : List Byte} (h : ∀ b ∈ bs, b = 0xFF#8) (s : State) : takeTransaction (byteValues bs) s = s :=
  if_pos (byteValues_idle.2 h)

section transaction
variable {bs : List Byte} {s : State} (shifted : ∃ b ∈ bs, b ≠ 0xFF#8)
include shifted

theorem not_isRead : ¬isRead (byteValues bs) = true := fun idle => by
  obtain ⟨b, mem, used⟩ := shifted
  exact used (byteValues_idle.1 idle b mem)

theorem takeTransaction_busy (busy : s.host.ready = false) : takeTransaction (byteValues bs) s =
    s.answered (echoed (byteValues bs)).1 (echoed (byteValues bs)).2 ⟨.busy, none, .none⟩ := by
  unfold takeTransaction
  rw [if_neg (not_isRead shifted), busy]
  rfl

end transaction

section examining
variable {code tag len : Byte} {rest : List Byte} {s : State}

theorem takeTransaction_examined (shifted : ∃ b ∈ code :: tag :: len :: rest, b ≠ 0xFF#8) (ready : s.host.ready = true) :
    takeTransaction (byteValues (code :: tag :: len :: rest)) s =
      examine code.toNat tag.toNat len.toNat (byteValues rest) s := by
  unfold takeTransaction
  rw [if_neg (not_isRead shifted), ready]
  rfl

theorem lengthFits_iff : lengthFits len.toNat (byteValues rest) = true ↔
    len.toNat < rest.length ∧ ∀ b ∈ rest.drop (len.toNat + 1), b = 0xFF#8 := by
  rw [lengthFits, Bool.and_eq_true, decide_eq_true_eq, byteValues_length, byteValues, ← List.map_drop]
  exact and_congr Iff.rfl byteValues_idle

theorem examine_badLength (h : ¬lengthFits len.toNat (byteValues rest) = true) :
    examine code.toNat tag.toNat len.toNat (byteValues rest) s = s.answered code.toNat tag.toNat ⟨.badLength, none, .none⟩ := by
  rw [examine, Bool.eq_false_iff.2 h]
  rfl

section whole
variable {ps : List Byte} {crc : Byte} {fill : Nat} (cut : rest = ps ++ crc :: List.replicate fill 0xFF#8)
  (length : ps.length = len.toNat)
include cut length

theorem lengthFits_whole : lengthFits len.toNat (byteValues rest) = true := by
  refine lengthFits_iff.2 ⟨by rw [cut, ← length]; simp, fun b mem => ?_⟩
  have past : rest.drop (len.toNat + 1) = List.replicate fill 0xFF#8 := by
    rw [cut, ← length, ← List.drop_drop, List.drop_left]
    rfl
  rw [past] at mem
  exact List.eq_of_mem_replicate mem

theorem taken_whole : (byteValues rest).take len.toNat = byteValues ps := by
  rw [byteValues, ← List.map_take, cut, ← length, List.take_left]
  rfl

theorem crcFits_iff : crcFits code.toNat tag.toNat len.toNat (byteValues rest) = true ↔
    crc.toNat = crc8 (byteValues (code :: tag :: len :: ps)) := by
  have at_end : (byteValues rest)[len.toNat]? = some crc.toNat := by
    rw [byteValues, List.getElem?_map, cut, ← length, List.getElem?_append_right (Nat.le_refl _), Nat.sub_self]
    rfl
  rw [crcFits, decide_eq_true_eq, at_end, taken_whole cut length, Option.some.injEq]
  rfl

theorem examine_badCrc (h : crc.toNat ≠ crc8 (byteValues (code :: tag :: len :: ps))) :
    examine code.toNat tag.toNat len.toNat (byteValues rest) s = s.answered code.toNat tag.toNat ⟨.badCrc, none, .none⟩ := by
  have wrong : crcFits code.toNat tag.toNat len.toNat (byteValues rest) = false :=
    Bool.eq_false_iff.2 fun e => h ((crcFits_iff cut length).1 e)
  rw [examine, lengthFits_whole cut length, wrong]
  rfl

theorem examine_run (h : crc.toNat = crc8 (byteValues (code :: tag :: len :: ps))) :
    examine code.toNat tag.toNat len.toNat (byteValues rest) s =
      if code.toNat = 0 || 34 < code.toNat then s.answered code.toNat tag.toNat ⟨.badCommand, none, .none⟩
      else (runCommand code.toNat tag.toNat (byteValues ps) s).getD (s.answered code.toNat tag.toNat ⟨.badLength, none, .none⟩) := by
  rw [examine, lengthFits_whole cut length, (crcFits_iff cut length).2 h, taken_whole cut length]
  rfl

end whole

end examining

/-- Settles O4: by the gate of the command's code, and the bytes test by test. -/
theorem commandFramesAreTestedInOrder : Obligations.CommandFramesAreTestedInOrder := by
  refine ⟨⟨fun i code tag s frame busy => ?_, fun _ => rfl⟩, fun i code tag s frame sound ready => ?_, fun code s st isSt => ?_,
    fun n s => congrArg Host.Outcome.next (takeTransaction_idle (fun b mem => List.eq_of_mem_replicate mem) s),
    fun code tag len rest s shifted => ?_⟩
  · obtain ⟨c, ok, rfl, gated⟩ := gated_of_hostFrame frame
    exact gated.stops s _ (gate_busy busy)
  · obtain ⟨c, ok, rfl, gated⟩ := gated_of_hostFrame frame
    obtain rfl := gated.sound sound
    refine ⟨fun setup late => gated.stops s _ (gate_notStarted ready setup (acceptance_runOnly late)),
      fun run early => gated.stops s _ (gate_alreadyStarted ready run (acceptance_setupOnly early)),
      fun run sells sale => gated.stops s _ (gate_notSelling ready run (role_sells sale) (acceptance_runOnly (by omega)) sells),
      fun run shows board => gated.stops s _ (gate_notShowing ready run (role_shows board) (acceptance_runOnly (by omega)) shows)⟩
  · have short : ∀ bs : List Byte, bs.length ≤ 2 → (∃ b ∈ bs, b ≠ 0xFF#8) → takeTransaction (byteValues bs) s =
        s.answered (echoed (byteValues bs)).1 (echoed (byteValues bs)).2 ⟨st, none, .none⟩ := fun bs few shifted => by
      cases ready : s.host.ready with
      | false =>
        rw [takeTransaction_busy shifted ready, isSt, ready]
        rfl
      | true =>
        unfold takeTransaction
        rw [if_neg (not_isRead shifted), ready, isSt, ready]
        match bs, few with
        | [], _ => rfl
        | [_], _ => rfl
        | [_, _], _ => rfl
    refine ⟨fun used => ⟨_, congrArg Host.Outcome.next (short [code] (Nat.le_succ 1) ⟨code, List.mem_cons_self, used⟩)⟩, fun tag used =>
      congrArg Host.Outcome.next (short [code, tag] (Nat.le_refl 2) ?_)⟩
    rcases used with used | used
    · exact ⟨code, List.mem_cons_self, used⟩
    · exact ⟨tag, List.mem_cons_of_mem _ List.mem_cons_self, used⟩
  · refine ⟨fun busy => congrArg Host.Outcome.next (takeTransaction_busy shifted busy), fun ready => ?_⟩
    have path : exec (.unknownCommandFrame (code :: tag :: len :: rest)) s =
        .next (examine code.toNat tag.toNat len.toNat (byteValues rest) s) :=
      congrArg Host.Outcome.next (takeTransaction_examined shifted ready)
    rw [path]
    refine ⟨fun short => congrArg _ (examine_badLength fun fits => absurd (lengthFits_iff.1 fits).1 (Nat.not_lt.2 short)),
      fun ⟨b, mem, used⟩ => congrArg _ (examine_badLength fun fits => used ((lengthFits_iff.1 fits).2 b mem)),
      fun ps crc fill cut length => ⟨fun wrong => congrArg _ (examine_badCrc cut length wrong), fun right => ?_⟩⟩
    rw [examine_run cut length right]
    refine ⟨fun unknown => congrArg _ (if_pos (by simpa using unknown)), fun low high misfit => congrArg _ ?_⟩
    have known : ¬(code.toNat = 0 || 34 < code.toNat) = true := by
      simp only [Bool.or_eq_true, decide_eq_true_eq]
      omega
    have unfit : ¬ParamsFit code.toNat (byteValues ps) := fun fits => by
      have count := byteValues_length ps
      have byte : ∀ (k : Nat) (n : Byte), ps[k]? = some n → (byteValues ps)[k]? = some n.toNat := fun k n e => by
        rw [byteValues, List.getElem?_map, e]
        rfl
      rcases misfit with few | many | ⟨six, n, first, other⟩ | ⟨fourteen, n, at_n, other⟩
      · exact absurd fits.low (by omega)
      · exact absurd fits.high (by omega)
      · exact other ((fits.ids six _ (byte 0 n first)).trans count)
      · exact other ((fits.text fourteen _ (byte 13 n at_n)).trans count)
    rw [if_neg known, runCommand_none unfit]
    rfl

end Sys2Proof.Machine
end

