-- ==== Sys2Proof/Proofs/Listings.lean ====
section
/-! SUPPORT. What the Board Composer reads: the listing in its order, the mode, and the bulletins shown (R158, R159, R162, R169). -/

namespace Sys2Proof.Machine

/-! ### The listing (R159) -/

/-- The order of the listing as a relation. -/
def ListedFirst (a b : Call) : Prop :=
  a.departure.getD 0 < b.departure.getD 0 ∨ (a.departure.getD 0 = b.departure.getD 0 ∧ a.service ≤ b.service)

theorem listedBefore_iff (a b : Call) : listedBefore a b = true ↔ ListedFirst a b := by
  simp only [listedBefore, Bool.or_eq_true, Bool.and_eq_true, decide_eq_true_eq]
  rfl

theorem foldr_insertListed (l : List Call) :
    l.foldr insertListed [] = l.insertionSort (fun a b => listedBefore a b = true) := by
  have inserts : insertListed = List.orderedInsert (fun a b => listedBefore a b = true) := by
    funext c l
    induction l with
    | nil => rfl
    | cons x xs ih => rw [List.orderedInsert_cons, insertListed, ih]
  rw [inserts]
  rfl

theorem pairwise_listed (l : List Call) : (l.foldr insertListed []).Pairwise ListedFirst := by
  have total : Std.Total (fun a b => listedBefore a b = true) := ⟨fun a b => by
    rw [listedBefore_iff, listedBefore_iff, ListedFirst, ListedFirst]
    omega⟩
  have trans : IsTrans Call (fun a b => listedBefore a b = true) := ⟨fun a b c => by
    rw [listedBefore_iff, listedBefore_iff, listedBefore_iff, ListedFirst, ListedFirst, ListedFirst]
    omega⟩
  rw [foldr_insertListed]
  exact (List.pairwise_insertionSort _ l).imp fun {a b} h => (listedBefore_iff a b).1 h

theorem listedOn_eq (filter second : Nat) (c : Call) : listedOn filter second c = decide (c.kind = .stop ∧
    (filter = 0 ∨ filter = c.platform) ∧ c.state ≠ .departed ∧ c.state ≠ .lapsed ∧
    (c.state = .cancelled → second < c.schedDep + 600)) := by
  rw [Bool.eq_iff_iff, decide_eq_true_iff, listedOn]
  simp only [Bool.and_eq_true, Bool.or_eq_true, decide_eq_true_eq, CallState.live_iff, bne_iff_ne, ne_eq, and_assoc,
    Decidable.imp_iff_not_or]

/-- The listed calls of NORMAL. -/
theorem listing_listed {s : State} (normal : modeOf s = .normal) : IsListing s (listing s) := by
  have members : s.calls.calls.filter (listedOn s.board.config.filter s.clock.second) = s.calls.calls.filter (fun c =>
      decide (c.kind = .stop ∧ (s.board.config.filter = 0 ∨ s.board.config.filter = c.platform) ∧ c.state ≠ .departed ∧
        c.state ≠ .lapsed ∧ (c.state = .cancelled → s.clock.second < c.schedDep + 600))) :=
    List.filter_congr fun c _ => listedOn_eq _ _ c
  rw [listing, if_pos normal, members]
  refine ⟨?_, (pairwise_listed _).imp fun {a b} first d e isD isE => ?_⟩
  · rw [foldr_insertListed]
    exact List.perm_insertionSort _ _
  · rw [ListedFirst, Call.departure, Call.departure, isD, isE] at first
    exact first

theorem listing_other {s : State} (other : modeOf s ≠ .normal) : listing s = [] := if_neg other

/-! ### The bulletins shown (R162, R169) -/

theorem getLast?_lastInForce {list : List Bulletin} {kind : BulletinKind} {b : Bulletin} (h : LastInForce list kind b) :
    (list.filter (fun x => x.inForce && x.kind = kind)).getLast? = some b := by
  obtain ⟨force, isKind, l, m, rfl, rest⟩ := h
  have none : m.filter (fun x => x.inForce && x.kind = kind) = [] := by
    refine List.filter_eq_nil_iff.2 fun x mem holds => rest x mem ?_
    simpa using holds
  rw [List.filter_append, List.filter_cons_of_pos (by simp [force, isKind]), none, List.getLast?_concat]

theorem getLast?_noneInForce {list : List Bulletin} {kind : BulletinKind} (h : ∀ x ∈ list, x.inForce = true → x.kind ≠ kind) :
    (list.filter (fun x => x.inForce && x.kind = kind)).getLast? = none := by
  rw [List.getLast?_eq_none_iff]
  refine List.filter_eq_nil_iff.2 fun x mem holds => ?_
  obtain ⟨force, isKind⟩ := Bool.and_eq_true_iff.1 holds
  exact h x mem force (of_decide_eq_true isKind)

theorem suspensionShown_some {s : State} {b : Bulletin} (h : LastInForce s.bulletins.list .suspension b) :
    s.bulletins.suspensionShown = some b := getLast?_lastInForce h

theorem suspensionShown_none {s : State} (h : ∀ y ∈ s.bulletins.list, y.inForce = true → y.kind = .info) :
    s.bulletins.suspensionShown = none :=
  getLast?_noneInForce fun x mem force => by
    rw [h x mem force]
    decide

theorem suspensionShown_exists {s : State} (h : ∃ y ∈ s.bulletins.list, y.inForce = true ∧ y.kind = .suspension) :
    s.bulletins.suspensionShown ≠ none := fun none => by
  obtain ⟨y, mem, force, kind⟩ := h
  have empty := List.getLast?_eq_none_iff.1 none
  exact List.filter_eq_nil_iff.1 empty y mem (by simp [force, kind])

/-! ### The mode (R158) -/

section modes
variable {s : State}

theorem modeOf_noTimetable (h : s.store.timetable.active = none) : modeOf s = .noTimetable := if_pos (by simp [h])

variable (loaded : s.store.timetable.active ≠ none)
include loaded

theorem modeOf_loaded : modeOf s = if s.clock.grade = .unset then .noTime
    else if s.bulletins.suspensionShown.isSome then .suspended else .normal := if_neg (by simpa using loaded)

theorem modeOf_noTime (unset : s.clock.grade = .unset) : modeOf s = .noTime := (modeOf_loaded loaded).trans (if_pos unset)

variable (timed : s.clock.grade ≠ .unset)
include timed

theorem modeOf_suspended (h : ∃ y ∈ s.bulletins.list, y.inForce = true ∧ y.kind = .suspension) : modeOf s = .suspended := by
  rw [modeOf_loaded loaded, if_neg timed]
  exact if_pos (Option.isSome_iff_ne_none.2 (suspensionShown_exists h))

theorem modeOf_normal (h : ∀ y ∈ s.bulletins.list, y.inForce = true → y.kind = .info) : modeOf s = .normal := by
  rw [modeOf_loaded loaded, if_neg timed]
  exact if_neg (by simp [suspensionShown_none h])

end modes

/-! ### Reads (R35, R97, R155, R175) -/

theorem listed_none {s : State} (h : ¬s.Composing ∨ s.store.timetable.active = none ∨ s.clock.grade = .unset ∨
    (∃ y ∈ s.bulletins.list, y.inForce = true ∧ y.kind = .suspension)) :
    (if boardActive s then (listing s).length else 0) = 0 := by
  by_cases active : boardActive s = true
  · rw [if_pos active]
    have other : modeOf s ≠ .normal := by
      by_cases unloaded : s.store.timetable.active = none
      · rw [modeOf_noTimetable unloaded]
        decide
      · by_cases unset : s.clock.grade = .unset
        · rw [modeOf_noTime unloaded unset]
          decide
        · rcases h with dark | none | other | suspended
          · exact absurd ((boardActive_iff s).1 active) dark
          · exact absurd none unloaded
          · exact absurd other unset
          · rw [modeOf_suspended unloaded unset suspended]
            decide
    rw [listing_other other]
    rfl
  · exact if_neg active

theorem readCall_some {s : State} {n : Nat} {c : Call} (h : s.calls.calls[n]? = some c) :
    readCall n s = (.ok (.call s.calls.buildCount n c), s) := by
  simp only [readCall, h]

theorem readCall_none {s : State} {n : Nat} (h : s.calls.calls.length ≤ n) : readCall n s = (.refused .noCall, s) := by
  simp only [readCall, List.getElem?_eq_none h]

theorem claimReport_pending {tick t : Tick} {c : Claim} (pending : c.state = .pending) (heard : c.heard = some t) :
    (claimReport tick c).left = some ((t + 1800 - tick) / 10) := by
  simp only [claimReport, claimTimer, pending, heard]
  rfl

/-- The calls READ_CALLS lists: up to eight from an index on. -/
theorem readCalls_listed (s : State) (n : Nat) : ∃ xs : List CallSummary,
    readCalls n s = (.ok (.calls s.calls.buildCount s.calls.date s.calls.calls.length xs), s) ∧
    xs.length = min 8 (s.calls.calls.length - n) ∧
    ∀ (k : Nat) (x : CallSummary), xs[k]? = some x → ∃ c, s.calls.calls[n + k]? = some c ∧
      x = summaryOf s.clock.grade (c, n + k) := by
  refine ⟨_, rfl, by simp, fun k x at_k => ?_⟩
  rw [List.getElem?_map] at at_k
  obtain ⟨p, at_p, rfl⟩ := Option.map_eq_some_iff.1 at_k
  have found : (s.calls.calls.zipIdx.drop n)[k]? = some p := by
    rw [List.getElem?_take] at at_p
    split at at_p
    · exact at_p
    · cases at_p
  rw [List.getElem?_drop, List.getElem?_zipIdx] at found
  obtain ⟨c, at_c, rfl⟩ := Option.map_eq_some_iff.1 found
  exact ⟨c, at_c, by rw [Nat.zero_add]⟩

/-- Settles O5: each read command answers a report that is a function of the state. -/
theorem readCommandsChangeNothing : Obligations.ReadCommandsChangeNothing := by
  refine ⟨fun tag s ready => ?_, fun tag s ready => ?_, fun tag n s serving => ?_⟩
  · refine ⟨statusReport s, exec_taken (i := .getStatus tag) rfl (gate_both ready rfl rfl) rfl, ?_⟩
    refine ⟨rfl, rfl, rfl, rfl, rfl, rfl, rfl, rfl, rfl, rfl, rfl, rfl, rfl, rfl, rfl, fun host => if_pos host, fun other => if_neg other,
      rfl, rfl, rfl, rfl, rfl, rfl, rfl, Option.isSome_iff_ne_none, rfl, rfl, rfl, rfl, rfl, rfl, rfl, rfl, Option.isSome_iff_ne_none,
      rfl, rfl, rfl, rfl, fun x sale => ?_, fun idle => ?_, fun composing loaded timed info => ?_, fun h => listed_none h, rfl, rfl, ?_,
      Option.isSome_iff_ne_none, fun b last => ?_, fun info => ?_, rfl, rfl, rfl, rfl, rfl, Option.isSome_iff_ne_none, rfl, rfl, rfl, rfl,
      rfl, rfl, rfl, rfl⟩
    · have left : (statusReport s).paymentLeft = paymentLeft s := rfl
      rw [left, paymentLeft, sale]
      refine ⟨fun held => if_pos held, fun running none => ?_, fun y running timer => ?_⟩
      · exact (if_neg running).trans (by rw [none])
      · exact (if_neg running).trans (by rw [timer]; rfl)
    · have left : (statusReport s).paymentLeft = paymentLeft s := rfl
      rw [left, paymentLeft, idle]
    · exact ⟨listing s, listing_listed (modeOf_normal loaded timed info), if_pos ((boardActive_iff s).2 composing)⟩
    · rfl
    · exact congrArg (Option.map fun b : Bulletin => (b.origin, b.number)) (suspensionShown_some last)
    · exact congrArg (Option.map fun b : Bulletin => (b.origin, b.number)) (suspensionShown_none info)
  · exact exec_taken (i := .overlayRead tag) rfl (gate_both ready rfl rfl) rfl
  · refine ⟨?_, fun c found => exec_taken (i := .readCall tag n) rfl (gate_run serving (by decide) rfl) (readCall_some found), fun past =>
      exec_taken (i := .readCall tag n) rfl (gate_run serving (by decide) rfl) (readCall_none past),
      exec_taken (i := .readPeers tag) rfl (gate_run serving (by decide) rfl) rfl, _,
      exec_taken (i := .readClaims tag n) rfl (gate_run serving (by decide) rfl) rfl, ?_, fun x mem t pending heard => ?_⟩
    · obtain ⟨xs, reads, length, at_k⟩ := readCalls_listed s n
      exact ⟨xs, exec_taken (i := .readCalls tag n) rfl (gate_run serving (by decide) rfl) reads, length, at_k⟩
    · rw [List.map_map]
      exact List.map_id _
    · obtain ⟨c, _, rfl⟩ := List.mem_map.1 mem
      exact claimReport_pending pending heard

end Sys2Proof.Machine
end

