-- ==== Sys2Proof/Proofs/Panels.lean ====
section
/-! SUPPORT. The frame image: texts, rows, brightness, and the order in which the port sends (R53 to R55, R160 to R167). -/

namespace Sys2Proof.Machine

/-! ### Texts (R53 to R55) -/

theorem fit_eq (w : Nat) (t : Text) : fit w t = (t ++ List.replicate w 32).take w := by
  rw [fit, List.take_append, List.take_replicate]
  congr 2
  omega

theorem fit_length (w : Nat) (t : Text) : (fit w t).length = w := by
  rw [fit_eq, List.length_take, List.length_append, List.length_replicate]
  omega

theorem glyphs_fit (w : Nat) (t : Text) : (fit w t).map Cell.glyph = shownRow w t := by
  rw [fit_eq]
  rfl

theorem hhmm_eq {m : Nat} (h : m < 1440) : hhmm m = clockText m := by
  have tens : m / 60 / 10 % 10 = m / 600 := by omega
  have ones : m % 60 / 10 % 10 = m % 60 / 10 := by omega
  have last : m % 60 % 10 = m % 10 := by omega
  simp only [hhmm, twoDigits, clockText, tens, ones, last]
  rfl

theorem hhmmss_eq {q : Nat} (h : q < 86400) : hhmmss q = clockText (q / 60) ++ [58, 48 + q % 60 / 10, 48 + q % 60 % 10] := by
  have tens : q % 60 / 10 % 10 = q % 60 / 10 := by omega
  rw [hhmmss, hhmm_eq (by omega), twoDigits, tens, List.append_assoc]
  rfl

theorem hhmm_clockMinute (rm minute : Nat) : hhmm (clockMinute rm minute) = clockText ((minute % 1440 + rm) % 1440) :=
  hhmm_eq (Nat.mod_lt _ (by decide))

theorem shortNumber_eq {n : Nat} (h : n < 100) : shortNumber n = if n < 10 then [48 + n] else [48 + n / 10, 48 + n % 10] := by
  have tens : n / 10 % 10 = n / 10 := by omega
  rw [shortNumber, twoDigits, tens]

/-- The countdown is one of the texts of R55, none wider than its field. -/
theorem countdown_length (second : Nat) (c : Call) (e : Estimates) : (countdown second c e).length ≤ 6 := by
  unfold countdown
  split_ifs
  · exact Nat.zero_le 6
  · decide
  · rw [List.length_append, shortNumber]
    split <;> simp [txt, twoDigits]
  · exact Nat.zero_le 6

theorem alignRight_eq {w : Nat} {t : Text} (h : t.length ≤ w) : alignRight w t = List.replicate (w - t.length) 32 ++ t := by
  rw [alignRight, List.take_of_length_le h]

/-! ### Rows (R160) -/

theorem pieces_getElem? {w n k : Nat} (h : k < n) (t : Text) : (pieces w n t)[k]? = some (fit w (t.drop (k * w))) := by
  induction n generalizing k t with
  | zero => cases h
  | succ n ih =>
    cases k with
    | zero => simp [pieces]
    | succ k =>
      rw [pieces, List.getElem?_cons_succ, ih (Nat.lt_of_succ_lt_succ h), List.drop_drop, Nat.succ_mul, Nat.add_comm]

theorem pieces_length (w n : Nat) (t : Text) : (pieces w n t).length = n := by
  induction n generalizing t with
  | zero => rfl
  | succ n ih => rw [pieces, List.length_cons, ih]

theorem pieces_width {w n : Nat} {t row : Text} (h : row ∈ pieces w n t) : row.length = w := by
  induction n generalizing t with
  | zero => cases h
  | succ n ih =>
    rcases List.mem_cons.1 h with rfl | mem
    · exact fit_length w t
    · exact ih mem

theorem callRow_length (b : BoardConfig) (rm second : Nat) (ds : List Text) (c : Call) : (callRow b rm second ds c).length = b.columns := by
  unfold callRow
  split <;> exact fit_length _ _

section rows
variable {s : State}

/-- The page of NORMAL: its calls, then blank rows. -/
def pageRows (s : State) : List Call :=
  ((listing s).drop (pageOf s.board (listing s) * callRows s.board.config)).take (callRows s.board.config)

theorem pageRows_length : (pageRows s).length ≤ callRows s.board.config := List.length_take_le _ _

theorem callRowTexts_normal (h : modeOf s = .normal) : callRowTexts s =
    (pageRows s).map (callRow s.board.config s.setup.settings.rolloverMinute s.clock.second (destinationsOf s)) ++
      List.replicate (callRows s.board.config - (pageRows s).length) (fit s.board.config.columns []) := by
  simp only [callRowTexts, h]
  rfl

theorem callRowTexts_noTimetable (h : modeOf s = .noTimetable) : callRowTexts s =
    List.replicate (callRows s.board.config) (fit s.board.config.columns (txt "Timetable loading")) := by
  simp only [callRowTexts, h]

theorem callRowTexts_noTime (h : modeOf s = .noTime) : callRowTexts s =
    List.replicate (callRows s.board.config) (fit s.board.config.columns (txt "Times not available")) := by
  simp only [callRowTexts, h]

theorem callRowTexts_suspended (h : modeOf s = .suspended) : callRowTexts s = pieces s.board.config.columns
    (callRows s.board.config) ((s.bulletins.suspensionShown.map Bulletin.text).getD []) := by
  simp only [callRowTexts, h]
  cases s.bulletins.suspensionShown <;> rfl

theorem callRowTexts_length (s : State) : (callRowTexts s).length = callRows s.board.config := by
  cases mode : modeOf s with
  | noTimetable => rw [callRowTexts_noTimetable mode, List.length_replicate]
  | noTime => rw [callRowTexts_noTime mode, List.length_replicate]
  | suspended => rw [callRowTexts_suspended mode, pieces_length]
  | normal =>
    have few := pageRows_length (s := s)
    rw [callRowTexts_normal mode, List.length_append, List.length_map, List.length_replicate]
    omega

theorem callRowTexts_width {row : Text} (h : row ∈ callRowTexts s) : row.length = s.board.config.columns := by
  cases mode : modeOf s with
  | noTimetable =>
    rw [callRowTexts_noTimetable mode] at h
    rw [List.eq_of_mem_replicate h, fit_length]
  | noTime =>
    rw [callRowTexts_noTime mode] at h
    rw [List.eq_of_mem_replicate h, fit_length]
  | suspended =>
    rw [callRowTexts_suspended mode] at h
    exact pieces_width h
  | normal =>
    rw [callRowTexts_normal mode] at h
    rcases List.mem_append.1 h with shown | blank
    · obtain ⟨c, _, rfl⟩ := List.mem_map.1 shown
      exact callRow_length _ _ _ _ c
    · rw [List.eq_of_mem_replicate blank, fit_length]

theorem statusRow_width (s : State) : (statusRow s).length = s.board.config.columns := by
  unfold statusRow
  dsimp only
  split
  · exact fit_length _ _
  · split
    · exact fit_length _ _
    · exact fit_length _ _
    · split <;> exact fit_length _ _

section statusRow

theorem statusRow_warned (h : s.board.warnUp ≠ none ∨ s.board.warnDown ≠ none) : statusRow s = fit s.board.config.columns
    (if 26 ≤ s.board.config.columns then txt "Stand back - train passing" else txt "Train passing") := by
  refine if_pos ?_
  rcases h with up | down
  · rw [Option.isSome_iff_ne_none.2 up]
    rfl
  · rw [Option.isSome_iff_ne_none.2 down, Bool.or_true]

variable (up : s.board.warnUp = none) (down : s.board.warnDown = none)
include up down

theorem not_warned : ¬(s.board.warnUp.isSome || s.board.warnDown.isSome) = true := by simp [up, down]

theorem statusRow_noTimetable (mode : modeOf s = .noTimetable) :
    statusRow s = fit s.board.config.columns (txt "Timetable loading") := by
  refine (if_neg (not_warned up down)).trans ?_
  rw [mode]

theorem statusRow_noTime (mode : modeOf s = .noTime) :
    statusRow s = fit s.board.config.columns (txt "Times not available") := by
  refine (if_neg (not_warned up down)).trans ?_
  rw [mode]

variable (mode : modeOf s = .suspended ∨ modeOf s = .normal)
include mode

theorem statusRow_info {x : Bulletin} (newest : s.bulletins.newestInfo = some x) : statusRow s = fit s.board.config.columns
    (if s.board.phase = 1 then x.text else hhmmss (clockSeconds s.setup.settings.rolloverMinute s.clock.second)) := by
  refine (if_neg (not_warned up down)).trans ?_
  rcases mode with mode | mode <;> rw [mode, newest]

theorem statusRow_clock (none : s.bulletins.newestInfo = none) : statusRow s = fit s.board.config.columns
    (hhmmss (clockSeconds s.setup.settings.rolloverMinute s.clock.second)) := by
  refine (if_neg (not_warned up down)).trans ?_
  rcases mode with mode | mode <;> rw [mode, none]

end statusRow

/-! ### The image (R165 to R167) -/

theorem composedImage_cells (s : State) :
    (composedImage s).cells = (callRowTexts s ++ [statusRow s]).map (fun row => row.map Cell.glyph) := rfl

theorem composedImage_callRow {k : Nat} (h : k < callRows s.board.config) :
    (composedImage s).cells[k]? = (callRowTexts s)[k]?.map (fun row => row.map Cell.glyph) := by
  rw [composedImage_cells, List.getElem?_map, List.getElem?_append_left (by rw [callRowTexts_length]; exact h)]

theorem composedImage_statusRow : (composedImage s).cells[callRows s.board.config]? = some ((statusRow s).map Cell.glyph) := by
  rw [composedImage_cells, List.getElem?_map, List.getElem?_append_right (by rw [callRowTexts_length]), callRowTexts_length,
    Nat.sub_self]
  rfl

theorem composedImage_length (s : State) : (composedImage s).cells.length = callRows s.board.config + 1 := by
  rw [composedImage_cells, List.length_map, List.length_append, callRowTexts_length]
  rfl

theorem composedImage_width {row : List Cell} (h : row ∈ (composedImage s).cells) : row.length = s.board.config.columns := by
  rw [composedImage_cells] at h
  obtain ⟨text, mem, rfl⟩ := List.mem_map.1 h
  rw [List.length_map]
  rcases List.mem_append.1 mem with call | status
  · exact callRowTexts_width call
  · rw [List.mem_singleton.1 status, statusRow_width]

theorem brightnessOf_some {l : Nat} (h : s.board.override = some l) : brightnessOf s = l := by
  simp only [brightnessOf, h]

theorem brightnessOf_none (h : s.board.override = none) : brightnessOf s =
    if s.clock.grade = .unset then s.board.config.dayLevel
    else if inNight s.board.config (s.clock.second / 60) then s.board.config.nightLevel else s.board.config.dayLevel := by
  simp only [brightnessOf, h]
  rfl

end rows

theorem inNight_inside {b : BoardConfig} (h : b.nightStart < b.nightEnd) (m : Nat) :
    inNight b m = true ↔ b.nightStart ≤ m ∧ m < b.nightEnd := by
  rw [inNight, if_pos h, Bool.and_eq_true, decide_eq_true_eq, decide_eq_true_eq]

theorem inNight_across {b : BoardConfig} (h : b.nightEnd < b.nightStart) (m : Nat) :
    inNight b m = true ↔ b.nightStart ≤ m ∨ m < b.nightEnd := by
  rw [inNight, if_neg (Nat.lt_asymm h), if_pos h, Bool.or_eq_true, decide_eq_true_eq, decide_eq_true_eq]

theorem inNight_never {b : BoardConfig} (h : b.nightEnd = b.nightStart) (m : Nat) : inNight b m = false := by
  rw [inNight, if_neg (by omega), if_neg (by omega)]

/-! ### The order of sending (R165) -/

theorem flatten_length {l : List (List Cell)} {w : Nat} (h : ∀ row ∈ l, row.length = w) : l.flatten.length = l.length * w := by
  induction l with
  | nil => simp
  | cons row rows ih =>
    rw [List.flatten_cons, List.length_append, h row List.mem_cons_self, ih fun r mem => h r (List.mem_cons_of_mem _ mem),
      List.length_cons, Nat.succ_mul, Nat.add_comm]

theorem flatten_getElem? {l : List (List Cell)} {w r c : Nat} (h : ∀ row ∈ l, row.length = w) (low : c < w) {row : List Cell}
    (at_r : l[r]? = some row) : l.flatten[r * w + c]? = row[c]? := by
  induction l generalizing r with
  | nil => cases at_r
  | cons first rows ih =>
    have width := h first List.mem_cons_self
    cases r with
    | zero =>
      cases at_r
      rw [List.flatten_cons, Nat.zero_mul, Nat.zero_add, List.getElem?_append_left (by omega)]
    | succ r =>
      rw [List.flatten_cons, List.getElem?_append_right (by rw [width, Nat.succ_mul]; omega), width,
        show (r + 1) * w + c - w = r * w + c by rw [Nat.succ_mul]; omega]
      exact ih (fun r mem => h r (List.mem_cons_of_mem _ mem)) at_r

section sending
variable {x : FrameImage} {rows w : Nat} (length : x.cells.length = rows) (width : ∀ row ∈ x.cells, row.length = w)
include length width

theorem sendOrder_cell {r c : Nat} (hr : r < rows) (hc : c < w) : ∃ row cell, x.cells[r]? = some row ∧ row[c]? = some cell ∧
    x.sendOrder[r * w + c]? = some (.cell cell) := by
  have inside : r < x.cells.length := length ▸ hr
  have wide : c < x.cells[r].length := by rw [width _ (List.getElem_mem inside)]; exact hc
  have at_cell := (flatten_getElem? width hc (List.getElem?_eq_getElem inside)).trans (List.getElem?_eq_getElem wide)
  refine ⟨_, _, List.getElem?_eq_getElem inside, List.getElem?_eq_getElem wide, ?_⟩
  have within : r * w + c < (x.cells.flatten.map PortItem.cell).length := by
    rw [List.length_map]
    exact (List.getElem?_eq_some_iff.1 at_cell).1
  rw [FrameImage.sendOrder, List.getElem?_append_left within, List.getElem?_map, at_cell]
  rfl

theorem sendOrder_level : x.sendOrder.drop (rows * w) = [.level x.level] := by
  have whole : (x.cells.flatten.map PortItem.cell).length = rows * w := by
    rw [List.length_map, flatten_length width, length]
  rw [FrameImage.sendOrder, ← whole, List.drop_left]

end sending

/-! ### A composition (R158, R165) -/

/-- What a composition of an active board hands to the port. -/
def portImage (s : State) : FrameImage := if s.board.lamp.isSome then lampImage s.board.config else composedImage s

/-- The board as a composition leaves it. -/
def composedBoard (s : State) : Board := Board.handToPort
  { s.board with image := composedImage s, mode := modeOf s, page := pageOf s.board (listing s) } (portImage s)

theorem compose_active {s : State} (h : s.Composing) : compose s = { s with board := composedBoard s } :=
  if_pos ((boardActive_iff s).2 h)

section board
variable {b : Board} {x : FrameImage}

theorem handToPort_idle (h : b.sending = none) : b.handToPort x = { b with sending := some x } := by
  simp only [Board.handToPort, h]

theorem handToPort_busy (h : b.sending ≠ none) : b.handToPort x = { b with waitingImage := some x } := by
  obtain ⟨y, sending⟩ := Option.ne_none_iff_exists'.1 h
  simp only [Board.handToPort, sending]

theorem handToPort_shown : (b.handToPort x).image = b.image ∧ (b.handToPort x).mode = b.mode ∧ (b.handToPort x).page = b.page := by
  unfold Board.handToPort
  split <;> exact ⟨rfl, rfl, rfl⟩

end board

section composed
variable (s : State)

theorem composedBoard_image : (composedBoard s).image = composedImage s := handToPort_shown.1

theorem composedBoard_mode : (composedBoard s).mode = modeOf s := handToPort_shown.2.1

theorem composedBoard_page : (composedBoard s).page = pageOf s.board (listing s) := handToPort_shown.2.2

theorem composedBoard_eq : composedBoard s = { s.board with
    image := (composedBoard s).image, mode := (composedBoard s).mode, page := (composedBoard s).page
    sending := (composedBoard s).sending, waitingImage := (composedBoard s).waitingImage } := by
  cases sending : s.board.sending with
  | none =>
    rw [composedBoard, handToPort_idle (by exact sending)]
  | some y =>
    rw [composedBoard, handToPort_busy (by simp [sending])]

end composed

/-- Settles O14: the parts of the composed board one by one. -/
theorem compositionFillsThePanel : Obligations.CompositionFillsThePanel := by
  intro s shows rotation two
  have rows : callRows s.board.config + 1 = s.board.config.rows := Nat.sub_add_cancel (Nat.le_of_succ_le two)
  have image := composedBoard_image s
  have mode := composedBoard_mode s
  have page := composedBoard_page s
  have level : (composedBoard s).image.level = brightnessOf s := by rw [image]; rfl
  have length := (composedImage_length s).trans rows
  have width : ∀ row ∈ (composedImage s).cells, row.length = s.board.config.columns := fun _ mem => composedImage_width mem
  refine ⟨composedBoard s, portImage s, compose_active ⟨shows, rotation⟩, composedBoard_eq s, fun unloaded => ?_, fun loaded unset => ?_,
    fun loaded timed => ⟨fun suspended => ?_, fun info => ?_⟩, fun normal => ?_, fun other => ?_, by rw [image]; exact length,
    by rw [image]; exact width, fun l override => ?_, fun override unset => ?_, fun override timed inside => ?_,
    fun override timed across => ?_, fun override same => ?_, fun off => ?_, fun on => ?_, fun idle => ?_, fun busy => ?_⟩
  · rw [mode, modeOf_noTimetable unloaded]
  · rw [mode, modeOf_noTime loaded unset]
  · rw [mode, modeOf_suspended loaded timed suspended]
  · rw [mode, modeOf_normal loaded timed info]
  · exact ⟨listing s, listing_listed (mode ▸ normal), page⟩
  · rw [page, listing_other (by rw [← mode]; exact other)]
    exact if_neg (Nat.not_lt_zero _)
  · rw [level, brightnessOf_some override]
  · rw [level, brightnessOf_none override, if_pos unset]
  · rw [level, brightnessOf_none override, if_neg timed]
    exact if_congr (inNight_inside inside _) rfl rfl
  · rw [level, brightnessOf_none override, if_neg timed]
    exact if_congr (inNight_across across _) rfl rfl
  · rw [level, brightnessOf_none override, inNight_never same, if_neg Bool.false_ne_true, ite_self]
  · rw [image, portImage, off]
    rfl
  · have lamp : portImage s = lampImage s.board.config := if_pos (Option.isSome_iff_ne_none.2 on)
    rw [lamp]
    exact ⟨rfl, rfl⟩
  · have sends : composedBoard s = { s.board with
        image := composedImage s, mode := modeOf s, page := pageOf s.board (listing s), sending := some (portImage s) } :=
      handToPort_idle idle
    have cells : (portImage s).cells.length = s.board.config.rows ∧ ∀ row ∈ (portImage s).cells, row.length = s.board.config.columns := by
      unfold portImage
      split
      · exact ⟨List.length_replicate, fun row mem => by rw [List.eq_of_mem_replicate mem, List.length_replicate]⟩
      · exact ⟨length, width⟩
    have output : portOutput (composedBoard s) = (portImage s).sendOrder := portOutput_sending (by rw [sends])
    rw [output]
    exact ⟨by rw [sends], by rw [sends], fun r c hr hc => sendOrder_cell cells.1 cells.2 hr hc, sendOrder_level cells.1 cells.2⟩
  · have waits : composedBoard s = { s.board with
        image := composedImage s, mode := modeOf s, page := pageOf s.board (listing s), waitingImage := some (portImage s) } :=
      handToPort_busy busy
    rw [waits]
    exact ⟨rfl, rfl⟩

/-! ### What the rows show (R158, R160, R162, R164) -/

theorem statusText_row {rm : Nat} {c : Call} {e : Estimates} :
    (c.state = .cancelled → statusText rm c e = txt "Cancelled") ∧ (c.state = .approaching → statusText rm c e = txt "Approaching") ∧
    (c.state = .arrived → statusText rm c e = txt "At platform") ∧ (c.state.awaited = true →
      (c.delayed = true → statusText rm c e = txt "Delayed") ∧
      (c.delayed = false → e.dep < c.schedDep + 60 → statusText rm c e = txt "On time") ∧
      (c.delayed = false → c.schedDep + 60 ≤ e.dep →
        statusText rm c e = txt "Exp " ++ clockText (((e.dep + 30) / 60 % 1440 + rm) % 1440))) := by
  refine ⟨fun h => by simp only [statusText, h], fun h => by simp only [statusText, h], fun h => by simp only [statusText, h],
    fun awaited => ?_⟩
  have waits : statusText rm c e = if c.delayed then txt "Delayed"
      else if e.dep < c.schedDep + 60 then txt "On time"
      else txt "Exp " ++ hhmm (clockMinute rm ((e.dep + 30) / 60)) := by
    unfold statusText
    split
    · next h => exact absurd (h ▸ awaited) (by decide)
    · next h => exact absurd (h ▸ awaited) (by decide)
    · next h => exact absurd (h ▸ awaited) (by decide)
    · rfl
  rw [waits]
  refine ⟨fun delayed => if_pos delayed, fun punctual early => ?_, fun punctual late => ?_⟩
  · rw [punctual, if_neg Bool.false_ne_true, if_pos early]
  · rw [punctual, if_neg Bool.false_ne_true, if_neg (Nat.not_lt.2 late), hhmm_clockMinute]

theorem countdown_row {second : Nat} {c : Call} {e : Estimates} :
    (c.state = .cancelled ∨ c.delayed = true ∨ second + 6000 ≤ e.dep → countdown second c e = []) ∧
    (c.state ≠ .cancelled → c.delayed = false → e.dep < second + 60 → countdown second c e = txt "Due") ∧
    ∀ n, c.state ≠ .cancelled → c.delayed = false → second + 60 ≤ e.dep → e.dep < second + 6000 → n = (e.dep - second) / 60 →
      countdown second c e = (if n < 10 then [48 + n] else [48 + n / 10, 48 + n % 10]) ++ txt " min" := by
  have counts : c.state ≠ .cancelled → c.delayed = false → ¬(c.state = .cancelled || c.delayed) = true := fun live punctual => by
    simp [live, punctual]
  refine ⟨fun blank => ?_, fun live punctual due => ?_, fun n live punctual low high isN => ?_⟩
  · by_cases blanked : (c.state = .cancelled || c.delayed) = true
    · exact if_pos blanked
    · have far : second + 6000 ≤ e.dep := by
        rcases blank with cancelled | delayed | far
        · exact absurd (by simp [cancelled]) blanked
        · exact absurd (by simp [delayed]) blanked
        · exact far
      rw [countdown, if_neg blanked, if_neg (by omega), if_neg (by omega)]
  · rw [countdown, if_neg (counts live punctual), if_pos due]
  · rw [countdown, if_neg (counts live punctual), if_neg (by omega), if_pos (by omega), ← isN, shortNumber_eq (by omega)]

theorem callRow_shown {s : State} {c : Call} {e : Estimates} (timed : c.estimates = some e) (platform : c.platform ≤ 9) :
    ∃ dest status count row, RowOf s c e dest status count row ∧
      callRow s.board.config s.setup.settings.rolloverMinute s.clock.second (destinationsOf s) c = fit s.board.config.columns row := by
  refine ⟨(destinationsOf s).getD c.destination [], statusText s.setup.settings.rolloverMinute c e, countdown s.clock.second c e, _,
    ⟨fun D isD => ?_, fun image t active found => ?_, statusText_row, countdown_row⟩, by simp only [callRow, timed]; rfl⟩
  · have number : shortNumber c.platform = [48 + c.platform] := if_pos (by omega)
    have width : destinationWidth s.board.config = D := by
      rw [isD, destinationWidth, hasCountdown]
      simp only [decide_eq_true_eq]
    have counted : hasCountdown s.board.config = true ↔ 36 ≤ s.board.config.columns := decide_eq_true_iff
    rw [width, number, hhmm_clockMinute, alignRight_eq (countdown_length _ c e), fit_eq, fit_eq]
    simp only [counted]
    rfl
  · have destinations : destinationsOf s = (timetableOf image).destinations := by simp only [destinationsOf, active]
    rw [destinations, List.getD_eq_getElem?_getD, found]
    rfl

/-- Settles O15: the call rows by the mode, and the status row. -/
theorem panelRowsShowTheMode : Obligations.PanelRowsShowTheMode := by
  rintro s b w n composing composed rfl rows
  obtain rfl : b = composedBoard s := congrArg State.board (composed.symm.trans (compose_active composing))
  have last : callRows s.board.config = n := by rw [callRows]; omega
  have row : ∀ {k : Nat} {t : Text}, k < n → (callRowTexts s)[k]? = some (fit s.board.config.columns t) →
      (composedBoard s).image.cells[k]? = some (shownRow s.board.config.columns t) := fun {k t} low at_k => by
    rw [composedBoard_image, composedImage_callRow (by omega), at_k, ← glyphs_fit]
    rfl
  have status : ∀ {t : Text}, statusRow s = fit s.board.config.columns t →
      (composedBoard s).image.cells[n]? = some (shownRow s.board.config.columns t) := fun {t} shown => by
    rw [composedBoard_image, ← last, composedImage_statusRow, shown, glyphs_fit]
  rw [composedBoard_mode, composedBoard_page]
  refine ⟨fun k low => ⟨fun mode => row low ?_, fun mode => row low ?_, fun x mode shown => row low ?_⟩, fun mode => ?_,
    fun warned => status ?_, fun up down => ⟨fun mode => status ?_, fun mode => status ?_, fun mode => ⟨fun x one info => status ?_,
    fun q isQ clock => status ?_⟩⟩⟩
  · rw [callRowTexts_noTimetable mode, List.getElem?_replicate, if_pos (by omega)]
  · rw [callRowTexts_noTime mode, List.getElem?_replicate, if_pos (by omega)]
  · rw [callRowTexts_suspended mode, suspensionShown_some shown, pieces_getElem? (by omega)]
    rfl
  · have page : ∀ k < n, (pageRows s)[k]? = (listing s)[pageOf s.board (listing s) * n + k]? := fun k low => by
      rw [pageRows, last, List.getElem?_take, if_pos low, List.getElem?_drop]
    refine ⟨listing s, listing_listed mode, fun k low => ⟨fun past => row low ?_, fun c e listed timed platform => ?_⟩⟩
    · have beyond := (page k low).trans (List.getElem?_eq_none past)
      have after := List.getElem?_eq_none_iff.1 beyond
      rw [callRowTexts_normal mode, List.getElem?_append_right (by rw [List.length_map]; exact after), List.length_map,
        List.getElem?_replicate, if_pos (by omega)]
    · obtain ⟨dest, state, count, text, isRow, shown⟩ := callRow_shown (s := s) timed platform
      refine ⟨dest, state, count, text, isRow, row low ?_⟩
      have at_k := (page k low).trans listed
      have inside := (List.getElem?_eq_some_iff.1 at_k).1
      rw [callRowTexts_normal mode, List.getElem?_append_left (by rw [List.length_map]; exact inside), List.getElem?_map, at_k, ← shown]
      rfl
  · exact statusRow_warned warned
  · exact statusRow_noTimetable up down mode
  · exact statusRow_noTime up down mode
  · rw [statusRow_info up down mode (getLast?_lastInForce info), if_pos one]
  · have text : hhmmss (clockSeconds s.setup.settings.rolloverMinute s.clock.second) =
        clockText (q / 60) ++ [58, 48 + q % 60 / 10, 48 + q % 60 % 10] := by
      rw [isQ]
      exact hhmmss_eq (Nat.mod_lt _ (by decide))
    rw [← text]
    rcases Option.eq_none_or_eq_some s.bulletins.newestInfo with none | ⟨x, newest⟩
    · exact statusRow_clock up down mode none
    · have off : s.board.phase ≠ 1 := by
        rcases clock with off | suspensions
        · exact off
        · have none : s.bulletins.newestInfo = none := getLast?_noneInForce fun y mem force => by
            rw [suspensions y mem force]
            decide
          exact absurd (none.symm.trans newest) (by simp)
      rw [statusRow_info up down mode newest, if_neg off]

end Sys2Proof.Machine
end

