-- ==== Sys2Proof/Proofs/FrameBytes.lean ====
section
/-! SUPPORT. A frame's bytes read back: fields, packed text, payloads (R79, R188, R189). -/

namespace Sys2Proof.Machine

/-! ### Fields (R188) -/

section fields

theorem byte_read {n : Nat} (h : n ≤ 255) : n % 256 = n := Nat.mod_eq_of_lt (by omega)

theorem be2_read {n : Nat} (h : n ≤ 65535) : be2 (n / 256 % 256) (n % 256) = n := by
  rw [be2]
  omega

theorem be3_read {n : Nat} (h : n ≤ 16777215) : be3 (n / 65536 % 256) (n / 256 % 256) (n % 256) = n := by
  rw [be3]
  omega

theorem flagOf_read (b : Bool) : flagOf (if b = true then 1 else 0) = b := by cases b <;> rfl

theorem Date.encodable_iff (d : Date) :
    d.encodable = true ↔ (2000 ≤ d.year ∧ d.year ≤ 2255) ∧ d.month ≤ 255 ∧ d.day ≤ 255 := by
  simp only [Date.encodable, isByte, Bool.and_eq_true, decide_eq_true_eq, and_assoc]

theorem encodable_of_valid {d : Date} (h : d.valid = true) : d.encodable = true := by
  simp only [Date.valid, Bool.and_eq_true, decide_eq_true_eq] at h
  obtain ⟨⟨⟨⟨⟨low, high⟩, _⟩, month⟩, _⟩, day⟩ := h
  have most : monthLength d.year d.month ≤ 31 := by
    have february : (if isLeap d.year = true then 29 else 28) ≤ 31 := by split <;> decide
    unfold monthLength
    split <;> omega
  exact (Date.encodable_iff d).2 ⟨⟨low, by omega⟩, by omega, by omega⟩

theorem dateOf_read {d : Date} (h : d.encodable = true) : dateOf ((d.year - 2000) % 256) (d.month % 256) (d.day % 256) = d := by
  obtain ⟨⟨low, high⟩, month, day⟩ := (Date.encodable_iff d).1 h
  have year : 2000 + (d.year - 2000) % 256 = d.year := by omega
  rw [dateOf, year, byte_read month, byte_read day]

theorem signedOf_read {l : Int} (low : -32768 ≤ l) (high : l ≤ 32767) :
    signedOf ((l % 65536).toNat / 256 % 256) ((l % 65536).toNat % 256) = l := by
  rw [signedOf, be2_read (by omega)]
  split <;> omega

theorem directionOf_read (d : Direction) : directionOf (directionByte d % 256) = some d := by cases d <;> rfl

theorem classOf_read (c : SpaceClass) : classOf (classByte c % 256) = some c := by cases c <;> rfl

theorem pairOf_read (p : PairId) : pairOf (pairByte p % 256) = some p := by cases p <;> rfl

theorem tableKindOf_read (k : TableKind) : tableKindOf (k.code % 256) = some k := by cases k <;> rfl

theorem gradeOf_read (g : ClockGrade) : gradeOf (g.code % 256) = some g := by cases g <;> rfl

theorem coverageOf_read (c : Coverage) : coverageOf (coverageByte c % 256) = some c := by
  obtain ⟨arrUp, arrDown, depUp, depDown⟩ := c
  revert arrUp arrDown depUp depDown
  decide

theorem bits_read (a b : Bool) :
    bits [a, b] % 256 < 4 ∧ (bits [a, b] % 256).testBit 0 = a ∧ (bits [a, b] % 256).testBit 1 = b := by
  revert a b
  decide

/-- A carried speed is four bytes, and read back from them. -/
theorem speed4_read {x : Speed} (h : x.inRange = true) : ∃ b v1 v2 v3, speed4 x = [b, v1, v2, v3] ∧ speedOf b (be3 v1 v2 v3) = some x := by
  cases x with
  | slow => exact ⟨_, _, _, _, rfl, rfl⟩
  | cms v =>
    simp only [Speed.inRange, Bool.and_eq_true, decide_eq_true_eq] at h
    refine ⟨_, _, _, _, rfl, ?_⟩
    rw [be3_read (by omega)]
    rfl

end fields

/-! ### Packed text (R189) -/

theorem bitsOf_succ (w n : Nat) : bitsOf (w + 1) n = bitsOf w (n / 2) ++ [n.testBit 0] := by
  rw [bitsOf, bitsOf, List.range_succ_eq_map, List.reverse_cons, List.map_append, ← List.map_reverse, List.map_map]
  congr 1
  exact List.map_congr_left fun i _ => Nat.testBit_succ n i

theorem ofBits_concat (bs : List Bool) (b : Bool) : ofBits (bs ++ [b]) = 2 * ofBits bs + (if b then 1 else 0) := by
  rw [ofBits, ofBits, List.foldl_append]
  rfl

theorem bitsOf_length (w n : Nat) : (bitsOf w n).length = w := by
  rw [bitsOf, List.length_map, List.length_reverse, List.length_range]

theorem bitsOf_ofBits (bs : List Bool) : bitsOf bs.length (ofBits bs) = bs := by
  induction bs using List.reverseRecOn with
  | nil => rfl
  | append_singleton bs b ih =>
    have half : (2 * ofBits bs + (if b then 1 else 0)) / 2 = ofBits bs := by split <;> omega
    have low : (2 * ofBits bs + (if b then 1 else 0)).testBit 0 = b := by cases b <;> simp
    rw [ofBits_concat, List.length_append, List.length_singleton, bitsOf_succ, half, low, ih]

theorem ofBits_bitsOf (w n : Nat) : ofBits (bitsOf w n) = n % 2 ^ w := by
  induction w generalizing n with
  | zero => rw [Nat.pow_zero, Nat.mod_one]; rfl
  | succ w ih =>
    have low : (if n.testBit 0 then 1 else 0) = n % 2 := by
      rw [Nat.testBit_zero]
      rcases Nat.mod_two_eq_zero_or_one n with e | e <;> rw [e] <;> rfl
    rw [bitsOf_succ, ofBits_concat, ih, low, Nat.pow_succ, Nat.mul_comm (2 ^ w), Nat.mod_mul]
    omega

/-- Grouped bits, spelt out again, are the bits and the fill of the last group. -/
theorem flatMap_groups (w n : Nat) (bs : List Bool) (h : bs.length ≤ w * n) :
    (groups w n bs).flatMap (bitsOf w) = bs ++ List.replicate (w * n - bs.length) false := by
  induction n generalizing bs with
  | zero =>
    rw [Nat.mul_zero, Nat.le_zero, List.length_eq_zero_iff] at h
    subst h
    simp [groups]
  | succ n ih =>
    obtain ⟨first, hf⟩ : ∃ x, x = bs.take w ++ List.replicate (w - (bs.take w).length) false := ⟨_, rfl⟩
    have width : first.length = w := by
      rw [hf, List.length_append, List.length_replicate, List.length_take]
      omega
    have spelt : bitsOf w (ofBits first) = first := by
      have all := bitsOf_ofBits first
      rwa [width] at all
    rw [groups, ← hf, List.flatMap_cons, spelt, ih _ (by rw [List.length_drop, Nat.mul_succ] at *; omega), List.length_drop, hf]
    rw [Nat.mul_succ] at h ⊢
    rcases Nat.le_total w bs.length with long | short
    · rw [List.length_take, Nat.min_eq_left long, Nat.sub_self, List.replicate_zero, List.append_nil, ← List.append_assoc,
        List.take_append_drop]
      congr 2
      omega
    · rw [List.take_of_length_le short, List.drop_eq_nil_of_le short, List.nil_append, List.append_assoc, List.replicate_append_replicate]
      congr 2
      omega

theorem groups_flatMap {w : Nat} {t : List Nat} (low : ∀ c ∈ t, c < 2 ^ w) (rest : List Bool) :
    groups w t.length (t.flatMap (bitsOf w) ++ rest) = t := by
  induction t with
  | nil => rfl
  | cons c cs ih =>
    have cut : (bitsOf w c ++ (cs.flatMap (bitsOf w) ++ rest)).take w = bitsOf w c ∧
        (bitsOf w c ++ (cs.flatMap (bitsOf w) ++ rest)).drop w = cs.flatMap (bitsOf w) ++ rest := by
      have len := bitsOf_length w c
      exact ⟨by rw [List.take_append_of_le_length len.ge, List.take_of_length_le len.le], List.drop_left' len⟩
    rw [List.flatMap_cons, List.append_assoc, List.length_cons, groups, cut.1, cut.2, bitsOf_length, Nat.sub_self,
      List.replicate_zero, List.append_nil, ofBits_bitsOf, Nat.mod_eq_of_lt (low c List.mem_cons_self),
      ih fun x mem => low x (List.mem_cons_of_mem _ mem)]

theorem groups_length (w n : Nat) (bs : List Bool) : (groups w n bs).length = n := by
  induction n generalizing bs with
  | zero => rfl
  | succ n ih => rw [groups, List.length_cons, ih]

theorem packText_length (t : Text) : (packText t).length = packedLength t.length := groups_length _ _ _

theorem unpackText_read {t : Text} (low : ∀ c ∈ t, c < 128) : unpackText t.length (packText t) = t := by
  have length : (t.flatMap (bitsOf 7)).length = 7 * t.length := by
    rw [List.length_flatMap, List.map_congr_left fun c _ => bitsOf_length 7 c]
    simp [Nat.mul_comm]
  rw [unpackText, packText, flatMap_groups _ _ _ (by rw [length, packedLength]; omega)]
  exact groups_flatMap low _

/-! ### Payloads (R189) -/

section payloads

theorem readAnnounce_read {f : AnnounceFields} (h : f.wellFormed = true) : readAnnounce (announceBytes f) = some f := by
  simp only [AnnounceFields.wellFormed, validSecond, Bool.and_eq_true, Bool.or_eq_true, decide_eq_true_eq] at h
  obtain ⟨⟨⟨⟨⟨⟨_, halt⟩, timetable⟩, fare⟩, second⟩, tenths⟩, date⟩ := h
  have carried : f.date.encodable = true := by
    rcases date with valid | ⟨⟨⟨_, zero⟩, _⟩, _⟩
    · exact encodable_of_valid valid
    · rw [zero]
      decide
  obtain ⟨roles, sells, shows⟩ := bits_read f.sells f.shows
  simp only [announceBytes, num1, num2, num3, date3, flag, List.cons_append, List.nil_append, readAnnounce, gradeOf_read,
    coverageOf_read, be2_read halt, be2_read timetable, be2_read fare, dateOf_read carried, be3_read (show f.second ≤ 16777215 by omega),
    byte_read (show f.tenths ≤ 255 by omega), flagOf_read, roles, sells, shows, if_true]
  rfl

theorem readRunning_read {f : RunningFields} (h : f.wellFormed = true) : readRunning (runningBytes f) = some f := by
  simp only [RunningFields.wellFormed, validSecond, Bool.and_eq_true, decide_eq_true_eq] at h
  obtain ⟨⟨⟨⟨⟨⟨_, service⟩, date⟩, point⟩, low⟩, high⟩, observed⟩ := h
  refine (if_pos (show 12 ≤ 16 by decide)).trans ?_
  simp only [runningBytes, num1, num2, num3, date3, signed2, flag, List.cons_append, List.nil_append, readReport,
    be2_read (show f.service ≤ 65535 by omega), dateOf_read (encodable_of_valid date), byte_read point, signedOf_read low high,
    be3_read (show f.observed ≤ 16777215 by omega), flagOf_read]

theorem readApproach_read {f : ApproachFields} (h : f.wellFormed = true) : readApproach (approachBytes f) = some f := by
  simp only [ApproachFields.wellFormed, validSecond, Bool.and_eq_true, decide_eq_true_eq] at h
  obtain ⟨⟨⟨⟨⟨detect, speed⟩, _⟩, stop⟩, _⟩, pass⟩ := h
  obtain ⟨b, v1, v2, v3, bytes, spelt⟩ := speed4_read speed
  simp only [approachBytes, bytes, num1, num2, num3, List.cons_append, List.nil_append, readApproach, directionOf_read, spelt, pairOf_read,
    be3_read (show f.detect ≤ 16777215 by omega), be2_read (show f.etaStop ≤ 65535 by omega), be2_read (show f.etaPass ≤ 65535 by omega)]
  rfl

theorem readDepart_read {f : DepartFields} (h : f.wellFormed = true) : readDepart (departBytes f) = some f := by
  simp only [DepartFields.wellFormed, validSecond, Bool.and_eq_true, decide_eq_true_eq] at h
  obtain ⟨detect, speed⟩ := h
  obtain ⟨b, v1, v2, v3, bytes, spelt⟩ := speed4_read speed
  simp only [departBytes, bytes, num1, num3, List.cons_append, List.nil_append, readDepart, directionOf_read, spelt, pairOf_read,
    be3_read (show f.detect ≤ 16777215 by omega)]
  rfl

theorem readClaim_read {f : ClaimFields} (h : f.wellFormed = true) : readClaim (claimBytes f) = some f := by
  simp only [ClaimFields.wellFormed, Bool.and_eq_true, decide_eq_true_eq] at h
  obtain ⟨⟨⟨_, service⟩, date⟩, seq⟩ := h
  simp only [claimBytes, num1, num2, date3, List.cons_append, List.nil_append, readClaim, classOf_read,
    be2_read (show f.service ≤ 65535 by omega), dateOf_read (encodable_of_valid date), be2_read (show f.seq ≤ 65535 by omega)]
  rfl

theorem readSegReq_read {f : SegReqFields} (h : f.wellFormed = true) : readSegReq (segReqBytes f) = some f := by
  simp only [SegReqFields.wellFormed, validStation, Bool.and_eq_true, decide_eq_true_eq] at h
  obtain ⟨⟨⟨⟨_, station⟩, _⟩, edition⟩, index⟩ := h
  simp only [segReqBytes, num1, num2, List.cons_append, List.nil_append, readSegReq, tableKindOf_read, be2_read edition, byte_read index,
    byte_read (show f.addressee ≤ 255 by omega)]
  rfl

theorem readSegment_read {f : SegmentFields} (h : f.wellFormed = true) : readSegment (segmentBytes f) = some f := by
  simp only [SegmentFields.wellFormed, validStation, Bool.and_eq_true, decide_eq_true_eq] at h
  obtain ⟨⟨⟨⟨⟨⟨_, station⟩, _⟩, edition⟩, index⟩, _⟩, _⟩ := h
  have data : (f.data.map BitVec.toNat).map (BitVec.ofNat 8) = f.data := by
    rw [List.map_map]
    exact List.map_id'' (fun b => (BitVec.ofNat_toNat 8 b).trans (BitVec.setWidth_eq b)) _
  simp only [segmentBytes, num1, num2, flag, List.cons_append, List.nil_append, readSegment, tableKindOf_read, be2_read edition,
    byte_read index, byte_read (show f.addressee ≤ 255 by omega), flagOf_read, data]
  rfl

theorem instant_carried {i : Instant} (h : i.valid = true ∨ i = zeroInstant) : i.date.encodable = true ∧ i.second ≤ 16777215 := by
  rcases h with valid | rfl
  · simp only [Instant.valid, validSecond, Bool.and_eq_true, decide_eq_true_eq] at valid
    exact ⟨encodable_of_valid valid.1, by omega⟩
  · decide

theorem readBulletin_read {f : BulletinFields} (h : f.wellFormed = true) : readBulletin (bulletinBytes f) = some f := by
  simp only [BulletinFields.wellFormed, validStation, Bool.and_eq_true, decide_eq_true_eq] at h
  obtain ⟨⟨⟨⟨⟨⟨_, station⟩, _⟩, number⟩, length⟩, charset⟩, validity⟩ := h
  have valid : (f.validFrom.valid = true ∨ f.validFrom = zeroInstant) ∧ (f.validUntil.valid = true ∨ f.validUntil = zeroInstant) := by
    split at validity
    · simpa using validity
    · simp only [Bool.and_eq_true] at validity
      exact ⟨.inl validity.1.2, .inl validity.2⟩
  obtain ⟨fromDate, fromSecond⟩ := instant_carried valid.1
  obtain ⟨untilDate, untilSecond⟩ := instant_carried valid.2
  have low : ∀ c ∈ f.text, c < 128 := fun c mem => by
    have inside := List.all_eq_true.1 charset c mem
    simp only [Bool.and_eq_true, decide_eq_true_eq] at inside
    omega
  obtain ⟨few, kind, withdrawn⟩ := bits_read (f.kind = .suspension) f.withdrawn
  have same : (if decide (f.kind = .suspension) = true then BulletinKind.suspension else .info) = f.kind := by cases f.kind <;> rfl
  simp only [bulletinBytes, num1, num3, instant6, date3, List.cons_append, List.nil_append, readBulletin, few, kind, withdrawn, same,
    byte_read (show f.text.length ≤ 255 by omega), length, packText_length, decide_true, Bool.and_true, if_true, instantOf,
    dateOf_read fromDate, dateOf_read untilDate, be3_read fromSecond, be3_read untilSecond, unpackText_read low, byte_read number,
    byte_read (show f.origin ≤ 255 by omega)]

theorem readPayload_read {p : Payload} (h : p.wellFormed = true) : readPayload p.kind.code p.bytes = some p := by
  cases p with
  | announce f => exact congrArg (Option.map Payload.announce) (readAnnounce_read h)
  | running f => exact congrArg (Option.map Payload.running) (readRunning_read h)
  | approach f => exact congrArg (Option.map Payload.approach) (readApproach_read h)
  | depart f => exact congrArg (Option.map Payload.depart) (readDepart_read h)
  | claim f => exact congrArg (Option.map Payload.claim) (readClaim_read h)
  | taken f => exact congrArg (Option.map Payload.taken) (readClaim_read h)
  | release f => exact congrArg (Option.map Payload.release) (readClaim_read h)
  | segReq f => exact congrArg (Option.map Payload.segReq) (readSegReq_read h)
  | segment f => exact congrArg (Option.map Payload.segment) (readSegment_read h)
  | bulletin f => exact congrArg (Option.map Payload.bulletin) (readBulletin_read h)

theorem bytes_length {p : Payload} (h : p.wellFormed = true) : p.bytes.length ≤ 255 := by
  have speed : ∀ x : Speed, (speed4 x).length = 4 := fun x => by cases x <;> rfl
  cases p with
  | announce f => exact (by decide : 17 ≤ 255)
  | running f => exact (by decide : 12 ≤ 255)
  | approach f => simp [Payload.bytes, approachBytes, num1, num2, num3, speed]
  | depart f => simp [Payload.bytes, departBytes, num1, num3, speed]
  | claim f => exact (by decide : 8 ≤ 255)
  | taken f => exact (by decide : 8 ≤ 255)
  | release f => exact (by decide : 8 ≤ 255)
  | segReq f => exact (by decide : 5 ≤ 255)
  | segment f =>
    have data : f.data.length ≤ 64 := by
      simp only [Payload.wellFormed, SegmentFields.wellFormed, Bool.and_eq_true, decide_eq_true_eq] at h
      exact h.1.2
    simp only [Payload.bytes, segmentBytes, num1, num2, flag, List.length_append, List.length_map, List.length_cons, List.length_nil]
    omega
  | bulletin f =>
    have few : f.text.length ≤ 64 := by
      simp only [Payload.wellFormed, BulletinFields.wellFormed, Bool.and_eq_true, decide_eq_true_eq] at h
      exact h.1.1.2
    simp only [Payload.bytes, bulletinBytes, num1, num3, instant6, date3, List.length_append, List.length_cons, List.length_nil,
      packText_length, packedLength]
    omega

end payloads

/-! ### Frames (R79, R189) -/

theorem splitFrame_read {h : FrameHead} {p : Payload} (head : h.wellFormed = true) (few : p.bytes.length ≤ 255) :
    splitFrame (frameBytes h p) = some (h, p.kind.code, p.bytes) := by
  simp only [FrameHead.wellFormed, validStation, Bool.and_eq_true, decide_eq_true_eq] at head
  obtain ⟨⟨_, origin⟩, seq⟩ := head
  have code : p.kind.code % 256 = p.kind.code := by cases p.kind <;> rfl
  have spelt : frameBytes h p = p.kind.code :: h.origin :: (h.seq / 256 % 256) :: (h.seq % 256) :: p.bytes.length ::
      (p.bytes ++ num2 (crc16 (frameBody h p))) := by
    simp only [frameBytes, frameBody, num1, num2, List.cons_append, List.nil_append, code, byte_read few,
      byte_read (show h.origin ≤ 255 by omega)]
  rw [spelt]
  have whole : (p.bytes ++ num2 (crc16 (frameBody h p))).length = p.bytes.length + 2 := List.length_append
  refine (if_pos whole).trans ?_
  rw [List.take_left, be2_read (by omega)]

/-- Settles O30: head, check word and payload are each read back. -/
theorem framesReadBackAsSent : Obligations.FramesReadBackAsSent := by
  intro h p head payload
  have cut : (frameBytes h p).length - 2 = (frameBody h p).length := by
    rw [frameBytes, List.length_append]
    exact Nat.add_sub_cancel (n := _) (m := 2)
  have check : (frameBytes h p).drop ((frameBytes h p).length - 2) =
      num2 (crc16 ((frameBytes h p).take ((frameBytes h p).length - 2))) := by
    rw [cut, frameBytes, List.drop_left, List.take_left]
  simp only [readFrame, splitFrame_read head (bytes_length payload), check, head, decide_true, Bool.and_true, if_true,
    readPayload_read payload, payload]

end Sys2Proof.Machine
end
